-- ==== Sys2Proof/Word.lean ====
section
/-! DEFINITION. The words of the Lomirel D4, its four ports, and a value held once for each port. -/

namespace Sys2Proof

/-- One byte of a frame (R155). -/
abbrev Byte := BitVec 8

/-- The 64-bit value of an entry (R3). -/
abbrev Value := BitVec 64

/-- The version of an entry and the sequence number of an event: kept modulo 65536 (R9, R147). -/
abbrev Version := BitVec 16

/-- A tag, 0 to 15, chosen by the master (R159, R165). -/
abbrev Tag := BitVec 4

/-- A slot number: 0 to 4095 for a slot of the directory; an operand as a frame gave it may lie outside (R1). -/
abbrev Slot := Nat

/-- The four ports (manual, section 0.4). -/
inductive Port
  | p0
  | p1
  | p2
  | p3
  deriving DecidableEq, Repr

/-- P0 to P3 in ascending order. -/
def Port.all : List Port := [.p0, .p1, .p2, .p3]

/-- One thing for each of the four ports. -/
@[ext]
structure PerPort (α : Type) where
  p0 : α
  p1 : α
  p2 : α
  p3 : α
  deriving DecidableEq, Repr

/-- The thing of one port. -/
def PerPort.get {α : Type} (f : PerPort α) : Port → α
  | .p0 => f.p0
  | .p1 => f.p1
  | .p2 => f.p2
  | .p3 => f.p3

/-- Replace the thing of one port. -/
def PerPort.set {α : Type} (f : PerPort α) (n : Port) (a : α) : PerPort α :=
  match n with
  | .p0 => { f with p0 := a }
  | .p1 => { f with p1 := a }
  | .p2 => { f with p2 := a }
  | .p3 => { f with p3 := a }

/-- Change the thing of every port, each by a function of the port. -/
def PerPort.mapPorts {α : Type} (g : Port → α → α) (f : PerPort α) : PerPort α :=
  { p0 := g .p0 f.p0, p1 := g .p1 f.p1, p2 := g .p2 f.p2, p3 := g .p3 f.p3 }

/-- The same thing for all four ports. -/
def PerPort.same {α : Type} (a : α) : PerPort α := { p0 := a, p1 := a, p2 := a, p3 := a }

end Sys2Proof
end

