-- ==== Sys2Proof/Syntax.lean ====
section
/-! DEFINITION. The commands of the part: one constructor for each row of spec/opcode_table.json, in the table's order.
The table gives its rows no operand fields; the operands here are those the rules need (log 19). -/

namespace Sys2Proof

/-- The acts of the part that the outside, or a block of the part, can make next. -/
inductive Instr
  /-- DEVICE_RESET (R32). -/
  | deviceReset
  /-- RESET_N_HIGH (R32), with the reading of the MAINT strap at that moment (R166). -/
  | resetNHigh (strap : BitVec 3)
  /-- PASS_CYCLE (R33). -/
  | passCycle
  /-- PORT_RESET_LOW (R122) of port n. -/
  | portResetLow (n : Port)
  /-- PORT_RESET_HIGH (R122) of port n. -/
  | portResetHigh (n : Port)
  /-- TICK (R126). -/
  | tick
  /-- WAIT_EXPIRY (R89). -/
  | waitExpiry
  /-- LEASE_EXPIRY (R127) of port n. -/
  | leaseExpiry (n : Port)
  /-- TRUNCATED_FRAME (R157) at port n. -/
  | truncatedFrame (n : Port)
  /-- LENGTH_ERROR (R157) at port n: the length byte received. -/
  | lengthError (n : Port) (b : Byte)
  /-- FRAME_COMPLETE (R159) at port n: the second check byte received. -/
  | frameComplete (n : Port) (b : Byte)
  /-- ACK_FRAME (R158) of port n. -/
  | ackFrame (n : Port)
  /-- REPLY_FRAME (R162) of port n. -/
  | replyFrame (n : Port)
  /-- EVENT_FRAME (R149) of port n. -/
  | eventFrame (n : Port)
  /-- ATTACH (R124) taken by the executor of port n. -/
  | attach (n : Port)
  /-- DETACH (R129) taken by the executor of port n. -/
  | detach (n : Port)
  /-- STATUS (R171) taken by the executor of port n. -/
  | status (n : Port)
  /-- CREDIT (R150) taken by the executor of port n. -/
  | credit (n : Port)
  /-- SET_EVENTS (R151) taken by the executor of port n. -/
  | setEvents (n : Port)
  /-- READ (R40) taken by the executor of port n. -/
  | read (n : Port)
  /-- PUT (R66) taken by the executor of port n. -/
  | put (n : Port)
  /-- TAKE (R73) taken by the executor of port n. -/
  | take (n : Port)
  /-- LINK (R48) taken by the executor of port n. -/
  | link (n : Port)
  /-- CLEAR (R161) taken by the executor of port n. -/
  | clear (n : Port)
  /-- CHECKPOINT (R161) taken by the executor of port n. -/
  | checkpoint (n : Port)
  /-- WATCH (R161) taken by the executor of port n. -/
  | watch (n : Port)
  /-- UNWATCH (R161) taken by the executor of port n. -/
  | unwatch (n : Port)
  /-- ALLOC (R96) taken by the executor of port n. -/
  | alloc (n : Port)
  /-- RETIRE (R161) taken by the executor of port n. -/
  | retire (n : Port)
  /-- CLAIM (R161) taken by the executor of port n. -/
  | claim (n : Port)
  /-- RELEASE (R161) taken by the executor of port n. -/
  | release (n : Port)
  /-- ADOPT (R161) taken by the executor of port n. -/
  | adopt (n : Port)
  /-- SET_ACCESS (R161) taken by the executor of port n. -/
  | setAccess (n : Port)
  /-- INSPECT (R167) taken by the executor of port n. -/
  | inspect (n : Port)
  /-- BREAK_WAIT (R167) taken by the executor of port n. -/
  | breakWait (n : Port)
  /-- FORCE_DETACH (R169) taken by the executor of port n. -/
  | forceDetach (n : Port)
  /-- CLEAR_DIRECTORY (R170) taken by the executor of port n. -/
  | clearDirectory (n : Port)
  /-- WALK_HOP (R41): a walk cycle of port n on a FORWARD or unallocated entry. -/
  | walkHop (n : Port)
  /-- READ_TERMINAL (R64) of port n. -/
  | readTerminal (n : Port)
  /-- PUT_TERMINAL (R66) of port n. -/
  | putTerminal (n : Port)
  /-- TAKE_TERMINAL (R73) of port n. -/
  | takeTerminal (n : Port)
  /-- CHECK_WALK_CYCLE (R53) of port n. -/
  | checkWalkCycle (n : Port)
  /-- COMMIT_CYCLE (R55) of port n. -/
  | commitCycle (n : Port)
  /-- CLEAR_CYCLE (R77) of port n. -/
  | clearCycle (n : Port)
  /-- CHECKPOINT_CYCLE (R79) of port n. -/
  | checkpointCycle (n : Port)
  /-- WATCH_CYCLE (R141) of port n. -/
  | watchCycle (n : Port)
  /-- UNWATCH_CYCLE (R142) of port n. -/
  | unwatchCycle (n : Port)
  /-- ALLOC_CYCLE (R97) of port n. -/
  | allocCycle (n : Port)
  /-- RETIRE_CYCLE (R100) of port n. -/
  | retireCycle (n : Port)
  /-- CLAIM_CYCLE (R109) of port n. -/
  | claimCycle (n : Port)
  /-- RELEASE_CYCLE (R110) of port n. -/
  | releaseCycle (n : Port)
  /-- ADOPT_CYCLE (R111) of port n. -/
  | adoptCycle (n : Port)
  /-- SET_ACCESS_CYCLE (R112) of port n. -/
  | setAccessCycle (n : Port)
  /-- INSPECT_CYCLE (R168) of port n. -/
  | inspectCycle (n : Port)
  /-- BREAK_WAIT_CYCLE (R92) of port n. -/
  | breakWaitCycle (n : Port)
  /-- SWEEP_PASS_START (R134). -/
  | sweepPassStart
  /-- SWEEP_VISIT (R136). -/
  | sweepVisit
  /-- SYNC_BYTE_FOUND (R157) at port n. -/
  | syncByteFound (n : Port)
  /-- FRAME_BYTE_RECEIVED (R157) at port n: the byte. -/
  | frameByteReceived (n : Port) (b : Byte)
  /-- FRAME_SENT (R163) by port n. -/
  | frameSent (n : Port)
  deriving DecidableEq, Repr

end Sys2Proof
end

