-- ==== Sys2Proof/WellFormed.lean ====
section
/-! DEFINITION. What a command's operands must be for the command to be an act of the part at all.
A port and a strap reading are well-formed by their types; only a length byte carries a check. -/

namespace Sys2Proof

/-- A length byte that R157 accepts: 2 to 15 body bytes. -/
def lengthByteOk (b : Byte) : Bool := decide (2 ≤ b.toNat) && decide (b.toNat ≤ 15)

/-- LENGTH_ERROR is the receipt of a length byte of 0, 1, or 16 and above (R157); every other command has no check. -/
def Instr.wellFormed : Instr → Bool
  | .lengthError _ b => !lengthByteOk b
  | .deviceReset | .resetNHigh _ | .passCycle | .portResetLow _ | .portResetHigh _ | .tick | .waitExpiry
  | .leaseExpiry _ | .truncatedFrame _ | .frameComplete _ _ | .ackFrame _ | .replyFrame _ | .eventFrame _
  | .attach _ | .detach _ | .status _ | .credit _ | .setEvents _ | .read _ | .put _ | .take _ | .link _
  | .clear _ | .checkpoint _ | .watch _ | .unwatch _ | .alloc _ | .retire _ | .claim _ | .release _
  | .adopt _ | .setAccess _ | .inspect _ | .breakWait _ | .forceDetach _ | .clearDirectory _
  | .walkHop _ | .readTerminal _ | .putTerminal _ | .takeTerminal _ | .checkWalkCycle _ | .commitCycle _
  | .clearCycle _ | .checkpointCycle _ | .watchCycle _ | .unwatchCycle _ | .allocCycle _ | .retireCycle _
  | .claimCycle _ | .releaseCycle _ | .adoptCycle _ | .setAccessCycle _ | .inspectCycle _ | .breakWaitCycle _
  | .sweepPassStart | .sweepVisit | .syncByteFound _ | .frameByteReceived _ _ | .frameSent _ => true

end Sys2Proof
end

