-- ==== Sys2Proof/Decode.lean ====
section
/-! DEFINITION. The reading of a word as a command. The part is a block: no row of spec/opcode_table.json gives bits, so
no word spells a command (log 19). The bytes that a master sends ARE read: Machine/Operands.lean reads request frames. -/

namespace Sys2Proof

/-- The command that a word spells by the table's bits: none, since no row of the table gives bits. -/
def decodeTableWord (_nbits _w : Nat) : Option Instr := none

end Sys2Proof
end

