-- ==== Sys2Proof/Config.lean ====
section
/-! DEFINITION. The sizes and limits the manual fixes for the part, and the free values: orders the manual leaves open. -/

namespace Sys2Proof.Config

/-- The number of slots of the directory (R1). -/
def slots : Nat := 4096

/-- Slots below this number are fixed slots (R1). -/
def fixedSlots : Nat := 256

/-- The hop limit of a walk (R43). -/
def hopLimit : Nat := 8

/-- The hop limit of a LINK's check walk (R53, R54). -/
def checkHopLimit : Nat := 7

/-- The capacity of the Wait Table (R82). -/
def waitPlaces : Nat := 16

/-- The capacity of an acknowledgment buffer (R158). -/
def ackPlaces : Nat := 4

/-- The greatest number of outstanding requests of a port (R159, R160). -/
def outstandingLimit : Nat := 8

/-- The capacity of an event queue (R148). -/
def eventPlaces : Nat := 32

/-- The saturation value of the credit counter (R150). -/
def creditLimit : Nat := 255

/-- The greatest lost count of an OVERFLOW record (R148). -/
def lostLimit : Nat := 65535

/-- The wait time that means "no limit" (R82, R84). -/
def noLimitWait : Nat := 65535

/-- FREE VALUE (log 9): at the entry to CLEARING numbered by the argument, whether the CANCELLED replies of the
named port's parked takes are posted ahead of the CANCELLED reply of its stopped executor (R36, R95 give no order). -/
opaque parkedCancelledFirst : Nat → Port → Bool

/-- FREE VALUE (log 10): where a cycle, or a clearing pass, completes together with an entry to CLEARING, whether the Sweeper
makes its next test (and may end the pass of a record) ahead of the entry (R36, R37, R134, R135, R139 give no order). -/
opaque sweeperTestsFirst : Nat → Bool

/-- FREE VALUE (log 17): where a lost port has a cycle pending and the Store Arbiter takes its next turn, the turn numbered
by the argument, whether it takes the withdrawal of the named port's cycle ahead of the grant (R27, R51 and R131 let
either come first). -/
opaque withdrawalTaken : Nat → Port → Bool

end Sys2Proof.Config
end

