-- ==== Sys2Proof/Machine/State.lean ====
section
/-! DEFINITION. Everything the part holds: the directory, the arbiter, the executors, the Wait Table, the Link
Serializer, the Sweeper, the Port Controllers and the port links; and the part right after reset. -/

namespace Sys2Proof.Machine

/-! ## The directory (chapter 1) -/

/-- The kind of an entry with its value or its target, whichever is present (R3). -/
inductive Content
  | empty
  | value (v : Value)
  | forward (target : Slot)
  deriving DecidableEq, Repr

/-- What a recovery sweep does to an entry of a lost owner (R6). -/
inductive Disposition
  | keep
  | release
  | drop
  | restore
  deriving DecidableEq, Repr

/-- The checkpoint of an entry's content (R7): never a forward. -/
inductive Saved
  | absent
  | empty
  | value (v : Value)
  deriving DecidableEq, Repr

/-- The terms an owner gives its entry: a disposition and the two access flags (R5, R6). -/
structure Access where
  disposition : Disposition
  putOpen     : Bool
  takeOpen    : Bool
  deriving DecidableEq, Repr

/-- The entry record of a slot (Table 1-2). -/
@[ext]
structure Entry where
  content  : Content
  version  : Version
  owner    : Option Port
  orphaned : Bool
  access   : Access
  saved    : Saved
  /-- The watch set: for each port, whether it watches the entry (R8). -/
  watch    : PerPort Bool
  deriving DecidableEq, Repr

/-- The default content of an entry record (R18). -/
def Entry.default : Entry :=
  { content := .empty, version := 0, owner := none, orphaned := false
    access := { disposition := .release, putOpen := true, takeOpen := true }
    saved := .absent, watch := .same false }

/-- A row of the slot table (R11, R12). -/
@[ext]
structure Row where
  allocated : Bool
  inbound   : Nat
  deriving DecidableEq, Repr

/-- The slot-table row that device reset and directory clearing give to slot k (R19). -/
def Row.default (k : Slot) : Row := { allocated := decide (k < 256), inbound := 0 }

/-- A row of the port tally table (R14, R15). -/
@[ext]
structure Tally where
  owned : Nat
  watch : Nat
  deriving DecidableEq, Repr

/-- The device state (R31). -/
inductive DeviceState
  | init
  | ready
  | clearing
  deriving DecidableEq, Repr

/-! ## The Store Arbiter (R28) -/

/-- The requestors of the arbiter's rotation. -/
inductive Requestor
  | executor (n : Port)
  | sweeper
  deriving DecidableEq, Repr

/-! ## Requests (Table 10-5) -/

/-- A request with its operands as its frame gave them: they are examined when it executes (R159, R161). -/
inductive RequestOp
  | attach (lease : Nat) (mask suppress : Byte)
  | detach
  | status
  | credit (n : Byte)
  | setEvents (mask suppress : Byte)
  | read (slot : Slot)
  | put (slot : Slot) (mode : Byte) (expected : Version) (value : Value)
  | take (slot : Slot) (wait : Nat)
  | clear (slot : Slot)
  | checkpoint (slot : Slot)
  | link (slot target : Slot)
  | watch (slot : Slot)
  | unwatch (slot : Slot)
  | alloc (disposition putOpen takeOpen : Byte)
  | retire (slot : Slot)
  | claim (slot : Slot) (disposition putOpen takeOpen : Byte)
  | release (slot : Slot)
  | adopt (slot : Slot) (disposition putOpen takeOpen : Byte)
  | setAccess (slot : Slot) (disposition putOpen takeOpen : Byte)
  | inspect (slot : Slot)
  | forceDetach (port : Byte)
  | clearDirectory
  | breakWait (slot : Slot)
  deriving DecidableEq, Repr

/-- An accepted request: its tag and what it asks (R159). -/
structure Request where
  tag : Tag
  op  : RequestOp
  deriving DecidableEq, Repr

/-! ## Replies (Tables 10-2 to 10-4) -/

/-- The reply statuses, in the order of their codes (Table 10-3). -/
inductive Status
  | ok
  | empty
  | handedOff
  | versionMismatch
  | notEmpty
  | notOwner
  | orphaned
  | pendingRecovery
  | alreadyOwned
  | notOrphaned
  | chainDeep
  | loop
  | isForward
  | unallocated
  | fixedSlot
  | referenced
  | waitersPresent
  | poolEmpty
  | waitFull
  | timeout
  | relinked
  | cancelled
  | notPermitted
  | badArgument
  | alreadyAttached
  | notAttached
  deriving DecidableEq, Repr

/-- The port state (R121); `opened` is the manual's OPEN. -/
inductive PortState
  | down
  | opened
  | attached
  | closing
  deriving DecidableEq, Repr

/-- The event classes, each enabled by one bit of the event enable mask (R121, R143, R165). -/
structure EventMask where
  content    : Bool
  ownership  : Bool
  retirement : Bool
  ports      : Bool
  deriving DecidableEq, Repr

/-- The entries handled under each disposition by one pass (R133). -/
structure DispositionCounts where
  keep    : Nat
  release : Nat
  drop    : Nat
  restore : Nat
  deriving DecidableEq, Repr

/-- The figures of a STATUS reply (R171, Table 10-4). -/
structure StatusFigures where
  portState   : PortState
  session     : Nat
  outstanding : Nat
  credits     : Nat
  eventDepth  : Nat
  owned       : Nat
  watch       : Nat
  device      : DeviceState
  freeLength  : Nat
  waits       : Nat
  sweeps      : Nat
  deriving DecidableEq, Repr

/-- The extra figures of an INSPECT reply (R168, Table 10-4). -/
structure InspectFigures where
  owner     : Option Port
  orphaned  : Bool
  access    : Access
  saved     : Saved
  watch     : PerPort Bool
  allocated : Bool
  inbound   : Nat
  waits     : Nat
  deriving DecidableEq, Repr

/-- The extra field of a reply (Table 10-4). -/
inductive Extra
  | none
  | taker (p : Port)
  | slotAllocated (k : Slot)
  | session (n : Nat)
  | counts (c : DispositionCounts)
  | status (f : StatusFigures)
  | inspect (f : InspectFigures)
  | inbound (n : Nat)
  | waiters (n : Nat)
  | owner (p : Option Port)
  | previousAccess (a : Access)
  | wasWatching (b : Bool)
  | credits (n : Nat)
  | previousSettings (m : EventMask) (suppress : Bool)
  | broken (n : Nat)
  | alreadyClosing (b : Bool)
  deriving DecidableEq, Repr

/-- A reply record. `named` is the named slot, `terminal` the terminal slot with the hops, `content` the kind with the
value or target that goes with it; each field is absent where the rule of the request carries none. -/
structure Reply where
  tag      : Tag
  code     : Byte
  status   : Status
  named    : Option Slot
  terminal : Option (Slot × Nat)
  content  : Option Content
  version  : Option Version
  extra    : Extra
  deriving DecidableEq, Repr

/-! ## Events (chapter 9) -/

/-- The cause of an event (R143): a port, or the device. -/
inductive Cause
  | port (p : Port)
  | device
  deriving DecidableEq, Repr

/-- Why a session was lost (R130). -/
inductive LossReason
  | linkReset
  | lease
  | forced
  deriving DecidableEq, Repr

/-- The fifteen kinds of event record, in the order of their codes (Table 10-6). -/
inductive EventKind
  | valuePut
  | valueHanded
  | valueTaken
  | entryCleared
  | entryLinked
  | entryDropped
  | entryRestored
  | ownerChanged
  | entryRetired
  | portAttached
  | portDetached
  | portLost
  | sweepDone
  | directoryCleared
  | overflow
  deriving DecidableEq, Repr

/-- An event before it has a sequence number (R146). -/
structure Event where
  kind    : EventKind
  /-- Slot and version of an entry event. -/
  entry   : Option (Slot × Version)
  value   : Option Value
  cause   : Cause
  subject : Option Port
  reason  : Option LossReason
  /-- The lost count of an OVERFLOW record. -/
  lost    : Option Nat
  deriving DecidableEq, Repr

/-- An event record of an event queue (R146). -/
structure EventRecord where
  seq   : Version
  event : Event
  deriving DecidableEq, Repr

/-! ## Executors, waits, links, sweeps -/

/-- What a RUNNING executor is doing (R39): it has a cycle of the named sort pending or in progress, or its
CLEAR_DIRECTORY causes an entry to CLEARING and awaits the end of that pass (`clearing`), or its CLEAR_DIRECTORY waits
for the end of a pass that another caused (`awaitPass`, R36). -/
inductive Work
  | walk
  | checkWalk
  | commit
  | single
  | clearing
  | awaitPass
  deriving DecidableEq, Repr

/-- The executor states (R39). -/
inductive ExecutorState
  | idle
  | running (w : Work)
  | tokenWait
  deriving DecidableEq, Repr

/-- A Request Executor (R39). `abandoned`: its request has been abandoned by session loss, and a cycle of it is in progress,
or is pending and neither granted nor withdrawn yet (R27, R131). -/
@[ext]
structure Executor where
  state     : ExecutorState
  current   : Option Request
  walkPos   : Slot
  hops      : Nat
  abandoned : Bool
  deriving DecidableEq, Repr

/-- An executor with no request (R39). -/
def Executor.idle : Executor := { state := .idle, current := none, walkPos := 0, hops := 0, abandoned := false }

/-- A wait record (R82); no remaining time means "no limit". -/
structure WaitRecord where
  port      : Port
  tag       : Tag
  named     : Slot
  terminal  : Slot
  hops      : Nat
  remaining : Option Nat
  deriving DecidableEq, Repr

/-- The state of the link token, with its holder in HELD (R49). -/
inductive TokenState
  | free
  | held (p : Port)
  | recalled
  deriving DecidableEq, Repr

/-- The Link Serializer (R49): the token and the waiting executors, first to be served first. -/
structure Serializer where
  token : TokenState
  queue : List Port
  deriving DecidableEq, Repr

/-- How the session of a sweep record ended (R133): a DETACH with its tag owed and its counts, or a loss. -/
inductive SweepKind
  | detach (tag : Option Tag) (counts : DispositionCounts)
  | loss (reason : LossReason)
  deriving DecidableEq, Repr

/-- A sweep record (R133). -/
structure SweepRecord where
  port : Port
  kind : SweepKind
  deriving DecidableEq, Repr

/-! ## Port Controllers and port links -/

/-- A Port Controller (R121). The outstanding count is the length of `tags`, the tags of the outstanding requests
(R160, log 18). `leaseDue` counts ticks delivered to a running lease timer and not yet taken (R126, log 8). -/
@[ext]
structure PortControl where
  portState     : PortState
  linkDown      : Bool
  detachPending : Bool
  session       : Nat
  lease         : Nat
  leaseTimer    : Option Nat
  leaseDue      : Nat
  mask          : EventMask
  suppressOwn   : Bool
  credits       : Nat
  tags          : List Tag
  requestQueue  : List Request
  replyQueue    : List Reply
  eventQueue    : List EventRecord
  seqCounter    : Version
  deriving DecidableEq, Repr

/-- A Port Controller after device reset, with the port state its line gives it (R121, R154, R160 to R162). -/
def PortControl.reset (lineHigh : Bool) : PortControl :=
  { portState := if lineHigh then .opened else .down
    linkDown := false, detachPending := false, session := 0, lease := 0, leaseTimer := none, leaseDue := 0
    mask := { content := false, ownership := false, retirement := false, ports := false }
    suppressOwn := false, credits := 0, tags := [], requestQueue := [], replyQueue := [], eventQueue := []
    seqCounter := 0 }

/-- The results an acknowledgment gives, in the order of their codes (Table 10-1). -/
inductive AckResult
  | accepted
  | notReady
  | unknownRequest
  | noSession
  | closing
  | outstandingFull
  | tagInUse
  | frameError
  | lengthError
  deriving DecidableEq, Repr

/-- A pending acknowledgment (R158): no tag and request code 00h for a fault (R157). -/
structure Ack where
  tag    : Option Tag
  code   : Byte
  result : AckResult
  deriving DecidableEq, Repr

/-- The receive framer (R157): in BODY the length byte and the body bytes received so far, in CHECK the length byte,
the body and the first check byte once it has been received. -/
inductive Framer
  | hunt
  | length
  | body (len : Byte) (got : List Byte)
  | check (len : Byte) (body : List Byte) (high : Option Byte)
  deriving DecidableEq, Repr

/-- Where a link stands between two clocks of PnCK (R155, R157): the bits sent since the byte boundary at which the frame or
fill byte under way on PnDO began, the last eight bits received on PnDI, and, outside HUNT, the number of bits received of
the byte under way. -/
@[ext]
structure LinkBits where
  sent  : Nat
  last8 : Byte
  taken : Nat
  deriving DecidableEq, Repr

/-- No bit has passed since a reset: a fill byte is about to begin (R155, R164), and nothing has been received, which 00h
stands for (log 14). -/
def LinkBits.start : LinkBits := { sent := 0, last8 := 0, taken := 0 }

/-- A Port Link Interface (R155 to R158, R163) with the level of PRSTn_N. `line` holds the bytes of the frame under way
on PnDO, or none where the line is free; `framerDue` counts ticks delivered to the framer and not yet taken (log 8); `bits`
is moved by the clocks of PnCK and the resets alone (log 14). -/
@[ext]
structure PortLink where
  lineHigh      : Bool
  framer        : Framer
  byteTicks     : Nat
  framerDue     : Nat
  ackBuffer     : List Ack
  framesDropped : Bool
  line          : Option (List Byte)
  bits          : LinkBits
  deriving DecidableEq, Repr

/-- A port link after device reset, PRSTn_N at the level given (R155, R157, R158, R164). -/
def PortLink.reset (lineHigh : Bool) : PortLink :=
  { lineHigh := lineHigh, framer := .hunt, byteTicks := 0, framerDue := 0, ackBuffer := [], framesDropped := false
    line := none, bits := .start }

/-! ## The part -/

/-- The whole part. INVENTORY.md lists each field with the rule that names it and its reset value. -/
@[ext]
structure State where
  /-- The part is held in device reset (R32). -/
  held        : Bool
  device      : DeviceState
  /-- The latched MAINT strap (R166). -/
  maint       : BitVec 3
  /-- The next slot of the initialization or clearing pass (R33). -/
  passPos     : Slot
  /-- The entry records that differ from their default, by rising slot (R18). -/
  entries     : List (Nat × Entry)
  /-- The slot-table rows that differ from their default, by rising slot (R19). -/
  rows        : List (Nat × Row)
  tallies     : PerPort Tally
  freeList    : List Slot
  /-- A permitted CLEAR_DIRECTORY awaits the completion of the cycle in progress (R36). -/
  clearDue    : Bool
  /-- The requestor whose cycle is granted and not complete (R21, R27). -/
  inProgress  : Option Requestor
  lastGranted : Requestor
  execs       : PerPort Executor
  /-- The Wait Table, oldest record first (R82). -/
  waits       : List WaitRecord
  /-- Ticks delivered to the Wait Table and not yet taken (R126, log 8). -/
  waitDue     : Nat
  serial      : Serializer
  /-- The sweep list, head first (R133). -/
  sweeps      : List SweepRecord
  sweepPos    : Slot
  /-- A visit of the head record's pass is pending or in progress (R134, R135). -/
  sweepVisit  : Bool
  ports       : PerPort PortControl
  links       : PerPort PortLink
  /-- The index of the next free value: the model's own (log 9, log 10, log 17). -/
  freeIndex   : Nat
  /-- The commands that wait, first in, first out: the model's own (log 1). -/
  pending     : List Instr
  deriving DecidableEq, Repr

/-- Nothing in the manual stops the part: it answers every refusal with a status or a result and goes on (log 22). -/
inductive Fault
  deriving DecidableEq, Repr

/-- Why a command has no meaning. -/
inductive Refusal
  /-- The command has no meaning in the model yet. Raised by exec's refused arms alone, of which there are none; safe. -/
  | notModelled (mnemonic : String)
  deriving DecidableEq, Repr

/-- The part right after reset: held in device reset, every block at its device-reset state (R32), the directory at the
contents that device reset gives it (R18, R19, R17; log 3), the input lines low and the strap 0 (log 4). -/
def State.reset : State :=
  { held := true, device := .init, maint := 0, passPos := 0
    entries := [], rows := [], tallies := .same { owned := 0, watch := 0 }
    freeList := List.range' 256 3840
    clearDue := false, inProgress := none, lastGranted := .sweeper
    execs := .same .idle
    waits := [], waitDue := 0
    serial := { token := .free, queue := [] }
    sweeps := [], sweepPos := 0, sweepVisit := false
    ports := .same (.reset false)
    links := .same (.reset false)
    freeIndex := 0
    pending := [] }

end Sys2Proof.Machine
end

