-- ==== Sys2Proof/Machine/Operands.lean ====
section
/-! DEFINITION. Codes and operands: the codes of R165, the requests of Table 10-5 as their frames carry them, and the
examination of a request's operands when it executes (R161). -/

namespace Sys2Proof.Machine

/-! ## Codes (R165) -/

/-- The code of a port, 00h to 03h. -/
def portCode : Port → Byte
  | .p0 => 0x00#8
  | .p1 => 0x01#8
  | .p2 => 0x02#8
  | .p3 => 0x03#8

/-- The code of a port, FFh for "none". -/
def portOrNoneCode : Option Port → Byte
  | some p => portCode p
  | none => 0xFF#8

/-- The port a code names, where it names one. -/
def portOfCode (b : Byte) : Option Port :=
  if b = 0x00#8 then some .p0 else if b = 0x01#8 then some .p1
  else if b = 0x02#8 then some .p2 else if b = 0x03#8 then some .p3 else none

/-- The code of a yes or no. -/
def flagCode : Bool → Byte
  | true => 0x01#8
  | false => 0x00#8

/-- The yes or no of an operand, where its code is one of the two. -/
def flagOfCode (b : Byte) : Option Bool :=
  if b = 0x01#8 then some true else if b = 0x00#8 then some false else none

/-- The code of a disposition. -/
def dispositionCode : Disposition → Byte
  | .keep => 0x00#8
  | .release => 0x01#8
  | .drop => 0x02#8
  | .restore => 0x03#8

/-- The disposition a code names, where it names one. -/
def dispositionOfCode (b : Byte) : Option Disposition :=
  if b = 0x00#8 then some .keep else if b = 0x01#8 then some .release
  else if b = 0x02#8 then some .drop else if b = 0x03#8 then some .restore else none

/-- The terms that a disposition code and two flag codes give, where all three are defined (R96, R109). -/
def accessOfCodes (d pf tf : Byte) : Option Access :=
  match dispositionOfCode d, flagOfCode pf, flagOfCode tf with
  | some d, some pf, some tf => some { disposition := d, putOpen := pf, takeOpen := tf }
  | _, _, _ => none

/-- The event enable mask a byte gives: none where a bit of 4 to 7 is set (R165). -/
def maskOfCode (b : Byte) : Option EventMask :=
  if b.toNat < 16 then
    some { content := b.getLsbD 0, ownership := b.getLsbD 1, retirement := b.getLsbD 2, ports := b.getLsbD 3 }
  else none

/-- A byte with four bits, bit 0 first. -/
def nibbleCode (b0 b1 b2 b3 : Bool) : Byte :=
  (flagCode b0) ||| (flagCode b1 <<< 1) ||| (flagCode b2 <<< 2) ||| (flagCode b3 <<< 3)

/-- The byte of an event enable mask. -/
def maskCode (m : EventMask) : Byte := nibbleCode m.content m.ownership m.retirement m.ports

/-- The byte of a watch set, ports in bits 0 to 3 (Table 10-4). -/
def watchCode (w : PerPort Bool) : Byte := nibbleCode w.p0 w.p1 w.p2 w.p3

/-- The modes of a PUT (R66). -/
inductive PutMode
  | always
  | ifEmpty
  | ifVersion
  deriving DecidableEq, Repr

/-- The mode a code names, where it names one (Table 10-5). -/
def modeOfCode (b : Byte) : Option PutMode :=
  if b = 0x00#8 then some .always else if b = 0x01#8 then some .ifEmpty
  else if b = 0x02#8 then some .ifVersion else none

/-- The code of a reply status (Table 10-3). -/
def statusCode : Status → Byte
  | .ok => 0x00#8
  | .empty => 0x01#8
  | .handedOff => 0x02#8
  | .versionMismatch => 0x03#8
  | .notEmpty => 0x04#8
  | .notOwner => 0x05#8
  | .orphaned => 0x06#8
  | .pendingRecovery => 0x07#8
  | .alreadyOwned => 0x08#8
  | .notOrphaned => 0x09#8
  | .chainDeep => 0x0A#8
  | .loop => 0x0B#8
  | .isForward => 0x0C#8
  | .unallocated => 0x0D#8
  | .fixedSlot => 0x0E#8
  | .referenced => 0x0F#8
  | .waitersPresent => 0x10#8
  | .poolEmpty => 0x11#8
  | .waitFull => 0x12#8
  | .timeout => 0x13#8
  | .relinked => 0x14#8
  | .cancelled => 0x15#8
  | .notPermitted => 0x16#8
  | .badArgument => 0x17#8
  | .alreadyAttached => 0x18#8
  | .notAttached => 0x19#8

/-- The code of an acknowledgment result (Table 10-1). -/
def ackResultCode : AckResult → Byte
  | .accepted => 0x00#8
  | .notReady => 0x01#8
  | .unknownRequest => 0x02#8
  | .noSession => 0x03#8
  | .closing => 0x04#8
  | .outstandingFull => 0x05#8
  | .tagInUse => 0x06#8
  | .frameError => 0x07#8
  | .lengthError => 0x08#8

/-- The code of an event kind (Table 10-6). -/
def eventKindCode : EventKind → Byte
  | .valuePut => 0x00#8
  | .valueHanded => 0x01#8
  | .valueTaken => 0x02#8
  | .entryCleared => 0x03#8
  | .entryLinked => 0x04#8
  | .entryDropped => 0x05#8
  | .entryRestored => 0x06#8
  | .ownerChanged => 0x07#8
  | .entryRetired => 0x08#8
  | .portAttached => 0x09#8
  | .portDetached => 0x0A#8
  | .portLost => 0x0B#8
  | .sweepDone => 0x0C#8
  | .directoryCleared => 0x0D#8
  | .overflow => 0x0E#8

/-- The code of a cause: a port, or 04h for the device. -/
def causeCode : Cause → Byte
  | .port p => portCode p
  | .device => 0x04#8

/-- The code of a loss reason (Table 10-6). -/
def reasonCode : LossReason → Byte
  | .linkReset => 0x00#8
  | .lease => 0x01#8
  | .forced => 0x02#8

/-- The code of a port state (Table 10-4). -/
def portStateCode : PortState → Byte
  | .down => 0x00#8
  | .opened => 0x01#8
  | .attached => 0x02#8
  | .closing => 0x03#8

/-- The code of a device state (Table 10-4). -/
def deviceStateCode : DeviceState → Byte
  | .init => 0x00#8
  | .ready => 0x01#8
  | .clearing => 0x02#8

/-! ## Requests in their frames (Table 10-5) -/

/-- The request code of a request. -/
def RequestOp.code : RequestOp → Byte
  | .attach _ _ _ => 0x01#8
  | .detach => 0x02#8
  | .status => 0x03#8
  | .credit _ => 0x04#8
  | .setEvents _ _ => 0x05#8
  | .read _ => 0x10#8
  | .put _ _ _ _ => 0x11#8
  | .take _ _ => 0x12#8
  | .clear _ => 0x13#8
  | .checkpoint _ => 0x14#8
  | .link _ _ => 0x15#8
  | .watch _ => 0x16#8
  | .unwatch _ => 0x17#8
  | .alloc _ _ _ => 0x20#8
  | .retire _ => 0x21#8
  | .claim _ _ _ _ => 0x22#8
  | .release _ => 0x23#8
  | .adopt _ _ _ _ => 0x24#8
  | .setAccess _ _ _ _ => 0x25#8
  | .inspect _ => 0x30#8
  | .forceDetach _ => 0x31#8
  | .clearDirectory => 0x32#8
  | .breakWait _ => 0x33#8

/-- The named slot of a request, where it names one. -/
def RequestOp.named : RequestOp → Option Slot
  | .read k | .put k _ _ _ | .take k _ | .clear k | .checkpoint k | .link k _ | .watch k | .unwatch k
  | .retire k | .claim k _ _ _ | .release k | .adopt k _ _ _ | .setAccess k _ _ _ | .inspect k
  | .breakWait k => some k
  | .attach _ _ _ | .detach | .status | .credit _ | .setEvents _ _ | .alloc _ _ _ | .forceDetach _
  | .clearDirectory => none

/-- The body length Table 10-5 gives for a request code, where it lists the code. -/
def requestLength (code : Byte) : Option Nat :=
  match code.toNat with
  | 0x01 => some 6
  | 0x02 => some 2
  | 0x03 => some 2
  | 0x04 => some 3
  | 0x05 => some 4
  | 0x10 => some 4
  | 0x11 => some 15
  | 0x12 => some 6
  | 0x13 => some 4
  | 0x14 => some 4
  | 0x15 => some 6
  | 0x16 => some 4
  | 0x17 => some 4
  | 0x20 => some 5
  | 0x21 => some 4
  | 0x22 => some 7
  | 0x23 => some 4
  | 0x24 => some 7
  | 0x25 => some 7
  | 0x30 => some 4
  | 0x31 => some 3
  | 0x32 => some 2
  | 0x33 => some 4
  | _ => none

/-- A multi-byte number, most significant byte first (R165). -/
def number (bytes : List Byte) : Nat := bytes.foldl (fun acc b => acc * 256 + b.toNat) 0

/-- The request that a request code and the operand bytes after code and tag spell (Table 10-5), where they spell one. -/
def readOperands (code : Byte) (operands : List Byte) : Option RequestOp :=
  match code.toNat, operands with
  | 0x01, [l1, l0, m, f] => some (.attach (number [l1, l0]) m f)
  | 0x02, [] => some .detach
  | 0x03, [] => some .status
  | 0x04, [n] => some (.credit n)
  | 0x05, [m, f] => some (.setEvents m f)
  | 0x10, [s1, s0] => some (.read (number [s1, s0]))
  | 0x11, [s1, s0, mode, x1, x0, v7, v6, v5, v4, v3, v2, v1, v0] =>
      some (.put (number [s1, s0]) mode (BitVec.ofNat 16 (number [x1, x0]))
        (BitVec.ofNat 64 (number [v7, v6, v5, v4, v3, v2, v1, v0])))
  | 0x12, [s1, s0, w1, w0] => some (.take (number [s1, s0]) (number [w1, w0]))
  | 0x13, [s1, s0] => some (.clear (number [s1, s0]))
  | 0x14, [s1, s0] => some (.checkpoint (number [s1, s0]))
  | 0x15, [s1, s0, t1, t0] => some (.link (number [s1, s0]) (number [t1, t0]))
  | 0x16, [s1, s0] => some (.watch (number [s1, s0]))
  | 0x17, [s1, s0] => some (.unwatch (number [s1, s0]))
  | 0x20, [d, pf, tf] => some (.alloc d pf tf)
  | 0x21, [s1, s0] => some (.retire (number [s1, s0]))
  | 0x22, [s1, s0, d, pf, tf] => some (.claim (number [s1, s0]) d pf tf)
  | 0x23, [s1, s0] => some (.release (number [s1, s0]))
  | 0x24, [s1, s0, d, pf, tf] => some (.adopt (number [s1, s0]) d pf tf)
  | 0x25, [s1, s0, d, pf, tf] => some (.setAccess (number [s1, s0]) d pf tf)
  | 0x30, [s1, s0] => some (.inspect (number [s1, s0]))
  | 0x31, [p] => some (.forceDetach p)
  | 0x32, [] => some .clearDirectory
  | 0x33, [s1, s0] => some (.breakWait (number [s1, s0]))
  | _, _ => none

/-! ## The examination of the operands (R161) -/

/-- A slot or target operand inside 0 to 4095 (R1). -/
def slotOk (k : Slot) : Bool := decide (k < Config.slots)

/-- The operands of a request are inside the ranges and codes its own rule gives (R161). -/
def RequestOp.operandsOk : RequestOp → Bool
  | .attach _ m f => (maskOfCode m).isSome && (flagOfCode f).isSome
  | .credit n => decide (1 ≤ n.toNat) && decide (n.toNat ≤ 32)
  | .setEvents m f => (maskOfCode m).isSome && (flagOfCode f).isSome
  | .put k mode _ _ => slotOk k && (modeOfCode mode).isSome
  | .link k t => slotOk k && slotOk t
  | .alloc d pf tf => (accessOfCodes d pf tf).isSome
  | .claim k d pf tf | .adopt k d pf tf | .setAccess k d pf tf => slotOk k && (accessOfCodes d pf tf).isSome
  | .forceDetach p => (portOfCode p).isSome
  | .read k | .take k _ | .clear k | .checkpoint k | .watch k | .unwatch k | .retire k | .release k
  | .inspect k | .breakWait k => slotOk k
  | .detach | .status | .clearDirectory => true

end Sys2Proof.Machine
end

