-- ==== Sys2Proof/Machine/Frames.lean ====
section
/-! DEFINITION. The frames of the part: the check of R156 and the layouts of Tables 10-1, 10-2, 10-4 and 10-6. -/

namespace Sys2Proof.Machine

/-- The sync byte of every frame (R156). -/
def syncByte : Byte := 0xA5#8

/-- One bit of the check's division by x^16+x^12+x^5+1 (R156). -/
def checkShift (r : BitVec 16) : BitVec 16 := if r.msb then (r <<< 1) ^^^ 0x1021#16 else r <<< 1

/-- The check's remainder after one more byte, most significant bit first (R156). -/
def checkByte (r : BitVec 16) (b : Byte) : BitVec 16 :=
  checkShift (checkShift (checkShift (checkShift (checkShift (checkShift (checkShift (checkShift
    (r ^^^ (b.setWidth 16 <<< 8)))))))))

/-- The check over a length byte and a body (R156): the remainder first set to FFFFh and used without inversion. -/
def frameCheck (len : Byte) (body : List Byte) : BitVec 16 := (len :: body).foldl checkByte 0xFFFF#16

/-- The low w bytes of a number, most significant byte first (R165). -/
def bytesOf : Nat → Nat → List Byte
  | 0, _ => []
  | w + 1, n => BitVec.ofNat 8 (n / 256 ^ w) :: bytesOf w n

/-- A whole frame: sync byte, length byte, body, and the check high byte first (R156). -/
def frameBytes (body : List Byte) : List Byte :=
  let len : Byte := BitVec.ofNat 8 body.length
  syncByte :: len :: body ++ bytesOf 2 (frameCheck len body).toNat

/-- The tag byte of a frame: the tag in the low four bits, FFh for "none" (R165, Table 10-1). -/
def tagCode : Option Tag → Byte
  | some t => t.setWidth 8
  | none => 0xFF#8

/-- The body of an ACK frame (Table 10-1). -/
def ackBody (a : Ack) (dropped : Bool) : List Byte :=
  [0x80#8, tagCode a.tag, a.code, ackResultCode a.result, flagCode dropped]

/-- The bytes of four disposition counts (Table 10-4). -/
def countsBytes (c : DispositionCounts) : List Byte :=
  bytesOf 2 c.keep ++ bytesOf 2 c.release ++ bytesOf 2 c.drop ++ bytesOf 2 c.restore

/-- The saved field of an INSPECT reply: its code, and the saved value or zero (Table 10-4). -/
def savedBytes : Saved → List Byte
  | .absent => 0x00#8 :: bytesOf 8 0
  | .empty => 0x01#8 :: bytesOf 8 0
  | .value v => 0x02#8 :: bytesOf 8 v.toNat

/-- The extra bytes of a reply (Table 10-4), where it has an extra field. -/
def extraBytes : Extra → Option (List Byte)
  | .none => none
  | .taker p => some [portCode p]
  | .slotAllocated k => some (bytesOf 2 k)
  | .session n => some (bytesOf 1 n)
  | .counts c => some (countsBytes c)
  | .status f => some (
      [portStateCode f.portState] ++ bytesOf 1 f.session ++ bytesOf 1 f.outstanding ++ bytesOf 1 f.credits
      ++ bytesOf 1 f.eventDepth ++ bytesOf 2 f.owned ++ bytesOf 2 f.watch ++ [deviceStateCode f.device]
      ++ bytesOf 2 f.freeLength ++ bytesOf 1 f.waits ++ bytesOf 1 f.sweeps)
  | .inspect f => some (
      [portOrNoneCode f.owner, flagCode f.orphaned, flagCode f.access.putOpen, flagCode f.access.takeOpen,
        dispositionCode f.access.disposition]
      ++ savedBytes f.saved ++ [watchCode f.watch, flagCode f.allocated] ++ bytesOf 2 f.inbound ++ bytesOf 1 f.waits)
  | .inbound n => some (bytesOf 2 n)
  | .waiters n => some (bytesOf 1 n)
  | .owner p => some [portOrNoneCode p]
  | .previousAccess a => some [dispositionCode a.disposition, flagCode a.putOpen, flagCode a.takeOpen]
  | .wasWatching b => some [flagCode b]
  | .credits n => some (bytesOf 1 n)
  | .previousSettings m f => some [maskCode m, flagCode f]
  | .broken n => some (bytesOf 1 n)
  | .alreadyClosing b => some [flagCode b]

/-- The kind byte, the value and the target of a content (Table 10-2). -/
def contentBytes : Content → List Byte
  | .empty => [0x00#8]
  | .value v => 0x01#8 :: bytesOf 8 v.toNat
  | .forward t => 0x02#8 :: bytesOf 2 t

/-- The presence bits of a content: bit 2 the kind, bit 3 the value, bit 4 the target (Table 10-2). -/
def contentPresence : Option Content → Byte
  | none => 0x00#8
  | some .empty => 0x04#8
  | some (.value _) => 0x0C#8
  | some (.forward _) => 0x14#8

/-- The presence byte of a reply (Table 10-2). -/
def replyPresence (r : Reply) : Byte :=
  flagCode r.named.isSome ||| (flagCode r.terminal.isSome <<< 1) ||| contentPresence r.content
    ||| (flagCode r.version.isSome <<< 5) ||| (flagCode (extraBytes r.extra).isSome <<< 6)

/-- The bytes of an optional field. -/
def optionBytes {α : Type} (f : α → List Byte) : Option α → List Byte
  | some a => f a
  | none => []

/-- The body of a REPLY frame (Table 10-2). -/
def replyBody (r : Reply) : List Byte :=
  [0x81#8, tagCode (some r.tag), r.code, statusCode r.status, replyPresence r]
  ++ optionBytes (bytesOf 2) r.named
  ++ optionBytes (fun t => bytesOf 2 t.1 ++ bytesOf 1 t.2) r.terminal
  ++ optionBytes contentBytes r.content
  ++ optionBytes (fun v => bytesOf 2 v.toNat) r.version
  ++ optionBytes (fun e => bytesOf 1 e.length ++ e) (extraBytes r.extra)

/-- The presence byte of an event record (Table 10-6). -/
def eventPresence (e : Event) : Byte :=
  flagCode e.entry.isSome ||| (flagCode e.value.isSome <<< 1) ||| (flagCode e.subject.isSome <<< 2)
    ||| (flagCode e.reason.isSome <<< 3) ||| (flagCode e.lost.isSome <<< 4)

/-- The body of an EVENT frame (Table 10-6). -/
def eventBody (r : EventRecord) : List Byte :=
  [0x82#8] ++ bytesOf 2 r.seq.toNat ++ [eventKindCode r.event.kind, causeCode r.event.cause, eventPresence r.event]
  ++ optionBytes (fun s => bytesOf 2 s.1 ++ bytesOf 2 s.2.toNat) r.event.entry
  ++ optionBytes (fun v => bytesOf 8 v.toNat) r.event.value
  ++ optionBytes (fun p => [portCode p]) r.event.subject
  ++ optionBytes (fun x => [reasonCode x]) r.event.reason
  ++ optionBytes (bytesOf 2) r.event.lost

end Sys2Proof.Machine
end

