-- ==== Sys2Proof/Machine/Flags.lean ====
section
/-! DEFINITION. The tests made on flags and states: who may act on an entry (R62, R107), which events a port's settings
let through (R143 to R145), and which frames a port state admits (R123). -/

namespace Sys2Proof.Machine

/-! ## Permission -/

/-- The refusal of a requester that is not the owner of an owned entry, by the owner's port state (R62, R107). -/
def ownerRefusal (ownerState : PortState) : Status :=
  if ownerState = .closing then .pendingRecovery else .notOwner

/-- The permission test of a PUT or TAKE on its terminal entry (R62): the refusal, or none where permitted.
`flag` is put_open for a PUT and take_open for a TAKE; `stateOf` gives the ports' states at the cycle. -/
def terminalRefusal (stateOf : Port → PortState) (requester : Port) (e : Entry) (flag : Bool) : Option Status :=
  match e.owner with
  | none => none
  | some q =>
    if e.orphaned then (if flag then none else some .orphaned)
    else if q = requester then none
    else if flag then none
    else some (ownerRefusal (stateOf q))

/-- The modify test (R107): the refusal, or none where it passes. -/
def modifyRefusal (stateOf : Port → PortState) (requester : Port) (e : Entry) : Option Status :=
  match e.owner with
  | none => none
  | some q =>
    if e.orphaned then some .orphaned
    else if q = requester then none
    else some (ownerRefusal (stateOf q))

/-- The stricter form of the modify test that RELEASE and SET_ACCESS make (R107): an unowned entry fails it. -/
def ownerOnlyRefusal (stateOf : Port → PortState) (requester : Port) (e : Entry) : Option Status :=
  match e.owner with
  | none => some .notOwner
  | some q =>
    if e.orphaned then some .orphaned
    else if q = requester then none
    else some (ownerRefusal (stateOf q))

/-- The tests of a CLAIM after the allocation test (R109): the refusal with its extra field, or none. -/
def claimRefusal (stateOf : Port → PortState) (e : Entry) : Option (Status × Extra) :=
  match e.owner with
  | none => none
  | some q =>
    if e.orphaned then some (.orphaned, .none)
    else if stateOf q = .closing then some (.pendingRecovery, .none)
    else some (.alreadyOwned, .owner (some q))

/-- The tests of an ADOPT after the allocation test (R111): the refusal with its extra field, or none. -/
def adoptRefusal (stateOf : Port → PortState) (e : Entry) : Option (Status × Extra) :=
  match e.owner with
  | none => some (.notOrphaned, .owner none)
  | some q =>
    if e.orphaned then none
    else if stateOf q = .closing then some (.pendingRecovery, .none)
    else some (.notOrphaned, .owner (some q))

/-! ## Events -/

/-- The event enable mask admits the event's class; DIRECTORY_CLEARED and OVERFLOW belong to none (R143, R145). -/
def EventMask.admits (m : EventMask) : EventKind → Bool
  | .valuePut | .valueHanded | .valueTaken | .entryCleared | .entryLinked | .entryDropped | .entryRestored => m.content
  | .ownerChanged => m.ownership
  | .entryRetired => m.retirement
  | .portAttached | .portDetached | .portLost | .sweepDone => m.ports
  | .directoryCleared | .overflow => true

/-- Port p, as it stands, is to receive the event: it is ATTACHED, its mask includes the event's class, and the event is
not of its own cause with suppress-own set (R144, R145). -/
def PortControl.admits (c : PortControl) (p : Port) (e : Event) : Bool :=
  decide (c.portState = .attached) && c.mask.admits e.kind && !(c.suppressOwn && decide (e.cause = .port p))

/-! ## Admission by port state (R123) -/

/-- The result of the port-state test for a request, where it fails. In DOWN no frame arrives; that row answers as
OPEN does (log 20). -/
def portStateRefusal (c : PortControl) (op : RequestOp) : Option AckResult :=
  match c.portState, op with
  | .opened, .status | .opened, .attach _ _ _ => none
  | .opened, _ => some .noSession
  | .attached, .status => none
  | .attached, _ => if c.detachPending then some .closing else none
  | .closing, .status => none
  | .closing, _ => some .closing
  | .down, _ => some .noSession

end Sys2Proof.Machine
end

