-- ==== Sys2Proof/Machine/Table.lean ====
section
/-! DEFINITION. The directory's tables: 4096 records, of which only those that differ from their default are listed,
by rising slot. -/

namespace Sys2Proof.Machine.Table

variable {α : Type}

/-- The record of slot k: the listed one, or the default. -/
def get (d : Nat → α) (k : Nat) : List (Nat × α) → α
  | [] => d k
  | (j, a) :: t => if j = k then a else get d k t

/-- List record a for slot k. -/
def insert (k : Nat) (a : α) : List (Nat × α) → List (Nat × α)
  | [] => [(k, a)]
  | (j, b) :: t => if k < j then (k, a) :: (j, b) :: t else if j = k then (k, a) :: t else (j, b) :: insert k a t

/-- List nothing for slot k. -/
def erase (k : Nat) (t : List (Nat × α)) : List (Nat × α) := t.filter (fun r => decide (r.1 ≠ k))

/-- Write record a to slot k: a record equal to its default is not listed. -/
def set [DecidableEq α] (d : Nat → α) (k : Nat) (a : α) (t : List (Nat × α)) : List (Nat × α) :=
  if a = d k then erase k t else insert k a t

/-- The slots of a table rise strictly. -/
def rising : List (Nat × α) → Bool
  | [] => true
  | [_] => true
  | (j, _) :: (k, b) :: t => decide (j < k) && rising ((k, b) :: t)

/-- The canonical form: slots strictly rising, and no record equal to its default. -/
def wf [DecidableEq α] (d : Nat → α) (t : List (Nat × α)) : Bool :=
  rising t && t.all (fun r => decide (r.2 ≠ d r.1))

end Sys2Proof.Machine.Table
end

