-- ==== Sys2Proof/Machine/Ops.lean ====
section
/-! DEFINITION. The named operations over the part that its steps share: reading and writing the directory, posting
replies and events, the arbiter, the link token, the start of a loss, entry to CLEARING, and what follows the
completion of a store cycle. -/

namespace Sys2Proof.Machine

/-! ## The directory -/

/-- The entry record of slot k. -/
def State.entry (s : State) (k : Slot) : Entry := Table.get (fun _ => Entry.default) k s.entries

/-- Write the entry record of slot k. -/
def State.setEntry (s : State) (k : Slot) (e : Entry) : State :=
  { s with entries := Table.set (fun _ => Entry.default) k e s.entries }

/-- The slot-table row of slot k. -/
def State.row (s : State) (k : Slot) : Row := Table.get Row.default k s.rows

/-- Write the slot-table row of slot k. -/
def State.setRow (s : State) (k : Slot) (r : Row) : State :=
  { s with rows := Table.set Row.default k r s.rows }

/-- A fixed slot reads allocated in every state of the part; a pooled slot as its row says (R1, R11). -/
def State.allocated (s : State) (k : Slot) : Bool := decide (k < Config.fixedSlots) || (s.row k).allocated

/-- The inbound count of slot k (R12). -/
def State.inbound (s : State) (k : Slot) : Nat := (s.row k).inbound

/-- Raise the inbound count of slot k by 1 (R12). -/
def State.raiseInbound (s : State) (k : Slot) : State :=
  s.setRow k { s.row k with inbound := (s.row k).inbound + 1 }

/-- Lower the inbound count of slot k by 1 (R12). -/
def State.lowerInbound (s : State) (k : Slot) : State :=
  s.setRow k { s.row k with inbound := (s.row k).inbound - 1 }

/-- Lower the inbound count of a forward's target, where the content is a forward (R12). -/
def State.dropForward (s : State) : Content → State
  | .forward u => s.lowerInbound u
  | .empty | .value _ => s

/-- Raise the owned count of port p by 1 (R14). -/
def State.raiseOwned (s : State) (p : Port) : State :=
  { s with tallies := s.tallies.set p { s.tallies.get p with owned := (s.tallies.get p).owned + 1 } }

/-- Lower the owned count of port p by 1 (R14). -/
def State.lowerOwned (s : State) (p : Port) : State :=
  { s with tallies := s.tallies.set p { s.tallies.get p with owned := (s.tallies.get p).owned - 1 } }

/-- Raise the watch count of port p by 1 (R15). -/
def State.raiseWatch (s : State) (p : Port) : State :=
  { s with tallies := s.tallies.set p { s.tallies.get p with watch := (s.tallies.get p).watch + 1 } }

/-- Lower the watch count of port p by 1 (R15). -/
def State.lowerWatch (s : State) (p : Port) : State :=
  { s with tallies := s.tallies.set p { s.tallies.get p with watch := (s.tallies.get p).watch - 1 } }

/-- Lower the watch count of every port of a watch set by 1 (R15, R101). -/
def State.lowerWatchers (s : State) (w : PerPort Bool) : State :=
  { s with tallies := s.tallies.mapPorts (fun p t => if w.get p then { t with watch := t.watch - 1 } else t) }

/-! ## Ports, links and executors -/

/-- The Port Controller of port n. -/
def State.port (s : State) (n : Port) : PortControl := s.ports.get n

/-- Replace the Port Controller of port n. -/
def State.setPort (s : State) (n : Port) (c : PortControl) : State := { s with ports := s.ports.set n c }

/-- The Port Link Interface of port n. -/
def State.link (s : State) (n : Port) : PortLink := s.links.get n

/-- Replace the Port Link Interface of port n. -/
def State.setLink (s : State) (n : Port) (l : PortLink) : State := { s with links := s.links.set n l }

/-- The Request Executor of port n. -/
def State.executor (s : State) (n : Port) : Executor := s.execs.get n

/-- Replace the Request Executor of port n. -/
def State.setExecutor (s : State) (n : Port) (e : Executor) : State := { s with execs := s.execs.set n e }

/-- The port state of port n. -/
def State.portState (s : State) (n : Port) : PortState := (s.port n).portState

/-- Port n holds the maintenance role (R166). -/
def State.isMaintenance (s : State) (n : Port) : Bool := decide (s.maint.toNat = (portCode n).toNat)

/-- What PnDO carries: low, the frame under way, or fill bytes over and over (R155, R164). -/
inductive PinOut
  | low
  | frame (bytes : List Byte)
  | fill (byte : Byte)
  deriving DecidableEq, Repr

/-- The byte sent over and over between frames (R155). -/
def fillByte : Byte := 0x00#8

/-- PnDO of port n: low while the part or the port is held in reset (R155). -/
def State.pinOut (s : State) (n : Port) : PinOut :=
  if s.held || !(s.link n).lineHigh then .low
  else match (s.link n).line with
    | some bytes => .frame bytes
    | none => .fill fillByte

/-! ## Replies (R162) -/

/-- A reply to a request with its status and its named slot, and nothing else (log 23). -/
def bareReply (rq : Request) (st : Status) : Reply :=
  { tag := rq.tag, code := rq.op.code, status := st, named := rq.op.named, terminal := none, content := none
    version := none, extra := .none }

/-- The deferred reply of a wait record (Table 5-1). -/
def waitReply (w : WaitRecord) (st : Status) (c : Option Content) (v : Option Version) : Reply :=
  { tag := w.tag, code := 0x12#8, status := st, named := some w.named, terminal := some (w.terminal, w.hops)
    content := c, version := v, extra := .none }

/-- Post replies to the reply queues: those the function gives each port, behind what stands there (R162). -/
def State.postReplies (s : State) (f : Port → List Reply) : State :=
  { s with ports := s.ports.mapPorts (fun p c => { c with replyQueue := c.replyQueue ++ f p }) }

/-- Post one reply to the reply queue of port n (R162). -/
def State.postReply (s : State) (n : Port) (r : Reply) : State :=
  s.setPort n { s.port n with replyQueue := (s.port n).replyQueue ++ [r] }

/-! ## Events (R144 to R148) -/

/-- The newest record of an event queue is OVERFLOW. -/
def newestIsOverflow (q : List EventRecord) : Bool :=
  match q.getLast? with
  | some r => decide (r.event.kind = .overflow)
  | none => false

/-- The lost count of an event record raised by 1, saturating (R148). -/
def EventRecord.raiseLost (r : EventRecord) : EventRecord :=
  { r with event := { r.event with lost := r.event.lost.map (fun n => min (n + 1) Config.lostLimit) } }

/-- An OVERFLOW record's event with lost count 1 (R148). -/
def overflowEvent : Event :=
  { kind := .overflow, entry := none, value := none, cause := .device, subject := none, reason := none
    lost := some 1 }

/-- Append an event under the next sequence number, which then rises by 1 (R147). -/
def PortControl.append (c : PortControl) (e : Event) : PortControl :=
  { c with eventQueue := c.eventQueue ++ [{ seq := c.seqCounter, event := e }], seqCounter := c.seqCounter + 1 }

/-- One posting to a port's event queue, decided on the queue as it stands (R148). -/
def PortControl.push (c : PortControl) (e : Event) : PortControl :=
  if c.eventQueue.length + 1 < Config.eventPlaces then c.append e
  else if newestIsOverflow c.eventQueue then
    { c with eventQueue := c.eventQueue.dropLast ++ (c.eventQueue.getLast?.map EventRecord.raiseLost).toList }
  else c.append overflowEvent

/-- Post an event to those of the named ports that are to receive it (R144, R145). -/
def State.postEvent (s : State) (recipients : Port → Bool) (e : Event) : State :=
  { s with ports := s.ports.mapPorts (fun p c => if recipients p && c.admits p e then c.push e else c) }

/-- Post an entry event for slot k to the watch set given (R143, R144). -/
def State.postEntryEvent (s : State) (watchers : PerPort Bool) (kind : EventKind) (k : Slot) (v : Version)
    (value : Option Value) (cause : Cause) : State :=
  s.postEvent watchers.get
    { kind := kind, entry := some (k, v), value := value, cause := cause, subject := none, reason := none
      lost := none }

/-- Post a PORTS notice to the ATTACHED ports other than its subject (R145). -/
def State.postNotice (s : State) (kind : EventKind) (subject : Port) (reason : Option LossReason) : State :=
  s.postEvent (fun p => decide (p ≠ subject))
    { kind := kind, entry := none, value := none, cause := .device, subject := some subject, reason := reason
      lost := none }

/-- The DIRECTORY_CLEARED notice (R145, R153). -/
def directoryClearedEvent : Event :=
  { kind := .directoryCleared, entry := none, value := none, cause := .device, subject := none, reason := none
    lost := none }

/-! ## The Wait Table -/

/-- The oldest record on slot k (R82). -/
def State.oldestWait (s : State) (k : Slot) : Option WaitRecord := s.waits.find? (fun w => decide (w.terminal = k))

/-- The number of records whose terminal slot is k (R82). -/
def State.waitsOn (s : State) (k : Slot) : Nat := (s.waits.filter (fun w => decide (w.terminal = k))).length

/-- Remove the oldest record on slot k; the others keep their order (R82, R87). -/
def State.removeOldestWait (s : State) (k : Slot) : State :=
  { s with waits := s.waits.eraseP (fun w => decide (w.terminal = k)) }

/-- Hand value v to record w, the oldest on slot k: the record is removed and its port is answered OK with the value and
the entry's version after the handoff (R87, R88). -/
def State.handTo (s : State) (k : Slot) (w : WaitRecord) (v : Value) (ver : Version) : State :=
  (s.removeOldestWait k).postReply w.port (waitReply w .ok (some (.value v)) (some ver))

/-- Remove every record on slot k and answer each, in arrival order, with the status and fields given (R91, R92). -/
def State.endWaitsOn (s : State) (k : Slot) (st : Status) (c : Option Content) (v : Option Version) : State :=
  State.postReplies { s with waits := s.waits.filter (fun w => decide (w.terminal ≠ k)) }
    (fun p => (s.waits.filter (fun w => decide (w.terminal = k) && decide (w.port = p))).map
      (fun w => waitReply w st c v))

/-- Remove every record of port n without a reply (R94). -/
def State.dropWaitsOf (s : State) (n : Port) : State :=
  { s with waits := s.waits.filter (fun w => decide (w.port ≠ n)) }

/-! ## The Store Arbiter (R28, R29) -/

/-- The work that stands on a store cycle: one pending or in progress (R26, R39). -/
def Work.needsCycle : Work → Bool
  | .walk | .checkWalk | .commit | .single => true
  | .clearing | .awaitPass => false

/-- The executor has a cycle before the arbiter, pending or in progress (R28). -/
def Executor.hasCycle (e : Executor) : Bool :=
  match e.state with
  | .running w => w.needsCycle
  | .idle | .tokenWait => false

/-- A requestor has a cycle pending or in progress (R28). -/
def State.hasCycle (s : State) : Requestor → Bool
  | .executor n => (s.executor n).hasCycle
  | .sweeper => s.sweepVisit

/-- The cyclic order P0, P1, P2, P3, Sweeper, starting with the one after the requestor given (R29). -/
def grantOrder : Requestor → List Requestor
  | .executor .p0 => [.executor .p1, .executor .p2, .executor .p3, .sweeper, .executor .p0]
  | .executor .p1 => [.executor .p2, .executor .p3, .sweeper, .executor .p0, .executor .p1]
  | .executor .p2 => [.executor .p3, .sweeper, .executor .p0, .executor .p1, .executor .p2]
  | .executor .p3 => [.sweeper, .executor .p0, .executor .p1, .executor .p2, .executor .p3]
  | .sweeper => [.executor .p0, .executor .p1, .executor .p2, .executor .p3, .sweeper]

/-- The grant (R29): in READY, with no cycle in progress, to the first requestor in the rotation that has a cycle
pending. -/
def State.grant (s : State) : State :=
  if s.device = .ready ∧ s.inProgress = none then
    match (grantOrder s.lastGranted).find? s.hasCycle with
    | some r => { s with inProgress := some r, lastGranted := r }
    | none => s
  else s

/-! ## The link token (R49 to R51) -/

/-- The executor of the head waiter becomes the holder and presents its first check-walk cycle (R50, R53). -/
def Executor.resume (e : Executor) : Executor :=
  match e.current with
  | some { tag := _, op := .link _ target } => { e with state := .running .checkWalk, walkPos := target, hops := 0 }
  | _ => e

/-- The token passes to the head of the queue, or becomes FREE if the queue is empty (R50, R51). -/
def State.passToken (s : State) : State :=
  match s.serial.queue with
  | [] => { s with serial := { token := .free, queue := [] } }
  | p :: rest =>
    State.setExecutor { s with serial := { token := .held p, queue := rest } } p (s.executor p).resume

/-- A waiter leaves the queue; the others keep their order (R51). -/
def Serializer.leave (l : Serializer) (n : Port) : Serializer :=
  { l with queue := l.queue.filter (fun p => decide (p ≠ n)) }

/-- A token held by port n is RECALLED (R51). -/
def Serializer.recall (l : Serializer) (n : Port) : Serializer :=
  { l with token := if l.token = .held n then .recalled else l.token }

/-- The request of an executor is a LINK. -/
def Executor.onLink (e : Executor) : Bool :=
  match e.current with
  | some { tag := _, op := .link _ _ } => true
  | _ => false

/-- The executor of port n stops or ends: it goes IDLE, and a LINK's token passes on (R50, R51). -/
def State.endRequest (s : State) (n : Port) : State :=
  if (s.executor n).onLink then (s.setExecutor n .idle).passToken else s.setExecutor n .idle

/-! ## Withdrawal and grant (R27, R29, R131) -/

/-- The pending cycle of port p is to be withdrawn: its request has been abandoned by session loss, and the cycle has not
been granted (R27, R131). In CLEARING none is: the entry has stopped every such executor (R36). -/
def State.withdrawing (s : State) (p : Port) : Bool :=
  (s.executor p).abandoned && (s.executor p).hasCycle
    && decide (s.inProgress ≠ some (.executor p)) && decide (s.device ≠ .clearing)

/-- The withdrawal of port p's pending cycle, where the arbiter takes it: the request stops there with no reply (R27, R131),
and a lost holder's token passes on (R51). -/
def State.withdraw (taken : Port → Bool) (s : State) (p : Port) : State :=
  if s.withdrawing p && taken p then s.endRequest p else s

/-- The withdrawals that the Store Arbiter takes ahead of its next grant: a free value says which (R27; log 17). -/
def State.takeWithdrawals (s : State) : State :=
  if Port.all.any s.withdrawing then
    { Port.all.foldl (State.withdraw (Config.withdrawalTaken s.freeIndex)) s with freeIndex := s.freeIndex + 1 }
  else s

/-- The Store Arbiter's turn: the withdrawals it takes first, then the grant. Every act that presents, completes or
withdraws a cycle ends with it (log 6). -/
def State.arbitrate (s : State) : State := s.takeWithdrawals.grant

/-- Session loss of port n reaches its executor and the Link Serializer (R51, R131). A waiter leaves the queue. A request
with a cycle in progress or pending is abandoned and the token, if held, RECALLED: the cycle in progress completes, the
pending one is granted or withdrawn, whichever the Store Arbiter takes first (R27). In CLEARING, where no cycle can be
granted, the pending one is withdrawn here (R139; log 17), and so ends a CLEAR_DIRECTORY, which has none (log 12). -/
def State.abandon (s : State) (n : Port) : State :=
  match (s.executor n).state with
  | .idle => s
  | .tokenWait =>
    State.setExecutor { s with serial := s.serial.leave n } n .idle
  | .running w =>
    if s.inProgress = some (.executor n) ∨ (w.needsCycle = true ∧ s.device ≠ .clearing) then
      State.setExecutor { s with serial := s.serial.recall n } n { s.executor n with abandoned := true }
    else if s.serial.token = .held n then (s.setExecutor n .idle).passToken
    else s.setExecutor n .idle

/-! ## Session loss (R130) -/

/-- What the start of a loss does to the lost port's own controller (R130). -/
def PortControl.lose (c : PortControl) (reason : LossReason) : PortControl :=
  { c with
    portState := .closing, linkDown := decide (reason = .linkReset), detachPending := false
    leaseTimer := none, leaseDue := 0, credits := 0, tags := []
    requestQueue := [], replyQueue := [], eventQueue := [] }

/-- The start of a loss of port n, as one act (R130). -/
def State.startLoss (s : State) (n : Port) (reason : LossReason) : State :=
  let s := s.abandon n
  let s := s.setPort n ((s.port n).lose reason)
  let s := s.setLink n { s.link n with ackBuffer := [] }
  let s := s.dropWaitsOf n
  let s := { s with sweeps := s.sweeps ++ [SweepRecord.mk n (.loss reason)] }
  (s.postNotice .portLost n (some reason)).arbitrate

/-! ## The end of a sweep pass (R137, R139) -/

/-- The port state that a port leaving CLOSING takes, by its link-down mark and its line (R137). -/
def State.stateAfterClosing (s : State) (p : Port) : PortState :=
  if (s.port p).linkDown || !(s.link p).lineHigh then .down else .opened

/-- The DETACH reply owed by a sweep record, if any, with the status given (R137, R139). -/
def SweepRecord.detachReply (r : SweepRecord) (st : Status) : Option Reply :=
  match r.kind with
  | .detach (some t) counts => some
      { tag := t, code := 0x02#8, status := st, named := none, terminal := none, content := none, version := none
        extra := .counts counts }
  | .detach none _ | .loss _ => none

/-- The reason a SWEEP_DONE notice carries: that of a LOSS record (R137). -/
def SweepRecord.reason (r : SweepRecord) : Option LossReason :=
  match r.kind with
  | .loss x => some x
  | .detach _ _ => none

/-- The port of a sweep record leaves CLOSING, its owed DETACH reply is posted with the status given, and SWEEP_DONE is
posted (R137, R139). -/
def State.closeRecord (s : State) (st : Status) (r : SweepRecord) : State :=
  let s := s.setPort r.port { s.port r.port with portState := s.stateAfterClosing r.port, linkDown := false }
  let s := match r.detachReply st with
    | some reply => s.postReply r.port reply
    | none => s
  s.postNotice .sweepDone r.port r.reason

/-- The end of the head record's pass (R137). The position is 0 until the next pass (log 15). -/
def State.endPass (s : State) : State :=
  match s.sweeps with
  | [] => s
  | r :: rest => { s.closeRecord .ok r with sweeps := rest, sweepPos := 0, sweepVisit := false }

/-- At the completion of the clearing pass's first cycle every record is removed, head first (R139). -/
def State.removeSweeps (s : State) : State :=
  { s.sweeps.foldl (fun s r => s.closeRecord .cancelled r) s with sweeps := [], sweepPos := 0, sweepVisit := false }

/-- The swept port owns and watches nothing (R135). -/
def State.countsZero (s : State) (p : Port) : Bool :=
  decide ((s.tallies.get p).owned = 0) && decide ((s.tallies.get p).watch = 0)

/-- The Sweeper's test for the head record (R135): with both counts 0 its pass ends, otherwise a visit to the current
position is presented. -/
def State.sweepTest (s : State) : State :=
  match s.sweeps with
  | [] => s
  | r :: _ => if s.countsZero r.port then s.endPass else { s with sweepVisit := true }

/-- The lost executor of a LOSS record has stopped (R131, R134); a DETACH record need not wait. -/
def State.sweepMayStart (s : State) (r : SweepRecord) : Bool :=
  match r.kind with
  | .detach _ _ => true
  | .loss _ => !(s.executor r.port).abandoned

/-- The first tests, at most m, that the Sweeper makes of its records, no pass running, ahead of an entry to CLEARING that comes
with a completion: a record whose counts are 0 ends its pass at the test (R134, R135, R137). Before each test a free value says
whether it comes ahead of the entry (log 10). A test that finds a count above 0 presents a visit, which the entry withdraws
(R139), and changes nothing else: it is not made. -/
def State.testsAhead : Nat → State → State
  | 0, s => s
  | m + 1, s =>
    match s.sweeps with
    | [] => s
    | r :: _ =>
      if Config.sweeperTestsFirst s.freeIndex = true ∧ s.sweepVisit = false ∧ s.sweepMayStart r = true
          ∧ s.countsZero r.port = true then
        State.testsAhead m (State.endPass { s with freeIndex := s.freeIndex + 1 })
      else s

/-! ## Entry to CLEARING (R36) -/

/-- The executor is on a CLEAR_DIRECTORY. -/
def Executor.onClearDirectory (e : Executor) : Bool :=
  match e.current with
  | some rq => decide (rq.op = .clearDirectory)
  | none => false

/-- The CANCELLED reply of an executor stopped at entry to CLEARING: none where it has no request, is on a
CLEAR_DIRECTORY, or its port is not ATTACHED (R36; log 11). -/
def stoppedReplies (c : PortControl) (e : Executor) : List Reply :=
  if c.portState = .attached ∧ e.onClearDirectory = false then
    (e.current.map (fun rq => bareReply rq .cancelled)).toList
  else []

/-- Two runs of replies in the order a free value gives; where one of them is empty there is no order to give (log 9). -/
def inFreeOrder (secondFirst : Bool) (a b : List Reply) : List Reply :=
  match a, b with
  | [], b => b
  | a, [] => a
  | a, b => if secondFirst then b ++ a else a ++ b

/-- Entry to CLEARING at a port (R36, R95, R153): the CANCELLED replies, and for an ATTACHED port its event queue
flushed and DIRECTORY_CLEARED appended. -/
def clearingPort (i : Nat) (waits : List WaitRecord) (p : Port) (e : Executor) (c : PortControl) : PortControl :=
  let parked := (waits.filter (fun w => decide (w.port = p))).map (fun w => waitReply w .cancelled none none)
  let c := { c with replyQueue :=
    c.replyQueue ++ inFreeOrder (Config.parkedCancelledFirst i p) (stoppedReplies c e) parked }
  if c.portState = .attached then { c with eventQueue := [] }.push directoryClearedEvent else c

/-- Entry to CLEARING (R36): executors stopped, the Link Serializer emptied (R52), the Sweeper's visit withdrawn (R139),
the Wait Table emptied (R95), every ATTACHED port told (R153). No cycle is in progress. -/
def State.enterClearing (s : State) : State :=
  { s with
    device := .clearing, passPos := 0, clearDue := false, sweepVisit := false
    serial := { token := .free, queue := [] }
    waits := []
    ports := s.ports.mapPorts (fun p c => clearingPort s.freeIndex s.waits p (s.executor p) c)
    execs := s.execs.mapPorts (fun _ e => if e.onClearDirectory then e else .idle)
    freeIndex := s.freeIndex + 1 }

/-- The entry to CLEARING that waits for a completion, where one is due (R36), and then the arbiter's turn (R27, R29). No rule
says whether the Sweeper's next tests, that of a LOSS record whose executor has stopped with this completion among them (R134),
come ahead of the entry: free values say it (log 10). -/
def State.afterCompletion (s : State) : State :=
  (if s.clearDue then (s.testsAhead s.sweeps.length).enterClearing else s).arbitrate

/-! ## Executors at work -/

/-- The request that the executor of port n takes next: the head of its queue, where the executor is IDLE (R39, R161). -/
def State.nextRequest (s : State) (n : Port) : Option Request :=
  if (s.executor n).state = .idle then (s.port n).requestQueue.head? else none

/-- The head request is taken from the queue of port n (R161). -/
def State.dequeue (s : State) (n : Port) : State :=
  s.setPort n { s.port n with requestQueue := (s.port n).requestQueue.tail }

/-- The head request of port n is taken and answered at once: the executor is IDLE again (R161). -/
def State.answer (s : State) (n : Port) (r : Reply) : State := (s.dequeue n).postReply n r

/-- The head request of port n is taken and the executor goes RUNNING on it, with its first cycle on slot k (R26, R39). R39
gives the walk position and the hops a meaning only while a walk runs. For a request that makes no walk they hold the slot of
its cycle and 0, and after the check walk of a LINK what that walk left: the model's choice (log 21, DESIGN CHOICE). -/
def State.begin (s : State) (n : Port) (rq : Request) (w : Work) (k : Slot) : State :=
  ((s.dequeue n).setExecutor n
    { state := .running w, current := some rq, walkPos := k, hops := 0, abandoned := false }).arbitrate

/-- The request whose cycle of the sort given is in progress for the executor of port n. -/
def State.cycleOf (s : State) (n : Port) (w : Work) : Option Request :=
  if s.inProgress = some (.executor n) ∧ (s.executor n).state = .running w then (s.executor n).current else none

/-- What a cycle leaves its request with (R25): a next cycle, a finished reply, or no reply now. -/
inductive CycleEnd
  | goOn (w : Work) (k : Slot) (hops : Nat)
  | finish (r : Reply)
  | endSilent
  deriving DecidableEq, Repr

/-- The completion of a cycle of the executor of port n, its writes and other postings made (R25): an abandoned request
stops with no reply (R131); otherwise it goes on, or ends with its reply; then a due entry to CLEARING, ahead of which a free
value may put the first test of a LOSS record whose executor stops here (R134; log 10), and the arbiter. -/
def State.complete (s : State) (n : Port) (o : CycleEnd) : State :=
  let s := { s with inProgress := none }
  let e := s.executor n
  let s :=
    if e.abandoned then s.endRequest n
    else match o with
      | .goOn w k hops => s.setExecutor n { e with state := .running w, walkPos := k, hops := hops }
      | .finish r => (s.postReply n r).endRequest n
      | .endSilent => s.endRequest n
  s.afterCompletion

end Sys2Proof.Machine
end

