-- ==== Sys2Proof/Machine/Receive.lean ====
section
/-! DEFINITION. The receive framer and admission: SYNC_BYTE_FOUND, FRAME_BYTE_RECEIVED, LENGTH_ERROR, FRAME_COMPLETE. -/

namespace Sys2Proof.Machine

/-- Port n takes bits from PnDI: neither the part nor the port is held in reset (R155). -/
def State.listens (s : State) (n : Port) : Bool := !s.held && (s.link n).lineHigh

/-- The framer is back in HUNT, with nothing to measure (R157). Ticks delivered to it and not yet taken are dropped: it takes
them as ticks of HUNT, and they never count against a later frame. The manual is silent there (log 25, DESIGN CHOICE). -/
def PortLink.toHunt (l : PortLink) : PortLink := { l with framer := .hunt, byteTicks := 0, framerDue := 0 }

/-- A byte has been received: the framer moves on and the truncation measure restarts (R157). -/
def PortLink.receive (l : PortLink) (f : Framer) : PortLink := { l with framer := f, byteTicks := 0 }

/-- A place for an acknowledgment, or the frames-dropped flag where there is none (R158). -/
def PortLink.acknowledge (l : PortLink) (a : Ack) : PortLink :=
  if l.ackBuffer.length < Config.ackPlaces then { l with ackBuffer := l.ackBuffer ++ [a] }
  else { l with framesDropped := true }

/-- A fault of the framer: acknowledged with tag none and request code 00h, and back to HUNT (R157). -/
def PortLink.fault (l : PortLink) (r : AckResult) : PortLink :=
  l.toHunt.acknowledge { tag := none, code := 0x00#8, result := r }

/-- SYNC_BYTE_FOUND (R157): in HUNT the byte alignment is taken and the framer goes to LENGTH. The truncation measure starts
from this byte, with no tick left over (log 25, DESIGN CHOICE). -/
def execSyncByteFound (n : Port) (s : State) : Host.Outcome State Fault Refusal :=
  .next
    (if s.listens n ∧ (s.link n).framer = .hunt then
      s.setLink n { s.link n with framer := .length, byteTicks := 0, framerDue := 0 }
    else s)

/-- The framer after one more byte of a frame (R157), where that byte neither ends the frame nor is a wrong length. -/
def Framer.next (f : Framer) (b : Byte) : Option Framer :=
  match f with
  | .hunt => none
  | .length => if lengthByteOk b then some (.body b []) else none
  | .body len got =>
    if got.length + 1 < len.toNat then some (.body len (got ++ [b])) else some (.check len (got ++ [b]) none)
  | .check len bytes none => some (.check len bytes (some b))
  | .check _ _ (some _) => none

/-- FRAME_BYTE_RECEIVED (R157): a good length byte, a body byte, or the first check byte. -/
def execFrameByteReceived (n : Port) (b : Byte) (s : State) : Host.Outcome State Fault Refusal :=
  .next
    (if s.listens n then
      match (s.link n).framer.next b with
      | some f => s.setLink n ((s.link n).receive f)
      | none => s
    else s)

/-- LENGTH_ERROR (R157): in LENGTH, a length byte of 0, 1, or 16 and above. -/
def execLengthError (n : Port) (b : Byte) (s : State) : Host.Outcome State Fault Refusal :=
  .next
    (if s.listens n ∧ (s.link n).framer = .length ∧ lengthByteOk b = false then
      s.setLink n ((s.link n).fault .lengthError)
    else s)

/-- The admission tests in their order (R159): the result, with the request where its code and operands spell one. -/
def State.admission (s : State) (n : Port) (tag : Tag) (op : Option RequestOp) : AckResult :=
  if s.device = .init then .notReady
  else match op with
    | none => .unknownRequest
    | some op =>
      match portStateRefusal (s.port n) op with
      | some r => r
      | none =>
        if Config.outstandingLimit ≤ (s.port n).tags.length then .outstandingFull
        else if tag ∈ (s.port n).tags then .tagInUse
        else .accepted

/-- The lease timer's start value (R124, R127): stopped for a lease of 0. -/
def leaseStart (lease : Nat) : Option Nat := if lease = 0 then none else some lease

/-- An ACCEPTED request joins the queue with its tag in use (R159, R160); in ATTACHED with the detach-pending mark clear
the lease timer restarts (R127), and a DETACH sets the mark and stops the timer (R128). -/
def PortControl.accept (c : PortControl) (rq : Request) : PortControl :=
  let c1 := { c with requestQueue := c.requestQueue ++ [rq], tags := c.tags ++ [rq.tag] }
  if c.portState = .attached ∧ c.detachPending = false then
    if rq.op = .detach then { c1 with detachPending := true, leaseTimer := none, leaseDue := 0 }
    else { c1 with leaseTimer := leaseStart c.lease }
  else c1

/-- A complete frame of correct length, or of unknown request code, at the Port Controller (R157 to R159): dropped where
the acknowledgment buffer is full, and otherwise admitted or rejected, with its acknowledgment. -/
def State.admitFrame (s : State) (n : Port) (code tagByte : Byte) (operands : List Byte) : State :=
  let tag : Tag := tagByte.setWidth 4
  let op := readOperands code operands
  let result := s.admission n tag op
  let t := s.setLink n ((s.link n).toHunt.acknowledge { tag := some tag, code := code, result := result })
  if (s.link n).ackBuffer.length < Config.ackPlaces ∧ result = .accepted then
    match op with
    | some op => t.setPort n ((s.port n).accept { tag := tag, op := op })
    | none => t
  else t

/-- A frame whose last check byte has been received (R157): FRAME_ERROR on a wrong check, LENGTH_ERROR on a length other
than its request code's, and otherwise admission. -/
def State.frameEnds (s : State) (n : Port) (len : Byte) (body : List Byte) (high low : Byte) : State :=
  if frameCheck len body = high ++ low then
    match body with
    | code :: tagByte :: operands =>
      if (requestLength code).any (fun l => decide (l ≠ body.length)) then
        s.setLink n ((s.link n).fault .lengthError)
      else s.admitFrame n code tagByte operands
    | _ => s.setLink n ((s.link n).fault .lengthError)
  else s.setLink n ((s.link n).fault .frameError)

/-- FRAME_COMPLETE (R157, R159): in CHECK with one check byte received, the second. -/
def execFrameComplete (n : Port) (b : Byte) (s : State) : Host.Outcome State Fault Refusal :=
  .next
    (if s.listens n then
      match (s.link n).framer with
      | .check len body (some high) => s.frameEnds n len body high b
      | .hunt | .length | .body _ _ | .check _ _ none => s
    else s)

end Sys2Proof.Machine
end

