-- ==== Sys2Proof/Machine/Session.lean ====
section
/-! DEFINITION. The requests that need no store cycle: ATTACH, DETACH, STATUS, CREDIT, SET_EVENTS, FORCE_DETACH,
CLEAR_DIRECTORY. Each is taken from the head of its port's request queue by an IDLE executor (R39, R161). -/

namespace Sys2Proof.Machine

/-- A request whose operands fail their examination ends BAD_ARGUMENT, its named slot as the frame gave it; otherwise it
proceeds (R161). -/
def State.examine (s : State) (n : Port) (rq : Request) (proceed : State) : State :=
  if rq.op.operandsOk then proceed else s.answer n (bareReply rq .badArgument)

/-- The session counter after an ATTACH: 255 is followed by 1 (R124). -/
def nextSession (k : Nat) : Nat := if k = 255 then 1 else k + 1

/-- What the ATTACH act does to the attaching port's controller (R124). -/
def PortControl.attach (c : PortControl) (lease : Nat) (m : EventMask) (f : Bool) : PortControl :=
  { c with
    session := nextSession c.session, portState := .attached, detachPending := false
    lease := lease, leaseTimer := leaseStart lease, leaseDue := 0, mask := m, suppressOwn := f
    credits := 0, eventQueue := [], seqCounter := 0 }

/-- The ATTACH act of port n (R124). -/
def State.attachAct (s : State) (n : Port) (rq : Request) (lease : Nat) (m : EventMask) (f : Bool) : State :=
  let s := s.dequeue n
  let s := s.setPort n ((s.port n).attach lease m f)
  let s := s.postReply n { bareReply rq .ok with extra := .session (s.port n).session }
  s.postNotice .portAttached n none

/-- ATTACH (R124, R125): in OPEN a session is opened; in ATTACHED it is answered ALREADY_ATTACHED. It cannot find its
port CLOSING or DOWN (R125; log 20). -/
def execAttach (n : Port) (s : State) : Host.Outcome State Fault Refusal :=
  .next
    (match s.nextRequest n with
    | some rq =>
      match rq.op with
      | .attach lease m f =>
        s.examine n rq
          (match s.portState n, maskOfCode m, flagOfCode f with
          | .opened, some mask, some flag => s.attachAct n rq lease mask flag
          | .attached, _, _ => s.answer n (bareReply rq .alreadyAttached)
          | _, _, _ => s)
      | _ => s
    | none => s)

/-- What the DETACH act does to the detaching port's controller (R129). -/
def PortControl.detach (c : PortControl) : PortControl :=
  { c with
    portState := .closing, linkDown := false, detachPending := false, leaseTimer := none, leaseDue := 0
    eventQueue := [], credits := 0 }

/-- The DETACH act of port n (R129): its wait records end CANCELLED (R93), its sweep record is appended, and the others
are told. -/
def State.detachAct (s : State) (n : Port) (tag : Tag) : State :=
  let parked := s.waits.filter (fun w => decide (w.port = n))
  let s := s.dequeue n
  let s := s.setPort n (s.port n).detach
  let s := (s.dropWaitsOf n).postReplies
    (fun p => if p = n then parked.map (fun w => waitReply w .cancelled none none) else [])
  let s := { s with sweeps := s.sweeps ++
    [SweepRecord.mk n (.detach (some tag) { keep := 0, release := 0, drop := 0, restore := 0 })] }
  s.postNotice .portDetached n none

/-- DETACH (R129): taken in ATTACHED, the only state in which it is admitted and not discarded (R123, R130). -/
def execDetach (n : Port) (s : State) : Host.Outcome State Fault Refusal :=
  .next
    (match s.nextRequest n with
    | some rq => if rq.op = .detach ∧ s.portState n = .attached then s.detachAct n rq.tag else s
    | none => s)

/-- The free-list length that a request finds. No request observes the directory part-way through a pass (R34): from the
completion of the pass's first cycle, which sets the tallies to 0 (R33, R139), the length is the 3840 that the completed pass
leaves, though the pass has yet to append slots (log 26, DEDUCED). -/
def State.freeLength (s : State) : Nat :=
  if s.device ≠ .ready ∧ 0 < s.passPos then Config.slots - Config.fixedSlots else s.freeList.length

/-- The figures of a STATUS reply of port n, all read in the one act (R171). -/
def State.figures (s : State) (n : Port) : StatusFigures :=
  { portState := s.portState n, session := (s.port n).session, outstanding := (s.port n).tags.length
    credits := (s.port n).credits, eventDepth := (s.port n).eventQueue.length
    owned := (s.tallies.get n).owned, watch := (s.tallies.get n).watch
    device := s.device, freeLength := s.freeLength, waits := s.waits.length, sweeps := s.sweeps.length }

/-- STATUS (R171). -/
def execStatus (n : Port) (s : State) : Host.Outcome State Fault Refusal :=
  .next
    (match s.nextRequest n with
    | some rq =>
      if rq.op = .status then s.answer n { bareReply rq .ok with extra := .status (s.figures n) } else s
    | none => s)

/-- The credit counter after n more credits, saturating (R150). -/
def addCredits (have_ n : Nat) : Nat := min (have_ + n) Config.creditLimit

/-- CREDIT (R150). -/
def execCredit (n : Port) (s : State) : Host.Outcome State Fault Refusal :=
  .next
    (match s.nextRequest n with
    | some rq =>
      match rq.op with
      | .credit k =>
        s.examine n rq
          (let total := addCredits (s.port n).credits k.toNat
          let s := s.dequeue n
          (s.setPort n { s.port n with credits := total }).postReply n { bareReply rq .ok with extra := .credits total })
      | _ => s
    | none => s)

/-- SET_EVENTS (R151). -/
def execSetEvents (n : Port) (s : State) : Host.Outcome State Fault Refusal :=
  .next
    (match s.nextRequest n with
    | some rq =>
      match rq.op with
      | .setEvents m f =>
        s.examine n rq
          (match maskOfCode m, flagOfCode f with
          | some mask, some flag =>
            let c := s.port n
            let s := s.dequeue n
            (s.setPort n { s.port n with mask := mask, suppressOwn := flag }).postReply n
              { bareReply rq .ok with extra := .previousSettings c.mask c.suppressOwn }
          | _, _ => s)
      | _ => s
    | none => s)

/-- The maintenance requests' second test (R167): NOT_PERMITTED from a port that is not the maintenance port. -/
def State.ifMaintenance (s : State) (n : Port) (rq : Request) (proceed : State) : State :=
  if s.isMaintenance n then proceed else s.answer n (bareReply rq .notPermitted)

/-- The act of a permitted FORCE_DETACH on port p (R169). One that names its own port loses its own session, and no
reply is sent. -/
def State.forceAct (s : State) (n : Port) (rq : Request) (p : Port) : State :=
  match s.portState p with
  | .attached =>
    let t := (s.dequeue n).startLoss p .forced
    if p = n then t else t.postReply n { bareReply rq .ok with extra := .alreadyClosing false }
  | .closing => s.answer n { bareReply rq .ok with extra := .alreadyClosing true }
  | .opened | .down => s.answer n (bareReply rq .notAttached)

/-- FORCE_DETACH (R169). -/
def execForceDetach (n : Port) (s : State) : Host.Outcome State Fault Refusal :=
  .next
    (match s.nextRequest n with
    | some rq =>
      match rq.op with
      | .forceDetach code =>
        s.examine n rq
          (s.ifMaintenance n rq
            (match portOfCode code with
            | some p => s.forceAct n rq p
            | none => s))
      | _ => s
    | none => s)

/-- The executor of port n goes RUNNING on its CLEAR_DIRECTORY (R39, R170). -/
def State.beginClear (s : State) (n : Port) (rq : Request) (w : Work) : State :=
  (s.dequeue n).setExecutor n { state := .running w, current := some rq, walkPos := 0, hops := 0, abandoned := false }

/-- CLEAR_DIRECTORY (R36, R170): entry to CLEARING at once, or at the completion of the cycle in progress; while a pass
runs, a wait for its end. -/
def execClearDirectory (n : Port) (s : State) : Host.Outcome State Fault Refusal :=
  .next
    (match s.nextRequest n with
    | some rq =>
      if rq.op = .clearDirectory then
        s.ifMaintenance n rq
          (if s.device = .ready then
            if s.inProgress = none then (s.beginClear n rq .clearing).enterClearing
            else { s.beginClear n rq .clearing with clearDue := true }
          else s.beginClear n rq .awaitPass)
      else s
    | none => s)

end Sys2Proof.Machine
end

