-- ==== Sys2Proof/Machine/Begin.lean ====
section
/-! DEFINITION. The executor of a port takes a request that needs store cycles: it examines the operands and presents
the first cycle, or, for a LINK, requests the link token (R39, R48, R161). -/

namespace Sys2Proof.Machine

/-- READ (R40): a walk from the named slot. -/
def execRead (n : Port) (s : State) : Host.Outcome State Fault Refusal :=
  .next
    (match s.nextRequest n with
    | some rq =>
      match rq.op with
      | .read k => s.examine n rq (s.begin n rq .walk k)
      | _ => s
    | none => s)

/-- PUT (R66): a walk from the named slot. -/
def execPut (n : Port) (s : State) : Host.Outcome State Fault Refusal :=
  .next
    (match s.nextRequest n with
    | some rq =>
      match rq.op with
      | .put k _ _ _ => s.examine n rq (s.begin n rq .walk k)
      | _ => s
    | none => s)

/-- TAKE (R73): a walk from the named slot. -/
def execTake (n : Port) (s : State) : Host.Outcome State Fault Refusal :=
  .next
    (match s.nextRequest n with
    | some rq =>
      match rq.op with
      | .take k _ => s.examine n rq (s.begin n rq .walk k)
      | _ => s
    | none => s)

/-- A token request from the executor of port n (R49): granted at once when the token is FREE, and otherwise queued. -/
def State.requestToken (s : State) (n : Port) (rq : Request) (target : Slot) : State :=
  let s := s.dequeue n
  let e : Executor := { state := .tokenWait, current := some rq, walkPos := 0, hops := 0, abandoned := false }
  match s.serial.token with
  | .free =>
    (State.setExecutor { s with serial := { s.serial with token := .held n } } n
      { e with state := .running .checkWalk, walkPos := target }).arbitrate
  | .held _ | .recalled =>
    State.setExecutor { s with serial := { s.serial with queue := s.serial.queue ++ [n] } } n e

/-- LINK (R48): the range checks, then the token request. -/
def execLink (n : Port) (s : State) : Host.Outcome State Fault Refusal :=
  .next
    (match s.nextRequest n with
    | some rq =>
      match rq.op with
      | .link _ t => s.examine n rq (s.requestToken n rq t)
      | _ => s
    | none => s)

/-- CLEAR (R77). -/
def execClear (n : Port) (s : State) : Host.Outcome State Fault Refusal :=
  .next
    (match s.nextRequest n with
    | some rq =>
      match rq.op with
      | .clear k => s.examine n rq (s.begin n rq .single k)
      | _ => s
    | none => s)

/-- CHECKPOINT (R79). -/
def execCheckpoint (n : Port) (s : State) : Host.Outcome State Fault Refusal :=
  .next
    (match s.nextRequest n with
    | some rq =>
      match rq.op with
      | .checkpoint k => s.examine n rq (s.begin n rq .single k)
      | _ => s
    | none => s)

/-- WATCH (R141). -/
def execWatch (n : Port) (s : State) : Host.Outcome State Fault Refusal :=
  .next
    (match s.nextRequest n with
    | some rq =>
      match rq.op with
      | .watch k => s.examine n rq (s.begin n rq .single k)
      | _ => s
    | none => s)

/-- UNWATCH (R142). -/
def execUnwatch (n : Port) (s : State) : Host.Outcome State Fault Refusal :=
  .next
    (match s.nextRequest n with
    | some rq =>
      match rq.op with
      | .unwatch k => s.examine n rq (s.begin n rq .single k)
      | _ => s
    | none => s)

/-- ALLOC (R96): one cycle on the free list; the slot is read at its grant. -/
def execAlloc (n : Port) (s : State) : Host.Outcome State Fault Refusal :=
  .next
    (match s.nextRequest n with
    | some rq =>
      match rq.op with
      | .alloc _ _ _ => s.examine n rq (s.begin n rq .single 0)
      | _ => s
    | none => s)

/-- RETIRE (R100). -/
def execRetire (n : Port) (s : State) : Host.Outcome State Fault Refusal :=
  .next
    (match s.nextRequest n with
    | some rq =>
      match rq.op with
      | .retire k => s.examine n rq (s.begin n rq .single k)
      | _ => s
    | none => s)

/-- CLAIM (R109). -/
def execClaim (n : Port) (s : State) : Host.Outcome State Fault Refusal :=
  .next
    (match s.nextRequest n with
    | some rq =>
      match rq.op with
      | .claim k _ _ _ => s.examine n rq (s.begin n rq .single k)
      | _ => s
    | none => s)

/-- RELEASE (R110). -/
def execRelease (n : Port) (s : State) : Host.Outcome State Fault Refusal :=
  .next
    (match s.nextRequest n with
    | some rq =>
      match rq.op with
      | .release k => s.examine n rq (s.begin n rq .single k)
      | _ => s
    | none => s)

/-- ADOPT (R111). -/
def execAdopt (n : Port) (s : State) : Host.Outcome State Fault Refusal :=
  .next
    (match s.nextRequest n with
    | some rq =>
      match rq.op with
      | .adopt k _ _ _ => s.examine n rq (s.begin n rq .single k)
      | _ => s
    | none => s)

/-- SET_ACCESS (R112). -/
def execSetAccess (n : Port) (s : State) : Host.Outcome State Fault Refusal :=
  .next
    (match s.nextRequest n with
    | some rq =>
      match rq.op with
      | .setAccess k _ _ _ => s.examine n rq (s.begin n rq .single k)
      | _ => s
    | none => s)

/-- INSPECT (R167, R168): the maintenance role is tested after the operands. -/
def execInspect (n : Port) (s : State) : Host.Outcome State Fault Refusal :=
  .next
    (match s.nextRequest n with
    | some rq =>
      match rq.op with
      | .inspect k => s.examine n rq (s.ifMaintenance n rq (s.begin n rq .single k))
      | _ => s
    | none => s)

/-- BREAK_WAIT (R92, R167): the maintenance role is tested after the operands. -/
def execBreakWait (n : Port) (s : State) : Host.Outcome State Fault Refusal :=
  .next
    (match s.nextRequest n with
    | some rq =>
      match rq.op with
      | .breakWait k => s.examine n rq (s.ifMaintenance n rq (s.begin n rq .single k))
      | _ => s
    | none => s)

end Sys2Proof.Machine
end

