-- ==== Sys2Proof/Machine/Reset.lean ====
section
/-! DEFINITION. Device reset, the initialization and clearing passes, and the port reset lines:
DEVICE_RESET, RESET_N_HIGH, PASS_CYCLE, PORT_RESET_LOW, PORT_RESET_HIGH. -/

namespace Sys2Proof.Machine

/-- The part held in device reset (R32): every block at its device-reset state, a cycle or pass under way abandoned.
The entries, rows and free list stand until the pass rewrites them (log 16); the input lines and the latched strap are as
they were. -/
def State.hold (s : State) : State :=
  { s with
    held := true, device := .init, passPos := 0, clearDue := false
    tallies := .same { owned := 0, watch := 0 }
    inProgress := none, lastGranted := .sweeper
    execs := .same .idle, waits := [], waitDue := 0
    serial := { token := .free, queue := [] }
    sweeps := [], sweepPos := 0, sweepVisit := false
    ports := s.ports.mapPorts (fun p _ => .reset (s.link p).lineHigh)
    links := s.links.mapPorts (fun _ l => .reset l.lineHigh) }

/-- DEVICE_RESET (R32). -/
def execDeviceReset (s : State) : Host.Outcome State Fault Refusal := .next s.hold

/-- Leaving reset (R32): the strap is latched (R166), each port state is set by its line (R121), the pass begins at slot 0. -/
def State.leaveReset (s : State) (strap : BitVec 3) : State :=
  { s with
    held := false, maint := strap, passPos := 0
    ports := s.ports.mapPorts (fun p c => { c with portState := if (s.link p).lineHigh then .opened else .down }) }

/-- RESET_N_HIGH (R32): an act of a part that is held in reset. -/
def execResetNHigh (strap : BitVec 3) (s : State) : Host.Outcome State Fault Refusal :=
  .next (if s.held then s.leaveReset strap else s)

/-- The writes of the pass's cycle on slot k (R33). -/
def State.passWrite (s : State) (k : Slot) : State :=
  let s := if k = 0 then { s with tallies := .same { owned := 0, watch := 0 }, freeList := [] } else s
  let s := (s.setEntry k .default).setRow k (.default k)
  if k < Config.fixedSlots then s else { s with freeList := s.freeList ++ [k] }

/-- The executor stands on the CLEAR_DIRECTORY that caused the running pass (R36, R170). -/
def Executor.awaitsPassEnd (e : Executor) : Bool := decide (e.state = .running .clearing)

/-- The executor's CLEAR_DIRECTORY waits to cause a new entry to CLEARING (R36). -/
def Executor.awaitsEntry (e : Executor) : Bool := decide (e.state = .running .awaitPass)

/-- The CLEAR_DIRECTORY that caused the pass is answered OK, and its executor goes IDLE (R38, R170). -/
def State.answerClear (s : State) : State :=
  { s.postReplies (fun p =>
      if (s.executor p).awaitsPassEnd then ((s.executor p).current.map (fun rq => bareReply rq .ok)).toList else []) with
    execs := s.execs.mapPorts (fun _ e => if e.awaitsPassEnd then .idle else e) }

/-- A CLEAR_DIRECTORY that waited for the running pass becomes the one that causes the next entry (R36). -/
def State.promoteClear (s : State) : State :=
  { s with execs := s.execs.mapPorts (fun _ e => if e.awaitsEntry then { e with state := .running .clearing } else e) }

/-- The completion of a pass (R35, R38): the device is READY, the CLEAR_DIRECTORY is answered, and a waiting
CLEAR_DIRECTORY causes a new entry before any other cycle is granted (R36), the Sweeper's first tests of records appended
during the pass coming ahead of it or not (log 10). -/
def State.passComplete (s : State) : State :=
  let s := { s with device := .ready, passPos := 0 }
  let s := s.answerClear
  if Port.all.any (fun p => (s.executor p).awaitsEntry) then
    (s.promoteClear.testsAhead s.sweeps.length).enterClearing
  else s.arbitrate

/-- PASS_CYCLE (R33): an act of a part out of reset, in INIT or CLEARING. -/
def execPassCycle (s : State) : Host.Outcome State Fault Refusal :=
  .next
    (if s.held = false ∧ s.device ≠ .ready then
      let k := s.passPos
      let t := s.passWrite k
      let t := if k = 0 ∧ s.device = .clearing then t.removeSweeps else t
      if k + 1 < Config.slots then { t with passPos := k + 1 } else t.passComplete
    else s)

/-- PRSTn_N low flushes a port outside ATTACHED: its queues and its outstanding requests (R122, R132). -/
def PortControl.flush (c : PortControl) : PortControl :=
  { c with requestQueue := [], replyQueue := [], eventQueue := [], tags := [] }

/-- The DETACH reply owed for port n is to be discarded (R132). -/
def SweepRecord.forgetTag (n : Port) (r : SweepRecord) : SweepRecord :=
  match r.kind with
  | .detach _ counts => if r.port = n then { r with kind := .detach none counts } else r
  | .loss _ => r

/-- The falling edge of PRSTn_N by port state (R122, R132), the link reset first (R164). -/
def State.lineFalls (s : State) (n : Port) : State :=
  let s := s.setLink n (.reset false)
  match (s.port n).portState with
  | .down => s
  | .opened => s.setPort n { (s.port n).flush with portState := .down }
  | .attached => s.startLoss n .linkReset
  | .closing =>
    { s.setPort n { (s.port n).flush with linkDown := true } with sweeps := s.sweeps.map (SweepRecord.forgetTag n) }

/-- PORT_RESET_LOW (R122): an edge of a line that is high. -/
def execPortResetLow (n : Port) (s : State) : Host.Outcome State Fault Refusal :=
  .next (if (s.link n).lineHigh then s.lineFalls n else s)

/-- The rising edge of PRSTn_N by port state (R122), the framer hunting (R164). -/
def State.lineRises (s : State) (n : Port) : State :=
  let s := s.setLink n { s.link n with lineHigh := true, framer := .hunt }
  match (s.port n).portState with
  | .down => s.setPort n { s.port n with portState := .opened }
  | .closing => s.setPort n { s.port n with linkDown := false }
  | .opened | .attached => s

/-- PORT_RESET_HIGH (R122): an edge of a line that is low. -/
def execPortResetHigh (n : Port) (s : State) : Host.Outcome State Fault Refusal :=
  .next (if (s.link n).lineHigh then s else s.lineRises n)

end Sys2Proof.Machine
end

