-- ==== Sys2Proof/Machine/Single.lean ====
section
/-! DEFINITION. The single cycles of requests that act on the named entry, or on the head of the free list: CLEAR_CYCLE,
CHECKPOINT_CYCLE, WATCH_CYCLE, UNWATCH_CYCLE, ALLOC_CYCLE, RETIRE_CYCLE, CLAIM_CYCLE, RELEASE_CYCLE, ADOPT_CYCLE,
SET_ACCESS_CYCLE, INSPECT_CYCLE, BREAK_WAIT_CYCLE. -/

namespace Sys2Proof.Machine

/-- The cycle ends its request with a status and its named slot, and nothing else (R24). -/
def State.refuse (s : State) (n : Port) (rq : Request) (st : Status) : State :=
  s.complete n (.finish (bareReply rq st))

/-- The allocation test of a single cycle (R2, R11). -/
def State.ifAllocated (s : State) (n : Port) (rq : Request) (k : Slot) (proceed : State) : State :=
  if s.allocated k then proceed else s.refuse n rq .unallocated

/-- CLEAR empties a VALUE or FORWARD entry and returns what stood there (R77, R78). -/
def State.clearEntry (s : State) (n : Port) (rq : Request) (k : Slot) : State :=
  let e := s.entry k
  if e.content = .empty then
    s.complete n (.finish { bareReply rq .ok with content := some .empty, version := some e.version })
  else
    let ver := e.version + 1
    let s := (s.setEntry k { e with content := .empty, version := ver }).dropForward e.content
    let s := s.postEntryEvent e.watch .entryCleared k ver none (.port n)
    s.complete n (.finish { bareReply rq .ok with content := some e.content, version := some ver })

/-- CLEAR_CYCLE (R77). -/
def execClearCycle (n : Port) (s : State) : Host.Outcome State Fault Refusal :=
  .next
    (match s.cycleOf n .single with
    | some rq =>
      match rq.op with
      | .clear k =>
        s.ifAllocated n rq k
          (match modifyRefusal s.portState n (s.entry k) with
          | some st => s.refuse n rq st
          | none => s.clearEntry n rq k)
      | _ => s
    | none => s)

/-- CHECKPOINT writes the saved field from the content, or is refused on a forward (R79). -/
def State.checkpointEntry (s : State) (n : Port) (rq : Request) (k : Slot) : State :=
  let e := s.entry k
  let reply (st : Status) : Reply := { bareReply rq st with content := some e.content, version := some e.version }
  match e.content with
  | .forward _ => s.complete n (.finish (reply .isForward))
  | .empty => (s.setEntry k { e with saved := .empty }).complete n (.finish (reply .ok))
  | .value v => (s.setEntry k { e with saved := .value v }).complete n (.finish (reply .ok))

/-- CHECKPOINT_CYCLE (R79). -/
def execCheckpointCycle (n : Port) (s : State) : Host.Outcome State Fault Refusal :=
  .next
    (match s.cycleOf n .single with
    | some rq =>
      match rq.op with
      | .checkpoint k =>
        s.ifAllocated n rq k
          (match modifyRefusal s.portState n (s.entry k) with
          | some st => s.refuse n rq st
          | none => s.checkpointEntry n rq k)
      | _ => s
    | none => s)

/-- WATCH_CYCLE (R141). -/
def execWatchCycle (n : Port) (s : State) : Host.Outcome State Fault Refusal :=
  .next
    (match s.cycleOf n .single with
    | some rq =>
      match rq.op with
      | .watch k =>
        s.ifAllocated n rq k
          (let e := s.entry k
          let reply : Reply :=
            { bareReply rq .ok with
              content := some e.content, version := some e.version, extra := .wasWatching (e.watch.get n) }
          let t := if e.watch.get n then s else (s.setEntry k { e with watch := e.watch.set n true }).raiseWatch n
          t.complete n (.finish reply))
      | _ => s
    | none => s)

/-- UNWATCH_CYCLE (R142). -/
def execUnwatchCycle (n : Port) (s : State) : Host.Outcome State Fault Refusal :=
  .next
    (match s.cycleOf n .single with
    | some rq =>
      match rq.op with
      | .unwatch k =>
        s.ifAllocated n rq k
          (let e := s.entry k
          let reply : Reply := { bareReply rq .ok with version := some e.version, extra := .wasWatching (e.watch.get n) }
          let t := if e.watch.get n then (s.setEntry k { e with watch := e.watch.set n false }).lowerWatch n else s
          t.complete n (.finish reply))
      | _ => s
    | none => s)

/-- ALLOC on a list that holds a slot: the head is removed, allocated and owned by the requester (R97). -/
def State.allocHead (s : State) (n : Port) (rq : Request) (k : Slot) (rest : List Slot) (a : Access) : State :=
  let e := s.entry k
  let s := { s with freeList := rest }
  let s := s.setRow k { s.row k with allocated := true }
  let s := s.setEntry k { e with owner := some n, orphaned := false, access := a }
  let s := s.raiseOwned n
  s.complete n (.finish { bareReply rq .ok with version := some e.version, extra := .slotAllocated k })

/-- ALLOC_CYCLE (R97, R98). -/
def execAllocCycle (n : Port) (s : State) : Host.Outcome State Fault Refusal :=
  .next
    (match s.cycleOf n .single with
    | some rq =>
      match rq.op with
      | .alloc d pf tf =>
        match accessOfCodes d pf tf, s.freeList with
        | some a, k :: rest => s.allocHead n rq k rest a
        | some _, [] => s.refuse n rq .poolEmpty
        | none, _ => s
      | _ => s
    | none => s)

/-- Retirement of slot k (R101): the entry to its defaults but for the version given, every watch on it ended, the row
unallocated, the slot at the tail of the free list. -/
def State.retireSlot (s : State) (k : Slot) (ver : Version) (watchers : PerPort Bool) : State :=
  let s := (s.setEntry k { Entry.default with version := ver }).lowerWatchers watchers
  let s := s.setRow k { s.row k with allocated := false }
  { s with freeList := s.freeList ++ [k] }

/-- A RETIRE that passes its tests (R101, R102). -/
def State.retireEntry (s : State) (n : Port) (rq : Request) (k : Slot) : State :=
  let e := s.entry k
  let ver := e.version + 1
  let s := if e.owner = some n then s.lowerOwned n else s
  let s := s.retireSlot k ver e.watch
  let s := s.postEntryEvent e.watch .entryRetired k ver none (.port n)
  s.complete n (.finish { bareReply rq .ok with version := some ver })

/-- RETIRE_CYCLE (R100): its tests in their order. -/
def execRetireCycle (n : Port) (s : State) : Host.Outcome State Fault Refusal :=
  .next
    (match s.cycleOf n .single with
    | some rq =>
      match rq.op with
      | .retire k =>
        if k < Config.fixedSlots then s.refuse n rq .fixedSlot
        else s.ifAllocated n rq k
          (match modifyRefusal s.portState n (s.entry k) with
          | some st => s.refuse n rq st
          | none =>
            let e := s.entry k
            if e.content ≠ .empty then
              s.complete n
                (.finish { bareReply rq .notEmpty with content := some e.content, version := some e.version })
            else if s.inbound k ≠ 0 then
              s.complete n (.finish { bareReply rq .referenced with extra := .inbound (s.inbound k) })
            else if s.waitsOn k ≠ 0 then
              s.complete n (.finish { bareReply rq .waitersPresent with extra := .waiters (s.waitsOn k) })
            else s.retireEntry n rq k)
      | _ => s
    | none => s)

/-- The entry becomes owned by port n under the terms given (R109, R111). -/
def State.own (s : State) (n : Port) (k : Slot) (a : Access) : State :=
  let e := s.entry k
  let s := (s.setEntry k { e with owner := some n, orphaned := false, access := a }).raiseOwned n
  s.postEntryEvent e.watch .ownerChanged k e.version none (.port n)

/-- CLAIM_CYCLE (R109). -/
def execClaimCycle (n : Port) (s : State) : Host.Outcome State Fault Refusal :=
  .next
    (match s.cycleOf n .single with
    | some rq =>
      match rq.op with
      | .claim k d pf tf =>
        s.ifAllocated n rq k
          (match claimRefusal s.portState (s.entry k), accessOfCodes d pf tf with
          | some (st, x), _ => s.complete n (.finish { bareReply rq st with extra := x })
          | none, some a =>
            (s.own n k a).complete n (.finish { bareReply rq .ok with version := some (s.entry k).version })
          | none, none => s)
      | _ => s
    | none => s)

/-- RELEASE_CYCLE (R110). -/
def execReleaseCycle (n : Port) (s : State) : Host.Outcome State Fault Refusal :=
  .next
    (match s.cycleOf n .single with
    | some rq =>
      match rq.op with
      | .release k =>
        s.ifAllocated n rq k
          (match ownerOnlyRefusal s.portState n (s.entry k) with
          | some st => s.refuse n rq st
          | none =>
            let e := s.entry k
            let s := (s.setEntry k { e with owner := none, orphaned := false }).lowerOwned n
            let s := s.postEntryEvent e.watch .ownerChanged k e.version none (.port n)
            s.complete n (.finish { bareReply rq .ok with version := some e.version }))
      | _ => s
    | none => s)

/-- ADOPT_CYCLE (R111). -/
def execAdoptCycle (n : Port) (s : State) : Host.Outcome State Fault Refusal :=
  .next
    (match s.cycleOf n .single with
    | some rq =>
      match rq.op with
      | .adopt k d pf tf =>
        s.ifAllocated n rq k
          (match adoptRefusal s.portState (s.entry k), accessOfCodes d pf tf with
          | some (st, x), _ => s.complete n (.finish { bareReply rq st with extra := x })
          | none, some a =>
            (s.own n k a).complete n
              (.finish { bareReply rq .ok with
                version := some (s.entry k).version, extra := .owner (s.entry k).owner })
          | none, none => s)
      | _ => s
    | none => s)

/-- SET_ACCESS_CYCLE (R112). -/
def execSetAccessCycle (n : Port) (s : State) : Host.Outcome State Fault Refusal :=
  .next
    (match s.cycleOf n .single with
    | some rq =>
      match rq.op with
      | .setAccess k d pf tf =>
        s.ifAllocated n rq k
          (match ownerOnlyRefusal s.portState n (s.entry k), accessOfCodes d pf tf with
          | some st, _ => s.refuse n rq st
          | none, some a =>
            let e := s.entry k
            (s.setEntry k { e with access := a }).complete n
              (.finish { bareReply rq .ok with version := some e.version, extra := .previousAccess e.access })
          | none, none => s)
      | _ => s
    | none => s)

/-- The extra figures of an INSPECT of slot k (R168). -/
def State.inspectFigures (s : State) (k : Slot) : InspectFigures :=
  let e := s.entry k
  { owner := e.owner, orphaned := e.orphaned, access := e.access, saved := e.saved, watch := e.watch
    allocated := s.allocated k, inbound := s.inbound k, waits := s.waitsOn k }

/-- INSPECT_CYCLE (R168). -/
def execInspectCycle (n : Port) (s : State) : Host.Outcome State Fault Refusal :=
  .next
    (match s.cycleOf n .single with
    | some rq =>
      match rq.op with
      | .inspect k =>
        s.ifAllocated n rq k
          (s.complete n
            (.finish { bareReply rq .ok with
              content := some (s.entry k).content, version := some (s.entry k).version
              extra := .inspect (s.inspectFigures k) }))
      | _ => s
    | none => s)

/-- BREAK_WAIT_CYCLE (R92). -/
def execBreakWaitCycle (n : Port) (s : State) : Host.Outcome State Fault Refusal :=
  .next
    (match s.cycleOf n .single with
    | some rq =>
      match rq.op with
      | .breakWait k =>
        s.ifAllocated n rq k
          ((s.endWaitsOn k .cancelled none none).complete n
            (.finish { bareReply rq .ok with extra := .broken (s.waitsOn k) }))
      | _ => s
    | none => s)

end Sys2Proof.Machine
end

