-- ==== Sys2Proof/Machine/Sweep.lean ====
section
/-! DEFINITION. The Recovery Sweeper: SWEEP_PASS_START and SWEEP_VISIT, with the four dispositions. -/

namespace Sys2Proof.Machine

/-- SWEEP_PASS_START (R134, R135): in READY, with a record at the head and no pass running. -/
def execSweepPassStart (s : State) : Host.Outcome State Fault Refusal :=
  .next
    (match s.sweeps with
    | r :: _ =>
      if s.device = .ready ∧ s.sweepVisit = false ∧ s.sweepMayStart r then
        (State.sweepTest { s with sweepPos := 0 }).arbitrate
      else s
    | [] => s)

/-- KEEP (R116): the entry becomes orphaned. -/
def State.applyKeep (s : State) (k : Slot) (e : Entry) : State :=
  (s.setEntry k { e with orphaned := true }).postEntryEvent e.watch .ownerChanged k e.version none .device

/-- RELEASE (R117): the entry becomes unowned. -/
def State.applyRelease (s : State) (k : Slot) (e : Entry) : State :=
  (s.setEntry k { e with owner := none, orphaned := false }).postEntryEvent e.watch .ownerChanged k e.version none .device

/-- DROP (R118) with the retirement test of R104. -/
def State.applyDrop (s : State) (k : Slot) (e : Entry) : State :=
  let ver := if e.content = .empty then e.version else e.version + 1
  let s := s.dropForward e.content
  if Config.fixedSlots ≤ k ∧ s.inbound k = 0 ∧ s.waitsOn k = 0 then
    (s.retireSlot k (ver + 1) e.watch).postEntryEvent e.watch .entryRetired k (ver + 1) none .device
  else
    (s.setEntry k { e with content := .empty, version := ver, owner := none, orphaned := false, saved := .absent }).postEntryEvent
      e.watch (if e.content = .empty then .ownerChanged else .entryDropped) k ver none .device

/-- RESTORE (R119): by the saved field and the content it finds. -/
def State.applyRestore (s : State) (k : Slot) (e : Entry) : State :=
  let e1 := { e with owner := none, orphaned := false, saved := .absent }
  let same := (s.setEntry k e1).postEntryEvent e.watch .ownerChanged k e.version none .device
  let ver := e.version + 1
  match e.saved with
  | .absent => same
  | .empty =>
    if e.content = .empty then same
    else
      ((s.setEntry k { e1 with content := .empty, version := ver }).dropForward e.content).postEntryEvent e.watch
        .entryRestored k ver none .device
  | .value v =>
    match e.content, s.oldestWait k with
    | .empty, some w =>
      ((s.setEntry k { e1 with version := ver }).handTo k w v ver).postEntryEvent e.watch .valueHanded k ver (some v)
        .device
    | c, _ =>
      if c = .value v then same
      else
        ((s.setEntry k { e1 with content := .value v, version := ver }).dropForward c).postEntryEvent e.watch
          .entryRestored k ver (some v) .device

/-- The disposition of entry e of slot k, owned by the swept port p, is applied (R115). -/
def State.applyDisposition (s : State) (p : Port) (k : Slot) (e : Entry) : State :=
  let s := s.lowerOwned p
  match e.access.disposition with
  | .keep => s.applyKeep k e
  | .release => s.applyRelease k e
  | .drop => s.applyDrop k e
  | .restore => s.applyRestore k e

/-- One more entry handled under a disposition (R133). -/
def DispositionCounts.raise (c : DispositionCounts) : Disposition → DispositionCounts
  | .keep => { c with keep := c.keep + 1 }
  | .release => { c with release := c.release + 1 }
  | .drop => { c with drop := c.drop + 1 }
  | .restore => { c with restore := c.restore + 1 }

/-- A DETACH record counts the disposition; a LOSS record counts none (R133, R136). -/
def SweepRecord.count (r : SweepRecord) (d : Disposition) : SweepRecord :=
  match r.kind with
  | .detach t c => { r with kind := .detach t (c.raise d) }
  | .loss _ => r

/-- The head record counts the disposition (R136). -/
def State.countDisposition (s : State) (d : Disposition) : State :=
  match s.sweeps with
  | r :: rest => { s with sweeps := r.count d :: rest }
  | [] => s

/-- The visit's work on slot k for the swept port p (R136): the port's watch removed, then the disposition of an entry the
port owns applied and counted. -/
def State.visit (s : State) (p : Port) (k : Slot) : State :=
  if s.allocated k = false then s
  else
    let e := s.entry k
    let e1 := { e with watch := e.watch.set p false }
    let s := if e.watch.get p then (s.setEntry k e1).lowerWatch p else s
    if e.owner = some p ∧ e.orphaned = false then
      (s.applyDisposition p k e1).countDisposition e.access.disposition
    else s

/-- What follows a visit to slot k (R135, R136, R137): the position rises, and the pass ends or the next visit is
presented; where an entry to CLEARING is due, a free value says whether the Sweeper does so ahead of it (log 10), and
`afterCompletion` has its tests of the next records. Where that entry comes after the visit to slot 4095 and before the
end of the pass, the position, which cannot rise to 4096 (R133), is 0: the model's choice (log 15, DESIGN CHOICE). -/
def State.afterVisit (s : State) (k : Slot) : State :=
  let s := { s with inProgress := none, sweepVisit := false, sweepPos := (k + 1) % Config.slots }
  if s.clearDue ∧ Config.sweeperTestsFirst s.freeIndex = false then s.afterCompletion
  else
    let t := if k + 1 < Config.slots then s.sweepTest else s.endPass
    (if s.clearDue then { t with freeIndex := t.freeIndex + 1 } else t).afterCompletion

/-- SWEEP_VISIT (R136): the granted visit of the head record's pass. -/
def execSweepVisit (s : State) : Host.Outcome State Fault Refusal :=
  .next
    (match s.sweeps with
    | r :: _ =>
      if s.inProgress = some .sweeper then (s.visit r.port s.sweepPos).afterVisit s.sweepPos else s
    | [] => s)

end Sys2Proof.Machine
end

