-- ==== Sys2Proof/Machine/TimeBase.lean ====
section
/-! DEFINITION. The Time Base: TICK, and the taking of the tick that ends a wait, a lease or a frame: WAIT_EXPIRY,
LEASE_EXPIRY, TRUNCATED_FRAME. A tick that ends nothing in a block is taken by it at once; one that would end something
stays delivered until the block takes it, so that either order against another act is a run (R90, R126, R127; log 8). -/

namespace Sys2Proof.Machine

/-- A record after one tick (R89). -/
def WaitRecord.tick (w : WaitRecord) : WaitRecord := { w with remaining := w.remaining.map (fun t => t - 1) }

/-- The record's remaining time has reached 0 (R89). -/
def WaitRecord.expired (w : WaitRecord) : Bool := decide (w.remaining = some 0)

/-- The Wait Table takes a tick, whole (R89): times lowered, expired records removed and answered TIMEOUT in arrival order. -/
def State.takeWaitTick (s : State) : State :=
  let lowered := s.waits.map WaitRecord.tick
  State.postReplies { s with waits := lowered.filter (fun w => !w.expired) }
    (fun p => (lowered.filter (fun w => w.expired && decide (w.port = p))).map
      (fun w => waitReply w .timeout none none))

/-- A tick reaches the Wait Table (R126). An empty table takes it, and any left over, at once (log 25, DESIGN CHOICE). -/
def State.tickWaits (s : State) : State :=
  if s.waits = [] then { s with waitDue := 0 }
  else if s.waitDue = 0 ∧ s.waits.all (fun w => !w.tick.expired) then s.takeWaitTick
  else { s with waitDue := s.waitDue + 1 }

/-- A tick reaches a lease timer (R127): a stopped timer takes none, and none is left over for its next start (log 25, DESIGN
CHOICE). -/
def PortControl.tickLease (c : PortControl) : PortControl :=
  match c.leaseTimer with
  | none => { c with leaseDue := 0 }
  | some t => if c.leaseDue = 0 ∧ 1 < t then { c with leaseTimer := some (t - 1) } else { c with leaseDue := c.leaseDue + 1 }

/-- A tick reaches a receive framer (R157): outside HUNT it measures the time since the last byte; in HUNT it is dropped, with
any left over (log 25, DESIGN CHOICE). -/
def PortLink.tickFramer (l : PortLink) : PortLink :=
  if l.framer = .hunt then l.toHunt
  else if l.framerDue = 0 ∧ l.byteTicks = 0 then { l with byteTicks := 1 }
  else { l with framerDue := l.framerDue + 1 }

/-- TICK (R126): delivered to the Wait Table, the lease timers and the framers; to no block while held in reset. -/
def execTick (s : State) : Host.Outcome State Fault Refusal :=
  .next
    (if s.held then s
    else
      let s := s.tickWaits
      { s with
        ports := s.ports.mapPorts (fun _ c => c.tickLease)
        links := s.links.mapPorts (fun _ l => l.tickFramer) })

/-- WAIT_EXPIRY (R89): the Wait Table takes a tick delivered to it. -/
def execWaitExpiry (s : State) : Host.Outcome State Fault Refusal :=
  .next (if s.waitDue = 0 then s else { s with waitDue := s.waitDue - 1 }.takeWaitTick)

/-- LEASE_EXPIRY (R127): the lease timer of port n takes a tick delivered to it; at 0 the session is lost. -/
def execLeaseExpiry (n : Port) (s : State) : Host.Outcome State Fault Refusal :=
  .next
    (if (s.port n).leaseDue = 0 then s
    else
      let c := { s.port n with leaseDue := (s.port n).leaseDue - 1 }
      match c.leaseTimer with
      | none => s.setPort n c
      | some t => if 1 < t then s.setPort n { c with leaseTimer := some (t - 1) } else (s.setPort n c).startLoss n .lease)

/-- TRUNCATED_FRAME (R157): the framer of port n takes a tick delivered to it; the second since the last byte ends the
frame with the fault FRAME_ERROR. -/
def execTruncatedFrame (n : Port) (s : State) : Host.Outcome State Fault Refusal :=
  .next
    (if (s.link n).framerDue = 0 then s
    else
      let l := { s.link n with framerDue := (s.link n).framerDue - 1 }
      if l.framer = .hunt then s.setLink n l
      else if l.byteTicks = 0 then s.setLink n { l with byteTicks := 1 }
      else s.setLink n (l.fault .frameError))

end Sys2Proof.Machine
end

