-- ==== Sys2Proof/Machine/Transmit.lean ====
section
/-! DEFINITION. The transmit scheduler: its choice (R163), ACK_FRAME, REPLY_FRAME, EVENT_FRAME, FRAME_SENT. -/

namespace Sys2Proof.Machine

/-- The clocks of what is under way on PnDO, from one byte boundary at which a frame may begin to the next: those of the whole
frame, or of one fill byte (R155, R163). -/
def PortLink.span (l : PortLink) : Nat :=
  match l.line with
  | none => 8
  | some bytes => 8 * bytes.length

/-- A byte boundary at which a frame may begin: the last frame or fill byte has been sent to its last bit, and nothing of the
next (R155, R163). -/
def PortLink.atBoundary (l : PortLink) : Bool := decide (l.bits.sent = 0)

/-- The scheduler of port n may take a frame: the line is free at a byte boundary, and neither the part nor the port is held
in reset (R163). -/
def State.canSend (s : State) (n : Port) : Bool :=
  !s.held && (s.link n).lineHigh && decide ((s.link n).line = none) && (s.link n).atBoundary

/-- The head acknowledgment leaves in an ACK frame, with the frames-dropped flag, which is cleared (R158, R163). -/
def State.sendAck (s : State) (n : Port) : State :=
  match (s.link n).ackBuffer with
  | [] => s
  | a :: rest =>
    s.setLink n { s.link n with
      ackBuffer := rest, framesDropped := false, line := some (frameBytes (ackBody a (s.link n).framesDropped)) }

/-- The head reply leaves in a REPLY frame, and its request is answered (R160, R162, R163). -/
def State.sendReply (s : State) (n : Port) : State :=
  match (s.port n).replyQueue with
  | [] => s
  | r :: rest =>
    (s.setPort n { s.port n with replyQueue := rest, tags := (s.port n).tags.erase r.tag }).setLink n
      { s.link n with line := some (frameBytes (replyBody r)) }

/-- The head event record leaves in an EVENT frame, and takes a credit (R149, R163). -/
def State.sendEvent (s : State) (n : Port) : State :=
  match (s.port n).eventQueue with
  | [] => s
  | r :: rest =>
    (s.setPort n { s.port n with eventQueue := rest, credits := (s.port n).credits - 1 }).setLink n
      { s.link n with line := some (frameBytes (eventBody r)) }

/-- ACK_FRAME (R158, R163): the first choice of the scheduler. -/
def execAckFrame (n : Port) (s : State) : Host.Outcome State Fault Refusal :=
  .next (if s.canSend n then s.sendAck n else s)

/-- REPLY_FRAME (R160, R162, R163): no acknowledgment waits. -/
def execReplyFrame (n : Port) (s : State) : Host.Outcome State Fault Refusal :=
  .next (if s.canSend n ∧ (s.link n).ackBuffer = [] then s.sendReply n else s)

/-- EVENT_FRAME (R149, R163): no acknowledgment and no reply waits, and a credit is held. -/
def execEventFrame (n : Port) (s : State) : Host.Outcome State Fault Refusal :=
  .next
    (if s.canSend n ∧ (s.link n).ackBuffer = [] ∧ (s.port n).replyQueue = [] ∧ 0 < (s.port n).credits then s.sendEvent n
    else s)

/-- The command by which the scheduler of port n takes a frame, were its line free at a byte boundary: none where no frame is
available (R163). -/
def State.frameWaiting (s : State) (n : Port) : Option Instr :=
  if (s.link n).ackBuffer ≠ [] then some (.ackFrame n)
  else if (s.port n).replyQueue ≠ [] then some (.replyFrame n)
  else if (s.port n).eventQueue ≠ [] ∧ 0 < (s.port n).credits then some (.eventFrame n)
  else none

/-- The command by which the scheduler of port n takes a frame now (R163). -/
def State.frameDue (s : State) (n : Port) : Option Instr := if s.canSend n then s.frameWaiting n else none

/-- The scheduler's choice at a byte boundary with the line free (R163): the frame due is taken; where none is, nothing
changes, and a fill byte is sent. -/
def State.schedule (s : State) (n : Port) : State :=
  if s.canSend n then
    if (s.link n).ackBuffer ≠ [] then s.sendAck n
    else if (s.port n).replyQueue ≠ [] then s.sendReply n
    else if 0 < (s.port n).credits then s.sendEvent n
    else s
  else s

/-- FRAME_SENT (R163): at the byte boundary behind its last check byte the frame has been sent, and the line is free. -/
def execFrameSent (n : Port) (s : State) : Host.Outcome State Fault Refusal :=
  .next (if (s.link n).atBoundary then s.setLink n { s.link n with line := none } else s)

end Sys2Proof.Machine
end

