-- ==== Sys2Proof/Machine/Walk.lean ====
section
/-! DEFINITION. The cycles of walks and of LINK: WALK_HOP, READ_TERMINAL, PUT_TERMINAL, TAKE_TERMINAL,
CHECK_WALK_CYCLE, COMMIT_CYCLE. -/

namespace Sys2Proof.Machine

/-- The content is a forward (R3). -/
def Content.isForward : Content → Bool
  | .forward _ => true
  | .empty | .value _ => false

/-- A reply that carries the walk's position as terminal slot and its hops (R45, R54). -/
def walkReply (rq : Request) (e : Executor) (st : Status) : Reply :=
  { bareReply rq st with terminal := some (e.walkPos, e.hops) }

/-- WALK_HOP (R41): the slot is unallocated (R44), or a forward is followed, or the hop limit ends the walk (R43). -/
def execWalkHop (n : Port) (s : State) : Host.Outcome State Fault Refusal :=
  .next
    (match s.cycleOf n .walk with
    | some rq =>
      let e := s.executor n
      if s.allocated e.walkPos = false then s.complete n (.finish (walkReply rq e .unallocated))
      else match (s.entry e.walkPos).content with
        | .forward t =>
          if e.hops < Config.hopLimit then s.complete n (.goOn .walk t (e.hops + 1))
          else s.complete n (.finish (walkReply rq e .chainDeep))
        | .empty | .value _ => s
    | none => s)

/-- The request whose terminal cycle is in progress for the executor of port n: its walk stands on an allocated entry
that is EMPTY or VALUE (R42). -/
def State.atTerminal (s : State) (n : Port) : Option Request :=
  if s.allocated (s.executor n).walkPos ∧ (s.entry (s.executor n).walkPos).content.isForward = false then
    s.cycleOf n .walk
  else none

/-- READ_TERMINAL (R64, R65). -/
def execReadTerminal (n : Port) (s : State) : Host.Outcome State Fault Refusal :=
  .next
    (match s.atTerminal n with
    | some rq =>
      match rq.op with
      | .read _ =>
        let x := s.executor n
        let e := s.entry x.walkPos
        s.complete n (.finish { walkReply rq x .ok with content := some e.content, version := some e.version })
      | _ => s
    | none => s)

/-- The mode test of a PUT (R66, R69, R70): the refusal, or none where it passes. -/
def modeRefusal (m : PutMode) (expected : Version) (e : Entry) : Option Status :=
  match m with
  | .always => none
  | .ifEmpty => if e.content = .empty then none else some .notEmpty
  | .ifVersion => if e.version = expected then none else some .versionMismatch

/-- A PUT that passes its tests hands its value to the oldest wait record on an EMPTY terminal (R71, R87). -/
def State.putHandoff (s : State) (n : Port) (rq : Request) (w : WaitRecord) (v : Value) : State :=
  let x := s.executor n
  let k := x.walkPos
  let e := s.entry k
  let ver := e.version + 1
  let s := s.setEntry k { e with version := ver }
  let s := s.handTo k w v ver
  let s := s.postEntryEvent e.watch .valueHanded k ver (some v) (.port n)
  s.complete n (.finish { walkReply rq x .handedOff with version := some ver, extra := .taker w.port })

/-- A PUT that passes its tests stores its value (R68). -/
def State.putStore (s : State) (n : Port) (rq : Request) (v : Value) : State :=
  let x := s.executor n
  let k := x.walkPos
  let e := s.entry k
  let ver := e.version + 1
  let s := s.setEntry k { e with content := .value v, version := ver }
  let s := s.postEntryEvent e.watch .valuePut k ver (some v) (.port n)
  s.complete n (.finish { walkReply rq x .ok with content := some e.content, version := some e.version })

/-- PUT_TERMINAL (R66): permission, mode, then handoff or store. -/
def execPutTerminal (n : Port) (s : State) : Host.Outcome State Fault Refusal :=
  .next
    (match s.atTerminal n with
    | some rq =>
      match rq.op with
      | .put _ mode expected v =>
        let x := s.executor n
        let e := s.entry x.walkPos
        match terminalRefusal s.portState n e e.access.putOpen, modeOfCode mode with
        | some st, _ => s.complete n (.finish (walkReply rq x st))
        | none, none => s
        | none, some m =>
          match modeRefusal m expected e with
          | some st =>
            s.complete n (.finish { walkReply rq x st with content := some e.content, version := some e.version })
          | none =>
            match e.content, s.oldestWait x.walkPos with
            | .empty, some w => s.putHandoff n rq w v
            | _, _ => s.putStore n rq v
      | _ => s
    | none => s)

/-- A TAKE empties a VALUE entry in an empty cycle (R22, R73, R75). -/
def State.takeValue (s : State) (n : Port) (rq : Request) (v : Value) : State :=
  let x := s.executor n
  let k := x.walkPos
  let e := s.entry k
  let ver := e.version + 1
  let s := s.setEntry k { e with content := .empty, version := ver }
  let s := s.postEntryEvent e.watch .valueTaken k ver none (.port n)
  s.complete n (.finish { walkReply rq x .ok with content := some (.value v), version := some ver })

/-- The remaining time of a new wait record: none for "no limit" (R84). -/
def waitStart (wait : Nat) : Option Nat := if wait = Config.noLimitWait then none else some wait

/-- A TAKE with a wait time above 0 on an EMPTY terminal: it parks, or is answered WAIT_FULL, or, its port no longer
ATTACHED, ends with neither (R84, R85). -/
def State.takeWait (s : State) (n : Port) (rq : Request) (named : Slot) (wait : Nat) : State :=
  let x := s.executor n
  let e := s.entry x.walkPos
  if s.portState n ≠ .attached then s.complete n .endSilent
  else if s.waits.length < Config.waitPlaces then
    State.complete { s with waits := s.waits ++ [WaitRecord.mk n rq.tag named x.walkPos x.hops (waitStart wait)] } n
      .endSilent
  else s.complete n (.finish { walkReply rq x .waitFull with content := some .empty, version := some e.version })

/-- TAKE_TERMINAL (R73): permission, then by the kind found and the wait time. -/
def execTakeTerminal (n : Port) (s : State) : Host.Outcome State Fault Refusal :=
  .next
    (match s.atTerminal n with
    | some rq =>
      match rq.op with
      | .take named wait =>
        let x := s.executor n
        let e := s.entry x.walkPos
        match terminalRefusal s.portState n e e.access.takeOpen with
        | some st => s.complete n (.finish (walkReply rq x st))
        | none =>
          match e.content with
          | .value v => s.takeValue n rq v
          | .empty | .forward _ =>
            if wait = 0 then
              s.complete n (.finish { walkReply rq x .empty with content := some .empty, version := some e.version })
            else s.takeWait n rq named wait
      | _ => s
    | none => s)

/-- CHECK_WALK_CYCLE (R53, R54): its tests in their order. -/
def execCheckWalkCycle (n : Port) (s : State) : Host.Outcome State Fault Refusal :=
  .next
    (match s.cycleOf n .checkWalk with
    | some rq =>
      match rq.op with
      | .link named _ =>
        let x := s.executor n
        if s.allocated x.walkPos = false then s.complete n (.finish (walkReply rq x .unallocated))
        else if x.walkPos = named then s.complete n (.finish (walkReply rq x .loop))
        else match (s.entry x.walkPos).content with
          | .forward t =>
            if x.hops < Config.checkHopLimit then s.complete n (.goOn .checkWalk t (x.hops + 1))
            else s.complete n (.finish (walkReply rq x .chainDeep))
          | .empty | .value _ => s.complete n (.goOn .commit x.walkPos x.hops)
      | _ => s
    | none => s)

/-- A commit that passes its tests (R56 to R58): N becomes a forward to T, the inbound counts follow, the waits on N end
RELINKED (R91), and the LINK is answered OK. -/
def State.commitLink (s : State) (n : Port) (rq : Request) (named target : Slot) : State :=
  let x := s.executor n
  let e := s.entry named
  let ver := e.version + 1
  let s := s.setEntry named { e with content := .forward target, version := ver }
  let s := (s.dropForward e.content).raiseInbound target
  let s := s.endWaitsOn named .relinked (some (.forward target)) (some ver)
  let s := s.postEntryEvent e.watch .entryLinked named ver none (.port n)
  s.complete n (.finish { walkReply rq x .ok with content := some e.content, version := some ver })

/-- The entry holds a value (R55). -/
def Content.isValue : Content → Bool
  | .value _ => true
  | .empty | .forward _ => false

/-- COMMIT_CYCLE (R55): its four tests in their order; a refusal reports N for the first three and T for the fourth (R58). -/
def execCommitCycle (n : Port) (s : State) : Host.Outcome State Fault Refusal :=
  .next
    (match s.cycleOf n .commit with
    | some rq =>
      match rq.op with
      | .link named target =>
        let x := s.executor n
        let e := s.entry named
        let refuse (st : Status) (k : Slot) : State :=
          s.complete n (.finish { bareReply rq st with terminal := some (k, x.hops) })
        if s.allocated named = false then refuse .unallocated named
        else match modifyRefusal s.portState n e with
          | some st => refuse st named
          | none =>
            if e.content.isValue then refuse .notEmpty named
            else if s.allocated target = false then refuse .unallocated target
            else s.commitLink n rq named target
      | _ => s
    | none => s)

end Sys2Proof.Machine
end

