-- ==== Sys2Proof/Machine/Dispatch.lean ====
section
/-! DEFINITION. One arm for each command: the command's effect on everything but the queue. -/

namespace Sys2Proof.Machine

def exec (i : Instr) (s : State) : Host.Outcome State Fault Refusal :=
  match i with
  | .deviceReset => Sys2Proof.Machine.execDeviceReset s
  | .resetNHigh strap => Sys2Proof.Machine.execResetNHigh strap s
  | .passCycle => Sys2Proof.Machine.execPassCycle s
  | .portResetLow n => Sys2Proof.Machine.execPortResetLow n s
  | .portResetHigh n => Sys2Proof.Machine.execPortResetHigh n s
  | .tick => Sys2Proof.Machine.execTick s
  | .waitExpiry => Sys2Proof.Machine.execWaitExpiry s
  | .leaseExpiry n => Sys2Proof.Machine.execLeaseExpiry n s
  | .truncatedFrame n => Sys2Proof.Machine.execTruncatedFrame n s
  | .lengthError n b => Sys2Proof.Machine.execLengthError n b s
  | .frameComplete n b => Sys2Proof.Machine.execFrameComplete n b s
  | .ackFrame n => Sys2Proof.Machine.execAckFrame n s
  | .replyFrame n => Sys2Proof.Machine.execReplyFrame n s
  | .eventFrame n => Sys2Proof.Machine.execEventFrame n s
  | .attach n => Sys2Proof.Machine.execAttach n s
  | .detach n => Sys2Proof.Machine.execDetach n s
  | .status n => Sys2Proof.Machine.execStatus n s
  | .credit n => Sys2Proof.Machine.execCredit n s
  | .setEvents n => Sys2Proof.Machine.execSetEvents n s
  | .read n => Sys2Proof.Machine.execRead n s
  | .put n => Sys2Proof.Machine.execPut n s
  | .take n => Sys2Proof.Machine.execTake n s
  | .link n => Sys2Proof.Machine.execLink n s
  | .clear n => Sys2Proof.Machine.execClear n s
  | .checkpoint n => Sys2Proof.Machine.execCheckpoint n s
  | .watch n => Sys2Proof.Machine.execWatch n s
  | .unwatch n => Sys2Proof.Machine.execUnwatch n s
  | .alloc n => Sys2Proof.Machine.execAlloc n s
  | .retire n => Sys2Proof.Machine.execRetire n s
  | .claim n => Sys2Proof.Machine.execClaim n s
  | .release n => Sys2Proof.Machine.execRelease n s
  | .adopt n => Sys2Proof.Machine.execAdopt n s
  | .setAccess n => Sys2Proof.Machine.execSetAccess n s
  | .inspect n => Sys2Proof.Machine.execInspect n s
  | .breakWait n => Sys2Proof.Machine.execBreakWait n s
  | .forceDetach n => Sys2Proof.Machine.execForceDetach n s
  | .clearDirectory n => Sys2Proof.Machine.execClearDirectory n s
  | .walkHop n => Sys2Proof.Machine.execWalkHop n s
  | .readTerminal n => Sys2Proof.Machine.execReadTerminal n s
  | .putTerminal n => Sys2Proof.Machine.execPutTerminal n s
  | .takeTerminal n => Sys2Proof.Machine.execTakeTerminal n s
  | .checkWalkCycle n => Sys2Proof.Machine.execCheckWalkCycle n s
  | .commitCycle n => Sys2Proof.Machine.execCommitCycle n s
  | .clearCycle n => Sys2Proof.Machine.execClearCycle n s
  | .checkpointCycle n => Sys2Proof.Machine.execCheckpointCycle n s
  | .watchCycle n => Sys2Proof.Machine.execWatchCycle n s
  | .unwatchCycle n => Sys2Proof.Machine.execUnwatchCycle n s
  | .allocCycle n => Sys2Proof.Machine.execAllocCycle n s
  | .retireCycle n => Sys2Proof.Machine.execRetireCycle n s
  | .claimCycle n => Sys2Proof.Machine.execClaimCycle n s
  | .releaseCycle n => Sys2Proof.Machine.execReleaseCycle n s
  | .adoptCycle n => Sys2Proof.Machine.execAdoptCycle n s
  | .setAccessCycle n => Sys2Proof.Machine.execSetAccessCycle n s
  | .inspectCycle n => Sys2Proof.Machine.execInspectCycle n s
  | .breakWaitCycle n => Sys2Proof.Machine.execBreakWaitCycle n s
  | .sweepPassStart => Sys2Proof.Machine.execSweepPassStart s
  | .sweepVisit => Sys2Proof.Machine.execSweepVisit s
  | .syncByteFound n => Sys2Proof.Machine.execSyncByteFound n s
  | .frameByteReceived n b => Sys2Proof.Machine.execFrameByteReceived n b s
  | .frameSent n => Sys2Proof.Machine.execFrameSent n s

end Sys2Proof.Machine
end

