-- ==== Sys2Proof/Machine/Link.lean ====
section
/-! DEFINITION. The bits of a port link (R155, R157): what one clock of PnCK drives on PnDO and takes from PnDI, and the
commands of the table that the bits make. No row of the table is a clock, so a clock is a function from the part to the part
and the commands that come before the next clock (log 14). -/

namespace Sys2Proof.Machine

/-- The eight bits of a byte, most significant first (R155). -/
def byteBits (b : Byte) : List Bool := (List.range 8).map b.getMsbD

/-- The bits of a run of bytes, without gaps (R155). -/
def bitsOf (bytes : List Byte) : List Bool := bytes.flatMap byteBits

/-- The bit on PnDO at the i-th clock after the byte boundary at which a frame or a fill byte began: the frame's bytes one
after another and fill bytes behind them, each most significant bit first; low while held in reset (R155). -/
def PinOut.bit (o : PinOut) (i : Nat) : Bool :=
  match o with
  | .low => false
  | .frame bytes => (bytes.getD (i / 8) fillByte).getMsbD (i % 8)
  | .fill b => b.getMsbD (i % 8)

/-- The command that a byte received by a framer is: the sync byte found in HUNT, a length byte, a body or first check
byte, or the second check byte (R157). -/
def Framer.command (n : Port) (f : Framer) (b : Byte) : Instr :=
  match f with
  | .hunt => .syncByteFound n
  | .length => if lengthByteOk b then .frameByteReceived n b else .lengthError n b
  | .body _ _ | .check _ _ none => .frameByteReceived n b
  | .check _ _ (some _) => .frameComplete n b

/-- The last eight bits received, one bit later (R157). -/
def shiftIn (last8 : Byte) (bit : Bool) : Byte := (last8 <<< 1) ||| (BitVec.ofBool bit).setWidth 8

/-- The framer at one bit of PnDI (R157): in HUNT a byte is found at a clock at which the last eight bits read A5h, and
from that alignment on at every eighth. -/
def Framer.takeBit (f : Framer) (last8 : Byte) (taken : Nat) : Nat × Option Byte :=
  if f = .hunt then (0, if last8 = syncByte then some last8 else none)
  else if taken = 7 then (0, some last8)
  else (taken + 1, none)

/-- What one clock of PnCK gives: the command, if any, by which the scheduler took a frame before it, the bit driven on PnDO,
the part after it, and the commands it makes, in the order in which they come, before the next clock. -/
structure Clocked where
  chosen : Option Instr
  pnDO : Bool
  part : State
  acts : List Instr
  deriving DecidableEq, Repr

/-- The part after one bit each way on the link of port n, and the byte received at it, if any (R155, R157). -/
def State.moveBit (s : State) (n : Port) (bit : Bool) : State × Option Byte :=
  let l := s.link n
  let last8 := shiftIn l.bits.last8 bit
  let got := l.framer.takeBit last8 l.bits.taken
  (s.setLink n { l with
    bits := { sent := if l.bits.sent + 1 = l.span then 0 else l.bits.sent + 1, last8 := last8, taken := got.1 } }, got.2)

/-- What comes on the side of PnDO with the bit under way: at the last bit of a frame or of a fill byte, the frame sent, and,
where it is asked, the scheduler's choice at the boundary behind it (R163). -/
def State.sentActs (s : State) (n : Port) (choosing : Bool) : List Instr :=
  if (s.link n).bits.sent + 1 = (s.link n).span then
    (if (s.link n).line = none then [] else [.frameSent n]) ++ (if choosing then (s.frameWaiting n).toList else [])
  else []

/-- One clock of PnCK at port n with the given bit on PnDI (R155). The byte boundary behind the last clock lasts until this
one, so where the line is still free there the scheduler chooses first, and a fill byte begins only where no frame is
available (R163; log 27). Then a bit is driven and a bit is taken, and the commands are a byte received, a frame sent to its last
bit and the frame chosen behind it. Where one clock makes commands on both sides, no rule says which come first, and `sentFirst`
says it; the choice that would follow a received byte comes at the next clock (log 27). In reset PnDO is low and PnDI ignored. A
clock that does not come moves nothing. -/
def State.clock (s : State) (n : Port) (bit sentFirst : Bool) : Clocked :=
  if s.listens n then
    let t := s.schedule n
    let moved := t.moveBit n bit
    let received := (moved.2.map ((t.link n).framer.command n)).toList
    { chosen := s.frameDue n
      pnDO := (t.pinOut n).bit (t.link n).bits.sent
      part := moved.1
      acts := if sentFirst then t.sentActs n true ++ received else received ++ t.sentActs n false }
  else { chosen := none, pnDO := (s.pinOut n).bit (s.link n).bits.sent, part := s, acts := [] }

end Sys2Proof.Machine
end

