-- ==== Sys2Proof/Safety.lean ====
section
/-! DEFINITION. What a safe run is: a run that never stops, through states in which the laws of the manual hold. The
laws are those its rules give for the whole part (R12 to R16, R20, R29, R49, R60, R83, R133, R138, R148, R160), put so that
each step keeps them together. -/

namespace Sys2Proof.Machine

/-- The part goes on. -/
def GoesOn (o : Host.Outcome State Fault Refusal) : Prop := ∃ t, o = .next t

/-! ## The arbiter and the executors -/

/-- The arbiter serves the rotation in READY alone, its grants go to cycles that are pending, and a pending cycle is
granted as soon as no cycle is in progress (R21, R28, R29); an entry to CLEARING is due only behind a cycle in progress
(R36); a part held in reset is in INIT (R32). -/
structure State.ArbiterLaw (s : State) : Prop where
  servesInReady : s.device ≠ .ready → s.inProgress = none
  grantsPending : ∀ r, s.inProgress = some r → s.hasCycle r = true
  grantedLast : ∀ r, s.inProgress = some r → s.lastGranted = r
  grantsAtOnce : s.device = .ready → s.inProgress = none → ∀ r, s.hasCycle r = false
  clearWaits : s.clearDue = true → s.inProgress ≠ none
  heldInInit : s.held = true → s.device = .init

/-- What an executor does fits its request (R26, R39). -/
def Work.fits : Work → RequestOp → Bool
  | .walk, .read _ | .walk, .put _ _ _ _ | .walk, .take _ _ => true
  | .checkWalk, .link _ _ | .commit, .link _ _ => true
  | .clearing, .clearDirectory | .awaitPass, .clearDirectory => true
  | .single, .clear _ | .single, .checkpoint _ | .single, .watch _ | .single, .unwatch _ | .single, .alloc _ _ _
  | .single, .retire _ | .single, .claim _ _ _ _ | .single, .release _ | .single, .adopt _ _ _ _
  | .single, .setAccess _ _ _ _ | .single, .inspect _ | .single, .breakWait _ => true
  | _, _ => false

/-- An executor's state, its request and its mark agree (R39, R49, R131). -/
def Executor.shaped (e : Executor) : Prop :=
  match e.state with
  | .idle => e = .idle
  | .tokenWait => e.onLink = true ∧ e.abandoned = false
  | .running w => ∃ rq, e.current = some rq ∧ w.fits rq.op = true

/-- Every executor is shaped, runs only requests whose operands were examined, on slots of the directory (R1, R161), and
no walk has taken more than eight hops (R39, R43), and an abandoned request has a cycle in progress or pending, and in
CLEARING there is none (R27, R36, R131). -/
structure State.ExecutorLaw (s : State) : Prop where
  shaped : ∀ p, (s.executor p).shaped
  examined : ∀ p rq, (s.executor p).current = some rq → rq.op.operandsOk = true
  inRange : ∀ p, (s.executor p).walkPos < Config.slots
  hopsInRange : ∀ p, (s.executor p).hops ≤ Config.hopLimit
  abandonedRuns : ∀ p, (s.executor p).abandoned = true → (s.executor p).hasCycle = true ∧ s.device ≠ .clearing

/-! ## The directory (R12 to R16, R20) -/

/-- The number of entries that forward to slot k (R12). -/
def State.forwardsTo (s : State) (k : Slot) : Nat :=
  (s.entries.filter (fun r => decide (r.2.content = .forward k))).length

/-- The number of entries that port p owns and that are not orphaned (R14). -/
def State.ownedBy (s : State) (p : Port) : Nat :=
  (s.entries.filter (fun r => decide (r.2.owner = some p) && !r.2.orphaned)).length

/-- The number of entries whose watch set holds port p (R15). -/
def State.watchedBy (s : State) (p : Port) : Nat := (s.entries.filter (fun r => r.2.watch.get p)).length

/-- The tables are in their canonical form and list no slot outside 0 to 4095; no slot number the part holds lies outside
(R1). -/
structure State.TableLaw (s : State) : Prop where
  entriesWf : Table.wf (fun _ => Entry.default) s.entries = true
  rowsWf : Table.wf Row.default s.rows = true
  entriesInRange : ∀ r ∈ s.entries, r.1 < Config.slots
  rowsInRange : ∀ r ∈ s.rows, r.1 < Config.slots
  targetsInRange : ∀ k t, (s.entry k).content = .forward t → t < Config.slots
  passInRange : s.passPos < Config.slots
  sweepInRange : s.sweepPos < Config.slots

/-- The laws of the directory at a store-cycle boundary (R4, R11 to R16). -/
structure State.DirectoryLaws (s : State) : Prop where
  inboundCounts : ∀ k, s.inbound k = s.forwardsTo k
  targetsAllocated : ∀ k t, (s.entry k).content = .forward t → s.allocated t = true
  ownedCounts : ∀ p, (s.tallies.get p).owned = s.ownedBy p
  watchCounts : ∀ p, (s.tallies.get p).watch = s.watchedBy p
  freeOnce : s.freeList.Nodup
  freeUnallocated : ∀ k, k ∈ s.freeList ↔ (Config.fixedSlots ≤ k ∧ k < Config.slots ∧ s.allocated k = false)
  unownedNotOrphaned : ∀ k, (s.entry k).owner = none → (s.entry k).orphaned = false
  unallocatedDefault : ∀ k, k < Config.slots → s.allocated k = false →
    s.entry k = { Entry.default with version := (s.entry k).version }

/-- Part-way through a pass, every slot below the position is at its defaults, the tallies are 0, and the free list holds
the pooled slots written so far (R33, R34). -/
structure State.MidPass (s : State) : Prop where
  entriesWritten : ∀ k, k < s.passPos → s.entry k = .default
  rowsWritten : ∀ k, k < s.passPos → s.row k = .default k
  talliesZero : ∀ p, s.tallies.get p = { owned := 0, watch := 0 }
  freeSoFar : s.freeList = List.range' Config.fixedSlots (s.passPos - Config.fixedSlots)

/-- The directory: its laws hold in READY, and a pass under way has written what it has passed (R20, R33, R34). -/
structure State.DirectoryLaw (s : State) : Prop where
  inReady : s.device = .ready → s.DirectoryLaws
  inPass : s.device ≠ .ready → 0 < s.passPos → s.MidPass

/-! ## Sessions and sweeps (R121 to R138) -/

/-- The requests that may stand in the queue of a port (R123, R128, R138). -/
def queueFits (c : PortControl) : Prop :=
  match c.portState with
  | .down => c.requestQueue = []
  | .opened => ∀ rq ∈ c.requestQueue, rq.op.code = 0x01#8 ∨ rq.op = .status
  | .closing => ∀ rq ∈ c.requestQueue, rq.op = .status
  | .attached =>
    if c.detachPending then
      ∃ before tag after, c.requestQueue = before ++ Request.mk tag .detach :: after ∧
        (∀ rq ∈ before, rq.op ≠ .detach) ∧ (∀ rq ∈ after, rq.op = .status)
    else ∀ rq ∈ c.requestQueue, rq.op ≠ .detach

/-- A port's state, its line, its marks, its lease timer, its request queue and its event state agree (R121 to R124, R127,
R128, R132, R152). -/
structure portFits (c : PortControl) (lineHigh : Bool) : Prop where
  line : match c.portState with
    | .down => lineHigh = false
    | .opened | .attached => lineHigh = true
    | .closing => c.linkDown = !lineHigh
  detachPending : c.detachPending = true → c.portState = .attached
  leaseTimer : ∀ t, c.leaseTimer = some t → c.portState = .attached ∧ c.detachPending = false ∧ 1 ≤ t
  eventsOnlyAttached : c.portState ≠ .attached → c.eventQueue = [] ∧ c.credits = 0
  queue : queueFits c
  needsLine : lineHigh = false → c.requestQueue = [] ∧ c.replyQueue = [] ∧ c.tags = []
  sessionRange : c.session ≤ 255

/-- Sessions: each port fits, is CLOSING exactly while it has its one sweep record (R133), and has a request executing or
a take parked only while ATTACHED (R83, R138); a request abandoned by a loss belongs to a port with a LOSS record (R131).
A part held in reset has nothing queued (R32). -/
structure State.SessionLaw (s : State) : Prop where
  fits : ∀ p, portFits (s.port p) (s.link p).lineHigh
  closingSwept : ∀ p, s.portState p = .closing ↔ ∃ r ∈ s.sweeps, r.port = p
  sweptOnce : (s.sweeps.map SweepRecord.port).Nodup
  executingAttached : ∀ p, (s.executor p).state ≠ .idle → (s.executor p).abandoned = false → s.portState p = .attached
  abandonedLost : ∀ p, (s.executor p).abandoned = true → ∃ r ∈ s.sweeps, r.port = p ∧ ∃ x, r.kind = .loss x
  heldEmpty : s.held = true → s.sweeps = [] ∧ s.waits = [] ∧ ∀ p, (s.port p).requestQueue = []
    ∧ s.portState p ≠ .attached

/-- Sweeps: while the head record's pass is running, its port executes nothing, no slot below the position is owned or
watched by it, and a port in OPEN or DOWN owns and watches nothing (R131, R135, R138). -/
structure State.SweepLaw (s : State) : Prop where
  runningPass : s.device = .ready → s.sweepVisit = true → ∃ r rest, s.sweeps = r :: rest
    ∧ (s.executor r.port).state = .idle
    ∧ ∀ k, k < s.sweepPos → (s.entry k).watch.get r.port = false
        ∧ ((s.entry k).owner = some r.port → (s.entry k).orphaned = true)
  onlyInReady : s.device ≠ .ready → s.sweepVisit = false
  closedOwnsNothing : ∀ p, (s.portState p = .opened ∨ s.portState p = .down) →
    s.tallies.get p = { owned := 0, watch := 0 }

/-! ## The Wait Table (R83) -/

/-- Every wait record names an allocated EMPTY terminal and belongs to an ATTACHED port; there are at most 16, and none
outside READY (R83, R95). -/
structure State.WaitLaw (s : State) : Prop where
  terminalEmpty : ∀ w ∈ s.waits, s.allocated w.terminal = true ∧ (s.entry w.terminal).content = .empty
  portAttached : ∀ w ∈ s.waits, s.portState w.port = .attached
  places : s.waits.length ≤ Config.waitPlaces
  onlyInReady : s.device ≠ .ready → s.waits = []

/-! ## The link token and the chains (R49, R59, R60) -/

/-- The executor runs a check walk or a commit. -/
def Executor.linking (e : Executor) : Bool := decide (e.state = .running .checkWalk) || decide (e.state = .running .commit)

/-- The slot reached from k after m forwards, where there is one. -/
def State.follow (s : State) : Nat → Slot → Option Slot
  | 0, k => some k
  | m + 1, k =>
    match (s.entry k).content with
    | .forward t => s.follow m t
    | .empty | .value _ => none

/-- The Link Serializer: the holder is the one executor that runs a LINK, or, while the token is RECALLED, one abandoned
executor runs it; the waiters are the executors in TOKEN_WAIT, none twice; a FREE token has no waiter (R49, R51). -/
structure State.TokenLaw (s : State) : Prop where
  holderLinks : ∀ p, s.serial.token = .held p →
    (s.executor p).linking = true ∧ (s.executor p).abandoned = false
  linkerHolds : ∀ p, (s.executor p).linking = true → (s.executor p).abandoned = false → s.serial.token = .held p
  abandonedRecalled : ∀ p, (s.executor p).linking = true → (s.executor p).abandoned = true →
    s.serial.token = .recalled
  recalledRuns : s.serial.token = .recalled → ∃ p, (s.executor p).linking = true ∧ (s.executor p).abandoned = true
  recalledOnce : ∀ p q, (s.executor p).linking = true → (s.executor p).abandoned = true →
    (s.executor q).linking = true → (s.executor q).abandoned = true → p = q
  waitersWait : ∀ p, p ∈ s.serial.queue ↔ (s.executor p).state = .tokenWait
  waitersOnce : s.serial.queue.Nodup
  freeNoWaiters : s.serial.token = .free → s.serial.queue = []

/-- No chain returns on itself (R60), and what a check walk has found stays true until its commit (R59): the named slot is
reached from the target only through the walk's position, and at the commit not at all. -/
structure State.ChainLaw (s : State) : Prop where
  acyclic : ∀ k, ∃ m, s.follow m k = none
  checked : ∀ p tag named target, (s.executor p).current = some (Request.mk tag (.link named target)) →
    (s.executor p).state = .running .checkWalk →
    ∀ i, s.follow i target = some named → ∃ j, j ≤ i ∧ s.follow j target = some (s.executor p).walkPos
  committing : ∀ p tag named target, (s.executor p).current = some (Request.mk tag (.link named target)) →
    (s.executor p).state = .running .commit → ∀ i, s.follow i target ≠ some named

/-! ## Queues (R148, R158, R160 to R162) -/

/-- The event queue of a port holds at most 32 records, its newest is OVERFLOW when it holds 32 (R148), and its sequence
numbers rise by 1 up to the counter (R147). -/
structure eventsFit (c : PortControl) : Prop where
  places : c.eventQueue.length ≤ Config.eventPlaces
  fullOverflows : c.eventQueue.length = Config.eventPlaces → newestIsOverflow c.eventQueue = true
  numbered : ∀ i r, c.eventQueue[i]? = some r →
    r.seq + BitVec.ofNat 16 (c.eventQueue.length - i) = c.seqCounter
  creditsSaturate : c.credits ≤ Config.creditLimit

/-- The acknowledgment buffer holds at most four, a frame being received is within its length (R157, R158), fewer bits than a
whole byte or frame have passed since the last boundary, and none while PRSTn_N is low (R155, R164). -/
structure linkFits (l : PortLink) : Prop where
  acks : l.ackBuffer.length ≤ Config.ackPlaces
  framing : match l.framer with
    | .hunt | .length => True
    | .body len got => lengthByteOk len = true ∧ got.length < len.toNat
    | .check len bytes _ => lengthByteOk len = true ∧ bytes.length = len.toNat
  taken : l.bits.taken < 8
  sent : l.bits.sent < l.span
  noBitsInReset : l.lineHigh = false → l.bits = .start

/-- The queues of every port and link are within their capacities (R148, R157, R158), and no bit has passed while the part is
held in reset (R155, R164). -/
structure State.QueueLaw (s : State) : Prop where
  events : ∀ p, eventsFit (s.port p)
  links : ∀ p, linkFits (s.link p)
  noBitsWhileHeld : s.held = true → ∀ p, (s.link p).bits = .start

/-- The tag a sweep record owes a DETACH reply for (R133). -/
def SweepRecord.owedTag (r : SweepRecord) : Option Tag :=
  match r.kind with
  | .detach t _ => t
  | .loss _ => none

/-- Where the outstanding requests of port p stand (R160): in the queue, executing, parked, in a DETACH sweep, or answered
with the reply still waiting. -/
def State.outstandingPlaces (s : State) (p : Port) : List Tag :=
  (s.port p).requestQueue.map Request.tag
  ++ (if (s.executor p).abandoned then [] else ((s.executor p).current.map Request.tag).toList)
  ++ (s.waits.filter (fun w => decide (w.port = p))).map WaitRecord.tag
  ++ (s.sweeps.filter (fun r => decide (r.port = p))).filterMap SweepRecord.owedTag
  ++ (s.port p).replyQueue.map Reply.tag

/-- The outstanding requests of each port are at most 8, carry different tags, and each stands in one place (R160 to
R162). -/
structure State.OutstandingLaw (s : State) : Prop where
  atMostEight : ∀ p, (s.port p).tags.length ≤ Config.outstandingLimit
  tagsDiffer : ∀ p, (s.port p).tags.Nodup
  onePlaceEach : ∀ p, (s.port p).tags.Perm (s.outstandingPlaces p)

/-! ## All of them -/

/-- The laws of the whole part. -/
structure State.Laws (s : State) : Prop where
  arbiter : s.ArbiterLaw
  executors : s.ExecutorLaw
  tables : s.TableLaw
  directory : s.DirectoryLaw
  sessions : s.SessionLaw
  sweeps : s.SweepLaw
  waits : s.WaitLaw
  token : s.TokenLaw
  chains : s.ChainLaw
  queues : s.QueueLaw
  outstanding : s.OutstandingLaw

/-- A safe run of k steps: it does not stop, and it ends in a state in which the laws hold. -/
def SafeRun (k : Nat) (s : State) : Prop :=
  match k, s with
  | 0, s => s.Laws
  | k + 1, s => ∃ t, step s = .next t ∧ SafeRun k t

end Sys2Proof.Machine
end

