-- ==== Sys2Proof/Certificates/Slice0/Obligations.lean ====
section
/-! DEFINITION. The statements for the provers. A cycle's statement gives the state up to the completion's last two parts,
the due entry to CLEARING and the arbiter's turn (`afterCompletion`), which `CompletionThenEntryThenGrant`,
`WithdrawalsComeInEitherOrder` and `GrantFollowsTheRotation` state; an equation t = s with some fields replaced says that
every other field stands. A hypothesis `∀ x, f x = …` on a
function f only names an expression, and is met by the function it spells. -/

namespace Sys2Proof.Machine

/-! ## Vocabulary -/

/-- The commands of a list run one after another from s to t. -/
def Runs : List Instr → State → State → Prop
  | [], s, t => s = t
  | c :: cs, s, t => ∃ u, exec c s = .next u ∧ Runs cs u t

/-- The reply of the request of port n's executor is posted, unless its request has been abandoned (R131, R162). -/
def State.replyTo (s : State) (n : Port) (r : Reply) : State :=
  if (s.executor n).abandoned then s else s.postReply n r

/-- The part with port n's cycle complete and its executor IDLE: everything else as in s. -/
def State.cycleEnded (s : State) (n : Port) : State := { s with inProgress := none, execs := s.execs.set n .idle }

/-- The part with port n's cycle complete and its request answered with r: nothing else changes. -/
def State.endedWith (s : State) (n : Port) (r : Reply) : State := { s.cycleEnded n with ports := (s.replyTo n r).ports }

/-- The part with the head request of port n taken: everything else as in s. -/
def State.requestTaken (s : State) (n : Port) : State :=
  s.setPort n { s.port n with requestQueue := (s.port n).requestQueue.tail }

/-- The modify test of R107 fails with st: the entry of slot k is orphaned, or another port owns it. -/
def State.modifyFails (s : State) (n : Port) (k : Slot) (st : Status) : Prop :=
  ∃ q, (s.entry k).owner = some q ∧
    (((s.entry k).orphaned = true ∧ st = .orphaned)
    ∨ ((s.entry k).orphaned = false ∧ q ≠ n ∧ s.portState q = .closing ∧ st = .pendingRecovery)
    ∨ ((s.entry k).orphaned = false ∧ q ≠ n ∧ s.portState q ≠ .closing ∧ st = .notOwner))

/-- The modify test of R107 passes: the entry of slot k is unowned, or port n owns it and it is not orphaned. -/
def State.modifyPasses (s : State) (n : Port) (k : Slot) : Prop :=
  (s.entry k).owner = none ∨ ((s.entry k).owner = some n ∧ (s.entry k).orphaned = false)

/-- The permission test of R62 with the flag given fails with st. -/
def State.flagFails (s : State) (n : Port) (k : Slot) (flag : Bool) (st : Status) : Prop :=
  flag = false ∧ s.modifyFails n k st

/-- The permission test of R62 with the flag given passes. -/
def State.flagPasses (s : State) (n : Port) (k : Slot) (flag : Bool) : Prop := flag = true ∨ s.modifyPasses n k

/-- The command by which an executor takes a request (R39, R161). -/
def RequestOp.command (n : Port) : RequestOp → Instr
  | .attach _ _ _ => .attach n
  | .detach => .detach n
  | .status => .status n
  | .credit _ => .credit n
  | .setEvents _ _ => .setEvents n
  | .read _ => .read n
  | .put _ _ _ _ => .put n
  | .take _ _ => .take n
  | .clear _ => .clear n
  | .checkpoint _ => .checkpoint n
  | .link _ _ => .link n
  | .watch _ => .watch n
  | .unwatch _ => .unwatch n
  | .alloc _ _ _ => .alloc n
  | .retire _ => .retire n
  | .claim _ _ _ _ => .claim n
  | .release _ => .release n
  | .adopt _ _ _ _ => .adopt n
  | .setAccess _ _ _ _ => .setAccess n
  | .inspect _ => .inspect n
  | .forceDetach _ => .forceDetach n
  | .clearDirectory => .clearDirectory n
  | .breakWait _ => .breakWait n

/-- A maintenance request (R166, R167). -/
def RequestOp.maintenance : RequestOp → Bool
  | .inspect _ | .forceDetach _ | .clearDirectory | .breakWait _ => true
  | _ => false

/-- The sort of first cycle of a request that presents one as soon as it is taken (R26, R40). -/
def RequestOp.firstCycle : RequestOp → Option (Work × Slot)
  | .read k | .put k _ _ _ | .take k _ => some (.walk, k)
  | .clear k | .checkpoint k | .watch k | .unwatch k | .retire k | .claim k _ _ _ | .release k | .adopt k _ _ _
  | .setAccess k _ _ _ | .inspect k | .breakWait k => some (.single, k)
  | .alloc _ _ _ => some (.single, 0)
  | .attach _ _ _ | .detach | .status | .credit _ | .setEvents _ _ | .link _ _ | .forceDetach _ | .clearDirectory => none

/-- The port state refuses a request with r (R123). -/
def PortControl.stateRefuses (c : PortControl) (op : RequestOp) (r : AckResult) : Prop :=
  op ≠ .status ∧
    ((c.portState = .opened ∧ (∀ lease m f, op ≠ .attach lease m f) ∧ r = .noSession)
    ∨ (c.portState = .attached ∧ c.detachPending = true ∧ r = .closing)
    ∨ (c.portState = .closing ∧ r = .closing))

/-- A slot, lease or wait number as two bytes (R165). -/
def twoBytes (k : Nat) : List Byte := [BitVec.ofNat 8 (k / 256), BitVec.ofNat 8 k]

/-- The eight bytes of a value, most significant first (R165). -/
def valueBytes (v : Value) : List Byte :=
  [v.extractLsb' 56 8, v.extractLsb' 48 8, v.extractLsb' 40 8, v.extractLsb' 32 8, v.extractLsb' 24 8,
    v.extractLsb' 16 8, v.extractLsb' 8 8, v.extractLsb' 0 8]

/-- The operand bytes of a request after its code and tag (Table 10-5). -/
def RequestOp.operandBytes : RequestOp → List Byte
  | .attach lease m f => twoBytes lease ++ [m, f]
  | .detach | .status | .clearDirectory => []
  | .credit n => [n]
  | .setEvents m f => [m, f]
  | .read k | .clear k | .checkpoint k | .watch k | .unwatch k | .retire k | .release k | .inspect k
  | .breakWait k => twoBytes k
  | .put k mode x v => twoBytes k ++ [mode] ++ twoBytes x.toNat ++ valueBytes v
  | .take k w => twoBytes k ++ twoBytes w
  | .link k t => twoBytes k ++ twoBytes t
  | .alloc d pf tf => [d, pf, tf]
  | .claim k d pf tf | .adopt k d pf tf | .setAccess k d pf tf => twoBytes k ++ [d, pf, tf]
  | .forceDetach p => [p]

/-- The slot, target, lease and wait operands fit their two bytes. -/
def RequestOp.fieldsFit : RequestOp → Bool
  | .attach lease _ _ => decide (lease < 65536)
  | .take k w => decide (k < 65536) && decide (w < 65536)
  | .link k t => decide (k < 65536) && decide (t < 65536)
  | .read k | .put k _ _ _ | .clear k | .checkpoint k | .watch k | .unwatch k | .retire k | .claim k _ _ _
  | .release k | .adopt k _ _ _ | .setAccess k _ _ _ | .inspect k | .breakWait k => decide (k < 65536)
  | .detach | .status | .credit _ | .setEvents _ _ | .alloc _ _ _ | .forceDetach _ | .clearDirectory => true

/-- The commands by which port n receives a whole frame with the body given: sync, length, body and first check byte, then
the second check byte (R156, R157). -/
def frameCommands (n : Port) (body : List Byte) : List Instr :=
  let len : Byte := BitVec.ofNat 8 body.length
  let check := frameCheck len body
  .syncByteFound n :: .frameByteReceived n len :: body.map (.frameByteReceived n ·)
    ++ [.frameByteReceived n (check.extractLsb' 8 8), .frameComplete n (check.extractLsb' 0 8)]

/-- A pass's cycle on slot k has written what R33 gives: the entry, the row, the free list, and on slot 0 the tallies. -/
structure PassWrote (k : Slot) (s t : State) : Prop where
  entries : ∀ j, t.entry j = if j = k then Entry.default else s.entry j
  rows : ∀ j, t.row j = if j = k then { allocated := decide (k ≤ 255), inbound := 0 } else s.row j
  tallies : t.tallies = if k = 0 then .same { owned := 0, watch := 0 } else s.tallies
  freeList : t.freeList = (if k = 0 then [] else s.freeList) ++ (if 256 ≤ k then [k] else [])

/-- Entry to CLEARING from s (R36, R52, R95, R139, R153), no cycle being in progress. The two runs of CANCELLED replies of
one port come in either order (log 9). Every executor that is not on a CLEAR_DIRECTORY stops, the maintenance port's
included: R36 speaks of other ports, and the rest is the model's choice (log 11). -/
structure EntersClearing (s t : State) : Prop where
  rest : t = { s with
    device := .clearing, passPos := 0, clearDue := false, sweepVisit := false, waits := []
    serial := { token := .free, queue := [] }, ports := t.ports, execs := t.execs, freeIndex := t.freeIndex }
  executors : ∀ p, t.executor p = if (s.executor p).onClearDirectory then s.executor p else .idle
  replies : ∀ p, ∃ stopped parked,
    stopped = (if s.portState p = .attached ∧ (s.executor p).onClearDirectory = false then
      ((s.executor p).current.map (fun rq => bareReply rq .cancelled)).toList else [])
    ∧ parked = (s.waits.filter (fun w => decide (w.port = p))).map (fun w => waitReply w .cancelled none none)
    ∧ ((t.port p).replyQueue = (s.port p).replyQueue ++ stopped ++ parked
      ∨ (t.port p).replyQueue = (s.port p).replyQueue ++ parked ++ stopped)
  events : ∀ p, s.portState p = .attached → (t.port p).seqCounter = (s.port p).seqCounter + 1
    ∧ (t.port p).eventQueue = [{ seq := (s.port p).seqCounter, event := directoryClearedEvent }]
  ports : ∀ p, t.port p = { s.port p with
    replyQueue := (t.port p).replyQueue, eventQueue := (t.port p).eventQueue, seqCounter := (t.port p).seqCounter }
  others : ∀ p, s.portState p ≠ .attached →
    (t.port p).eventQueue = (s.port p).eventQueue ∧ (t.port p).seqCounter = (s.port p).seqCounter

/-- The start of a loss of port n has been made (R51, R130, R131), up to the arbiter's turn. A cycle of the port in progress
completes, and one pending is left to the arbiter, which grants or withdraws it (R27). In CLEARING the pending one is
withdrawn in the act, as nothing can be granted before the sweep (the model's reading of R139, log 17); a CLEAR_DIRECTORY,
which has no cycle, stops in the act and a waiting one causes no entry (the model's reading, log 12). -/
structure LossStarted (s : State) (n : Port) (reason : LossReason) (t : State) : Prop where
  rest : t = { s with
    ports := t.ports, links := t.links, execs := t.execs, serial := t.serial
    waits := s.waits.filter (fun w => decide (w.port ≠ n)), sweeps := s.sweeps ++ [SweepRecord.mk n (.loss reason)] }
  own : t.port n = { s.port n with
    portState := .closing, linkDown := decide (reason = .linkReset), detachPending := false
    leaseTimer := none, leaseDue := 0, credits := 0, tags := [], requestQueue := [], replyQueue := [], eventQueue := [] }
  told : ∀ p, p ≠ n → t.port p =
    if s.portState p = .attached ∧ (s.port p).mask.ports = true then
      (s.port p).push { kind := .portLost, entry := none, value := none, cause := .device, subject := some n
                        reason := some reason, lost := none }
    else s.port p
  links : t.links = s.links.set n { s.link n with ackBuffer := [] }
  idle : (s.executor n).state = .idle → t.execs = s.execs ∧ t.serial = s.serial
  waiting : (s.executor n).state = .tokenWait → t.execs = s.execs.set n .idle
    ∧ t.serial = { s.serial with queue := s.serial.queue.filter (fun p => decide (p ≠ n)) }
  atWork : ∀ w, (s.executor n).state = .running w →
    (s.inProgress = some (.executor n) ∨ (w ≠ .clearing ∧ w ≠ .awaitPass ∧ s.device ≠ .clearing)) →
      t.execs = s.execs.set n { s.executor n with abandoned := true }
      ∧ t.serial = { s.serial with token := if s.serial.token = .held n then .recalled else s.serial.token }
  stopsHolder : ∀ w, (s.executor n).state = .running w → s.inProgress ≠ some (.executor n) →
    (w = .clearing ∨ w = .awaitPass ∨ s.device = .clearing) → s.serial.token = .held n →
      (s.serial.queue = [] → t.serial = { token := .free, queue := [] } ∧ t.execs = s.execs.set n .idle)
      ∧ ∀ p rest tag named target, s.serial.queue = p :: rest → p ≠ n →
        (s.executor p).current = some (Request.mk tag (.link named target)) →
        t.serial = { token := .held p, queue := rest }
        ∧ t.execs = (s.execs.set n .idle).set p
          { s.executor p with state := .running .checkWalk, walkPos := target, hops := 0 }
  stops : ∀ w, (s.executor n).state = .running w → s.inProgress ≠ some (.executor n) →
    (w = .clearing ∨ w = .awaitPass ∨ s.device = .clearing) → s.serial.token ≠ .held n →
      t.execs = s.execs.set n .idle ∧ t.serial = s.serial

/-- One more tick ends the wait (R89). -/
def WaitRecord.endsNow (w : WaitRecord) : Bool :=
  match w.remaining with
  | some m => decide (m ≤ 1)
  | none => false

/-- The event enable mask m admits the class of the event kind (R143, R145): CONTENT, OWNERSHIP, RETIREMENT or PORTS;
DIRECTORY_CLEARED and OVERFLOW have no class and pass every mask. -/
def EventMask.enables (m : EventMask) (k : EventKind) : Prop :=
  (k ∈ [EventKind.valuePut, .valueHanded, .valueTaken, .entryCleared, .entryLinked, .entryDropped, .entryRestored]
    ∧ m.content = true)
  ∨ (k = .ownerChanged ∧ m.ownership = true)
  ∨ (k = .entryRetired ∧ m.retirement = true)
  ∨ (k ∈ [EventKind.portAttached, .portDetached, .portLost, .sweepDone] ∧ m.ports = true)
  ∨ k ∈ [EventKind.directoryCleared, .overflow]

/-- The withdrawals that the Store Arbiter takes ahead of a grant, of the pending cycles of the ports named (R27, R131): the
requests stop there with no reply, and the token of a lost LINK passes to the head waiter or is FREE (R51). -/
structure Withdrew (s : State) (stopped : Port → Bool) (u : State) : Prop where
  only : ∀ p, stopped p = true → s.withdrawing p = true
  rest : u = { s with execs := u.execs, serial := u.serial, freeIndex := u.freeIndex }
  noLink : (∀ p, stopped p = true → (s.executor p).onLink = false) → u.serial = s.serial
    ∧ ∀ q, u.executor q = if stopped q then .idle else s.executor q
  lastLink : ∀ p, stopped p = true → (s.executor p).onLink = true → s.serial.queue = [] →
    u.serial = { token := .free, queue := [] } ∧ ∀ q, u.executor q = if stopped q then .idle else s.executor q
  nextLink : ∀ p head rest tag named target, stopped p = true → (s.executor p).onLink = true →
    s.serial.queue = head :: rest → (s.executor head).current = some (Request.mk tag (.link named target)) →
    u.serial = { token := .held head, queue := rest } ∧ ∀ q, u.executor q =
      if q = head then { s.executor head with state := .running .checkWalk, walkPos := target, hops := 0 }
      else if stopped q then .idle else s.executor q

/-- The link of port n runs over the bits given from s to t, each clock's commands running before the next clock; `first` says
at each clock whether a frame sent comes ahead of a byte received (log 27). -/
def Clocks (n : Port) (first : Bool) : List Bool → State → State → Prop
  | [], s, t => s = t
  | bit :: bits, s, t => ∃ u, Runs (s.clock n bit first).acts (s.clock n bit first).part u ∧ Clocks n first bits u t

/-- How many requestors the rotation serves ahead of r, the last grant having gone to l (R29). -/
def ahead (l r : Requestor) : Nat := (grantOrder l).findIdx (fun x => decide (x = r))

/-- The 23 commands by which the executor of port n takes a request. -/
def takingCommands (n : Port) : List Instr :=
  [.attach n, .detach n, .status n, .credit n, .setEvents n, .read n, .put n, .take n, .link n, .clear n, .checkpoint n,
    .watch n, .unwatch n, .alloc n, .retire n, .claim n, .release n, .adopt n, .setAccess n, .inspect n, .breakWait n,
    .forceDetach n, .clearDirectory n]

/-- The 18 commands that complete a cycle of the executor of port n. -/
def cycleCommands (n : Port) : List Instr :=
  [.walkHop n, .readTerminal n, .putTerminal n, .takeTerminal n, .checkWalkCycle n, .commitCycle n, .clearCycle n,
    .checkpointCycle n, .watchCycle n, .unwatchCycle n, .allocCycle n, .retireCycle n, .claimCycle n, .releaseCycle n,
    .adoptCycle n, .setAccessCycle n, .inspectCycle n, .breakWaitCycle n]

/-- The cycle commands that may complete a cycle of the sort given for the request given: a hop or the terminal cycle of a
walk, a cycle of a LINK, or the request's single cycle (R26, R41, R53, R55). -/
def dueCycles (n : Port) : Work → RequestOp → List Instr
  | .walk, .read _ => [.walkHop n, .readTerminal n]
  | .walk, .put _ _ _ _ => [.walkHop n, .putTerminal n]
  | .walk, .take _ _ => [.walkHop n, .takeTerminal n]
  | .walk, _ => [.walkHop n]
  | .checkWalk, .link _ _ => [.checkWalkCycle n]
  | .commit, .link _ _ => [.commitCycle n]
  | .single, .clear _ => [.clearCycle n]
  | .single, .checkpoint _ => [.checkpointCycle n]
  | .single, .watch _ => [.watchCycle n]
  | .single, .unwatch _ => [.unwatchCycle n]
  | .single, .alloc _ _ _ => [.allocCycle n]
  | .single, .retire _ => [.retireCycle n]
  | .single, .claim _ _ _ _ => [.claimCycle n]
  | .single, .release _ => [.releaseCycle n]
  | .single, .adopt _ _ _ _ => [.adoptCycle n]
  | .single, .setAccess _ _ _ _ => [.setAccessCycle n]
  | .single, .inspect _ => [.inspectCycle n]
  | .single, .breakWait _ => [.breakWaitCycle n]
  | _, _ => []

/-- The command completes the cycle in progress: it is SWEEP_VISIT for a visit, and otherwise a cycle command due, which in a
walk is WALK_HOP where the slot is unallocated or a forward, and the request's terminal cycle elsewhere (R25, R41, R42). -/
def State.completes (s : State) (c : Instr) : Prop :=
  (s.inProgress = some .sweeper ∧ s.sweeps ≠ [] ∧ c = .sweepVisit)
  ∨ ∃ n w rq, s.inProgress = some (.executor n) ∧ (s.executor n).state = .running w ∧ (s.executor n).current = some rq ∧
      c ∈ dueCycles n w rq.op ∧ (w = .walk → (c = .walkHop n ↔
        (s.allocated (s.executor n).walkPos = false ∨ ∃ t, (s.entry (s.executor n).walkPos).content = .forward t)))

/-- The end of the head record's pass (R137), up to the next grant: its port leaves CLOSING by its link-down mark and its
line, a DETACH reply owed is posted OK with the counts, SWEEP_DONE goes to the attached ports, and the record is
gone. That the
position is 0 until the next pass is the model's choice (log 15). -/
structure PassEnded (s : State) (r : SweepRecord) (rest : List SweepRecord) (t : State) : Prop where
  frame : t = { s with sweeps := rest, sweepPos := 0, sweepVisit := false, ports := t.ports }
  own : t.port r.port = { s.port r.port with
    portState := if (s.port r.port).linkDown ∨ (s.link r.port).lineHigh = false then .down else .opened
    linkDown := false
    replyQueue := (s.port r.port).replyQueue ++ match r.kind with
      | .detach (some tag) counts =>
        [{ tag := tag, code := 0x02#8, status := .ok, named := none, terminal := none, content := none
           version := none, extra := .counts counts }]
      | .detach none _ | .loss _ => [] }
  told : ∀ p, p ≠ r.port → t.port p =
    if s.portState p = .attached ∧ (s.port p).mask.ports = true then
      (s.port p).push { kind := .sweepDone, entry := none, value := none, cause := .device, subject := some r.port
                        reason := match r.kind with | .loss x => some x | .detach _ _ => none
                        lost := none }
    else s.port p

/-- The first sweep records, those given, have ended their passes one after another, head first, each at its first test with
both counts of its port 0, a LOSS record once its executor has stopped (R134, R135, R137, R139); the index of the next free
value may have moved. -/
def PassesEnded : List SweepRecord → State → State → Prop
  | [], s, t => s = t
  | r :: ended, s, t => ∃ (rest : List SweepRecord) (i : Nat) (u : State), s.sweeps = r :: rest ∧
      ((∃ x, r.kind = .loss x) → (s.executor r.port).abandoned = false) ∧
      s.tallies.get r.port = { owned := 0, watch := 0 } ∧ PassEnded { s with freeIndex := i } r rest u
      ∧ PassesEnded ended u t

/-- The visit to slot k for the head record r is in progress, and the slot is allocated. -/
structure Visiting (s : State) (r : SweepRecord) (rest : List SweepRecord) (k : Slot) : Prop where
  granted : s.inProgress = some .sweeper
  head : s.sweeps = r :: rest
  position : s.sweepPos = k
  allocated : s.allocated k = true

/-- The head record with one more entry counted, where it is of kind DETACH (R133, R136). -/
def countedHead (r : SweepRecord) (d : Disposition) : SweepRecord :=
  match r.kind with
  | .loss _ => r
  | .detach tag c =>
    let counts : DispositionCounts := {
      keep := c.keep + if d = .keep then 1 else 0
      release := c.release + if d = .release then 1 else 0
      drop := c.drop + if d = .drop then 1 else 0
      restore := c.restore + if d = .restore then 1 else 0 }
    { r with kind := .detach tag counts }

/-- The tallies after a visit for port p to an entry e that p owns and has not orphaned: p's owned count falls by 1, and its
watch count by 1 where it watched (R14, R15). -/
def visitedTallies (s : State) (p : Port) (e : Entry) (q : Port) : Tally :=
  if q = p then
    { owned := (s.tallies.get p).owned - 1, watch := (s.tallies.get p).watch - if e.watch.get p then 1 else 0 }
  else s.tallies.get q

end Sys2Proof.Machine

open Sys2Proof Sys2Proof.Machine

/-! ## The queue of commands -/

/-- A step runs the command at the front of the queue on the state with the queue's rest; on an empty queue the part idles
(log 1, the model's choice). -/
def Obligations.StepRunsTheFrontCommand : Prop :=
  (∀ (c : Instr) (rest : List Instr) (s : State),
    step { s with pending := c :: rest } = exec c { s with pending := rest })
  ∧ ∀ s : State, step { s with pending := [] } = .next { s with pending := [] }

/-- Every command in every state is answered by a next state: the part never stops (log 22). -/
def Obligations.EveryCommandGoesOn : Prop := ∀ (c : Instr) (s : State), GoesOn (exec c s)

/-- A command neither reads nor writes the queue of commands behind it (log 1, the model's own field). -/
def Obligations.CommandsLeaveTheQueue : Prop :=
  ∀ (c : Instr) (s t : State) (l : List Instr), exec c s = .next t →
    t.pending = s.pending ∧ exec c { s with pending := l } = .next { t with pending := l }

/-- A request command whose request does not stand at the head of an IDLE executor's queue changes nothing, nor does a cycle
command with no cycle of its requestor in progress, or with one of another sort, of another request, or on a slot that does
not bring it (log 2, the model's choice). -/
def Claims.UndueCyclesChangeNothing : Prop :=
  ∀ (s : State) (n : Port),
    (∀ c ∈ takingCommands n, (∀ rq, s.nextRequest n = some rq → rq.op.command n ≠ c) → exec c s = .next s) ∧
    (s.inProgress ≠ some (.executor n) ∨ (∀ w, (s.executor n).state ≠ .running w) ∨ (s.executor n).current = none →
      ∀ c ∈ cycleCommands n, exec c s = .next s) ∧
    (∀ w rq, (s.executor n).state = .running w → (s.executor n).current = some rq →
      ∀ c ∈ cycleCommands n, c ∉ dueCycles n w rq.op → exec c s = .next s) ∧
    ((s.allocated (s.executor n).walkPos = false ∨ ∃ t, (s.entry (s.executor n).walkPos).content = .forward t) →
      ∀ c ∈ [Instr.readTerminal n, .putTerminal n, .takeTerminal n], exec c s = .next s) ∧
    (s.allocated (s.executor n).walkPos = true → (∀ t, (s.entry (s.executor n).walkPos).content ≠ .forward t) →
      exec (.walkHop n) s = .next s) ∧
    (s.inProgress ≠ some .sweeper ∨ s.sweeps = [] → exec .sweepVisit s = .next s) ∧
    (s.sweeps = [] ∨ s.device ≠ .ready ∨ s.sweepVisit = true → exec .sweepPassStart s = .next s)

/-- The acts of the reset lines, the passes, the Time Base and the links change nothing outside the state that brings them: a
byte outside its framer state, a frame with nothing to send or away from a byte boundary, a tick not delivered, a
part or port held in reset (log 2, the
model's choice). -/
def Claims.UndueActsChangeNothing : Prop :=
  ∀ (s : State) (n : Port) (b : Byte) (strap : BitVec 3),
    (s.held = false → exec (.resetNHigh strap) s = .next s) ∧
    (s.held = true ∨ s.device = .ready → exec .passCycle s = .next s) ∧
    ((s.link n).lineHigh = false → exec (.portResetLow n) s = .next s) ∧
    ((s.link n).lineHigh = true → exec (.portResetHigh n) s = .next s) ∧
    (s.waitDue = 0 → exec .waitExpiry s = .next s) ∧
    ((s.port n).leaseDue = 0 → exec (.leaseExpiry n) s = .next s) ∧
    ((s.link n).framerDue = 0 → exec (.truncatedFrame n) s = .next s) ∧
    (s.held = true ∨ (s.link n).lineHigh = false → ∀ c ∈ [Instr.syncByteFound n, .frameByteReceived n b,
      .lengthError n b, .frameComplete n b, .ackFrame n, .replyFrame n, .eventFrame n], exec c s = .next s) ∧
    ((s.link n).framer ≠ .hunt → exec (.syncByteFound n) s = .next s) ∧
    ((s.link n).framer = .hunt ∨ ((s.link n).framer = .length ∧ (b.toNat < 2 ∨ 15 < b.toNat))
      ∨ (∃ len body high, (s.link n).framer = .check len body (some high)) →
      exec (.frameByteReceived n b) s = .next s) ∧
    ((s.link n).framer ≠ .length ∨ (2 ≤ b.toNat ∧ b.toNat ≤ 15) → exec (.lengthError n b) s = .next s) ∧
    ((∀ len body high, (s.link n).framer ≠ .check len body (some high)) → exec (.frameComplete n b) s = .next s) ∧
    ((s.link n).ackBuffer = [] → exec (.ackFrame n) s = .next s) ∧
    ((s.port n).replyQueue = [] → exec (.replyFrame n) s = .next s) ∧
    ((s.port n).eventQueue = [] → exec (.eventFrame n) s = .next s) ∧
    ((s.link n).line = none → exec (.frameSent n) s = .next s) ∧
    ((s.link n).bits.sent ≠ 0 →
      ∀ c ∈ [Instr.ackFrame n, .replyFrame n, .eventFrame n, .frameSent n], exec c s = .next s)

/-- A command that is no act of the part in the state it meets changes nothing (log 2, the model's choice). -/
def Obligations.UndueCommandsChangeNothing : Prop :=
  Claims.UndueCyclesChangeNothing ∧ Claims.UndueActsChangeNothing

/-! ## Reset and the passes -/

/-- Device reset (R32): every block at its device-reset state, the line levels, the strap, and the entries, rows and free
list (log 16) as they were. -/
def Claims.DeviceResetHoldsThePart : Prop :=
  ∀ s : State, ∃ t : State, exec .deviceReset s = .next t ∧
    t = { s with
      held := true, device := .init, passPos := 0, clearDue := false, inProgress := none, lastGranted := .sweeper
      tallies := .same { owned := 0, watch := 0 }
      execs := .same .idle, waits := [], waitDue := 0, serial := { token := .free, queue := [] }
      sweeps := [], sweepPos := 0, sweepVisit := false, ports := t.ports, links := t.links } ∧
    (∀ p, t.port p = .reset (s.link p).lineHigh ∧ t.link p = .reset (s.link p).lineHigh ∧ t.pinOut p = .low)

/-- Leaving device reset (R32, R121, R166): the strap is latched, each port state is set by its line, and the pass begins
at slot 0. -/
def Claims.LeavingResetLatchesTheStrap : Prop :=
  ∀ (s : State) (strap : BitVec 3), s.held = true → ∃ t : State, exec (.resetNHigh strap) s = .next t ∧
    t = { s with held := false, maint := strap, passPos := 0, ports := t.ports } ∧
    ∀ p, t.port p = { s.port p with portState := if (s.link p).lineHigh then .opened else .down }

/-- Device reset and leaving it (R32, R121, R166). -/
def Obligations.ResetHoldsAndReleasesThePart : Prop :=
  Claims.DeviceResetHoldsThePart ∧ Claims.LeavingResetLatchesTheStrap

/-- A cycle of the initialization or clearing pass on slot k, short of the last, writes what R33 gives and moves to the
next slot. Slot 0 of a clearing pass also removes the sweep records (`ClearingPassRemovesTheSweeps`). -/
def Claims.PassCycleWritesItsSlot : Prop :=
  ∀ s : State, s.held = false → s.device ≠ .ready → s.passPos + 1 < 4096 → (s.passPos = 0 → s.device = .init) →
    ∃ t : State, exec .passCycle s = .next t ∧ PassWrote s.passPos s t ∧
      t = { s with
        entries := t.entries, rows := t.rows, tallies := t.tallies, freeList := t.freeList, passPos := s.passPos + 1 }

/-- R33: the pass is 4096 cycles on slots 0 to 4095 in ascending order, each with the writes the rule gives, and at its
completion the free list holds 256 to 4095 in ascending order, its length is 3840, every entry holds the defaults, and
every row, inbound count and tally is at its default. No cycle of it adds an entry event to a queue; only the removal of
the sweep records at slot 0 (R139) and the end of a CLEAR_DIRECTORY's pass (R36, R38) change a port. -/
def Obligations.PassLeavesTheDefaults : Prop :=
  ∀ s : State, s.held = false → s.device ≠ .ready → s.passPos = 0 →
    ∃ f : Nat → State, f 0 = s ∧
      (∀ k, k < 4096 → exec .passCycle (f k) = .next (f (k + 1)) ∧ (f k).passPos = k ∧ PassWrote k (f k) (f (k + 1))
        ∧ ((0 < k ∨ (f k).device = .init ∨ (f k).sweeps = []) →
          (k < 4095 ∨ ∀ p, ((f k).executor p).state ≠ .running .clearing
            ∧ ((f k).executor p).state ≠ .running .awaitPass) → (f (k + 1)).ports = (f k).ports)
        ∧ ((k < 4095 ∨ ∀ p, ((f k).executor p).state ≠ .running .awaitPass) → (f (k + 1)).waits = (f k).waits)
        ∧ (∀ p, ∀ r ∈ ((f (k + 1)).port p).eventQueue, r.event.entry ≠ none →
          ∃ r' ∈ ((f k).port p).eventQueue, r'.event.entry = r.event.entry ∧ r'.event.kind = r.event.kind)
        ∧ ∀ j, j < 256 → (f k).allocated j = true) ∧
      (f 4096).freeList = List.range' 256 3840 ∧ (f 4096).freeList.length = 3840 ∧
      (∀ j, j < 4096 → (f 4096).entry j = .default ∧ (f 4096).allocated j = decide (j < 256) ∧ (f 4096).inbound j = 0) ∧
      ∀ p, (f 4096).tallies.get p = { owned := 0, watch := 0 }

/-- The last cycle of a pass (R35, R38): the device is READY, the CLEAR_DIRECTORY that caused the pass is answered OK and
its executor goes IDLE, and the arbiter grants from last granted as it stood. -/
def Claims.LastPassCycleEndsThePass : Prop :=
  ∀ s : State, s.held = false → s.device ≠ .ready → s.passPos = 4095 →
    (∀ p, (s.executor p).state ≠ .running .awaitPass) →
    ∃ t : State, exec .passCycle s = .next t.arbitrate ∧ PassWrote 4095 s t ∧
      t = { s with
        device := .ready, passPos := 0, entries := t.entries, rows := t.rows, freeList := t.freeList
        ports := t.ports, execs := t.execs } ∧
      ∀ p, ((s.executor p).state = .running .clearing → t.executor p = .idle ∧
          ∀ rq, (s.executor p).current = some rq → t.port p =
            { s.port p with replyQueue := (s.port p).replyQueue ++
              [{ tag := rq.tag, code := rq.op.code, status := .ok, named := rq.op.named, terminal := none
                 content := none, version := none, extra := .none }] }) ∧
        ((s.executor p).state ≠ .running .clearing → t.executor p = s.executor p ∧ t.port p = s.port p)

/-- A CLEAR_DIRECTORY that waits for the end of a pass causes a new entry to CLEARING at that completion, before any other
cycle is granted, with the effects of an entry (R36): the entry is made from the part with the pass complete, the
CLEAR_DIRECTORY that caused that pass answered OK (R38), and the waiting one now the cause. The tallies are 0, as the
pass left
them (R33). Whether a sweep pass of a record appended during the pass ends ahead of the entry (R37, R139) is a free value: the
first of the records, some, none or all, have ended (log 10), with position 0 (the model's choice, log 15). That the
entry stops every executor not on a CLEAR_DIRECTORY is
the model's choice (log 11). -/
def Claims.WaitingClearEntersAgain : Prop :=
  ∀ s : State, s.held = false → s.device ≠ .ready → s.passPos = 4095 →
    (∃ p, (s.executor p).state = .running .awaitPass) → s.tallies = .same { owned := 0, watch := 0 } →
    ∃ (u v t : State) (ended : List SweepRecord), exec .passCycle s = .next t ∧ PassWrote 4095 s u ∧
      PassesEnded ended u v ∧ EntersClearing v t ∧
      u = { s with
        device := .ready, passPos := 0, entries := u.entries, rows := u.rows, freeList := u.freeList
        ports := u.ports, execs := u.execs } ∧
      ∀ p, ((s.executor p).state = .running .clearing → u.executor p = .idle ∧
          ∀ rq, (s.executor p).current = some rq → u.port p =
            { s.port p with replyQueue := (s.port p).replyQueue ++
              [{ tag := rq.tag, code := rq.op.code, status := .ok, named := rq.op.named, terminal := none
                 content := none, version := none, extra := .none }] }) ∧
        ((s.executor p).state = .running .awaitPass → u.port p = s.port p ∧
          u.executor p = { s.executor p with state := .running .clearing }) ∧
        ((s.executor p).state ≠ .running .clearing → (s.executor p).state ≠ .running .awaitPass →
          u.executor p = s.executor p ∧ u.port p = s.port p)

/-- A pass cycle short of the last, the last cycle, and the last cycle with a CLEAR_DIRECTORY waiting (R33, R35, R36, R38). -/
def Obligations.PassCyclesActAsGiven : Prop :=
  Claims.PassCycleWritesItsSlot ∧ Claims.LastPassCycleEndsThePass ∧ Claims.WaitingClearEntersAgain

/-- R139: the clearing pass's first cycle, beside its own writes, removes every sweep record, with position 0; nothing else
changes but the ports: each of the records' ports leaves CLOSING, for DOWN where the
link-down mark is set or its line is low and otherwise for OPEN; a DETACH reply owed is posted CANCELLED with its counts; a
CLOSING port has nothing else posted to it. -/
def Obligations.ClearingPassRemovesTheSweeps : Prop :=
  ∀ s : State, s.held = false → s.device = .clearing → s.passPos = 0 → (s.sweeps.map SweepRecord.port).Nodup →
    (∀ r ∈ s.sweeps, s.portState r.port = .closing) →
    ∃ t : State, exec .passCycle s = .next t ∧ PassWrote 0 s t
      ∧ t = { s with
        entries := t.entries, rows := t.rows, tallies := t.tallies, freeList := t.freeList, ports := t.ports
        sweeps := [], sweepPos := 0, sweepVisit := false, passPos := 1 }
      ∧ (∀ r ∈ s.sweeps, t.port r.port =
          { s.port r.port with
            portState := if (s.port r.port).linkDown ∨ (s.link r.port).lineHigh = false then .down else .opened
            linkDown := false
            replyQueue := (s.port r.port).replyQueue ++ match r.kind with
              | .detach (some tag) counts =>
                [{ tag := tag, code := 0x02#8, status := .cancelled, named := none, terminal := none, content := none
                   version := none, extra := .counts counts }]
              | .detach none _ | .loss _ => [] })
      ∧ ∀ p, (∀ r ∈ s.sweeps, r.port ≠ p) → t.port p =
          (s.sweeps.foldl (fun c r =>
            if c.portState = .attached ∧ c.mask.ports = true then
              c.push { kind := .sweepDone, entry := none, value := none, cause := .device, subject := some r.port
                       reason := match r.kind with | .loss x => some x | .detach _ _ => none
                       lost := none }
            else c) (s.port p))

/-- What ends a completion: an entry to CLEARING that is due, and otherwise the arbiter's turn (R25, R29, R36). Whether first
tests of the Sweeper, that of a LOSS record whose executor stopped with the completion among them (R134), come ahead of the
entry and end the passes of records whose counts are 0, some, none or all, are free values (log 10). That the entry
stops every executor that is not on a CLEAR_DIRECTORY, the maintenance port's included, is the model's choice (log 11), and so
is the position 0 after a pass (log 15). -/
def Obligations.CompletionThenEntryThenGrant : Prop :=
  ∀ s : State, s.inProgress = none →
    (s.clearDue = false → s.afterCompletion = s.arbitrate) ∧
    (s.clearDue = true → ∃ (ended : List SweepRecord) (u : State), PassesEnded ended s u ∧ EntersClearing u s.afterCompletion)

/-! ## The port reset lines and session loss -/

/-- PRSTn_N outside ATTACHED (R122, R132, R164): low in OPEN flushes and goes DOWN; low in CLOSING sets the link-down mark,
flushes and forgets a DETACH reply owed; high in DOWN goes OPEN; high in CLOSING clears the mark. The link is reset by the
falling edge and drives low while the line is low. -/
def Obligations.PortResetOutsideAttached : Prop :=
  ∀ (s : State) (n : Port),
    ((s.link n).lineHigh = true → s.portState n ≠ .attached → ∃ t : State, exec (.portResetLow n) s = .next t ∧
      t = { s with ports := s.ports.set n (t.port n), links := s.links.set n (.reset false), sweeps := t.sweeps } ∧
      t.pinOut n = .low ∧
      (s.portState n = .down → t.port n = s.port n ∧ t.sweeps = s.sweeps) ∧
      (s.portState n = .opened → t.sweeps = s.sweeps ∧ t.port n =
        { s.port n with
          portState := .down, requestQueue := [], replyQueue := [], eventQueue := [], tags := [] }) ∧
      (s.portState n = .closing →
        t.port n =
          { s.port n with linkDown := true, requestQueue := [], replyQueue := [], eventQueue := [], tags := [] } ∧
        t.sweeps = s.sweeps.map (fun r =>
          if r.port = n then { r with kind := match r.kind with | .detach _ c => .detach none c | x => x } else r))) ∧
    ((s.link n).lineHigh = false → ∃ t : State, exec (.portResetHigh n) s = .next t ∧
      t = { s with
        ports := s.ports.set n (t.port n), links := s.links.set n { s.link n with lineHigh := true, framer := .hunt } } ∧
      t.port n = match s.portState n with
        | .down => { s.port n with portState := .opened }
        | .closing => { s.port n with linkDown := false }
        | .opened | .attached => s.port n)

/-- A session is lost by its line, by its lease or by a FORCE_DETACH, which is answered after the loss it makes (R122, R127,
R130, R169). The model's choices: a tick that ends a lease is delivered and then taken (log 8),
and one left over is dropped (log 25); in CLEARING a pending cycle
is withdrawn in the act (log 17); a waiting CLEAR_DIRECTORY goes IDLE and causes no entry (log 12). -/
def Obligations.SessionLossStarts : Prop :=
  ∀ (s : State) (n : Port), s.portState n = .attached →
    ((s.link n).lineHigh = true → ∃ t : State, exec (.portResetLow n) s = .next t.arbitrate ∧
      LossStarted (s.setLink n (.reset false)) n .linkReset t) ∧
    ((s.port n).leaseTimer = some 1 → 0 < (s.port n).leaseDue → ∃ t : State, exec (.leaseExpiry n) s = .next t.arbitrate ∧
      LossStarted s n .lease t) ∧
    (∀ (m : Port) (tag : Tag) (code : Byte), s.nextRequest m = some ⟨tag, .forceDetach code⟩ →
      portOfCode code = some n → s.isMaintenance m = true →
      ∃ t : State, LossStarted (s.requestTaken m) n .forced t ∧
        (m = n → exec (.forceDetach m) s = .next t.arbitrate) ∧
        (m ≠ n → exec (.forceDetach m) s = .next (t.arbitrate.postReply m
          { tag := tag, code := 0x31#8, status := .ok, named := none, terminal := none, content := none
            version := none, extra := .alreadyClosing false })))

/-! ## The Time Base -/

/-- A tick (R89, R126, R127, R157): it reaches the Wait Table, each lease timer and each framer. A block takes it at once
unless it would end a wait, a lease or a frame there; then it stays delivered (log 8, the model's choice). A block with
nothing to measure drops it, with any left over (log 25, the model's choice). -/
def Obligations.TickReachesEveryBlock : Prop :=
  ∀ s : State, (s.held = true → exec .tick s = .next s) ∧
    (s.held = false → ∃ t : State, exec .tick s = .next t ∧
      t = { s with waits := t.waits, waitDue := t.waitDue, ports := t.ports, links := t.links } ∧
      (s.waits ≠ [] → s.waitDue = 0 → (∀ w ∈ s.waits, ∀ m, w.remaining = some m → 2 ≤ m) →
        t.waitDue = 0 ∧ t.waits = s.waits.map (fun w => { w with remaining := w.remaining.map (· - 1) })) ∧
      (s.waits = [] → t.waits = [] ∧ t.waitDue = 0) ∧
      (s.waits ≠ [] → (0 < s.waitDue ∨ ∃ w ∈ s.waits, ∃ m, w.remaining = some m ∧ m ≤ 1) →
        t.waitDue = s.waitDue + 1 ∧ t.waits = s.waits) ∧
      (∀ p, t.port p = { s.port p with leaseTimer := (t.port p).leaseTimer, leaseDue := (t.port p).leaseDue } ∧
        ((s.port p).leaseTimer = none → (t.port p).leaseTimer = none ∧ (t.port p).leaseDue = 0) ∧
        (∀ m, (s.port p).leaseTimer = some m → 2 ≤ m → (s.port p).leaseDue = 0 →
          (t.port p).leaseTimer = some (m - 1) ∧ (t.port p).leaseDue = 0) ∧
        (∀ m, (s.port p).leaseTimer = some m → (m ≤ 1 ∨ 0 < (s.port p).leaseDue) →
          (t.port p).leaseTimer = some m ∧ (t.port p).leaseDue = (s.port p).leaseDue + 1)) ∧
      ∀ p, t.link p = { s.link p with byteTicks := (t.link p).byteTicks, framerDue := (t.link p).framerDue } ∧
        ((s.link p).framer = .hunt → (t.link p).byteTicks = 0 ∧ (t.link p).framerDue = 0) ∧
        ((s.link p).framer ≠ .hunt → (s.link p).byteTicks = 0 → (s.link p).framerDue = 0 →
          (t.link p).byteTicks = 1 ∧ (t.link p).framerDue = 0) ∧
        ((s.link p).framer ≠ .hunt → (0 < (s.link p).byteTicks ∨ 0 < (s.link p).framerDue) →
          (t.link p).byteTicks = (s.link p).byteTicks ∧ (t.link p).framerDue = (s.link p).framerDue + 1))

/-- The Wait Table takes a delivered tick whole (R89): every remaining time falls by 1, "no limit" stays, the records that
reach 0 are removed and answered TIMEOUT in arrival order, with named slot, terminal slot and hops. -/
def Claims.ExpiredWaitsAreAnsweredTimeout : Prop :=
  ∀ s : State, 0 < s.waitDue → ∃ t : State, exec .waitExpiry s = .next t ∧
    t = { s with waits := t.waits, waitDue := s.waitDue - 1, ports := t.ports } ∧
    t.waits = (s.waits.filter (fun w => !w.endsNow)).map
      (fun w => { w with remaining := w.remaining.map (· - 1) }) ∧
    ∀ p, t.port p = { s.port p with
      replyQueue := (s.port p).replyQueue ++ (s.waits.filter (fun w => decide (w.port = p) && w.endsNow)).map
        (fun w => { tag := w.tag, code := 0x12#8, status := .timeout, named := some w.named
                    terminal := some (w.terminal, w.hops), content := none, version := none, extra := .none }) }

/-- A delivered tick that does not end the lease lowers its timer by 1 (R127). -/
def Claims.LeaseTakesADeliveredTick : Prop :=
  ∀ (s : State) (n : Port) (m : Nat), 0 < (s.port n).leaseDue → (s.port n).leaseTimer = some m → 2 ≤ m →
    exec (.leaseExpiry n) s =
      .next (s.setPort n { s.port n with leaseTimer := some (m - 1), leaseDue := (s.port n).leaseDue - 1 })

/-- The Wait Table and a lease timer take a delivered tick (R89, R127). -/
def Obligations.DeliveredTicksAreTaken : Prop :=
  Claims.ExpiredWaitsAreAnsweredTimeout ∧ Claims.LeaseTakesADeliveredTick

/-! ## The port links -/

/-- The framer moves on byte by byte (R157): sync to LENGTH, a length byte of 2 to 15 to BODY, the last body byte to CHECK,
and the first check byte stays in CHECK; each byte restarts the truncation measure. That the sync byte drops a tick left over
is the model's choice (log 25). -/
def Claims.FramerTakesItsBytes : Prop :=
  ∀ (s : State) (n : Port), s.held = false → (s.link n).lineHigh = true →
    ((s.link n).framer = .hunt → exec (.syncByteFound n) s =
      .next (s.setLink n { s.link n with framer := .length, byteTicks := 0, framerDue := 0 })) ∧
    (∀ b : Byte, (s.link n).framer = .length → 2 ≤ b.toNat → b.toNat ≤ 15 → exec (.frameByteReceived n b) s =
      .next (s.setLink n { s.link n with framer := .body b [], byteTicks := 0 })) ∧
    (∀ (len b : Byte) (got : List Byte), (s.link n).framer = .body len got → exec (.frameByteReceived n b) s =
      .next (s.setLink n { s.link n with
        framer := if got.length + 1 < len.toNat then .body len (got ++ [b]) else .check len (got ++ [b]) none
        byteTicks := 0 })) ∧
    ∀ (len b : Byte) (bytes : List Byte), (s.link n).framer = .check len bytes none → exec (.frameByteReceived n b) s =
      .next (s.setLink n { s.link n with framer := .check len bytes (some b), byteTicks := 0 })

/-- The faults of the framer (R157, R158): a wrong length byte, a second tick since the last byte, a wrong check, and a
length that is not its request code's. Each goes back to HUNT and is acknowledged with tag "none" and request code 00h, or
sets the frames-dropped flag where the buffer holds four; it changes nothing else, but that ticks left over are dropped (the
model's choice, log 25). A first tick taken is only counted. -/
def Claims.FramerFaultsAreAcknowledged : Prop :=
  ∀ (s : State) (n : Port) (fault : AckResult → State),
    (∀ r, fault r = s.setLink n { s.link n with
      framer := .hunt, byteTicks := 0, framerDue := 0
      ackBuffer := if (s.link n).ackBuffer.length < 4 then (s.link n).ackBuffer ++ [{ tag := none, code := 0, result := r }]
        else (s.link n).ackBuffer
      framesDropped := (s.link n).framesDropped || decide (4 ≤ (s.link n).ackBuffer.length) }) →
    (∀ b : Byte, s.held = false → (s.link n).lineHigh = true → (s.link n).framer = .length →
      (b.toNat < 2 ∨ 15 < b.toNat) → exec (.lengthError n b) s = .next (fault .lengthError)) ∧
    (0 < (s.link n).framerDue → (s.link n).framer ≠ .hunt → (s.link n).byteTicks = 0 → exec (.truncatedFrame n) s =
      .next (s.setLink n { s.link n with byteTicks := 1, framerDue := (s.link n).framerDue - 1 })) ∧
    (0 < (s.link n).framerDue → (s.link n).framer ≠ .hunt → 0 < (s.link n).byteTicks →
      exec (.truncatedFrame n) s = .next (fault .frameError)) ∧
    ∀ (len high low : Byte) (body : List Byte), s.held = false → (s.link n).lineHigh = true →
      (s.link n).framer = .check len body (some high) →
      (frameCheck len body ≠ high ++ low → exec (.frameComplete n low) s = .next (fault .frameError)) ∧
      (frameCheck len body = high ++ low → ∀ (code tagByte : Byte) (operands : List Byte) (l : Nat),
        body = code :: tagByte :: operands → requestLength code = some l → l ≠ body.length →
        exec (.frameComplete n low) s = .next (fault .lengthError))

/-- The receive framer, byte by byte and fault by fault (R157, R158). -/
def Obligations.FramerFollowsItsTable : Prop :=
  Claims.FramerTakesItsBytes ∧ Claims.FramerFaultsAreAcknowledged

/-- R159: the admission of a complete frame. The tests are applied in order; a frame accepted joins the tail of the request
queue with its tag in use, and restarts the lease timer or, a DETACH, sets the detach-pending mark and stops it (R127,
R128); a frame rejected changes nothing; the acknowledgment carries the frame's tag and request code for every result;
operands are not examined. Ticks left over are dropped (the model's choice, log 25). With four acknowledgments waiting the
frame is dropped and the flag set (R158). In DOWN no frame
arrives (R123). -/
def Obligations.CompleteFramesAreAdmitted : Prop :=
  ∀ (s : State) (n : Port) (len high low code tagByte : Byte) (operands : List Byte),
    s.held = false → (s.link n).lineHigh = true → s.portState n ≠ .down →
    (s.link n).framer = .check len (code :: tagByte :: operands) (some high) →
    frameCheck len (code :: tagByte :: operands) = high ++ low →
    ∀ tag : Tag, tag = tagByte.setWidth 4 →
    ∀ hunting : PortLink, hunting = { s.link n with framer := .hunt, byteTicks := 0, framerDue := 0 } →
    (4 ≤ (s.link n).ackBuffer.length →
      (requestLength code = none ∨ requestLength code = some (operands.length + 2)) →
      exec (.frameComplete n low) s = .next (s.setLink n { hunting with framesDropped := true })) ∧
    ((s.link n).ackBuffer.length < 4 →
      ∀ answered : AckResult → State, (∀ r, answered r = s.setLink n
        { hunting with ackBuffer := (s.link n).ackBuffer ++ [{ tag := some tag, code := code, result := r }] }) →
      (s.device = .init → (requestLength code = none ∨ requestLength code = some (operands.length + 2)) →
        exec (.frameComplete n low) s = .next (answered .notReady)) ∧
      (s.device ≠ .init → requestLength code = none →
        exec (.frameComplete n low) s = .next (answered .unknownRequest)) ∧
      ∀ op : RequestOp, op.fieldsFit = true → code = op.code → operands = op.operandBytes → s.device ≠ .init →
        (∀ r, (s.port n).stateRefuses op r → exec (.frameComplete n low) s = .next (answered r)) ∧
        ((∀ r, ¬ (s.port n).stateRefuses op r) →
          (8 ≤ (s.port n).tags.length → exec (.frameComplete n low) s = .next (answered .outstandingFull)) ∧
          ((s.port n).tags.length < 8 → tag ∈ (s.port n).tags →
            exec (.frameComplete n low) s = .next (answered .tagInUse)) ∧
          ((s.port n).tags.length < 8 → tag ∉ (s.port n).tags →
            ∃ c : PortControl, exec (.frameComplete n low) s = .next ((answered .accepted).setPort n c) ∧
              c = { s.port n with
                requestQueue := (s.port n).requestQueue ++ [{ tag := tag, op := op }], tags := (s.port n).tags ++ [tag]
                detachPending := c.detachPending, leaseTimer := c.leaseTimer, leaseDue := c.leaseDue } ∧
              ((s.portState n ≠ .attached ∨ (s.port n).detachPending = true) →
                c.detachPending = (s.port n).detachPending ∧ c.leaseTimer = (s.port n).leaseTimer
                  ∧ c.leaseDue = (s.port n).leaseDue) ∧
              (s.portState n = .attached → (s.port n).detachPending = false → op ≠ .detach →
                c.detachPending = false ∧ c.leaseDue = (s.port n).leaseDue
                  ∧ c.leaseTimer = if (s.port n).lease = 0 then none else some (s.port n).lease) ∧
              (s.portState n = .attached → (s.port n).detachPending = false → op = .detach →
                c.detachPending = true ∧ c.leaseTimer = none ∧ c.leaseDue = 0))))

/-- Table 10-5, both ways: the bytes of a request spell that request again and have the length the table gives its code,
and every operand run of that length for a code of the table is the bytes of a request. -/
def Obligations.RequestBytesSpellTheRequest : Prop :=
  (∀ op : RequestOp, op.fieldsFit = true →
    readOperands op.code op.operandBytes = some op ∧ requestLength op.code = some (op.operandBytes.length + 2)) ∧
  ∀ (code : Byte) (operands : List Byte), requestLength code = some (operands.length + 2) →
    ∃ op : RequestOp, op.fieldsFit = true ∧ op.code = code ∧ op.operandBytes = operands

/-- A whole request frame, sent byte by byte to a hunting framer of an ATTACHED port of a part in READY that has room for
it, puts the request it spells into the request queue and is acknowledged ACCEPTED (R156 to R159, R165). -/
def Obligations.WholeRequestFrameIsQueued : Prop :=
  ∀ (s : State) (n : Port) (tag : Tag) (op : RequestOp), op.fieldsFit = true →
    s.held = false → s.device = .ready → (s.link n).lineHigh = true → (s.link n).framer = .hunt →
    (s.link n).ackBuffer.length < 4 → s.portState n = .attached → (s.port n).detachPending = false →
    (s.port n).tags.length < 8 → tag ∉ (s.port n).tags →
    ∃ t : State, Runs (frameCommands n (op.code :: tag.setWidth 8 :: op.operandBytes)) s t ∧
      t = { s with ports := s.ports.set n (t.port n), links := s.links.set n (t.link n) } ∧
      (t.port n).requestQueue = (s.port n).requestQueue ++ [{ tag := tag, op := op }] ∧
      (t.port n).tags = (s.port n).tags ++ [tag] ∧
      (t.link n).framer = .hunt ∧
      (t.link n).ackBuffer = (s.link n).ackBuffer ++ [{ tag := some tag, code := op.code, result := .accepted }]

/-- At a byte boundary the scheduler takes an ACK frame first (R155, R156, R158, R163): the head acknowledgment
leaves with the frames-dropped flag,
which is cleared. While a frame is under way no frame is taken, and its last byte sent frees the line. -/
def Claims.AckFramesLeaveFirst : Prop :=
  ∀ (s : State) (n : Port), s.held = false → (s.link n).lineHigh = true → (s.link n).bits.sent = 0 →
    (∀ a rest, (s.link n).line = none → (s.link n).ackBuffer = a :: rest → exec (.ackFrame n) s =
      .next (s.setLink n { s.link n with
        ackBuffer := rest, framesDropped := false
        line := some (frameBytes [0x80#8, match a.tag with | some t => t.setWidth 8 | none => 0xFF#8, a.code,
          ackResultCode a.result, if (s.link n).framesDropped then 0x01#8 else 0x00#8]) })) ∧
    ((s.link n).line ≠ none →
      exec (.ackFrame n) s = .next s ∧ exec (.replyFrame n) s = .next s ∧ exec (.eventFrame n) s = .next s) ∧
    exec (.frameSent n) s = .next (s.setLink n { s.link n with line := none })

/-- At a byte boundary a REPLY frame is taken only when no acknowledgment waits; the head reply leaves, its request
is answered, and its tag
is free (R160, R162, R163). -/
def Claims.ReplyFramesFreeTheirTags : Prop :=
  ∀ (s : State) (n : Port), s.held = false → (s.link n).lineHigh = true → (s.link n).line = none →
    (s.link n).bits.sent = 0 →
    (∀ r rest, (s.link n).ackBuffer = [] → (s.port n).replyQueue = r :: rest → exec (.replyFrame n) s =
      .next ((s.setPort n { s.port n with replyQueue := rest, tags := (s.port n).tags.erase r.tag }).setLink n
        { s.link n with line := some (frameBytes (replyBody r)) })) ∧
    ((s.link n).ackBuffer ≠ [] → exec (.replyFrame n) s = .next s ∧ exec (.eventFrame n) s = .next s)

/-- At a byte boundary an EVENT frame is taken only when no acknowledgment and no reply waits and a credit is held;
the head record leaves and
the credits fall by 1 (R149, R150, R163). -/
def Claims.EventFramesCostACredit : Prop :=
  ∀ (s : State) (n : Port), s.held = false → (s.link n).lineHigh = true → (s.link n).line = none →
    (s.link n).bits.sent = 0 →
    (s.link n).ackBuffer = [] →
    (∀ r rest, (s.port n).replyQueue = [] → 0 < (s.port n).credits → (s.port n).eventQueue = r :: rest →
      exec (.eventFrame n) s =
        .next ((s.setPort n { s.port n with eventQueue := rest, credits := (s.port n).credits - 1 }).setLink n
          { s.link n with line := some (frameBytes (eventBody r)) })) ∧
    (((s.port n).replyQueue ≠ [] ∨ (s.port n).credits = 0) → exec (.eventFrame n) s = .next s)

/-- The transmit scheduler: acknowledgments, then replies, then events (R149, R158, R160, R162, R163). -/
def Obligations.SchedulerTakesFramesInOrder : Prop :=
  Claims.AckFramesLeaveFirst ∧ Claims.ReplyFramesFreeTheirTags ∧ Claims.EventFramesCostACredit

/-- The bits of a link (R155, R157, R163): PnDO is low while the part or the port is held in reset, and there PnDI is ignored.
Out of reset, at a clock at a byte boundary with the line free, the scheduler first takes the frame that waits, ACK, REPLY or
EVENT in this order, and where none is available the bits of a fill byte of 00h begin. Then one bit goes each way, and nothing
else changes. A frame's bytes go out without gaps, each byte most significant bit first; a boundary follows the last bit of a
frame, which is then sent, and of a fill byte. In HUNT the sync byte is found at a clock at which the last eight bits received
read A5h and at no other; outside it each eighth bit ends a byte, and no other does, and the byte makes its command. Where one
clock makes commands on both sides, either side comes first, and that a frame posted up to the next clock is taken at the
boundary is the model's choice (log 27). With nothing to send, a whole frame's bits, after a fill byte, make the commands of its
bytes. -/
def Obligations.BitsMakeTheFrames : Prop :=
  ∀ (s : State) (n : Port) (bit first : Bool) (c : Clocked), c = s.clock n bit first →
    (s.held = true ∨ (s.link n).lineHigh = false → c.chosen = none ∧ c.pnDO = false ∧ c.part = s ∧ c.acts = []) ∧
    (s.held = false → (s.link n).lineHigh = true →
      ∀ waiting : State → List Instr, (∀ x, waiting x =
        if (x.link n).ackBuffer ≠ [] then [.ackFrame n]
        else if (x.port n).replyQueue ≠ [] then [.replyFrame n]
        else if (x.port n).eventQueue ≠ [] ∧ 0 < (x.port n).credits then [.eventFrame n]
        else []) →
      (c.chosen.toList = if (s.link n).line = none ∧ (s.link n).bits.sent = 0 then waiting s else []) ∧
      (linkFits (s.link n) → linkFits (c.part.link n)) ∧
      (∃ u : State, Runs c.chosen.toList s u ∧
        ∀ b b' : LinkBits, b = (u.link n).bits → b' = (c.part.link n).bits →
        c.part = u.setLink n { u.link n with bits := b' } ∧
        ((u.link n).line = none → c.pnDO = false ∧ b'.sent = if b.sent + 1 = 8 then 0 else b.sent + 1) ∧
        (∀ bytes, (u.link n).line = some bytes →
          (∀ i j byte, bytes[i]? = some byte → j < 8 → b.sent = 8 * i + j → c.pnDO = byte.getMsbD j) ∧
          b'.sent = if b.sent + 1 = 8 * bytes.length then 0 else b.sent + 1) ∧
        b'.last8 = (b.last8 <<< 1) ||| (if bit then 1#8 else 0#8) ∧
        (b'.taken = if (u.link n).framer = .hunt ∨ b.taken = 7 then 0 else b.taken + 1) ∧
        ∀ sent received : List Instr,
          (sent = match (u.link n).line with
            | some bytes => if b.sent + 1 = 8 * bytes.length then [.frameSent n] else []
            | none => []) →
          (received = match (u.link n).framer with
            | .hunt => if b'.last8 = 0xA5#8 then [.syncByteFound n] else []
            | .length => if b.taken = 7 then
                [if 2 ≤ b'.last8.toNat ∧ b'.last8.toNat ≤ 15 then .frameByteReceived n b'.last8
                 else .lengthError n b'.last8] else []
            | .body _ _ | .check _ _ none => if b.taken = 7 then [.frameByteReceived n b'.last8] else []
            | .check _ _ (some _) => if b.taken = 7 then [.frameComplete n b'.last8] else []) →
          c.acts = if first then sent ++ (if b'.sent = 0 then waiting u else []) ++ received else received ++ sent) ∧
      ((s.link n).line = none → waiting s = [] → (s.link n).framer = .hunt → (s.link n).bits.last8 = 0x00#8 →
        ∀ body : List Byte, 2 ≤ body.length → body.length ≤ 15 →
        ∃ t : State, Clocks n first ((frameBytes body).flatMap (fun x => (List.range 8).map x.getMsbD)) s t
          ∧ Runs (frameCommands n body) s (t.setLink n { t.link n with bits := (s.link n).bits })))

/-! ## Events -/

/-- Who receives an event, and what a queue makes of it (R143 to R145, R147, R148): the port is named, ATTACHED, enables the
class, CONTENT, OWNERSHIP, RETIREMENT or PORTS, where the event's kind has one, and does not suppress its own cause;
at 31 or 32 records the newest OVERFLOW counts the loss, at 31 records an
OVERFLOW with lost count 1 is appended in its place, and below that the record is appended with the next number.
An entry event carries its kind, slot, version, value and cause, and goes to the watch set given. -/
def Obligations.PostingsReachTheirQueues : Prop :=
  ∀ (s : State) (named : Port → Bool) (e : Event) (p : Port),
    (¬ (named p = true ∧ s.portState p = .attached ∧ (s.port p).mask.enables e.kind
        ∧ ¬ ((s.port p).suppressOwn = true ∧ e.cause = .port p)) → (s.postEvent named e).port p = s.port p) ∧
    ((named p = true ∧ s.portState p = .attached ∧ (s.port p).mask.enables e.kind
        ∧ ¬ ((s.port p).suppressOwn = true ∧ e.cause = .port p)) →
      ((s.port p).eventQueue.length ≤ 30 → (s.postEvent named e).port p =
        { s.port p with
          eventQueue := (s.port p).eventQueue ++ [{ seq := (s.port p).seqCounter, event := e }]
          seqCounter := (s.port p).seqCounter + 1 }) ∧
      ((s.port p).eventQueue.length = 31 → (∀ r, (s.port p).eventQueue.getLast? = some r → r.event.kind ≠ .overflow) →
        (s.postEvent named e).port p =
          { s.port p with
            eventQueue := (s.port p).eventQueue ++ [{ seq := (s.port p).seqCounter, event := overflowEvent }]
            seqCounter := (s.port p).seqCounter + 1 }) ∧
      (∀ older newest, 31 ≤ (s.port p).eventQueue.length → (s.port p).eventQueue = older ++ [newest] →
        newest.event.kind = .overflow → (s.postEvent named e).port p =
          { s.port p with eventQueue := older ++ [{ newest with event := { newest.event with
              lost := newest.event.lost.map (fun k => if k < 65535 then k + 1 else 65535) } }] })) ∧
    ∀ (watchers : PerPort Bool) (kind : EventKind) (k : Slot) (ver : Version) (v : Option Value) (cause : Cause),
      s.postEntryEvent watchers kind k ver v cause = s.postEvent watchers.get
        { kind := kind, entry := some (k, ver), value := v, cause := cause, subject := none, reason := none
          lost := none }

/-! ## Requests that need no store cycle -/

/-- ATTACH (R124, R125): in OPEN the session is opened, its number answered and PORT_ATTACHED told; in ATTACHED it is
answered ALREADY_ATTACHED and changes nothing else. No tick is left over from an earlier lease (the model's choice,
log 25). -/
def Obligations.AttachOpensASession : Prop :=
  ∀ (s : State) (n : Port) (tag : Tag) (lease : Nat) (m f : Byte) (mask : EventMask) (flag : Bool),
    s.nextRequest n = some ⟨tag, .attach lease m f⟩ → maskOfCode m = some mask → flagOfCode f = some flag →
    (s.portState n = .opened → ∃ t : State, exec (.attach n) s = .next t ∧ t = { s with ports := t.ports } ∧
      t.port n = { s.port n with
        requestQueue := (s.port n).requestQueue.tail
        session := if (s.port n).session = 255 then 1 else (s.port n).session + 1
        portState := .attached, detachPending := false, lease := lease
        leaseTimer := if lease = 0 then none else some lease
        leaseDue := 0, mask := mask, suppressOwn := flag, credits := 0, eventQueue := [], seqCounter := 0
        replyQueue := (s.port n).replyQueue ++
          [{ tag := tag, code := 0x01#8, status := .ok, named := none, terminal := none, content := none, version := none
             extra := .session (if (s.port n).session = 255 then 1 else (s.port n).session + 1) }] } ∧
      ∀ p, p ≠ n → t.port p =
        if s.portState p = .attached ∧ (s.port p).mask.ports = true then
          (s.port p).push { kind := .portAttached, entry := none, value := none, cause := .device, subject := some n
                            reason := none, lost := none }
        else s.port p) ∧
    (s.portState n = .attached → exec (.attach n) s = .next ((s.requestTaken n).postReply n
      { tag := tag, code := 0x01#8, status := .alreadyAttached, named := none, terminal := none, content := none
        version := none, extra := .none }))

/-- DETACH (R93, R129, R133): the port is CLOSING with a sweep record that owes the reply, its wait records are answered
CANCELLED, its event queue and credits are gone, and the others are told. No entry is touched. A tick left over for its
lease is dropped (the model's choice, log 25). -/
def Obligations.DetachStartsASweep : Prop :=
  ∀ (s : State) (n : Port) (tag : Tag), s.nextRequest n = some ⟨tag, .detach⟩ → s.portState n = .attached →
    ∃ t : State, exec (.detach n) s = .next t ∧
      t = { s with
        ports := t.ports, waits := s.waits.filter (fun w => decide (w.port ≠ n))
        sweeps := s.sweeps ++
          [{ port := n, kind := .detach (some tag) { keep := 0, release := 0, drop := 0, restore := 0 } }] } ∧
      t.port n = { s.port n with
        requestQueue := (s.port n).requestQueue.tail, portState := .closing, linkDown := false, detachPending := false
        leaseTimer := none, leaseDue := 0, eventQueue := [], credits := 0
        replyQueue := (s.port n).replyQueue ++ (s.waits.filter (fun w => decide (w.port = n))).map
          (fun w => { tag := w.tag, code := 0x12#8, status := .cancelled, named := some w.named
                      terminal := some (w.terminal, w.hops), content := none, version := none, extra := .none }) } ∧
      ∀ p, p ≠ n → t.port p =
        if s.portState p = .attached ∧ (s.port p).mask.ports = true then
          (s.port p).push { kind := .portDetached, entry := none, value := none, cause := .device, subject := some n
                            reason := none, lost := none }
        else s.port p

/-- STATUS (R171): answered OK at once with its figures, the outstanding count with this STATUS included. No STATUS shows the
free list part-way through a pass (R34): once the pass's first cycle is complete its length is that which the completed pass
leaves, as the tallies are already (the model's deduction, log 26). -/
def Claims.StatusReportsItsFigures : Prop :=
  ∀ (s : State) (n : Port) (tag : Tag), s.nextRequest n = some ⟨tag, .status⟩ →
    exec (.status n) s = .next ((s.requestTaken n).postReply n
      { tag := tag, code := 0x03#8, status := .ok, named := none, terminal := none, content := none, version := none
        extra := .status
          { portState := s.portState n, session := (s.port n).session, outstanding := (s.port n).tags.length
            credits := (s.port n).credits, eventDepth := (s.port n).eventQueue.length
            owned := (s.tallies.get n).owned, watch := (s.tallies.get n).watch, device := s.device
            freeLength := if s.device ≠ .ready ∧ 0 < s.passPos then 3840 else s.freeList.length
            waits := s.waits.length, sweeps := s.sweeps.length } })

/-- CREDIT (R150) and SET_EVENTS (R151): the counter rises by n, saturating at 255, and the reply carries it; the mask and
the flag are replaced, and the reply carries the old ones. Nothing else changes. -/
def Claims.CreditAndSetEventsAct : Prop :=
  ∀ (s : State) (n : Port) (tag : Tag),
    (∀ k : Byte, s.nextRequest n = some ⟨tag, .credit k⟩ → 1 ≤ k.toNat → k.toNat ≤ 32 →
      ∃ total, total = (if (s.port n).credits + k.toNat ≤ 255 then (s.port n).credits + k.toNat else 255) ∧
        exec (.credit n) s = .next (s.setPort n { s.port n with
          requestQueue := (s.port n).requestQueue.tail, credits := total
          replyQueue := (s.port n).replyQueue ++
            [{ tag := tag, code := 0x04#8, status := .ok, named := none, terminal := none, content := none
               version := none, extra := .credits total }] })) ∧
    ∀ (m f : Byte) (mask : EventMask) (flag : Bool), s.nextRequest n = some ⟨tag, .setEvents m f⟩ →
      maskOfCode m = some mask → flagOfCode f = some flag →
      exec (.setEvents n) s = .next (s.setPort n { s.port n with
        requestQueue := (s.port n).requestQueue.tail, mask := mask, suppressOwn := flag
        replyQueue := (s.port n).replyQueue ++
          [{ tag := tag, code := 0x05#8, status := .ok, named := none, terminal := none, content := none
             version := none, extra := .previousSettings (s.port n).mask (s.port n).suppressOwn }] })

/-- FORCE_DETACH of a port that is not ATTACHED (R169): CLOSING is answered OK, already closing yes; OPEN and DOWN are
answered NOT_ATTACHED; nothing else changes. (An ATTACHED port loses its session: `SessionLossStarts`.) -/
def Claims.ForceDetachOfAnEndedSession : Prop :=
  ∀ (s : State) (n p : Port) (tag : Tag) (code : Byte), s.nextRequest n = some ⟨tag, .forceDetach code⟩ →
    portOfCode code = some p → s.isMaintenance n = true → s.portState p ≠ .attached →
    exec (.forceDetach n) s = .next ((s.requestTaken n).postReply n
      { tag := tag, code := 0x31#8, status := if s.portState p = .closing then .ok else .notAttached, named := none
        terminal := none, content := none, version := none
        extra := if s.portState p = .closing then .alreadyClosing true else .none })

/-- The requests that are answered in the one act of their execution (R150, R151, R169, R171). -/
def Obligations.RequestsAnsweredAtOnce : Prop :=
  Claims.StatusReportsItsFigures ∧ Claims.CreditAndSetEventsAct ∧ Claims.ForceDetachOfAnEndedSession

/-- A permitted CLEAR_DIRECTORY (R36, R170): in READY it enters CLEARING at once, or at the completion of the cycle in
progress; while a pass runs it waits for its end. Its executor stays RUNNING on it. -/
def Obligations.ClearDirectoryEntersClearing : Prop :=
  ∀ (s : State) (n : Port) (tag : Tag), s.nextRequest n = some ⟨tag, .clearDirectory⟩ → s.isMaintenance n = true →
    ∀ taken : Work → State, (∀ w, taken w = (s.requestTaken n).setExecutor n
      { state := .running w, current := some ⟨tag, .clearDirectory⟩, walkPos := 0, hops := 0, abandoned := false }) →
    (s.device = .ready → s.inProgress = none →
      ∃ t : State, exec (.clearDirectory n) s = .next t ∧ EntersClearing (taken .clearing) t) ∧
    (s.device = .ready → s.inProgress ≠ none →
      exec (.clearDirectory n) s = .next { taken .clearing with clearDue := true }) ∧
    (s.device ≠ .ready → exec (.clearDirectory n) s = .next (taken .awaitPass))

/-- R161, R167: a request whose operands fail their examination is answered BAD_ARGUMENT with its named slot as the frame
gave it; a maintenance request from a port without the role is answered NOT_PERMITTED. Neither presents a cycle or changes
any state beyond its request. -/
def Claims.RefusedAtTheExecutor : Prop :=
  ∀ (s : State) (n : Port) (tag : Tag) (op : RequestOp), s.nextRequest n = some ⟨tag, op⟩ →
    ∀ refused : Status → State, (∀ st, refused st = (s.requestTaken n).postReply n
      { tag := tag, code := op.code, status := st, named := op.named, terminal := none, content := none
        version := none, extra := .none }) →
    (op.operandsOk = false → exec (op.command n) s = .next (refused .badArgument)) ∧
    (op.operandsOk = true → op.maintenance = true → s.isMaintenance n = false →
      exec (op.command n) s = .next (refused .notPermitted))

/-- What the operand examination asks (R1, R66, R96, R124, R150, R151, R161, R165, R169): slots and targets 0 to 4095, a
mode code 0 to 2, a disposition code 0 to 3, yes and no codes 0 and 1, a mask without bits 4 to 7, a credit number 1 to 32,
a port code 0 to 3. -/
def Claims.OperandRanges : Prop :=
  ∀ (k t w lease : Nat) (a b c : Byte) (x : Version) (v : Value),
    ((RequestOp.read k).operandsOk = true ↔ k ≤ 4095) ∧
    ((RequestOp.link k t).operandsOk = true ↔ k ≤ 4095 ∧ t ≤ 4095) ∧
    ((RequestOp.take k w).operandsOk = true ↔ k ≤ 4095) ∧
    ((RequestOp.put k a x v).operandsOk = true ↔ k ≤ 4095 ∧ a.toNat ≤ 2) ∧
    ((RequestOp.alloc a b c).operandsOk = true ↔ a.toNat ≤ 3 ∧ b.toNat ≤ 1 ∧ c.toNat ≤ 1) ∧
    (∀ op ∈ [RequestOp.claim k a b c, .adopt k a b c, .setAccess k a b c],
      (op.operandsOk = true ↔ k ≤ 4095 ∧ a.toNat ≤ 3 ∧ b.toNat ≤ 1 ∧ c.toNat ≤ 1)) ∧
    ((RequestOp.attach lease a b).operandsOk = true ↔ a.toNat ≤ 15 ∧ b.toNat ≤ 1) ∧
    ((RequestOp.setEvents a b).operandsOk = true ↔ a.toNat ≤ 15 ∧ b.toNat ≤ 1) ∧
    ((RequestOp.credit a).operandsOk = true ↔ 1 ≤ a.toNat ∧ a.toNat ≤ 32) ∧
    ((RequestOp.forceDetach a).operandsOk = true ↔ a.toNat ≤ 3) ∧
    (∀ op ∈ [RequestOp.clear k, .checkpoint k, .watch k, .unwatch k, .retire k, .release k, .inspect k, .breakWait k],
      (op.operandsOk = true ↔ k ≤ 4095)) ∧
    ∀ op ∈ [RequestOp.detach, .status, .clearDirectory], op.operandsOk = true

/-- The examination of a request when its executor takes it (R161, R165, R167). -/
def Obligations.RefusalsBeforeAnyCycle : Prop :=
  Claims.RefusedAtTheExecutor ∧ Claims.OperandRanges

/-! ## Requests that need store cycles -/

/-- READ, PUT, TAKE, CLEAR, CHECKPOINT, WATCH, UNWATCH, ALLOC, RETIRE, CLAIM, RELEASE, ADOPT, SET_ACCESS, INSPECT and
BREAK_WAIT: the executor takes the request, goes RUNNING and presents its first cycle, on the named slot where it has one,
a walk with hop count 0 (R26, R39, R40). -/
def Claims.RequestPresentsItsFirstCycle : Prop :=
  ∀ (s : State) (n : Port) (tag : Tag) (op : RequestOp) (w : Work) (k : Slot),
    s.nextRequest n = some ⟨tag, op⟩ → op.firstCycle = some (w, k) → op.operandsOk = true →
    (op.maintenance = true → s.isMaintenance n = true) →
    exec (op.command n) s = .next ((s.requestTaken n).setExecutor n
      { state := .running w, current := some ⟨tag, op⟩, walkPos := k, hops := 0, abandoned := false }).arbitrate

/-- LINK (R48, R49): with the token FREE the executor becomes the holder and presents its first check-walk cycle, on the
target; otherwise it joins the tail of the queue in TOKEN_WAIT. -/
def Claims.LinkRequestsTheToken : Prop :=
  ∀ (s : State) (n : Port) (tag : Tag) (k target : Slot), s.nextRequest n = some ⟨tag, .link k target⟩ →
    k ≤ 4095 → target ≤ 4095 →
    (s.serial.token = .free → exec (.link n) s = .next (State.arbitrate
      { s.requestTaken n with
        serial := { s.serial with token := .held n }
        execs := s.execs.set n { state := .running .checkWalk, current := some ⟨tag, .link k target⟩, walkPos := target
                                 hops := 0, abandoned := false } })) ∧
    (s.serial.token ≠ .free → exec (.link n) s = .next
      { s.requestTaken n with
        serial := { s.serial with queue := s.serial.queue ++ [n] }
        execs := s.execs.set n { state := .tokenWait, current := some ⟨tag, .link k target⟩, walkPos := 0
                                 hops := 0, abandoned := false } })

/-- What a request that needs store cycles begins with (R26, R39, R40, R48, R49). -/
def Obligations.RequestsBeginTheirWork : Prop :=
  Claims.RequestPresentsItsFirstCycle ∧ Claims.LinkRequestsTheToken

/-! ## Walks -/

/-- A walk cycle that is not its terminal cycle (R41, R43, R44): a forward is followed, the hop count rising by 1; after
eight hops a forward ends the walk CHAIN_DEEP; an unallocated slot ends it UNALLOCATED. No entry, row or queue but the
reply queue changes. The request of a walk is a READ, PUT or TAKE, as `ArbiterAndExecutorLawsAreKept` keeps it. -/
def Claims.WalkFollowsForwards : Prop :=
  ∀ (s : State) (n : Port) (rq : Request) (k : Slot) (h : Nat), s.cycleOf n .walk = some rq →
    Work.walk.fits rq.op = true → (s.executor n).walkPos = k → (s.executor n).hops = h →
    ∀ ended : Status → State, (∀ st, ended st = (s.endedWith n
      { tag := rq.tag, code := rq.op.code, status := st, named := rq.op.named, terminal := some (k, h), content := none
        version := none, extra := .none }).afterCompletion) →
    (s.allocated k = false → exec (.walkHop n) s = .next (ended .unallocated)) ∧
    (∀ t, s.allocated k = true → (s.entry k).content = .forward t → h < 8 → (s.executor n).abandoned = false →
      exec (.walkHop n) s = .next (State.afterCompletion
        { s with
          inProgress := none
          execs := s.execs.set n { s.executor n with state := .running .walk, walkPos := t, hops := h + 1 } })) ∧
    (∀ t, s.allocated k = true → (s.entry k).content = .forward t → (s.executor n).abandoned = true →
      exec (.walkHop n) s = .next (s.cycleEnded n).afterCompletion) ∧
    (∀ t, s.allocated k = true → (s.entry k).content = .forward t → 8 ≤ h →
      exec (.walkHop n) s = .next (ended .chainDeep))

/-- The terminal cycle of a READ (R64, R65): a read cycle, answered OK with the terminal's kind, value and version, the
terminal slot and the hops. -/
def Claims.ReadReturnsTheTerminal : Prop :=
  ∀ (s : State) (n : Port) (tag : Tag) (named k : Slot) (h : Nat), s.cycleOf n .walk = some ⟨tag, .read named⟩ →
    (s.executor n).walkPos = k → (s.executor n).hops = h → s.allocated k = true →
    (∀ t, (s.entry k).content ≠ .forward t) →
    exec (.readTerminal n) s = .next (s.endedWith n
      { tag := tag, code := 0x10#8, status := .ok, named := some named, terminal := some (k, h)
        content := some (s.entry k).content, version := some (s.entry k).version, extra := .none }).afterCompletion

/-- The cycles of a walk, and the terminal cycle of a READ (R41 to R45, R64, R65). -/
def Obligations.WalkCyclesAct : Prop :=
  Claims.WalkFollowsForwards ∧ Claims.ReadReturnsTheTerminal

/-- A READ alone at work follows its chain to the terminal: along a chain of m ≤ 8 forwards over allocated slots, m hops
and one terminal cycle answer it with the content and version of the slot the chain ends at, and m hops; a chain of more
than eight forwards ends CHAIN_DEEP at the slot reached by the eighth (R40 to R45, R64). -/
def Obligations.ReadReachesTheEndOfItsChain : Prop :=
  ∀ (s : State) (n : Port) (tag : Tag) (named k : Slot) (m : Nat),
    s.device = .ready → s.clearDue = false → s.cycleOf n .walk = some ⟨tag, .read named⟩ →
    (s.executor n).walkPos = named → (s.executor n).hops = 0 → (s.executor n).abandoned = false →
    (∀ r, r ≠ .executor n → s.hasCycle r = false) → s.lastGranted = .executor n →
    s.follow m named = some k → (∀ i x, i ≤ m → s.follow i named = some x → s.allocated x = true) →
    ∀ answered : Slot → Status → Option Content → Option Version → State,
      (∀ x st c v, answered x st c v = (s.cycleEnded n).postReply n
        { tag := tag, code := 0x10#8, status := st, named := some named, terminal := some (x, m), content := c
          version := v, extra := .none }) →
    (m ≤ 8 → (∀ t, (s.entry k).content ≠ .forward t) →
      Runs (List.replicate m (.walkHop n) ++ [.readTerminal n]) s
        (answered k .ok (some (s.entry k).content) (some (s.entry k).version))) ∧
    (m = 8 → (∃ t, (s.entry k).content = .forward t) →
      Runs (List.replicate 9 (.walkHop n)) s (answered k .chainDeep none none))

/-! ## The terminal cycles of PUT and TAKE -/

/-- A PUT that passes its tests and hands nothing off stores its value (R66 to R70, R72): the version rises by 1, the other
fields of the entry stand, VALUE_PUT goes to the terminal's watchers, and the reply carries the previous content and
version. -/
def Claims.PutStoresItsValue : Prop :=
  ∀ (s : State) (n : Port) (tag : Tag) (named k : Slot) (h : Nat) (mode : Byte) (x : Version) (v : Value),
    s.cycleOf n .walk = some ⟨tag, .put named mode x v⟩ → (s.executor n).walkPos = k → (s.executor n).hops = h →
    s.allocated k = true → s.flagPasses n k (s.entry k).access.putOpen → (∀ t, (s.entry k).content ≠ .forward t) →
    (mode = 0x00#8 ∨ (mode = 0x01#8 ∧ (s.entry k).content = .empty) ∨ (mode = 0x02#8 ∧ (s.entry k).version = x)) →
    ((s.entry k).content = .empty → ∀ w ∈ s.waits, w.terminal ≠ k) →
    ∃ t : State, exec (.putTerminal n) s = .next t.afterCompletion ∧
      t = { s.cycleEnded n with
        entries := t.entries
        ports := ((s.postEntryEvent (s.entry k).watch .valuePut k ((s.entry k).version + 1) (some v) (.port n)).replyTo n
          { tag := tag, code := 0x11#8, status := .ok, named := some named, terminal := some (k, h)
            content := some (s.entry k).content, version := some (s.entry k).version, extra := .none }).ports } ∧
      ∀ j, t.entry j = if j = k then
        { s.entry k with content := .value v, version := (s.entry k).version + 1 } else s.entry j

/-- A PUT that passes its tests on an EMPTY terminal with wait records hands its value to the oldest of them (R71, R72, R87):
the entry stays EMPTY and its version rises by 1; that record alone is removed and answered OK with the value, ahead of the
PUT's HANDED_OFF, which names the taker's port; VALUE_HANDED goes to the watchers. -/
def Claims.PutHandsOffToTheOldestWait : Prop :=
  ∀ (s : State) (n : Port) (tag : Tag) (named k : Slot) (h : Nat) (mode : Byte) (x : Version) (v : Value)
    (before after : List WaitRecord) (w : WaitRecord),
    s.cycleOf n .walk = some ⟨tag, .put named mode x v⟩ → (s.executor n).walkPos = k → (s.executor n).hops = h →
    s.allocated k = true → s.flagPasses n k (s.entry k).access.putOpen → (s.entry k).content = .empty →
    (mode = 0x00#8 ∨ mode = 0x01#8 ∨ (mode = 0x02#8 ∧ (s.entry k).version = x)) →
    s.waits = before ++ w :: after → w.terminal = k → (∀ r ∈ before, r.terminal ≠ k) →
    ∃ t : State, exec (.putTerminal n) s = .next t.afterCompletion ∧
      t = { s.cycleEnded n with
        entries := t.entries, waits := before ++ after
        ports := (((s.postReply w.port
          { tag := w.tag, code := 0x12#8, status := .ok, named := some w.named, terminal := some (k, w.hops)
            content := some (.value v), version := some ((s.entry k).version + 1), extra := .none }).postEntryEvent
            (s.entry k).watch .valueHanded k ((s.entry k).version + 1) (some v) (.port n)).replyTo n
          { tag := tag, code := 0x11#8, status := .handedOff, named := some named, terminal := some (k, h)
            content := none, version := some ((s.entry k).version + 1), extra := .taker w.port }).ports } ∧
      ∀ j, t.entry j = if j = k then { s.entry k with version := (s.entry k).version + 1 } else s.entry j

/-- The terminal cycle of a PUT that passes its tests (R66 to R72, R87). -/
def Obligations.PutsStoreOrHandOff : Prop :=
  Claims.PutStoresItsValue ∧ Claims.PutHandsOffToTheOldestWait

/-- A PUT or TAKE refused by permission, and a PUT refused by its mode, are read cycles: the reply carries terminal slot and
hops, for a mode refusal also the content and version as read, and nothing else changes (R62, R66, R69, R70, R73). -/
def Obligations.PutAndTakeRefusals : Prop :=
  ∀ (s : State) (n : Port) (tag : Tag) (named k : Slot) (h : Nat), (s.executor n).walkPos = k →
    (s.executor n).hops = h → s.allocated k = true → (∀ t, (s.entry k).content ≠ .forward t) →
    ∀ ended : Byte → Status → Option Content → Option Version → State,
      (∀ code st c v, ended code st c v = (s.endedWith n
        { tag := tag, code := code, status := st, named := some named, terminal := some (k, h), content := c
          version := v, extra := .none }).afterCompletion) →
    (∀ mode x v, s.cycleOf n .walk = some ⟨tag, .put named mode x v⟩ → mode.toNat ≤ 2 →
      (∀ st, s.flagFails n k (s.entry k).access.putOpen st → exec (.putTerminal n) s = .next (ended 0x11#8 st none none)) ∧
      (s.flagPasses n k (s.entry k).access.putOpen →
        (mode = 0x01#8 → (s.entry k).content ≠ .empty → exec (.putTerminal n) s =
          .next (ended 0x11#8 .notEmpty (some (s.entry k).content) (some (s.entry k).version))) ∧
        (mode = 0x02#8 → (s.entry k).version ≠ x → exec (.putTerminal n) s =
          .next (ended 0x11#8 .versionMismatch (some (s.entry k).content) (some (s.entry k).version))))) ∧
    ∀ wait, s.cycleOf n .walk = some ⟨tag, .take named wait⟩ →
      ∀ st, s.flagFails n k (s.entry k).access.takeOpen st → exec (.takeTerminal n) s = .next (ended 0x12#8 st none none)

/-- A TAKE on a VALUE terminal is an empty cycle (R22, R73, R75): the entry is EMPTY at the next version, its other fields
stand; the value goes into the taker's reply alone, and VALUE_TAKEN, without the value, to the watchers. -/
def Claims.TakeEmptiesAValue : Prop :=
  ∀ (s : State) (n : Port) (tag : Tag) (named k : Slot) (h wait : Nat) (v : Value),
    s.cycleOf n .walk = some ⟨tag, .take named wait⟩ → (s.executor n).walkPos = k → (s.executor n).hops = h →
    s.allocated k = true → s.flagPasses n k (s.entry k).access.takeOpen → (s.entry k).content = .value v →
    ∃ t : State, exec (.takeTerminal n) s = .next t.afterCompletion ∧
      t = { s.cycleEnded n with
        entries := t.entries
        ports := ((s.postEntryEvent (s.entry k).watch .valueTaken k ((s.entry k).version + 1) none (.port n)).replyTo n
          { tag := tag, code := 0x12#8, status := .ok, named := some named, terminal := some (k, h)
            content := some (.value v), version := some ((s.entry k).version + 1), extra := .none }).ports } ∧
      ∀ j, t.entry j = if j = k then
        { s.entry k with content := .empty, version := (s.entry k).version + 1 } else s.entry j

/-- A TAKE on an EMPTY terminal (R73, R74, R84, R85): with wait time 0 it is answered EMPTY; otherwise, its port ATTACHED, it
parks behind the other records, its remaining time the wait time and none for 65535, or with 16 records is answered
WAIT_FULL; a port no longer ATTACHED gets neither. Nothing in the directory changes. -/
def Claims.TakeOnEmptyWaits : Prop :=
  ∀ (s : State) (n : Port) (tag : Tag) (named k : Slot) (h wait : Nat),
    s.cycleOf n .walk = some ⟨tag, .take named wait⟩ → (s.executor n).walkPos = k → (s.executor n).hops = h →
    s.allocated k = true → s.flagPasses n k (s.entry k).access.takeOpen → (s.entry k).content = .empty →
    ∀ ended : Status → State, (∀ st, ended st = (s.endedWith n
      { tag := tag, code := 0x12#8, status := st, named := some named, terminal := some (k, h), content := some .empty
        version := some (s.entry k).version, extra := .none }).afterCompletion) →
    (wait = 0 → exec (.takeTerminal n) s = .next (ended .empty)) ∧
    (0 < wait → s.portState n ≠ .attached → exec (.takeTerminal n) s = .next (s.cycleEnded n).afterCompletion) ∧
    (0 < wait → s.portState n = .attached → 16 ≤ s.waits.length → exec (.takeTerminal n) s = .next (ended .waitFull)) ∧
    (0 < wait → s.portState n = .attached → s.waits.length < 16 →
      exec (.takeTerminal n) s = .next (State.afterCompletion
        { s.cycleEnded n with
          waits := s.waits ++ [{ port := n, tag := tag, named := named, terminal := k, hops := h
                                 remaining := if wait = 65535 then none else some wait }] }))

/-- The terminal cycle of a TAKE that is permitted (R73 to R75, R84, R85). Only the TAKE that empties a VALUE posts an event. -/
def Obligations.TakesEmptyOrWait : Prop :=
  Claims.TakeEmptiesAValue ∧ Claims.TakeOnEmptyWaits

/-! ## LINK -/

/-- A check-walk cycle (R53, R54): its tests in their order. It passes to the commit on an EMPTY or VALUE entry; each other
ending answers the LINK and releases the token, to the head waiter where there is one. -/
def Claims.CheckWalkTestsItsChain : Prop :=
  ∀ (s : State) (n : Port) (tag : Tag) (named target k : Slot) (h : Nat),
    s.cycleOf n .checkWalk = some ⟨tag, .link named target⟩ → (s.executor n).walkPos = k → (s.executor n).hops = h →
    ∀ ended : Status → State, (∀ st, ended st = (s.endedWith n
      { tag := tag, code := 0x15#8, status := st, named := some named, terminal := some (k, h), content := none
        version := none, extra := .none }).passToken.afterCompletion) →
    ∀ goesOn : Work → Slot → Nat → State, (∀ w j i, goesOn w j i =
      if (s.executor n).abandoned then (s.cycleEnded n).passToken.afterCompletion
      else State.afterCompletion
        { s with
          inProgress := none
          execs := s.execs.set n { s.executor n with state := .running w, walkPos := j, hops := i } }) →
    (s.allocated k = false → exec (.checkWalkCycle n) s = .next (ended .unallocated)) ∧
    (s.allocated k = true → k = named → exec (.checkWalkCycle n) s = .next (ended .loop)) ∧
    (s.allocated k = true → k ≠ named →
      (∀ t, (s.entry k).content = .forward t → h < 7 → exec (.checkWalkCycle n) s = .next (goesOn .checkWalk t (h + 1))) ∧
      (∀ t, (s.entry k).content = .forward t → 7 ≤ h → exec (.checkWalkCycle n) s = .next (ended .chainDeep)) ∧
      ((∀ t, (s.entry k).content ≠ .forward t) → exec (.checkWalkCycle n) s = .next (goesOn .commit k h)))

/-- The token passes, at the end of a LINK, to the head of the queue, which presents its first check-walk cycle on its own
target, or becomes FREE (R50). -/
def Claims.TokenPassesToTheHead : Prop :=
  ∀ s : State,
    (s.serial.queue = [] → s.passToken = { s with serial := { token := .free, queue := [] } }) ∧
    ∀ (p : Port) (rest : List Port) (tag : Tag) (named target : Slot), s.serial.queue = p :: rest →
      (s.executor p).current = some ⟨tag, .link named target⟩ →
      s.passToken = { s with
        serial := { token := .held p, queue := rest }
        execs := s.execs.set p { s.executor p with state := .running .checkWalk, walkPos := target, hops := 0 } }

/-- The check walk of a LINK and the passing of its token (R50, R53, R54). -/
def Obligations.CheckWalksAndTheToken : Prop :=
  Claims.CheckWalkTestsItsChain ∧ Claims.TokenPassesToTheHead

/-- The commit cycle (R12, R55 to R58, R91): where its four tests pass, N is a forward to T at the next version, the inbound
counts follow, every wait record on N ends RELINKED in arrival order, ENTRY_LINKED goes to N's watchers, the LINK is
answered OK with the previous content, and the token passes. A refused commit changes nothing but its reply. -/
def Obligations.CommitLinksItsEntry : Prop :=
  ∀ (s : State) (n : Port) (tag : Tag) (named target k : Slot) (h : Nat),
    s.cycleOf n .commit = some ⟨tag, .link named target⟩ → (s.executor n).walkPos = k → (s.executor n).hops = h →
    ∀ refused : Status → Slot → State, (∀ st j, refused st j = (s.endedWith n
      { tag := tag, code := 0x15#8, status := st, named := some named, terminal := some (j, h), content := none
        version := none, extra := .none }).passToken.afterCompletion) →
    (s.allocated named = false → exec (.commitCycle n) s = .next (refused .unallocated named)) ∧
    (s.allocated named = true →
      (∀ st, s.modifyFails n named st → exec (.commitCycle n) s = .next (refused st named)) ∧
      (s.modifyPasses n named →
        (∀ v, (s.entry named).content = .value v → exec (.commitCycle n) s = .next (refused .notEmpty named)) ∧
        ((∀ v, (s.entry named).content ≠ .value v) →
          (s.allocated target = false → exec (.commitCycle n) s = .next (refused .unallocated target)) ∧
          (s.allocated target = true →
            ∃ t : State, exec (.commitCycle n) s = .next t.passToken.afterCompletion ∧
              t = { s.cycleEnded n with
                entries := t.entries, rows := t.rows
                waits := s.waits.filter (fun w : WaitRecord => decide (w.terminal ≠ named))
                ports := (((s.postReplies (fun p =>
                  (s.waits.filter (fun w : WaitRecord =>
                    decide (w.terminal = named) && decide (w.port = p))).map (fun w : WaitRecord =>
                    { tag := w.tag, code := 0x12#8, status := .relinked, named := some w.named
                      terminal := some (w.terminal, w.hops), content := some (.forward target)
                      version := some ((s.entry named).version + 1), extra := .none }))).postEntryEvent
                    (s.entry named).watch .entryLinked named ((s.entry named).version + 1) none (.port n)).replyTo n
                  { tag := tag, code := 0x15#8, status := .ok, named := some named, terminal := some (k, h)
                    content := some (s.entry named).content, version := some ((s.entry named).version + 1)
                    extra := .none }).ports } ∧
              (∀ j, t.entry j = if j = named then
                { s.entry named with content := .forward target, version := (s.entry named).version + 1 }
                else s.entry j) ∧
              ∀ j, t.row j = { s.row j with
                inbound := ((s.row j).inbound - if (s.entry named).content = Content.forward j then 1 else 0)
                  + if j = target then 1 else 0 }))))

/-! ## The single cycles -/

/-- What refuses a single cycle (R2, R55, R77, R79, R92, R100, R107, R109 to R112, R141, R142, R168): an unallocated slot;
for CLEAR, CHECKPOINT and RETIRE an entry that is orphaned or another's; for RELEASE and SET_ACCESS also an unowned one.
The reply carries the status and the named slot, and nothing else changes. -/
def Obligations.SingleCycleRefusals : Prop :=
  ∀ (s : State) (n : Port) (tag : Tag) (k : Slot),
    ∀ refused : RequestOp → Status → State, (∀ op st, refused op st = (s.endedWith n
      { tag := tag, code := op.code, status := st, named := some k, terminal := none, content := none
        version := none, extra := .none }).afterCompletion) →
    (s.allocated k = false → ∀ (d pf tf : Byte) (a : Access), accessOfCodes d pf tf = some a →
      ∀ row ∈ [(RequestOp.clear k, Instr.clearCycle n), (.checkpoint k, .checkpointCycle n), (.watch k, .watchCycle n),
        (.unwatch k, .unwatchCycle n), (.retire k, .retireCycle n), (.claim k d pf tf, .claimCycle n),
        (.release k, .releaseCycle n), (.adopt k d pf tf, .adoptCycle n), (.setAccess k d pf tf, .setAccessCycle n),
        (.inspect k, .inspectCycle n), (.breakWait k, .breakWaitCycle n)],
      s.cycleOf n .single = some ⟨tag, row.1⟩ → exec row.2 s = .next (refused row.1 .unallocated)) ∧
    (s.allocated k = true → ∀ st, s.modifyFails n k st →
      ∀ row ∈ [(RequestOp.clear k, Instr.clearCycle n), (.checkpoint k, .checkpointCycle n)],
      s.cycleOf n .single = some ⟨tag, row.1⟩ → exec row.2 s = .next (refused row.1 st)) ∧
    (s.allocated k = true → 256 ≤ k → ∀ st, s.modifyFails n k st → s.cycleOf n .single = some ⟨tag, .retire k⟩ →
      exec (.retireCycle n) s = .next (refused (.retire k) st)) ∧
    (k ≤ 255 → s.cycleOf n .single = some ⟨tag, .retire k⟩ →
      exec (.retireCycle n) s = .next (refused (.retire k) .fixedSlot)) ∧
    (s.allocated k = true → ∀ (d pf tf : Byte) (a : Access), accessOfCodes d pf tf = some a →
      ∀ st, (s.modifyFails n k st ∨ ((s.entry k).owner = none ∧ st = .notOwner)) →
      ∀ row ∈ [(RequestOp.release k, Instr.releaseCycle n), (.setAccess k d pf tf, .setAccessCycle n)],
      s.cycleOf n .single = some ⟨tag, row.1⟩ → exec row.2 s = .next (refused row.1 st))

/-- CLEAR (R12, R77, R78): an EMPTY entry is answered as read; a VALUE or FORWARD entry is emptied at the next version, the
inbound count of a forward's target lowered, ENTRY_CLEARED posted, and the previous content answered. -/
def Claims.ClearEmptiesItsEntry : Prop :=
  ∀ (s : State) (n : Port) (tag : Tag) (k : Slot), s.cycleOf n .single = some ⟨tag, .clear k⟩ → s.allocated k = true →
    s.modifyPasses n k →
    ∀ reply : Version → Reply, (∀ v, reply v =
      { tag := tag, code := 0x13#8, status := .ok, named := some k, terminal := none
        content := some (s.entry k).content, version := some v, extra := .none }) →
    ((s.entry k).content = .empty → exec (.clearCycle n) s = .next
      (s.endedWith n (reply (s.entry k).version)).afterCompletion) ∧
    ((s.entry k).content ≠ .empty → ∃ t : State, exec (.clearCycle n) s = .next t.afterCompletion ∧
      t = { s.cycleEnded n with
        entries := t.entries, rows := t.rows
        ports := ((s.postEntryEvent (s.entry k).watch .entryCleared k ((s.entry k).version + 1) none (.port n)).replyTo n
          (reply ((s.entry k).version + 1))).ports } ∧
      (∀ j, t.entry j = if j = k then
        { s.entry k with content := .empty, version := (s.entry k).version + 1 } else s.entry j) ∧
      ∀ j, t.row j = { s.row j with
        inbound := (s.row j).inbound - if (s.entry k).content = Content.forward j then 1 else 0 })

/-- CHECKPOINT (R79): the saved field takes the content, the version stands and no event is posted; on a forward it is
answered IS_FORWARD and changes nothing. -/
def Claims.CheckpointSavesTheContent : Prop :=
  ∀ (s : State) (n : Port) (tag : Tag) (k : Slot), s.cycleOf n .single = some ⟨tag, .checkpoint k⟩ →
    s.allocated k = true → s.modifyPasses n k →
    ∃ t : State, exec (.checkpointCycle n) s = .next t.afterCompletion ∧
      t = { s.cycleEnded n with
        entries := t.entries
        ports := (s.replyTo n
          { tag := tag, code := 0x14#8, named := some k, terminal := none, content := some (s.entry k).content
            version := some (s.entry k).version, extra := .none
            status := match (s.entry k).content with | .forward _ => .isForward | .empty | .value _ => .ok }).ports } ∧
      ∀ j, t.entry j = if j = k then
        { s.entry k with saved := match (s.entry k).content with
            | .empty => .empty | .value v => .value v | .forward _ => (s.entry k).saved }
        else s.entry j

/-- CLEAR and CHECKPOINT of an entry the requester may modify (R77 to R79). -/
def Obligations.ClearAndCheckpointAct : Prop :=
  Claims.ClearEmptiesItsEntry ∧ Claims.CheckpointSavesTheContent

/-- WATCH and UNWATCH (R15, R141, R142): the requester joins or leaves the watch set and its watch count follows, once; the
reply says whether it was watching, and for WATCH also what stands there. No version changes and no event is posted. -/
def Obligations.WatchAndUnwatchKeepTheSet : Prop :=
  ∀ (s : State) (n : Port) (tag : Tag) (k : Slot), s.allocated k = true →
    (s.cycleOf n .single = some ⟨tag, .watch k⟩ → ∃ t : State, exec (.watchCycle n) s = .next t.afterCompletion ∧
      t = { s.cycleEnded n with
        entries := t.entries, tallies := t.tallies
        ports := (s.replyTo n
          { tag := tag, code := 0x16#8, status := .ok, named := some k, terminal := none
            content := some (s.entry k).content, version := some (s.entry k).version
            extra := .wasWatching ((s.entry k).watch.get n) }).ports } ∧
      (∀ j, t.entry j = if j = k then { s.entry k with watch := (s.entry k).watch.set n true } else s.entry j) ∧
      ∀ p, t.tallies.get p = { s.tallies.get p with
        watch := (s.tallies.get p).watch + if p = n ∧ (s.entry k).watch.get n = false then 1 else 0 }) ∧
    (s.cycleOf n .single = some ⟨tag, .unwatch k⟩ → ∃ t : State, exec (.unwatchCycle n) s = .next t.afterCompletion ∧
      t = { s.cycleEnded n with
        entries := t.entries, tallies := t.tallies
        ports := (s.replyTo n
          { tag := tag, code := 0x17#8, status := .ok, named := some k, terminal := none, content := none
            version := some (s.entry k).version, extra := .wasWatching ((s.entry k).watch.get n) }).ports } ∧
      (∀ j, t.entry j = if j = k then { s.entry k with watch := (s.entry k).watch.set n false } else s.entry j) ∧
      ∀ p, t.tallies.get p = { s.tallies.get p with
        watch := (s.tallies.get p).watch - if p = n ∧ (s.entry k).watch.get n = true then 1 else 0 })

/-- ALLOC (R97): the head of the free list is removed, allocated and owned by the requester under its terms, its content and
version as they stood; the owned count rises; the reply carries the slot and the version. -/
def Claims.AllocTakesTheHead : Prop :=
  ∀ (s : State) (n : Port) (tag : Tag) (d pf tf : Byte) (a : Access) (k : Slot) (rest : List Slot),
    s.cycleOf n .single = some ⟨tag, .alloc d pf tf⟩ → accessOfCodes d pf tf = some a → s.freeList = k :: rest →
    ∃ t : State, exec (.allocCycle n) s = .next t.afterCompletion ∧
      t = { s.cycleEnded n with
        entries := t.entries, rows := t.rows, tallies := t.tallies, freeList := rest
        ports := (s.replyTo n
          { tag := tag, code := 0x20#8, status := .ok, named := none, terminal := none, content := none
            version := some (s.entry k).version, extra := .slotAllocated k }).ports } ∧
      (∀ j, t.entry j = if j = k then
        { s.entry k with owner := some n, orphaned := false, access := a } else s.entry j) ∧
      (∀ j, t.row j = if j = k then { s.row k with allocated := true } else s.row j) ∧
      ∀ p, t.tallies.get p = { s.tallies.get p with owned := (s.tallies.get p).owned + if p = n then 1 else 0 }

/-- R98: an ALLOC that finds the free list empty is answered POOL_EMPTY; it acts on no entry and writes nothing, its reply
carries no slot and no version, and its executor is free: no refused ALLOC is kept. -/
def Claims.AllocOnAnEmptyPool : Prop :=
  ∀ (s : State) (n : Port) (tag : Tag) (d pf tf : Byte) (a : Access),
    s.cycleOf n .single = some ⟨tag, .alloc d pf tf⟩ → accessOfCodes d pf tf = some a → s.freeList = [] →
    exec (.allocCycle n) s = .next (s.endedWith n
      { tag := tag, code := 0x20#8, status := .poolEmpty, named := none, terminal := none, content := none
        version := none, extra := .none }).afterCompletion

/-- ALLOC with a slot on the free list (R97) and without one (R98). -/
def Obligations.AllocTakesOrIsRefused : Prop :=
  Claims.AllocTakesTheHead ∧ Claims.AllocOnAnEmptyPool

/-- RETIRE (R9, R100 to R102): with content it is answered NOT_EMPTY, referenced REFERENCED, waited on WAITERS_PRESENT, in
that order, and changes nothing; otherwise the slot is unallocated at the tail of the free list, the entry at its defaults
but for the version, which rises by 1, every watch on it ended, the requester's owned count lowered if it owned it, and
ENTRY_RETIRED posted to those that watched. -/
def Obligations.RetireReturnsTheSlot : Prop :=
  ∀ (s : State) (n : Port) (tag : Tag) (k : Slot), s.cycleOf n .single = some ⟨tag, .retire k⟩ → 256 ≤ k →
    s.allocated k = true → s.modifyPasses n k →
    ∀ refused : Status → Option Content → Option Version → Extra → State, (∀ st c v x, refused st c v x =
      (s.endedWith n
        { tag := tag, code := 0x21#8, status := st, named := some k, terminal := none, content := c, version := v
          extra := x }).afterCompletion) →
    ((s.entry k).content ≠ .empty → exec (.retireCycle n) s =
      .next (refused .notEmpty (some (s.entry k).content) (some (s.entry k).version) .none)) ∧
    ((s.entry k).content = .empty → 0 < s.inbound k → exec (.retireCycle n) s =
      .next (refused .referenced none none (.inbound (s.inbound k)))) ∧
    ((s.entry k).content = .empty → s.inbound k = 0 → 0 < s.waitsOn k → exec (.retireCycle n) s =
      .next (refused .waitersPresent none none (.waiters (s.waitsOn k)))) ∧
    ((s.entry k).content = .empty → s.inbound k = 0 → s.waitsOn k = 0 →
      ∃ t : State, exec (.retireCycle n) s = .next t.afterCompletion ∧
        t = { s.cycleEnded n with
          entries := t.entries, rows := t.rows, tallies := t.tallies, freeList := s.freeList ++ [k]
          ports := ((s.postEntryEvent (s.entry k).watch .entryRetired k ((s.entry k).version + 1) none (.port n)).replyTo n
            { tag := tag, code := 0x21#8, status := .ok, named := some k, terminal := none, content := none
              version := some ((s.entry k).version + 1), extra := .none }).ports } ∧
        (∀ j, t.entry j = if j = k then { Entry.default with version := (s.entry k).version + 1 } else s.entry j) ∧
        (∀ j, t.row j = if j = k then { s.row k with allocated := false } else s.row j) ∧
        ∀ p, t.tallies.get p = {
          owned := (s.tallies.get p).owned - if p = n ∧ (s.entry k).owner = some n then 1 else 0
          watch := (s.tallies.get p).watch - if (s.entry k).watch.get p then 1 else 0 })

/-- CLAIM and ADOPT (R14, R109, R111): an unowned entry is claimed, an orphaned one adopted; the requester owns it under its
terms, its owned count rises, OWNER_CHANGED is posted, and the version is answered unchanged, an ADOPT with the former
owner. Any other entry is refused, an owner named where the rule names one. -/
def Obligations.ClaimAndAdoptTakeOwnership : Prop :=
  ∀ (s : State) (n : Port) (tag : Tag) (k : Slot) (d pf tf : Byte) (a : Access), accessOfCodes d pf tf = some a →
    s.allocated k = true →
    ∀ refused : Byte → Status → Extra → State, (∀ code st x, refused code st x =
      (s.endedWith n
        { tag := tag, code := code, status := st, named := some k, terminal := none, content := none, version := none
          extra := x }).afterCompletion) →
    ∀ owns : Byte → Extra → State → Prop, (∀ code x t, owns code x t ↔
      t = { s.cycleEnded n with
        entries := t.entries, tallies := t.tallies
        ports := ((s.postEntryEvent (s.entry k).watch .ownerChanged k (s.entry k).version none (.port n)).replyTo n
          { tag := tag, code := code, status := .ok, named := some k, terminal := none, content := none
            version := some (s.entry k).version, extra := x }).ports } ∧
      (∀ j, t.entry j = if j = k then
        { s.entry k with owner := some n, orphaned := false, access := a } else s.entry j) ∧
      ∀ p, t.tallies.get p = { s.tallies.get p with owned := (s.tallies.get p).owned + if p = n then 1 else 0 }) →
    (s.cycleOf n .single = some ⟨tag, .claim k d pf tf⟩ →
      ((s.entry k).owner = none → ∃ t : State, exec (.claimCycle n) s = .next t.afterCompletion ∧ owns 0x22#8 .none t) ∧
      ∀ q, (s.entry k).owner = some q → exec (.claimCycle n) s = .next
        (if (s.entry k).orphaned then refused 0x22#8 .orphaned .none
        else if s.portState q = .closing then refused 0x22#8 .pendingRecovery .none
        else refused 0x22#8 .alreadyOwned (.owner (some q)))) ∧
    (s.cycleOf n .single = some ⟨tag, .adopt k d pf tf⟩ →
      ((s.entry k).owner = none → exec (.adoptCycle n) s = .next (refused 0x24#8 .notOrphaned (.owner none))) ∧
      ∀ q, (s.entry k).owner = some q →
        ((s.entry k).orphaned = true →
          ∃ t : State, exec (.adoptCycle n) s = .next t.afterCompletion ∧ owns 0x24#8 (.owner (some q)) t) ∧
        ((s.entry k).orphaned = false → exec (.adoptCycle n) s = .next
          (if s.portState q = .closing then refused 0x24#8 .pendingRecovery .none
          else refused 0x24#8 .notOrphaned (.owner (some q)))))

/-- RELEASE and SET_ACCESS by the owner (R14, R110, R112): the entry is unowned, its other fields standing, the owned count
falls and OWNER_CHANGED is posted; or its terms alone are replaced, the old ones answered, and no event is posted. -/
def Obligations.ReleaseAndSetAccessAct : Prop :=
  ∀ (s : State) (n : Port) (tag : Tag) (k : Slot), s.allocated k = true → (s.entry k).owner = some n →
    (s.entry k).orphaned = false →
    (s.cycleOf n .single = some ⟨tag, .release k⟩ → ∃ t : State, exec (.releaseCycle n) s = .next t.afterCompletion ∧
      t = { s.cycleEnded n with
        entries := t.entries, tallies := t.tallies
        ports := ((s.postEntryEvent (s.entry k).watch .ownerChanged k (s.entry k).version none (.port n)).replyTo n
          { tag := tag, code := 0x23#8, status := .ok, named := some k, terminal := none, content := none
            version := some (s.entry k).version, extra := .none }).ports } ∧
      (∀ j, t.entry j = if j = k then { s.entry k with owner := none, orphaned := false } else s.entry j) ∧
      ∀ p, t.tallies.get p = { s.tallies.get p with owned := (s.tallies.get p).owned - if p = n then 1 else 0 }) ∧
    ∀ (d pf tf : Byte) (a : Access), accessOfCodes d pf tf = some a →
      s.cycleOf n .single = some ⟨tag, .setAccess k d pf tf⟩ →
      ∃ t : State, exec (.setAccessCycle n) s = .next t.afterCompletion ∧
        t = { s.cycleEnded n with
          entries := t.entries
          ports := (s.replyTo n
            { tag := tag, code := 0x25#8, status := .ok, named := some k, terminal := none, content := none
              version := some (s.entry k).version, extra := .previousAccess (s.entry k).access }).ports } ∧
        ∀ j, t.entry j = if j = k then { s.entry k with access := a } else s.entry j

/-- INSPECT and BREAK_WAIT (R92, R168): INSPECT reports the whole record, its row and the number of records on the slot, and
changes nothing; BREAK_WAIT removes every wait record on the slot, answers each CANCELLED ahead of its own reply, which
carries their number, and changes nothing in the directory. -/
def Obligations.InspectAndBreakWaitAct : Prop :=
  ∀ (s : State) (n : Port) (tag : Tag) (k : Slot), s.allocated k = true →
    (s.cycleOf n .single = some ⟨tag, .inspect k⟩ → exec (.inspectCycle n) s = .next
      (s.endedWith n
        { tag := tag, code := 0x30#8, status := .ok, named := some k, terminal := none
          content := some (s.entry k).content, version := some (s.entry k).version
          extra := .inspect
            { owner := (s.entry k).owner, orphaned := (s.entry k).orphaned, access := (s.entry k).access
              saved := (s.entry k).saved, watch := (s.entry k).watch, allocated := true, inbound := s.inbound k
              waits := (s.waits.filter (fun w : WaitRecord => decide (w.terminal = k))).length } }).afterCompletion) ∧
    (s.cycleOf n .single = some ⟨tag, .breakWait k⟩ → exec (.breakWaitCycle n) s = .next (State.afterCompletion
      { s.cycleEnded n with
        waits := s.waits.filter (fun w : WaitRecord => decide (w.terminal ≠ k))
        ports := ((s.postReplies (fun p =>
          (s.waits.filter (fun w : WaitRecord => decide (w.terminal = k) && decide (w.port = p))).map (fun w : WaitRecord =>
            { tag := w.tag, code := 0x12#8, status := .cancelled, named := some w.named
              terminal := some (w.terminal, w.hops), content := none, version := none, extra := .none }))).replyTo n
          { tag := tag, code := 0x33#8, status := .ok, named := some k, terminal := none, content := none, version := none
            extra := .broken (s.waits.filter (fun w : WaitRecord => decide (w.terminal = k))).length }).ports }))

/-! ## The Recovery Sweeper -/

/-- A pass begins in READY on the head record, a LOSS record's once the lost executor has stopped (R131, R134): with both
counts of its port 0 it ends at once (R135, R137), and otherwise a visit to slot 0 is presented. -/
def Claims.SweepPassStarts : Prop :=
  ∀ (s : State) (r : SweepRecord) (rest : List SweepRecord), s.device = .ready → s.sweepVisit = false →
    s.sweeps = r :: rest →
    (((∃ x, r.kind = .loss x) ∧ (s.executor r.port).abandoned = true) → exec .sweepPassStart s = .next s) ∧
    (((∃ tag c, r.kind = .detach tag c) ∨ (s.executor r.port).abandoned = false) →
      (s.tallies.get r.port = { owned := 0, watch := 0 } →
        ∃ t : State, exec .sweepPassStart s = .next t.arbitrate ∧ PassEnded s r rest t) ∧
      (s.tallies.get r.port ≠ { owned := 0, watch := 0 } →
        exec .sweepPassStart s = .next (State.arbitrate { s with sweepPos := 0, sweepVisit := true })))

/-- What follows a visit to slot k, no entry to CLEARING being due (R135 to R137): the next visit is presented, or, with both
counts 0 or the last slot visited, the pass ends; then the next grant. -/
def Claims.VisitIsFollowedByTheNext : Prop :=
  ∀ (s : State) (k : Slot) (r : SweepRecord) (rest : List SweepRecord), s.sweeps = r :: rest → s.clearDue = false →
    (k + 1 < 4096 → s.tallies.get r.port ≠ { owned := 0, watch := 0 } → s.afterVisit k = State.arbitrate
      { s with inProgress := none, sweepPos := k + 1, sweepVisit := true }) ∧
    ((k = 4095 ∨ (k < 4095 ∧ s.tallies.get r.port = { owned := 0, watch := 0 })) →
      ∃ t : State, s.afterVisit k = t.arbitrate ∧ PassEnded { s with inProgress := none } r rest t)

/-- What follows a visit when an entry to CLEARING is due (R36, R139): the device is CLEARING with no visit pending; whether
the pass ended ahead of the entry, and after it those of the next records whose counts are 0, some, none or all, are free
values (log 10). That the entry stops every executor not on a CLEAR_DIRECTORY is
the model's choice (log 11), and so is the position 0 after a pass
and after the visit to slot 4095 (log 15). -/
def Claims.VisitIsFollowedByADueEntry : Prop :=
  ∀ (s : State) (k : Slot) (r : SweepRecord) (rest : List SweepRecord), s.sweeps = r :: rest → s.clearDue = true →
    k ≤ 4095 → ∃ u : State, EntersClearing u (s.afterVisit k) ∧
      (u = { s with inProgress := none, sweepVisit := false, sweepPos := (k + 1) % 4096 }
      ∨ (k + 1 < 4096 ∧ s.tallies.get r.port ≠ { owned := 0, watch := 0 }
          ∧ u = { s with inProgress := none, sweepVisit := true, sweepPos := k + 1 })
      ∨ ((k + 1 = 4096 ∨ s.tallies.get r.port = { owned := 0, watch := 0 })
          ∧ ∃ (v : State) (ended : List SweepRecord), PassEnded { s with inProgress := none } r rest v
            ∧ PassesEnded ended v u))

/-- The course of a sweep pass (R134, R135, R137, R139). -/
def Obligations.SweepPassesRun : Prop :=
  Claims.SweepPassStarts ∧ Claims.VisitIsFollowedByTheNext ∧ Claims.VisitIsFollowedByADueEntry

/-- A visit that applies no disposition (R11, R136): to an unallocated slot nothing happens; of an entry the port does not
own, or that is orphaned, only its watch is removed, without an event. -/
def Claims.VisitRemovesTheWatch : Prop :=
  ∀ (s : State) (r : SweepRecord) (rest : List SweepRecord) (k : Slot),
    (s.inProgress = some .sweeper → s.sweeps = r :: rest → s.sweepPos = k → s.allocated k = false →
      exec .sweepVisit s = .next (s.afterVisit k)) ∧
    (Visiting s r rest k → ((s.entry k).owner ≠ some r.port ∨ (s.entry k).orphaned = true) →
      ∃ t : State, exec .sweepVisit s = .next (t.afterVisit k) ∧
        t = { s with entries := t.entries, tallies := t.tallies } ∧
        (∀ j, t.entry j = if j = k then
          { s.entry k with watch := (s.entry k).watch.set r.port false } else s.entry j) ∧
        ∀ q, t.tallies.get q = { s.tallies.get q with
          watch := (s.tallies.get q).watch - if q = r.port ∧ (s.entry k).watch.get q = true then 1 else 0 })

/-- R116: KEEP sets orphaned to yes and leaves the owner field naming the swept port; content, version, flags, disposition,
saved field, the others' watches and the wait records stand; producers and consumers admitted by the flags go on; every
port's own requests that modify it, the former owner's too, are refused ORPHANED. OWNER_CHANGED is posted by the device. -/
def Claims.KeepOrphansTheEntry : Prop :=
  ∀ (s : State) (r : SweepRecord) (rest : List SweepRecord) (k : Slot), Visiting s r rest k →
    (s.entry k).owner = some r.port → (s.entry k).orphaned = false → (s.entry k).access.disposition = .keep →
    ∀ watchers : PerPort Bool, watchers = (s.entry k).watch.set r.port false →
    ∃ t : State, exec .sweepVisit s = .next (t.afterVisit k) ∧
      t = { s with
        entries := t.entries, tallies := t.tallies, sweeps := countedHead r .keep :: rest
        ports := (s.postEntryEvent watchers .ownerChanged k (s.entry k).version none .device).ports } ∧
      (∀ j, t.entry j = if j = k then { s.entry k with watch := watchers, orphaned := true } else s.entry j) ∧
      (∀ q, t.tallies.get q = visitedTallies s r.port (s.entry k) q) ∧
      (∀ q, t.modifyFails q k .orphaned ∧ ¬ t.modifyPasses q k) ∧
      ∀ q flag, t.flagPasses q k flag ↔ flag = true

/-- R117: RELEASE sets owner none and orphaned no; content, version, flags, disposition, saved field, the others' watches
and the wait records stand; after the visit every attached port may PUT, TAKE and modify the entry, and any port may CLAIM
it. OWNER_CHANGED is posted by the device. -/
def Claims.ReleaseFreesTheEntry : Prop :=
  ∀ (s : State) (r : SweepRecord) (rest : List SweepRecord) (k : Slot), Visiting s r rest k →
    (s.entry k).owner = some r.port → (s.entry k).orphaned = false → (s.entry k).access.disposition = .release →
    ∀ watchers : PerPort Bool, watchers = (s.entry k).watch.set r.port false →
    ∃ t : State, exec .sweepVisit s = .next (t.afterVisit k) ∧
      t = { s with
        entries := t.entries, tallies := t.tallies, sweeps := countedHead r .release :: rest
        ports := (s.postEntryEvent watchers .ownerChanged k (s.entry k).version none .device).ports } ∧
      (∀ j, t.entry j = if j = k then
        { s.entry k with watch := watchers, owner := none, orphaned := false } else s.entry j) ∧
      (∀ q, t.tallies.get q = visitedTallies s r.port (s.entry k) q) ∧
      (∀ q, t.modifyPasses q k ∧ (∀ flag, t.flagPasses q k flag)) ∧ (t.entry k).owner = none

/-- The visits that change no content: the watch removed, KEEP (R116) and RELEASE (R117). -/
def Obligations.VisitsRemoveKeepAndRelease : Prop :=
  Claims.VisitRemovesTheWatch ∧ Claims.KeepOrphansTheEntry ∧ Claims.ReleaseFreesTheEntry

/-- DROP (R104, R115, R118): the content is discarded at the next version and the entry unowned with no checkpoint; a pooled
slot that is then unreferenced and not waited on is retired at one version more; the device posts ENTRY_RETIRED,
ENTRY_DROPPED, or, where nothing was discarded, OWNER_CHANGED. -/
def Claims.DropDiscardsTheContent : Prop :=
  ∀ (s : State) (r : SweepRecord) (rest : List SweepRecord) (k : Slot), Visiting s r rest k →
    (s.entry k).owner = some r.port → (s.entry k).orphaned = false → (s.entry k).access.disposition = .drop →
    ∀ watchers : PerPort Bool, watchers = (s.entry k).watch.set r.port false →
    ∀ ver : Version, ver = (if (s.entry k).content = .empty then (s.entry k).version else (s.entry k).version + 1) →
    ∀ inbound : Slot → Nat, (∀ j, inbound j =
      s.inbound j - if (s.entry k).content = Content.forward j then 1 else 0) →
    ((256 ≤ k ∧ inbound k = 0 ∧ s.waitsOn k = 0) → ∃ t : State, exec .sweepVisit s = .next (t.afterVisit k) ∧
      t = { s with
        entries := t.entries, rows := t.rows, tallies := t.tallies, freeList := s.freeList ++ [k]
        sweeps := countedHead r .drop :: rest
        ports := (s.postEntryEvent watchers .entryRetired k (ver + 1) none .device).ports } ∧
      (∀ j, t.entry j = if j = k then { Entry.default with version := ver + 1 } else s.entry j) ∧
      (∀ j, t.row j = { allocated := if j = k then false else (s.row j).allocated, inbound := inbound j }) ∧
      ∀ q, t.tallies.get q = { visitedTallies s r.port (s.entry k) q with
        watch := (visitedTallies s r.port (s.entry k) q).watch - if watchers.get q then 1 else 0 }) ∧
    (¬ (256 ≤ k ∧ inbound k = 0 ∧ s.waitsOn k = 0) → ∃ t : State, exec .sweepVisit s = .next (t.afterVisit k) ∧
      t = { s with
        entries := t.entries, rows := t.rows, tallies := t.tallies, sweeps := countedHead r .drop :: rest
        ports := (s.postEntryEvent watchers
          (if (s.entry k).content = .empty then .ownerChanged else .entryDropped) k ver none .device).ports } ∧
      (∀ j, t.entry j = if j = k then
        { s.entry k with
          watch := watchers, content := .empty, version := ver, owner := none, orphaned := false, saved := .absent }
        else s.entry j) ∧
      (∀ j, t.row j = { s.row j with inbound := inbound j }) ∧
      ∀ q, t.tallies.get q = visitedTallies s r.port (s.entry k) q)

/-- RESTORE (R88, R115, R119): the checkpoint, where there is one, becomes the content, at the next version where that
changes it; a saved value on an EMPTY entry with wait records is handed to the oldest instead; the entry is unowned with
no checkpoint. The device posts VALUE_HANDED, ENTRY_RESTORED, or, with the content unchanged, OWNER_CHANGED. -/
def Claims.RestoreAppliesTheCheckpoint : Prop :=
  ∀ (s : State) (r : SweepRecord) (rest : List SweepRecord) (k : Slot), Visiting s r rest k →
    (s.entry k).owner = some r.port → (s.entry k).orphaned = false → (s.entry k).access.disposition = .restore →
    ∀ watchers : PerPort Bool, watchers = (s.entry k).watch.set r.port false →
    ∀ freed : Entry, freed = { s.entry k with
      watch := watchers, owner := none, orphaned := false, saved := .absent } →
    ∀ restored : Content → Version → State → List WaitRecord → State → Prop,
      (∀ c v told waits t, restored c v told waits t ↔
        t = { s with
          entries := t.entries, rows := t.rows, tallies := t.tallies, waits := waits
          sweeps := countedHead r .restore :: rest, ports := told.ports } ∧
        (∀ j, t.entry j = if j = k then { freed with content := c, version := v } else s.entry j) ∧
        (∀ j, t.row j = { s.row j with inbound := (s.row j).inbound -
          if c ≠ (s.entry k).content ∧ (s.entry k).content = Content.forward j then 1 else 0 }) ∧
        ∀ q, t.tallies.get q = visitedTallies s r.port (s.entry k) q) →
    (((s.entry k).saved = .absent ∨ ((s.entry k).saved = .empty ∧ (s.entry k).content = .empty)
        ∨ ∃ v, (s.entry k).saved = .value v ∧ (s.entry k).content = .value v) →
      ∃ t : State, exec .sweepVisit s = .next (t.afterVisit k) ∧ restored (s.entry k).content (s.entry k).version
        (s.postEntryEvent watchers .ownerChanged k (s.entry k).version none .device) s.waits t) ∧
    ((s.entry k).saved = .empty → (s.entry k).content ≠ .empty →
      ∃ t : State, exec .sweepVisit s = .next (t.afterVisit k) ∧ restored .empty ((s.entry k).version + 1)
        (s.postEntryEvent watchers .entryRestored k ((s.entry k).version + 1) none .device) s.waits t) ∧
    (∀ v, (s.entry k).saved = .value v → (s.entry k).content ≠ .value v →
      ((s.entry k).content = .empty → ∀ w ∈ s.waits, w.terminal ≠ k) →
      ∃ t : State, exec .sweepVisit s = .next (t.afterVisit k) ∧ restored (.value v) ((s.entry k).version + 1)
        (s.postEntryEvent watchers .entryRestored k ((s.entry k).version + 1) (some v) .device) s.waits t) ∧
    (∀ v before w after, (s.entry k).saved = .value v → (s.entry k).content = .empty →
      s.waits = before ++ w :: after → w.terminal = k → (∀ x ∈ before, x.terminal ≠ k) →
      ∃ t : State, exec .sweepVisit s = .next (t.afterVisit k) ∧ restored .empty ((s.entry k).version + 1)
        ((s.postReply w.port
          { tag := w.tag, code := 0x12#8, status := .ok, named := some w.named, terminal := some (k, w.hops)
            content := some (.value v), version := some ((s.entry k).version + 1), extra := .none }).postEntryEvent
          watchers .valueHanded k ((s.entry k).version + 1) (some v) .device) (before ++ after) t)

/-- The visits that change content: DROP (R104, R118) and RESTORE (R88, R119). -/
def Obligations.VisitsDropAndRestore : Prop :=
  Claims.DropDiscardsTheContent ∧ Claims.RestoreAppliesTheCheckpoint

/-! ## The arbiter -/

/-- The grant (R28, R29): in READY, with no cycle in progress, to the first requestor in the rotation after last granted
that has a cycle pending, which becomes last granted; in no other case is anything granted. With no pending cycle of a lost
port to withdraw, the arbiter's turn is its grant. -/
def Obligations.GrantFollowsTheRotation : Prop :=
  ∀ s : State, (s.device ≠ .ready ∨ s.inProgress ≠ none → s.grant = s) ∧
    ((∀ r, s.hasCycle r = false) → s.grant = s) ∧
    (∀ r, s.device = .ready → s.inProgress = none → s.hasCycle r = true →
      (∀ q, ahead s.lastGranted q < ahead s.lastGranted r → s.hasCycle q = false) →
      s.grant = { s with inProgress := some r, lastGranted := r }) ∧
    ((∀ p, (s.executor p).abandoned = false ∨ s.hasCycle (.executor p) = false ∨ s.inProgress = some (.executor p)
        ∨ s.device = .clearing) → s.arbitrate = s.grant)

/-- Where a lost port has a cycle pending, the arbiter takes its withdrawal or a grant first (R27, R51, R131): its turn is a
grant behind the withdrawal of some, none or all of those cycles, which ones being a free value (log 17). A cycle that is
not withdrawn stays pending, or is granted; one in progress is never withdrawn. -/
def Obligations.WithdrawalsComeInEitherOrder : Prop :=
  ∀ s : State, s.ExecutorLaw → s.TokenLaw →
    (∀ p, s.withdrawing p = true ↔ (s.executor p).abandoned = true ∧ s.hasCycle (.executor p) = true
      ∧ s.inProgress ≠ some (.executor p) ∧ s.device ≠ .clearing) ∧
    ∃ (stopped : Port → Bool) (u : State), Withdrew s stopped u ∧ s.arbitrate = u.grant

/-- The bound of R30. At most four requestors stand ahead of a pending one. In READY with no cycle in progress, a
grant goes to
a requestor r whose cycle is pending or to one that stands ahead of it, and r then stands strictly nearer to its own grant: so
r is granted before any other requestor is granted twice. The arbiter's turn grants so too, where it does not withdraw r's
cycle. So a step that completes a cycle, and stays in READY, grants r or brings it nearer, and any other step grants nothing
past it. -/
def Obligations.PendingRequestorsAreServed : Prop :=
  (∀ l r, ahead l r ≤ 4) ∧
  (∀ (s : State) (r : Requestor), s.device = .ready → s.inProgress = none → s.hasCycle r = true →
    s.grant.inProgress = some r ∨ ∃ x, s.grant.inProgress = some x ∧ s.grant.lastGranted = x
      ∧ x ≠ r ∧ ahead s.lastGranted x < ahead s.lastGranted r ∧ ahead x r < ahead s.lastGranted r) ∧
  (∀ (s : State) (r : Requestor), s.device = .ready → s.inProgress = none → s.arbitrate.hasCycle r = true →
    s.arbitrate.inProgress = some r ∨ ∃ x, s.arbitrate.inProgress = some x ∧ s.arbitrate.lastGranted = x
      ∧ x ≠ r ∧ ahead s.lastGranted x < ahead s.lastGranted r ∧ ahead x r < ahead s.lastGranted r) ∧
  ∀ (s t : State) (r : Requestor), s.Laws → step s = .next t → s.device = .ready → t.device = .ready →
    s.hasCycle r = true → s.inProgress ≠ some r → t.hasCycle r = true →
    t.inProgress = some r ∨ (t.inProgress = s.inProgress ∧ t.lastGranted = s.lastGranted
        ∧ ∀ c rest, s.pending = c :: rest → ¬ s.completes c)
      ∨ ahead t.lastGranted r < ahead s.lastGranted r

/-! ## The laws -/

/-- The laws hold right after reset. -/
def Obligations.LawsHoldAtReset : Prop := State.reset.Laws

/-- Every step keeps the laws of the arbiter and of the executors (R21, R26, R28, R29, R36, R39, R43, R161). -/
def Obligations.ArbiterAndExecutorLawsAreKept : Prop :=
  ∀ s t : State, s.Laws → step s = .next t → t.ArbiterLaw ∧ t.ExecutorLaw

/-- Every step keeps the laws of the directory (R1, R4, R11 to R16, R18, R20, R33, R34), its tables in canonical form. -/
def Obligations.DirectoryLawsAreKept : Prop :=
  ∀ s t : State, s.Laws → step s = .next t → t.TableLaw ∧ t.DirectoryLaw

/-- Every step keeps the laws of the sessions (R121, R122, R123, R127, R128, R131, R133, R152). -/
def Obligations.SessionLawsAreKept : Prop := ∀ s t : State, s.Laws → step s = .next t → t.SessionLaw

/-- Every step keeps the laws of the sweeps (R131, R135, R136, R139). -/
def Obligations.SweepLawsAreKept : Prop := ∀ s t : State, s.Laws → step s = .next t → t.SweepLaw

/-- R138: after every step, a port in OPEN or DOWN has owned count 0, watch count 0 and no wait records; a port in DOWN has
outstanding count 0; a port in OPEN has no request queued or executing other than ATTACH and STATUS, and its outstanding
requests are these and the replies that still await transmission. -/
def Obligations.OpenAndDownPortsHoldNothing : Prop :=
  ∀ s t : State, s.Laws → step s = .next t → ∀ p,
    ((t.portState p = .opened ∨ t.portState p = .down) → t.tallies.get p = { owned := 0, watch := 0 } ∧
      ∀ w ∈ t.waits, w.port ≠ p) ∧
    (t.portState p = .down → (t.port p).tags = []) ∧
    (t.portState p = .opened →
      (∀ rq ∈ (t.port p).requestQueue, (∃ lease m f, rq.op = .attach lease m f) ∨ rq.op = .status) ∧
      (t.executor p).current = none ∧
      (t.port p).tags.Perm ((t.port p).requestQueue.map Request.tag ++ (t.port p).replyQueue.map Reply.tag))

/-- R83: after every step, every wait record names a terminal slot that is allocated and EMPTY and belongs to an ATTACHED
port, the Wait Table holds at most 16 records, and no two records of one port carry the same tag. -/
def Obligations.WaitLawsAreKept : Prop :=
  ∀ s t : State, s.Laws → step s = .next t → t.WaitLaw ∧
    ∀ p, ((t.waits.filter (fun w => decide (w.port = p))).map WaitRecord.tag).Nodup

/-- Every step keeps the laws of the link token (R49 to R52). -/
def Obligations.TokenLawsAreKept : Prop := ∀ s t : State, s.Laws → step s = .next t → t.TokenLaw

/-- R60, with R59: after every step, following forwards from any entry reaches an entry that is not FORWARD, no chain of
forwards is cyclic, and what a check walk has found stays true until its commit. -/
def Obligations.ChainsStayAcyclic : Prop :=
  ∀ s t : State, s.Laws → step s = .next t → t.ChainLaw ∧
    (∀ k, ∃ m j, t.follow m k = some j ∧ ∀ u, (t.entry j).content ≠ .forward u) ∧
    ∀ m k, 0 < m → t.follow m k ≠ some k

/-- Every step keeps the laws of the event queues, the acknowledgment buffers, the framers and the bits of the links
(R147, R148,
R150, R155, R157, R158, R164). -/
def Obligations.QueueLawsAreKept : Prop := ∀ s t : State, s.Laws → step s = .next t → t.QueueLaw

/-- Every step keeps the law of outstanding requests (R160 to R162): at most 8 for each port, no two with one tag, each in
one place. -/
def Obligations.OutstandingLawIsKept : Prop := ∀ s t : State, s.Laws → step s = .next t → t.OutstandingLaw

/-- Every step keeps all the laws together. -/
def Obligations.AllLawsAreKept : Prop := ∀ s t : State, s.Laws → step s = .next t → t.Laws

/-- A run of any length from reset, whatever commands wait in the queue, goes on and ends in the laws. -/
def Obligations.RunsFromResetAreSafe : Prop :=
  ∀ (cs : List Instr) (k : Nat), SafeRun k { State.reset with pending := cs }
end

