-- ==== Sys2Proof/Laws/Dispatch.lean ====
section
/-! SUPPORT. What exec answers for each command, by the name of its meaning. -/

namespace Sys2Proof.Machine

variable (s : State)

@[simp] theorem exec_deviceReset : exec .deviceReset s = execDeviceReset s := rfl
@[simp] theorem exec_resetNHigh (strap : BitVec 3) : exec (.resetNHigh strap) s = execResetNHigh strap s := rfl
@[simp] theorem exec_passCycle : exec .passCycle s = execPassCycle s := rfl
@[simp] theorem exec_portResetLow (n : Port) : exec (.portResetLow n) s = execPortResetLow n s := rfl
@[simp] theorem exec_portResetHigh (n : Port) : exec (.portResetHigh n) s = execPortResetHigh n s := rfl
@[simp] theorem exec_tick : exec .tick s = execTick s := rfl
@[simp] theorem exec_waitExpiry : exec .waitExpiry s = execWaitExpiry s := rfl
@[simp] theorem exec_leaseExpiry (n : Port) : exec (.leaseExpiry n) s = execLeaseExpiry n s := rfl
@[simp] theorem exec_truncatedFrame (n : Port) : exec (.truncatedFrame n) s = execTruncatedFrame n s := rfl
@[simp] theorem exec_lengthError (n : Port) (b : Byte) : exec (.lengthError n b) s = execLengthError n b s := rfl
@[simp] theorem exec_frameComplete (n : Port) (b : Byte) : exec (.frameComplete n b) s = execFrameComplete n b s := rfl
@[simp] theorem exec_ackFrame (n : Port) : exec (.ackFrame n) s = execAckFrame n s := rfl
@[simp] theorem exec_replyFrame (n : Port) : exec (.replyFrame n) s = execReplyFrame n s := rfl
@[simp] theorem exec_eventFrame (n : Port) : exec (.eventFrame n) s = execEventFrame n s := rfl
@[simp] theorem exec_attach (n : Port) : exec (.attach n) s = execAttach n s := rfl
@[simp] theorem exec_detach (n : Port) : exec (.detach n) s = execDetach n s := rfl
@[simp] theorem exec_status (n : Port) : exec (.status n) s = execStatus n s := rfl
@[simp] theorem exec_credit (n : Port) : exec (.credit n) s = execCredit n s := rfl
@[simp] theorem exec_setEvents (n : Port) : exec (.setEvents n) s = execSetEvents n s := rfl
@[simp] theorem exec_read (n : Port) : exec (.read n) s = execRead n s := rfl
@[simp] theorem exec_put (n : Port) : exec (.put n) s = execPut n s := rfl
@[simp] theorem exec_take (n : Port) : exec (.take n) s = execTake n s := rfl
@[simp] theorem exec_link (n : Port) : exec (.link n) s = execLink n s := rfl
@[simp] theorem exec_clear (n : Port) : exec (.clear n) s = execClear n s := rfl
@[simp] theorem exec_checkpoint (n : Port) : exec (.checkpoint n) s = execCheckpoint n s := rfl
@[simp] theorem exec_watch (n : Port) : exec (.watch n) s = execWatch n s := rfl
@[simp] theorem exec_unwatch (n : Port) : exec (.unwatch n) s = execUnwatch n s := rfl
@[simp] theorem exec_alloc (n : Port) : exec (.alloc n) s = execAlloc n s := rfl
@[simp] theorem exec_retire (n : Port) : exec (.retire n) s = execRetire n s := rfl
@[simp] theorem exec_claim (n : Port) : exec (.claim n) s = execClaim n s := rfl
@[simp] theorem exec_release (n : Port) : exec (.release n) s = execRelease n s := rfl
@[simp] theorem exec_adopt (n : Port) : exec (.adopt n) s = execAdopt n s := rfl
@[simp] theorem exec_setAccess (n : Port) : exec (.setAccess n) s = execSetAccess n s := rfl
@[simp] theorem exec_inspect (n : Port) : exec (.inspect n) s = execInspect n s := rfl
@[simp] theorem exec_breakWait (n : Port) : exec (.breakWait n) s = execBreakWait n s := rfl
@[simp] theorem exec_forceDetach (n : Port) : exec (.forceDetach n) s = execForceDetach n s := rfl
@[simp] theorem exec_clearDirectory (n : Port) : exec (.clearDirectory n) s = execClearDirectory n s := rfl
@[simp] theorem exec_walkHop (n : Port) : exec (.walkHop n) s = execWalkHop n s := rfl
@[simp] theorem exec_readTerminal (n : Port) : exec (.readTerminal n) s = execReadTerminal n s := rfl
@[simp] theorem exec_putTerminal (n : Port) : exec (.putTerminal n) s = execPutTerminal n s := rfl
@[simp] theorem exec_takeTerminal (n : Port) : exec (.takeTerminal n) s = execTakeTerminal n s := rfl
@[simp] theorem exec_checkWalkCycle (n : Port) : exec (.checkWalkCycle n) s = execCheckWalkCycle n s := rfl
@[simp] theorem exec_commitCycle (n : Port) : exec (.commitCycle n) s = execCommitCycle n s := rfl
@[simp] theorem exec_clearCycle (n : Port) : exec (.clearCycle n) s = execClearCycle n s := rfl
@[simp] theorem exec_checkpointCycle (n : Port) : exec (.checkpointCycle n) s = execCheckpointCycle n s := rfl
@[simp] theorem exec_watchCycle (n : Port) : exec (.watchCycle n) s = execWatchCycle n s := rfl
@[simp] theorem exec_unwatchCycle (n : Port) : exec (.unwatchCycle n) s = execUnwatchCycle n s := rfl
@[simp] theorem exec_allocCycle (n : Port) : exec (.allocCycle n) s = execAllocCycle n s := rfl
@[simp] theorem exec_retireCycle (n : Port) : exec (.retireCycle n) s = execRetireCycle n s := rfl
@[simp] theorem exec_claimCycle (n : Port) : exec (.claimCycle n) s = execClaimCycle n s := rfl
@[simp] theorem exec_releaseCycle (n : Port) : exec (.releaseCycle n) s = execReleaseCycle n s := rfl
@[simp] theorem exec_adoptCycle (n : Port) : exec (.adoptCycle n) s = execAdoptCycle n s := rfl
@[simp] theorem exec_setAccessCycle (n : Port) : exec (.setAccessCycle n) s = execSetAccessCycle n s := rfl
@[simp] theorem exec_inspectCycle (n : Port) : exec (.inspectCycle n) s = execInspectCycle n s := rfl
@[simp] theorem exec_breakWaitCycle (n : Port) : exec (.breakWaitCycle n) s = execBreakWaitCycle n s := rfl
@[simp] theorem exec_sweepPassStart : exec .sweepPassStart s = execSweepPassStart s := rfl
@[simp] theorem exec_sweepVisit : exec .sweepVisit s = execSweepVisit s := rfl
@[simp] theorem exec_syncByteFound (n : Port) : exec (.syncByteFound n) s = execSyncByteFound n s := rfl
@[simp] theorem exec_frameByteReceived (n : Port) (b : Byte) : exec (.frameByteReceived n b) s = execFrameByteReceived n b s := rfl
@[simp] theorem exec_frameSent (n : Port) : exec (.frameSent n) s = execFrameSent n s := rfl

end Sys2Proof.Machine
end

