-- ==== Sys2Proof/Laws/State.lean ====
section
/-! SUPPORT. One lemma for each field, and each reading of the part, that a named update leaves as it was: true by rfl, so
that no proof unfolds an update. -/

namespace Sys2Proof.Machine

variable (s : State)


/-! ## setEntry -/

@[simp] theorem State.setEntry_held (k : Slot) (e : Entry) : (s.setEntry k e).held = s.held := rfl
@[simp] theorem State.setEntry_device (k : Slot) (e : Entry) : (s.setEntry k e).device = s.device := rfl
@[simp] theorem State.setEntry_maint (k : Slot) (e : Entry) : (s.setEntry k e).maint = s.maint := rfl
@[simp] theorem State.setEntry_passPos (k : Slot) (e : Entry) : (s.setEntry k e).passPos = s.passPos := rfl
@[simp] theorem State.setEntry_rows (k : Slot) (e : Entry) : (s.setEntry k e).rows = s.rows := rfl
@[simp] theorem State.setEntry_tallies (k : Slot) (e : Entry) : (s.setEntry k e).tallies = s.tallies := rfl
@[simp] theorem State.setEntry_freeList (k : Slot) (e : Entry) : (s.setEntry k e).freeList = s.freeList := rfl
@[simp] theorem State.setEntry_clearDue (k : Slot) (e : Entry) : (s.setEntry k e).clearDue = s.clearDue := rfl
@[simp] theorem State.setEntry_inProgress (k : Slot) (e : Entry) : (s.setEntry k e).inProgress = s.inProgress := rfl
@[simp] theorem State.setEntry_lastGranted (k : Slot) (e : Entry) : (s.setEntry k e).lastGranted = s.lastGranted := rfl
@[simp] theorem State.setEntry_execs (k : Slot) (e : Entry) : (s.setEntry k e).execs = s.execs := rfl
@[simp] theorem State.setEntry_waits (k : Slot) (e : Entry) : (s.setEntry k e).waits = s.waits := rfl
@[simp] theorem State.setEntry_waitDue (k : Slot) (e : Entry) : (s.setEntry k e).waitDue = s.waitDue := rfl
@[simp] theorem State.setEntry_serial (k : Slot) (e : Entry) : (s.setEntry k e).serial = s.serial := rfl
@[simp] theorem State.setEntry_sweeps (k : Slot) (e : Entry) : (s.setEntry k e).sweeps = s.sweeps := rfl
@[simp] theorem State.setEntry_sweepPos (k : Slot) (e : Entry) : (s.setEntry k e).sweepPos = s.sweepPos := rfl
@[simp] theorem State.setEntry_sweepVisit (k : Slot) (e : Entry) : (s.setEntry k e).sweepVisit = s.sweepVisit := rfl
@[simp] theorem State.setEntry_ports (k : Slot) (e : Entry) : (s.setEntry k e).ports = s.ports := rfl
@[simp] theorem State.setEntry_links (k : Slot) (e : Entry) : (s.setEntry k e).links = s.links := rfl
@[simp] theorem State.setEntry_freeIndex (k : Slot) (e : Entry) : (s.setEntry k e).freeIndex = s.freeIndex := rfl
@[simp] theorem State.setEntry_pending (k : Slot) (e : Entry) : (s.setEntry k e).pending = s.pending := rfl
@[simp] theorem State.setEntry_row (k : Slot) (e : Entry) (j : Slot) : (s.setEntry k e).row j = s.row j := rfl
@[simp] theorem State.setEntry_allocated (k : Slot) (e : Entry) (j : Slot) : (s.setEntry k e).allocated j = s.allocated j := rfl
@[simp] theorem State.setEntry_inbound (k : Slot) (e : Entry) (j : Slot) : (s.setEntry k e).inbound j = s.inbound j := rfl
@[simp] theorem State.setEntry_port (k : Slot) (e : Entry) (q : Port) : (s.setEntry k e).port q = s.port q := rfl
@[simp] theorem State.setEntry_portState (k : Slot) (e : Entry) (q : Port) : (s.setEntry k e).portState q = s.portState q := rfl
@[simp] theorem State.setEntry_link (k : Slot) (e : Entry) (q : Port) : (s.setEntry k e).link q = s.link q := rfl
@[simp] theorem State.setEntry_executor (k : Slot) (e : Entry) (q : Port) : (s.setEntry k e).executor q = s.executor q := rfl
@[simp] theorem State.setEntry_oldestWait (k : Slot) (e : Entry) (j : Slot) : (s.setEntry k e).oldestWait j = s.oldestWait j := rfl
@[simp] theorem State.setEntry_waitsOn (k : Slot) (e : Entry) (j : Slot) : (s.setEntry k e).waitsOn j = s.waitsOn j := rfl
@[simp] theorem State.setEntry_hasCycle (k : Slot) (e : Entry) (x : Requestor) : (s.setEntry k e).hasCycle x = s.hasCycle x := by cases x <;> rfl
@[simp] theorem State.setEntry_isMaintenance (k : Slot) (e : Entry) (q : Port) : (s.setEntry k e).isMaintenance q = s.isMaintenance q := rfl

/-! ## setRow -/

@[simp] theorem State.setRow_held (k : Slot) (r : Row) : (s.setRow k r).held = s.held := rfl
@[simp] theorem State.setRow_device (k : Slot) (r : Row) : (s.setRow k r).device = s.device := rfl
@[simp] theorem State.setRow_maint (k : Slot) (r : Row) : (s.setRow k r).maint = s.maint := rfl
@[simp] theorem State.setRow_passPos (k : Slot) (r : Row) : (s.setRow k r).passPos = s.passPos := rfl
@[simp] theorem State.setRow_entries (k : Slot) (r : Row) : (s.setRow k r).entries = s.entries := rfl
@[simp] theorem State.setRow_tallies (k : Slot) (r : Row) : (s.setRow k r).tallies = s.tallies := rfl
@[simp] theorem State.setRow_freeList (k : Slot) (r : Row) : (s.setRow k r).freeList = s.freeList := rfl
@[simp] theorem State.setRow_clearDue (k : Slot) (r : Row) : (s.setRow k r).clearDue = s.clearDue := rfl
@[simp] theorem State.setRow_inProgress (k : Slot) (r : Row) : (s.setRow k r).inProgress = s.inProgress := rfl
@[simp] theorem State.setRow_lastGranted (k : Slot) (r : Row) : (s.setRow k r).lastGranted = s.lastGranted := rfl
@[simp] theorem State.setRow_execs (k : Slot) (r : Row) : (s.setRow k r).execs = s.execs := rfl
@[simp] theorem State.setRow_waits (k : Slot) (r : Row) : (s.setRow k r).waits = s.waits := rfl
@[simp] theorem State.setRow_waitDue (k : Slot) (r : Row) : (s.setRow k r).waitDue = s.waitDue := rfl
@[simp] theorem State.setRow_serial (k : Slot) (r : Row) : (s.setRow k r).serial = s.serial := rfl
@[simp] theorem State.setRow_sweeps (k : Slot) (r : Row) : (s.setRow k r).sweeps = s.sweeps := rfl
@[simp] theorem State.setRow_sweepPos (k : Slot) (r : Row) : (s.setRow k r).sweepPos = s.sweepPos := rfl
@[simp] theorem State.setRow_sweepVisit (k : Slot) (r : Row) : (s.setRow k r).sweepVisit = s.sweepVisit := rfl
@[simp] theorem State.setRow_ports (k : Slot) (r : Row) : (s.setRow k r).ports = s.ports := rfl
@[simp] theorem State.setRow_links (k : Slot) (r : Row) : (s.setRow k r).links = s.links := rfl
@[simp] theorem State.setRow_freeIndex (k : Slot) (r : Row) : (s.setRow k r).freeIndex = s.freeIndex := rfl
@[simp] theorem State.setRow_pending (k : Slot) (r : Row) : (s.setRow k r).pending = s.pending := rfl
@[simp] theorem State.setRow_entry (k : Slot) (r : Row) (j : Slot) : (s.setRow k r).entry j = s.entry j := rfl
@[simp] theorem State.setRow_port (k : Slot) (r : Row) (q : Port) : (s.setRow k r).port q = s.port q := rfl
@[simp] theorem State.setRow_portState (k : Slot) (r : Row) (q : Port) : (s.setRow k r).portState q = s.portState q := rfl
@[simp] theorem State.setRow_link (k : Slot) (r : Row) (q : Port) : (s.setRow k r).link q = s.link q := rfl
@[simp] theorem State.setRow_executor (k : Slot) (r : Row) (q : Port) : (s.setRow k r).executor q = s.executor q := rfl
@[simp] theorem State.setRow_oldestWait (k : Slot) (r : Row) (j : Slot) : (s.setRow k r).oldestWait j = s.oldestWait j := rfl
@[simp] theorem State.setRow_waitsOn (k : Slot) (r : Row) (j : Slot) : (s.setRow k r).waitsOn j = s.waitsOn j := rfl
@[simp] theorem State.setRow_hasCycle (k : Slot) (r : Row) (x : Requestor) : (s.setRow k r).hasCycle x = s.hasCycle x := by cases x <;> rfl
@[simp] theorem State.setRow_isMaintenance (k : Slot) (r : Row) (q : Port) : (s.setRow k r).isMaintenance q = s.isMaintenance q := rfl

/-! ## raiseOwned -/

@[simp] theorem State.raiseOwned_held (p : Port) : (s.raiseOwned p).held = s.held := rfl
@[simp] theorem State.raiseOwned_device (p : Port) : (s.raiseOwned p).device = s.device := rfl
@[simp] theorem State.raiseOwned_maint (p : Port) : (s.raiseOwned p).maint = s.maint := rfl
@[simp] theorem State.raiseOwned_passPos (p : Port) : (s.raiseOwned p).passPos = s.passPos := rfl
@[simp] theorem State.raiseOwned_entries (p : Port) : (s.raiseOwned p).entries = s.entries := rfl
@[simp] theorem State.raiseOwned_rows (p : Port) : (s.raiseOwned p).rows = s.rows := rfl
@[simp] theorem State.raiseOwned_freeList (p : Port) : (s.raiseOwned p).freeList = s.freeList := rfl
@[simp] theorem State.raiseOwned_clearDue (p : Port) : (s.raiseOwned p).clearDue = s.clearDue := rfl
@[simp] theorem State.raiseOwned_inProgress (p : Port) : (s.raiseOwned p).inProgress = s.inProgress := rfl
@[simp] theorem State.raiseOwned_lastGranted (p : Port) : (s.raiseOwned p).lastGranted = s.lastGranted := rfl
@[simp] theorem State.raiseOwned_execs (p : Port) : (s.raiseOwned p).execs = s.execs := rfl
@[simp] theorem State.raiseOwned_waits (p : Port) : (s.raiseOwned p).waits = s.waits := rfl
@[simp] theorem State.raiseOwned_waitDue (p : Port) : (s.raiseOwned p).waitDue = s.waitDue := rfl
@[simp] theorem State.raiseOwned_serial (p : Port) : (s.raiseOwned p).serial = s.serial := rfl
@[simp] theorem State.raiseOwned_sweeps (p : Port) : (s.raiseOwned p).sweeps = s.sweeps := rfl
@[simp] theorem State.raiseOwned_sweepPos (p : Port) : (s.raiseOwned p).sweepPos = s.sweepPos := rfl
@[simp] theorem State.raiseOwned_sweepVisit (p : Port) : (s.raiseOwned p).sweepVisit = s.sweepVisit := rfl
@[simp] theorem State.raiseOwned_ports (p : Port) : (s.raiseOwned p).ports = s.ports := rfl
@[simp] theorem State.raiseOwned_links (p : Port) : (s.raiseOwned p).links = s.links := rfl
@[simp] theorem State.raiseOwned_freeIndex (p : Port) : (s.raiseOwned p).freeIndex = s.freeIndex := rfl
@[simp] theorem State.raiseOwned_pending (p : Port) : (s.raiseOwned p).pending = s.pending := rfl
@[simp] theorem State.raiseOwned_entry (p : Port) (j : Slot) : (s.raiseOwned p).entry j = s.entry j := rfl
@[simp] theorem State.raiseOwned_row (p : Port) (j : Slot) : (s.raiseOwned p).row j = s.row j := rfl
@[simp] theorem State.raiseOwned_allocated (p : Port) (j : Slot) : (s.raiseOwned p).allocated j = s.allocated j := rfl
@[simp] theorem State.raiseOwned_inbound (p : Port) (j : Slot) : (s.raiseOwned p).inbound j = s.inbound j := rfl
@[simp] theorem State.raiseOwned_port (p : Port) (q : Port) : (s.raiseOwned p).port q = s.port q := rfl
@[simp] theorem State.raiseOwned_portState (p : Port) (q : Port) : (s.raiseOwned p).portState q = s.portState q := rfl
@[simp] theorem State.raiseOwned_link (p : Port) (q : Port) : (s.raiseOwned p).link q = s.link q := rfl
@[simp] theorem State.raiseOwned_executor (p : Port) (q : Port) : (s.raiseOwned p).executor q = s.executor q := rfl
@[simp] theorem State.raiseOwned_oldestWait (p : Port) (j : Slot) : (s.raiseOwned p).oldestWait j = s.oldestWait j := rfl
@[simp] theorem State.raiseOwned_waitsOn (p : Port) (j : Slot) : (s.raiseOwned p).waitsOn j = s.waitsOn j := rfl
@[simp] theorem State.raiseOwned_hasCycle (p : Port) (x : Requestor) : (s.raiseOwned p).hasCycle x = s.hasCycle x := by cases x <;> rfl
@[simp] theorem State.raiseOwned_isMaintenance (p : Port) (q : Port) : (s.raiseOwned p).isMaintenance q = s.isMaintenance q := rfl

/-! ## lowerOwned -/

@[simp] theorem State.lowerOwned_held (p : Port) : (s.lowerOwned p).held = s.held := rfl
@[simp] theorem State.lowerOwned_device (p : Port) : (s.lowerOwned p).device = s.device := rfl
@[simp] theorem State.lowerOwned_maint (p : Port) : (s.lowerOwned p).maint = s.maint := rfl
@[simp] theorem State.lowerOwned_passPos (p : Port) : (s.lowerOwned p).passPos = s.passPos := rfl
@[simp] theorem State.lowerOwned_entries (p : Port) : (s.lowerOwned p).entries = s.entries := rfl
@[simp] theorem State.lowerOwned_rows (p : Port) : (s.lowerOwned p).rows = s.rows := rfl
@[simp] theorem State.lowerOwned_freeList (p : Port) : (s.lowerOwned p).freeList = s.freeList := rfl
@[simp] theorem State.lowerOwned_clearDue (p : Port) : (s.lowerOwned p).clearDue = s.clearDue := rfl
@[simp] theorem State.lowerOwned_inProgress (p : Port) : (s.lowerOwned p).inProgress = s.inProgress := rfl
@[simp] theorem State.lowerOwned_lastGranted (p : Port) : (s.lowerOwned p).lastGranted = s.lastGranted := rfl
@[simp] theorem State.lowerOwned_execs (p : Port) : (s.lowerOwned p).execs = s.execs := rfl
@[simp] theorem State.lowerOwned_waits (p : Port) : (s.lowerOwned p).waits = s.waits := rfl
@[simp] theorem State.lowerOwned_waitDue (p : Port) : (s.lowerOwned p).waitDue = s.waitDue := rfl
@[simp] theorem State.lowerOwned_serial (p : Port) : (s.lowerOwned p).serial = s.serial := rfl
@[simp] theorem State.lowerOwned_sweeps (p : Port) : (s.lowerOwned p).sweeps = s.sweeps := rfl
@[simp] theorem State.lowerOwned_sweepPos (p : Port) : (s.lowerOwned p).sweepPos = s.sweepPos := rfl
@[simp] theorem State.lowerOwned_sweepVisit (p : Port) : (s.lowerOwned p).sweepVisit = s.sweepVisit := rfl
@[simp] theorem State.lowerOwned_ports (p : Port) : (s.lowerOwned p).ports = s.ports := rfl
@[simp] theorem State.lowerOwned_links (p : Port) : (s.lowerOwned p).links = s.links := rfl
@[simp] theorem State.lowerOwned_freeIndex (p : Port) : (s.lowerOwned p).freeIndex = s.freeIndex := rfl
@[simp] theorem State.lowerOwned_pending (p : Port) : (s.lowerOwned p).pending = s.pending := rfl
@[simp] theorem State.lowerOwned_entry (p : Port) (j : Slot) : (s.lowerOwned p).entry j = s.entry j := rfl
@[simp] theorem State.lowerOwned_row (p : Port) (j : Slot) : (s.lowerOwned p).row j = s.row j := rfl
@[simp] theorem State.lowerOwned_allocated (p : Port) (j : Slot) : (s.lowerOwned p).allocated j = s.allocated j := rfl
@[simp] theorem State.lowerOwned_inbound (p : Port) (j : Slot) : (s.lowerOwned p).inbound j = s.inbound j := rfl
@[simp] theorem State.lowerOwned_port (p : Port) (q : Port) : (s.lowerOwned p).port q = s.port q := rfl
@[simp] theorem State.lowerOwned_portState (p : Port) (q : Port) : (s.lowerOwned p).portState q = s.portState q := rfl
@[simp] theorem State.lowerOwned_link (p : Port) (q : Port) : (s.lowerOwned p).link q = s.link q := rfl
@[simp] theorem State.lowerOwned_executor (p : Port) (q : Port) : (s.lowerOwned p).executor q = s.executor q := rfl
@[simp] theorem State.lowerOwned_oldestWait (p : Port) (j : Slot) : (s.lowerOwned p).oldestWait j = s.oldestWait j := rfl
@[simp] theorem State.lowerOwned_waitsOn (p : Port) (j : Slot) : (s.lowerOwned p).waitsOn j = s.waitsOn j := rfl
@[simp] theorem State.lowerOwned_hasCycle (p : Port) (x : Requestor) : (s.lowerOwned p).hasCycle x = s.hasCycle x := by cases x <;> rfl
@[simp] theorem State.lowerOwned_isMaintenance (p : Port) (q : Port) : (s.lowerOwned p).isMaintenance q = s.isMaintenance q := rfl

/-! ## raiseWatch -/

@[simp] theorem State.raiseWatch_held (p : Port) : (s.raiseWatch p).held = s.held := rfl
@[simp] theorem State.raiseWatch_device (p : Port) : (s.raiseWatch p).device = s.device := rfl
@[simp] theorem State.raiseWatch_maint (p : Port) : (s.raiseWatch p).maint = s.maint := rfl
@[simp] theorem State.raiseWatch_passPos (p : Port) : (s.raiseWatch p).passPos = s.passPos := rfl
@[simp] theorem State.raiseWatch_entries (p : Port) : (s.raiseWatch p).entries = s.entries := rfl
@[simp] theorem State.raiseWatch_rows (p : Port) : (s.raiseWatch p).rows = s.rows := rfl
@[simp] theorem State.raiseWatch_freeList (p : Port) : (s.raiseWatch p).freeList = s.freeList := rfl
@[simp] theorem State.raiseWatch_clearDue (p : Port) : (s.raiseWatch p).clearDue = s.clearDue := rfl
@[simp] theorem State.raiseWatch_inProgress (p : Port) : (s.raiseWatch p).inProgress = s.inProgress := rfl
@[simp] theorem State.raiseWatch_lastGranted (p : Port) : (s.raiseWatch p).lastGranted = s.lastGranted := rfl
@[simp] theorem State.raiseWatch_execs (p : Port) : (s.raiseWatch p).execs = s.execs := rfl
@[simp] theorem State.raiseWatch_waits (p : Port) : (s.raiseWatch p).waits = s.waits := rfl
@[simp] theorem State.raiseWatch_waitDue (p : Port) : (s.raiseWatch p).waitDue = s.waitDue := rfl
@[simp] theorem State.raiseWatch_serial (p : Port) : (s.raiseWatch p).serial = s.serial := rfl
@[simp] theorem State.raiseWatch_sweeps (p : Port) : (s.raiseWatch p).sweeps = s.sweeps := rfl
@[simp] theorem State.raiseWatch_sweepPos (p : Port) : (s.raiseWatch p).sweepPos = s.sweepPos := rfl
@[simp] theorem State.raiseWatch_sweepVisit (p : Port) : (s.raiseWatch p).sweepVisit = s.sweepVisit := rfl
@[simp] theorem State.raiseWatch_ports (p : Port) : (s.raiseWatch p).ports = s.ports := rfl
@[simp] theorem State.raiseWatch_links (p : Port) : (s.raiseWatch p).links = s.links := rfl
@[simp] theorem State.raiseWatch_freeIndex (p : Port) : (s.raiseWatch p).freeIndex = s.freeIndex := rfl
@[simp] theorem State.raiseWatch_pending (p : Port) : (s.raiseWatch p).pending = s.pending := rfl
@[simp] theorem State.raiseWatch_entry (p : Port) (j : Slot) : (s.raiseWatch p).entry j = s.entry j := rfl
@[simp] theorem State.raiseWatch_row (p : Port) (j : Slot) : (s.raiseWatch p).row j = s.row j := rfl
@[simp] theorem State.raiseWatch_allocated (p : Port) (j : Slot) : (s.raiseWatch p).allocated j = s.allocated j := rfl
@[simp] theorem State.raiseWatch_inbound (p : Port) (j : Slot) : (s.raiseWatch p).inbound j = s.inbound j := rfl
@[simp] theorem State.raiseWatch_port (p : Port) (q : Port) : (s.raiseWatch p).port q = s.port q := rfl
@[simp] theorem State.raiseWatch_portState (p : Port) (q : Port) : (s.raiseWatch p).portState q = s.portState q := rfl
@[simp] theorem State.raiseWatch_link (p : Port) (q : Port) : (s.raiseWatch p).link q = s.link q := rfl
@[simp] theorem State.raiseWatch_executor (p : Port) (q : Port) : (s.raiseWatch p).executor q = s.executor q := rfl
@[simp] theorem State.raiseWatch_oldestWait (p : Port) (j : Slot) : (s.raiseWatch p).oldestWait j = s.oldestWait j := rfl
@[simp] theorem State.raiseWatch_waitsOn (p : Port) (j : Slot) : (s.raiseWatch p).waitsOn j = s.waitsOn j := rfl
@[simp] theorem State.raiseWatch_hasCycle (p : Port) (x : Requestor) : (s.raiseWatch p).hasCycle x = s.hasCycle x := by cases x <;> rfl
@[simp] theorem State.raiseWatch_isMaintenance (p : Port) (q : Port) : (s.raiseWatch p).isMaintenance q = s.isMaintenance q := rfl

/-! ## lowerWatch -/

@[simp] theorem State.lowerWatch_held (p : Port) : (s.lowerWatch p).held = s.held := rfl
@[simp] theorem State.lowerWatch_device (p : Port) : (s.lowerWatch p).device = s.device := rfl
@[simp] theorem State.lowerWatch_maint (p : Port) : (s.lowerWatch p).maint = s.maint := rfl
@[simp] theorem State.lowerWatch_passPos (p : Port) : (s.lowerWatch p).passPos = s.passPos := rfl
@[simp] theorem State.lowerWatch_entries (p : Port) : (s.lowerWatch p).entries = s.entries := rfl
@[simp] theorem State.lowerWatch_rows (p : Port) : (s.lowerWatch p).rows = s.rows := rfl
@[simp] theorem State.lowerWatch_freeList (p : Port) : (s.lowerWatch p).freeList = s.freeList := rfl
@[simp] theorem State.lowerWatch_clearDue (p : Port) : (s.lowerWatch p).clearDue = s.clearDue := rfl
@[simp] theorem State.lowerWatch_inProgress (p : Port) : (s.lowerWatch p).inProgress = s.inProgress := rfl
@[simp] theorem State.lowerWatch_lastGranted (p : Port) : (s.lowerWatch p).lastGranted = s.lastGranted := rfl
@[simp] theorem State.lowerWatch_execs (p : Port) : (s.lowerWatch p).execs = s.execs := rfl
@[simp] theorem State.lowerWatch_waits (p : Port) : (s.lowerWatch p).waits = s.waits := rfl
@[simp] theorem State.lowerWatch_waitDue (p : Port) : (s.lowerWatch p).waitDue = s.waitDue := rfl
@[simp] theorem State.lowerWatch_serial (p : Port) : (s.lowerWatch p).serial = s.serial := rfl
@[simp] theorem State.lowerWatch_sweeps (p : Port) : (s.lowerWatch p).sweeps = s.sweeps := rfl
@[simp] theorem State.lowerWatch_sweepPos (p : Port) : (s.lowerWatch p).sweepPos = s.sweepPos := rfl
@[simp] theorem State.lowerWatch_sweepVisit (p : Port) : (s.lowerWatch p).sweepVisit = s.sweepVisit := rfl
@[simp] theorem State.lowerWatch_ports (p : Port) : (s.lowerWatch p).ports = s.ports := rfl
@[simp] theorem State.lowerWatch_links (p : Port) : (s.lowerWatch p).links = s.links := rfl
@[simp] theorem State.lowerWatch_freeIndex (p : Port) : (s.lowerWatch p).freeIndex = s.freeIndex := rfl
@[simp] theorem State.lowerWatch_pending (p : Port) : (s.lowerWatch p).pending = s.pending := rfl
@[simp] theorem State.lowerWatch_entry (p : Port) (j : Slot) : (s.lowerWatch p).entry j = s.entry j := rfl
@[simp] theorem State.lowerWatch_row (p : Port) (j : Slot) : (s.lowerWatch p).row j = s.row j := rfl
@[simp] theorem State.lowerWatch_allocated (p : Port) (j : Slot) : (s.lowerWatch p).allocated j = s.allocated j := rfl
@[simp] theorem State.lowerWatch_inbound (p : Port) (j : Slot) : (s.lowerWatch p).inbound j = s.inbound j := rfl
@[simp] theorem State.lowerWatch_port (p : Port) (q : Port) : (s.lowerWatch p).port q = s.port q := rfl
@[simp] theorem State.lowerWatch_portState (p : Port) (q : Port) : (s.lowerWatch p).portState q = s.portState q := rfl
@[simp] theorem State.lowerWatch_link (p : Port) (q : Port) : (s.lowerWatch p).link q = s.link q := rfl
@[simp] theorem State.lowerWatch_executor (p : Port) (q : Port) : (s.lowerWatch p).executor q = s.executor q := rfl
@[simp] theorem State.lowerWatch_oldestWait (p : Port) (j : Slot) : (s.lowerWatch p).oldestWait j = s.oldestWait j := rfl
@[simp] theorem State.lowerWatch_waitsOn (p : Port) (j : Slot) : (s.lowerWatch p).waitsOn j = s.waitsOn j := rfl
@[simp] theorem State.lowerWatch_hasCycle (p : Port) (x : Requestor) : (s.lowerWatch p).hasCycle x = s.hasCycle x := by cases x <;> rfl
@[simp] theorem State.lowerWatch_isMaintenance (p : Port) (q : Port) : (s.lowerWatch p).isMaintenance q = s.isMaintenance q := rfl

/-! ## lowerWatchers -/

@[simp] theorem State.lowerWatchers_held (w : PerPort Bool) : (s.lowerWatchers w).held = s.held := rfl
@[simp] theorem State.lowerWatchers_device (w : PerPort Bool) : (s.lowerWatchers w).device = s.device := rfl
@[simp] theorem State.lowerWatchers_maint (w : PerPort Bool) : (s.lowerWatchers w).maint = s.maint := rfl
@[simp] theorem State.lowerWatchers_passPos (w : PerPort Bool) : (s.lowerWatchers w).passPos = s.passPos := rfl
@[simp] theorem State.lowerWatchers_entries (w : PerPort Bool) : (s.lowerWatchers w).entries = s.entries := rfl
@[simp] theorem State.lowerWatchers_rows (w : PerPort Bool) : (s.lowerWatchers w).rows = s.rows := rfl
@[simp] theorem State.lowerWatchers_freeList (w : PerPort Bool) : (s.lowerWatchers w).freeList = s.freeList := rfl
@[simp] theorem State.lowerWatchers_clearDue (w : PerPort Bool) : (s.lowerWatchers w).clearDue = s.clearDue := rfl
@[simp] theorem State.lowerWatchers_inProgress (w : PerPort Bool) : (s.lowerWatchers w).inProgress = s.inProgress := rfl
@[simp] theorem State.lowerWatchers_lastGranted (w : PerPort Bool) : (s.lowerWatchers w).lastGranted = s.lastGranted := rfl
@[simp] theorem State.lowerWatchers_execs (w : PerPort Bool) : (s.lowerWatchers w).execs = s.execs := rfl
@[simp] theorem State.lowerWatchers_waits (w : PerPort Bool) : (s.lowerWatchers w).waits = s.waits := rfl
@[simp] theorem State.lowerWatchers_waitDue (w : PerPort Bool) : (s.lowerWatchers w).waitDue = s.waitDue := rfl
@[simp] theorem State.lowerWatchers_serial (w : PerPort Bool) : (s.lowerWatchers w).serial = s.serial := rfl
@[simp] theorem State.lowerWatchers_sweeps (w : PerPort Bool) : (s.lowerWatchers w).sweeps = s.sweeps := rfl
@[simp] theorem State.lowerWatchers_sweepPos (w : PerPort Bool) : (s.lowerWatchers w).sweepPos = s.sweepPos := rfl
@[simp] theorem State.lowerWatchers_sweepVisit (w : PerPort Bool) : (s.lowerWatchers w).sweepVisit = s.sweepVisit := rfl
@[simp] theorem State.lowerWatchers_ports (w : PerPort Bool) : (s.lowerWatchers w).ports = s.ports := rfl
@[simp] theorem State.lowerWatchers_links (w : PerPort Bool) : (s.lowerWatchers w).links = s.links := rfl
@[simp] theorem State.lowerWatchers_freeIndex (w : PerPort Bool) : (s.lowerWatchers w).freeIndex = s.freeIndex := rfl
@[simp] theorem State.lowerWatchers_pending (w : PerPort Bool) : (s.lowerWatchers w).pending = s.pending := rfl
@[simp] theorem State.lowerWatchers_entry (w : PerPort Bool) (j : Slot) : (s.lowerWatchers w).entry j = s.entry j := rfl
@[simp] theorem State.lowerWatchers_row (w : PerPort Bool) (j : Slot) : (s.lowerWatchers w).row j = s.row j := rfl
@[simp] theorem State.lowerWatchers_allocated (w : PerPort Bool) (j : Slot) : (s.lowerWatchers w).allocated j = s.allocated j := rfl
@[simp] theorem State.lowerWatchers_inbound (w : PerPort Bool) (j : Slot) : (s.lowerWatchers w).inbound j = s.inbound j := rfl
@[simp] theorem State.lowerWatchers_port (w : PerPort Bool) (q : Port) : (s.lowerWatchers w).port q = s.port q := rfl
@[simp] theorem State.lowerWatchers_portState (w : PerPort Bool) (q : Port) : (s.lowerWatchers w).portState q = s.portState q := rfl
@[simp] theorem State.lowerWatchers_link (w : PerPort Bool) (q : Port) : (s.lowerWatchers w).link q = s.link q := rfl
@[simp] theorem State.lowerWatchers_executor (w : PerPort Bool) (q : Port) : (s.lowerWatchers w).executor q = s.executor q := rfl
@[simp] theorem State.lowerWatchers_oldestWait (w : PerPort Bool) (j : Slot) : (s.lowerWatchers w).oldestWait j = s.oldestWait j := rfl
@[simp] theorem State.lowerWatchers_waitsOn (w : PerPort Bool) (j : Slot) : (s.lowerWatchers w).waitsOn j = s.waitsOn j := rfl
@[simp] theorem State.lowerWatchers_hasCycle (w : PerPort Bool) (x : Requestor) : (s.lowerWatchers w).hasCycle x = s.hasCycle x := by cases x <;> rfl
@[simp] theorem State.lowerWatchers_isMaintenance (w : PerPort Bool) (q : Port) : (s.lowerWatchers w).isMaintenance q = s.isMaintenance q := rfl

/-! ## setPort -/

@[simp] theorem State.setPort_held (n : Port) (c : PortControl) : (s.setPort n c).held = s.held := rfl
@[simp] theorem State.setPort_device (n : Port) (c : PortControl) : (s.setPort n c).device = s.device := rfl
@[simp] theorem State.setPort_maint (n : Port) (c : PortControl) : (s.setPort n c).maint = s.maint := rfl
@[simp] theorem State.setPort_passPos (n : Port) (c : PortControl) : (s.setPort n c).passPos = s.passPos := rfl
@[simp] theorem State.setPort_entries (n : Port) (c : PortControl) : (s.setPort n c).entries = s.entries := rfl
@[simp] theorem State.setPort_rows (n : Port) (c : PortControl) : (s.setPort n c).rows = s.rows := rfl
@[simp] theorem State.setPort_tallies (n : Port) (c : PortControl) : (s.setPort n c).tallies = s.tallies := rfl
@[simp] theorem State.setPort_freeList (n : Port) (c : PortControl) : (s.setPort n c).freeList = s.freeList := rfl
@[simp] theorem State.setPort_clearDue (n : Port) (c : PortControl) : (s.setPort n c).clearDue = s.clearDue := rfl
@[simp] theorem State.setPort_inProgress (n : Port) (c : PortControl) : (s.setPort n c).inProgress = s.inProgress := rfl
@[simp] theorem State.setPort_lastGranted (n : Port) (c : PortControl) : (s.setPort n c).lastGranted = s.lastGranted := rfl
@[simp] theorem State.setPort_execs (n : Port) (c : PortControl) : (s.setPort n c).execs = s.execs := rfl
@[simp] theorem State.setPort_waits (n : Port) (c : PortControl) : (s.setPort n c).waits = s.waits := rfl
@[simp] theorem State.setPort_waitDue (n : Port) (c : PortControl) : (s.setPort n c).waitDue = s.waitDue := rfl
@[simp] theorem State.setPort_serial (n : Port) (c : PortControl) : (s.setPort n c).serial = s.serial := rfl
@[simp] theorem State.setPort_sweeps (n : Port) (c : PortControl) : (s.setPort n c).sweeps = s.sweeps := rfl
@[simp] theorem State.setPort_sweepPos (n : Port) (c : PortControl) : (s.setPort n c).sweepPos = s.sweepPos := rfl
@[simp] theorem State.setPort_sweepVisit (n : Port) (c : PortControl) : (s.setPort n c).sweepVisit = s.sweepVisit := rfl
@[simp] theorem State.setPort_links (n : Port) (c : PortControl) : (s.setPort n c).links = s.links := rfl
@[simp] theorem State.setPort_freeIndex (n : Port) (c : PortControl) : (s.setPort n c).freeIndex = s.freeIndex := rfl
@[simp] theorem State.setPort_pending (n : Port) (c : PortControl) : (s.setPort n c).pending = s.pending := rfl
@[simp] theorem State.setPort_entry (n : Port) (c : PortControl) (j : Slot) : (s.setPort n c).entry j = s.entry j := rfl
@[simp] theorem State.setPort_row (n : Port) (c : PortControl) (j : Slot) : (s.setPort n c).row j = s.row j := rfl
@[simp] theorem State.setPort_allocated (n : Port) (c : PortControl) (j : Slot) : (s.setPort n c).allocated j = s.allocated j := rfl
@[simp] theorem State.setPort_inbound (n : Port) (c : PortControl) (j : Slot) : (s.setPort n c).inbound j = s.inbound j := rfl
@[simp] theorem State.setPort_link (n : Port) (c : PortControl) (q : Port) : (s.setPort n c).link q = s.link q := rfl
@[simp] theorem State.setPort_executor (n : Port) (c : PortControl) (q : Port) : (s.setPort n c).executor q = s.executor q := rfl
@[simp] theorem State.setPort_oldestWait (n : Port) (c : PortControl) (j : Slot) : (s.setPort n c).oldestWait j = s.oldestWait j := rfl
@[simp] theorem State.setPort_waitsOn (n : Port) (c : PortControl) (j : Slot) : (s.setPort n c).waitsOn j = s.waitsOn j := rfl
@[simp] theorem State.setPort_hasCycle (n : Port) (c : PortControl) (x : Requestor) : (s.setPort n c).hasCycle x = s.hasCycle x := by cases x <;> rfl
@[simp] theorem State.setPort_isMaintenance (n : Port) (c : PortControl) (q : Port) : (s.setPort n c).isMaintenance q = s.isMaintenance q := rfl

/-! ## setLink -/

@[simp] theorem State.setLink_held (n : Port) (l : PortLink) : (s.setLink n l).held = s.held := rfl
@[simp] theorem State.setLink_device (n : Port) (l : PortLink) : (s.setLink n l).device = s.device := rfl
@[simp] theorem State.setLink_maint (n : Port) (l : PortLink) : (s.setLink n l).maint = s.maint := rfl
@[simp] theorem State.setLink_passPos (n : Port) (l : PortLink) : (s.setLink n l).passPos = s.passPos := rfl
@[simp] theorem State.setLink_entries (n : Port) (l : PortLink) : (s.setLink n l).entries = s.entries := rfl
@[simp] theorem State.setLink_rows (n : Port) (l : PortLink) : (s.setLink n l).rows = s.rows := rfl
@[simp] theorem State.setLink_tallies (n : Port) (l : PortLink) : (s.setLink n l).tallies = s.tallies := rfl
@[simp] theorem State.setLink_freeList (n : Port) (l : PortLink) : (s.setLink n l).freeList = s.freeList := rfl
@[simp] theorem State.setLink_clearDue (n : Port) (l : PortLink) : (s.setLink n l).clearDue = s.clearDue := rfl
@[simp] theorem State.setLink_inProgress (n : Port) (l : PortLink) : (s.setLink n l).inProgress = s.inProgress := rfl
@[simp] theorem State.setLink_lastGranted (n : Port) (l : PortLink) : (s.setLink n l).lastGranted = s.lastGranted := rfl
@[simp] theorem State.setLink_execs (n : Port) (l : PortLink) : (s.setLink n l).execs = s.execs := rfl
@[simp] theorem State.setLink_waits (n : Port) (l : PortLink) : (s.setLink n l).waits = s.waits := rfl
@[simp] theorem State.setLink_waitDue (n : Port) (l : PortLink) : (s.setLink n l).waitDue = s.waitDue := rfl
@[simp] theorem State.setLink_serial (n : Port) (l : PortLink) : (s.setLink n l).serial = s.serial := rfl
@[simp] theorem State.setLink_sweeps (n : Port) (l : PortLink) : (s.setLink n l).sweeps = s.sweeps := rfl
@[simp] theorem State.setLink_sweepPos (n : Port) (l : PortLink) : (s.setLink n l).sweepPos = s.sweepPos := rfl
@[simp] theorem State.setLink_sweepVisit (n : Port) (l : PortLink) : (s.setLink n l).sweepVisit = s.sweepVisit := rfl
@[simp] theorem State.setLink_ports (n : Port) (l : PortLink) : (s.setLink n l).ports = s.ports := rfl
@[simp] theorem State.setLink_freeIndex (n : Port) (l : PortLink) : (s.setLink n l).freeIndex = s.freeIndex := rfl
@[simp] theorem State.setLink_pending (n : Port) (l : PortLink) : (s.setLink n l).pending = s.pending := rfl
@[simp] theorem State.setLink_entry (n : Port) (l : PortLink) (j : Slot) : (s.setLink n l).entry j = s.entry j := rfl
@[simp] theorem State.setLink_row (n : Port) (l : PortLink) (j : Slot) : (s.setLink n l).row j = s.row j := rfl
@[simp] theorem State.setLink_allocated (n : Port) (l : PortLink) (j : Slot) : (s.setLink n l).allocated j = s.allocated j := rfl
@[simp] theorem State.setLink_inbound (n : Port) (l : PortLink) (j : Slot) : (s.setLink n l).inbound j = s.inbound j := rfl
@[simp] theorem State.setLink_port (n : Port) (l : PortLink) (q : Port) : (s.setLink n l).port q = s.port q := rfl
@[simp] theorem State.setLink_portState (n : Port) (l : PortLink) (q : Port) : (s.setLink n l).portState q = s.portState q := rfl
@[simp] theorem State.setLink_executor (n : Port) (l : PortLink) (q : Port) : (s.setLink n l).executor q = s.executor q := rfl
@[simp] theorem State.setLink_oldestWait (n : Port) (l : PortLink) (j : Slot) : (s.setLink n l).oldestWait j = s.oldestWait j := rfl
@[simp] theorem State.setLink_waitsOn (n : Port) (l : PortLink) (j : Slot) : (s.setLink n l).waitsOn j = s.waitsOn j := rfl
@[simp] theorem State.setLink_hasCycle (n : Port) (l : PortLink) (x : Requestor) : (s.setLink n l).hasCycle x = s.hasCycle x := by cases x <;> rfl
@[simp] theorem State.setLink_isMaintenance (n : Port) (l : PortLink) (q : Port) : (s.setLink n l).isMaintenance q = s.isMaintenance q := rfl

/-! ## setExecutor -/

@[simp] theorem State.setExecutor_held (n : Port) (e : Executor) : (s.setExecutor n e).held = s.held := rfl
@[simp] theorem State.setExecutor_device (n : Port) (e : Executor) : (s.setExecutor n e).device = s.device := rfl
@[simp] theorem State.setExecutor_maint (n : Port) (e : Executor) : (s.setExecutor n e).maint = s.maint := rfl
@[simp] theorem State.setExecutor_passPos (n : Port) (e : Executor) : (s.setExecutor n e).passPos = s.passPos := rfl
@[simp] theorem State.setExecutor_entries (n : Port) (e : Executor) : (s.setExecutor n e).entries = s.entries := rfl
@[simp] theorem State.setExecutor_rows (n : Port) (e : Executor) : (s.setExecutor n e).rows = s.rows := rfl
@[simp] theorem State.setExecutor_tallies (n : Port) (e : Executor) : (s.setExecutor n e).tallies = s.tallies := rfl
@[simp] theorem State.setExecutor_freeList (n : Port) (e : Executor) : (s.setExecutor n e).freeList = s.freeList := rfl
@[simp] theorem State.setExecutor_clearDue (n : Port) (e : Executor) : (s.setExecutor n e).clearDue = s.clearDue := rfl
@[simp] theorem State.setExecutor_inProgress (n : Port) (e : Executor) : (s.setExecutor n e).inProgress = s.inProgress := rfl
@[simp] theorem State.setExecutor_lastGranted (n : Port) (e : Executor) : (s.setExecutor n e).lastGranted = s.lastGranted := rfl
@[simp] theorem State.setExecutor_waits (n : Port) (e : Executor) : (s.setExecutor n e).waits = s.waits := rfl
@[simp] theorem State.setExecutor_waitDue (n : Port) (e : Executor) : (s.setExecutor n e).waitDue = s.waitDue := rfl
@[simp] theorem State.setExecutor_serial (n : Port) (e : Executor) : (s.setExecutor n e).serial = s.serial := rfl
@[simp] theorem State.setExecutor_sweeps (n : Port) (e : Executor) : (s.setExecutor n e).sweeps = s.sweeps := rfl
@[simp] theorem State.setExecutor_sweepPos (n : Port) (e : Executor) : (s.setExecutor n e).sweepPos = s.sweepPos := rfl
@[simp] theorem State.setExecutor_sweepVisit (n : Port) (e : Executor) : (s.setExecutor n e).sweepVisit = s.sweepVisit := rfl
@[simp] theorem State.setExecutor_ports (n : Port) (e : Executor) : (s.setExecutor n e).ports = s.ports := rfl
@[simp] theorem State.setExecutor_links (n : Port) (e : Executor) : (s.setExecutor n e).links = s.links := rfl
@[simp] theorem State.setExecutor_freeIndex (n : Port) (e : Executor) : (s.setExecutor n e).freeIndex = s.freeIndex := rfl
@[simp] theorem State.setExecutor_pending (n : Port) (e : Executor) : (s.setExecutor n e).pending = s.pending := rfl
@[simp] theorem State.setExecutor_entry (n : Port) (e : Executor) (j : Slot) : (s.setExecutor n e).entry j = s.entry j := rfl
@[simp] theorem State.setExecutor_row (n : Port) (e : Executor) (j : Slot) : (s.setExecutor n e).row j = s.row j := rfl
@[simp] theorem State.setExecutor_allocated (n : Port) (e : Executor) (j : Slot) : (s.setExecutor n e).allocated j = s.allocated j := rfl
@[simp] theorem State.setExecutor_inbound (n : Port) (e : Executor) (j : Slot) : (s.setExecutor n e).inbound j = s.inbound j := rfl
@[simp] theorem State.setExecutor_port (n : Port) (e : Executor) (q : Port) : (s.setExecutor n e).port q = s.port q := rfl
@[simp] theorem State.setExecutor_portState (n : Port) (e : Executor) (q : Port) : (s.setExecutor n e).portState q = s.portState q := rfl
@[simp] theorem State.setExecutor_link (n : Port) (e : Executor) (q : Port) : (s.setExecutor n e).link q = s.link q := rfl
@[simp] theorem State.setExecutor_oldestWait (n : Port) (e : Executor) (j : Slot) : (s.setExecutor n e).oldestWait j = s.oldestWait j := rfl
@[simp] theorem State.setExecutor_waitsOn (n : Port) (e : Executor) (j : Slot) : (s.setExecutor n e).waitsOn j = s.waitsOn j := rfl
@[simp] theorem State.setExecutor_isMaintenance (n : Port) (e : Executor) (q : Port) : (s.setExecutor n e).isMaintenance q = s.isMaintenance q := rfl

/-! ## postReply -/

@[simp] theorem State.postReply_held (n : Port) (r : Reply) : (s.postReply n r).held = s.held := rfl
@[simp] theorem State.postReply_device (n : Port) (r : Reply) : (s.postReply n r).device = s.device := rfl
@[simp] theorem State.postReply_maint (n : Port) (r : Reply) : (s.postReply n r).maint = s.maint := rfl
@[simp] theorem State.postReply_passPos (n : Port) (r : Reply) : (s.postReply n r).passPos = s.passPos := rfl
@[simp] theorem State.postReply_entries (n : Port) (r : Reply) : (s.postReply n r).entries = s.entries := rfl
@[simp] theorem State.postReply_rows (n : Port) (r : Reply) : (s.postReply n r).rows = s.rows := rfl
@[simp] theorem State.postReply_tallies (n : Port) (r : Reply) : (s.postReply n r).tallies = s.tallies := rfl
@[simp] theorem State.postReply_freeList (n : Port) (r : Reply) : (s.postReply n r).freeList = s.freeList := rfl
@[simp] theorem State.postReply_clearDue (n : Port) (r : Reply) : (s.postReply n r).clearDue = s.clearDue := rfl
@[simp] theorem State.postReply_inProgress (n : Port) (r : Reply) : (s.postReply n r).inProgress = s.inProgress := rfl
@[simp] theorem State.postReply_lastGranted (n : Port) (r : Reply) : (s.postReply n r).lastGranted = s.lastGranted := rfl
@[simp] theorem State.postReply_execs (n : Port) (r : Reply) : (s.postReply n r).execs = s.execs := rfl
@[simp] theorem State.postReply_waits (n : Port) (r : Reply) : (s.postReply n r).waits = s.waits := rfl
@[simp] theorem State.postReply_waitDue (n : Port) (r : Reply) : (s.postReply n r).waitDue = s.waitDue := rfl
@[simp] theorem State.postReply_serial (n : Port) (r : Reply) : (s.postReply n r).serial = s.serial := rfl
@[simp] theorem State.postReply_sweeps (n : Port) (r : Reply) : (s.postReply n r).sweeps = s.sweeps := rfl
@[simp] theorem State.postReply_sweepPos (n : Port) (r : Reply) : (s.postReply n r).sweepPos = s.sweepPos := rfl
@[simp] theorem State.postReply_sweepVisit (n : Port) (r : Reply) : (s.postReply n r).sweepVisit = s.sweepVisit := rfl
@[simp] theorem State.postReply_links (n : Port) (r : Reply) : (s.postReply n r).links = s.links := rfl
@[simp] theorem State.postReply_freeIndex (n : Port) (r : Reply) : (s.postReply n r).freeIndex = s.freeIndex := rfl
@[simp] theorem State.postReply_pending (n : Port) (r : Reply) : (s.postReply n r).pending = s.pending := rfl
@[simp] theorem State.postReply_entry (n : Port) (r : Reply) (j : Slot) : (s.postReply n r).entry j = s.entry j := rfl
@[simp] theorem State.postReply_row (n : Port) (r : Reply) (j : Slot) : (s.postReply n r).row j = s.row j := rfl
@[simp] theorem State.postReply_allocated (n : Port) (r : Reply) (j : Slot) : (s.postReply n r).allocated j = s.allocated j := rfl
@[simp] theorem State.postReply_inbound (n : Port) (r : Reply) (j : Slot) : (s.postReply n r).inbound j = s.inbound j := rfl
@[simp] theorem State.postReply_link (n : Port) (r : Reply) (q : Port) : (s.postReply n r).link q = s.link q := rfl
@[simp] theorem State.postReply_executor (n : Port) (r : Reply) (q : Port) : (s.postReply n r).executor q = s.executor q := rfl
@[simp] theorem State.postReply_oldestWait (n : Port) (r : Reply) (j : Slot) : (s.postReply n r).oldestWait j = s.oldestWait j := rfl
@[simp] theorem State.postReply_waitsOn (n : Port) (r : Reply) (j : Slot) : (s.postReply n r).waitsOn j = s.waitsOn j := rfl
@[simp] theorem State.postReply_hasCycle (n : Port) (r : Reply) (x : Requestor) : (s.postReply n r).hasCycle x = s.hasCycle x := by cases x <;> rfl
@[simp] theorem State.postReply_isMaintenance (n : Port) (r : Reply) (q : Port) : (s.postReply n r).isMaintenance q = s.isMaintenance q := rfl

/-! ## postReplies -/

@[simp] theorem State.postReplies_held (f : Port → List Reply) : (s.postReplies f).held = s.held := rfl
@[simp] theorem State.postReplies_device (f : Port → List Reply) : (s.postReplies f).device = s.device := rfl
@[simp] theorem State.postReplies_maint (f : Port → List Reply) : (s.postReplies f).maint = s.maint := rfl
@[simp] theorem State.postReplies_passPos (f : Port → List Reply) : (s.postReplies f).passPos = s.passPos := rfl
@[simp] theorem State.postReplies_entries (f : Port → List Reply) : (s.postReplies f).entries = s.entries := rfl
@[simp] theorem State.postReplies_rows (f : Port → List Reply) : (s.postReplies f).rows = s.rows := rfl
@[simp] theorem State.postReplies_tallies (f : Port → List Reply) : (s.postReplies f).tallies = s.tallies := rfl
@[simp] theorem State.postReplies_freeList (f : Port → List Reply) : (s.postReplies f).freeList = s.freeList := rfl
@[simp] theorem State.postReplies_clearDue (f : Port → List Reply) : (s.postReplies f).clearDue = s.clearDue := rfl
@[simp] theorem State.postReplies_inProgress (f : Port → List Reply) : (s.postReplies f).inProgress = s.inProgress := rfl
@[simp] theorem State.postReplies_lastGranted (f : Port → List Reply) : (s.postReplies f).lastGranted = s.lastGranted := rfl
@[simp] theorem State.postReplies_execs (f : Port → List Reply) : (s.postReplies f).execs = s.execs := rfl
@[simp] theorem State.postReplies_waits (f : Port → List Reply) : (s.postReplies f).waits = s.waits := rfl
@[simp] theorem State.postReplies_waitDue (f : Port → List Reply) : (s.postReplies f).waitDue = s.waitDue := rfl
@[simp] theorem State.postReplies_serial (f : Port → List Reply) : (s.postReplies f).serial = s.serial := rfl
@[simp] theorem State.postReplies_sweeps (f : Port → List Reply) : (s.postReplies f).sweeps = s.sweeps := rfl
@[simp] theorem State.postReplies_sweepPos (f : Port → List Reply) : (s.postReplies f).sweepPos = s.sweepPos := rfl
@[simp] theorem State.postReplies_sweepVisit (f : Port → List Reply) : (s.postReplies f).sweepVisit = s.sweepVisit := rfl
@[simp] theorem State.postReplies_links (f : Port → List Reply) : (s.postReplies f).links = s.links := rfl
@[simp] theorem State.postReplies_freeIndex (f : Port → List Reply) : (s.postReplies f).freeIndex = s.freeIndex := rfl
@[simp] theorem State.postReplies_pending (f : Port → List Reply) : (s.postReplies f).pending = s.pending := rfl
@[simp] theorem State.postReplies_entry (f : Port → List Reply) (j : Slot) : (s.postReplies f).entry j = s.entry j := rfl
@[simp] theorem State.postReplies_row (f : Port → List Reply) (j : Slot) : (s.postReplies f).row j = s.row j := rfl
@[simp] theorem State.postReplies_allocated (f : Port → List Reply) (j : Slot) : (s.postReplies f).allocated j = s.allocated j := rfl
@[simp] theorem State.postReplies_inbound (f : Port → List Reply) (j : Slot) : (s.postReplies f).inbound j = s.inbound j := rfl
@[simp] theorem State.postReplies_link (f : Port → List Reply) (q : Port) : (s.postReplies f).link q = s.link q := rfl
@[simp] theorem State.postReplies_executor (f : Port → List Reply) (q : Port) : (s.postReplies f).executor q = s.executor q := rfl
@[simp] theorem State.postReplies_oldestWait (f : Port → List Reply) (j : Slot) : (s.postReplies f).oldestWait j = s.oldestWait j := rfl
@[simp] theorem State.postReplies_waitsOn (f : Port → List Reply) (j : Slot) : (s.postReplies f).waitsOn j = s.waitsOn j := rfl
@[simp] theorem State.postReplies_hasCycle (f : Port → List Reply) (x : Requestor) : (s.postReplies f).hasCycle x = s.hasCycle x := by cases x <;> rfl
@[simp] theorem State.postReplies_isMaintenance (f : Port → List Reply) (q : Port) : (s.postReplies f).isMaintenance q = s.isMaintenance q := rfl

/-! ## postEvent -/

@[simp] theorem State.postEvent_held (f : Port → Bool) (e : Event) : (s.postEvent f e).held = s.held := rfl
@[simp] theorem State.postEvent_device (f : Port → Bool) (e : Event) : (s.postEvent f e).device = s.device := rfl
@[simp] theorem State.postEvent_maint (f : Port → Bool) (e : Event) : (s.postEvent f e).maint = s.maint := rfl
@[simp] theorem State.postEvent_passPos (f : Port → Bool) (e : Event) : (s.postEvent f e).passPos = s.passPos := rfl
@[simp] theorem State.postEvent_entries (f : Port → Bool) (e : Event) : (s.postEvent f e).entries = s.entries := rfl
@[simp] theorem State.postEvent_rows (f : Port → Bool) (e : Event) : (s.postEvent f e).rows = s.rows := rfl
@[simp] theorem State.postEvent_tallies (f : Port → Bool) (e : Event) : (s.postEvent f e).tallies = s.tallies := rfl
@[simp] theorem State.postEvent_freeList (f : Port → Bool) (e : Event) : (s.postEvent f e).freeList = s.freeList := rfl
@[simp] theorem State.postEvent_clearDue (f : Port → Bool) (e : Event) : (s.postEvent f e).clearDue = s.clearDue := rfl
@[simp] theorem State.postEvent_inProgress (f : Port → Bool) (e : Event) : (s.postEvent f e).inProgress = s.inProgress := rfl
@[simp] theorem State.postEvent_lastGranted (f : Port → Bool) (e : Event) : (s.postEvent f e).lastGranted = s.lastGranted := rfl
@[simp] theorem State.postEvent_execs (f : Port → Bool) (e : Event) : (s.postEvent f e).execs = s.execs := rfl
@[simp] theorem State.postEvent_waits (f : Port → Bool) (e : Event) : (s.postEvent f e).waits = s.waits := rfl
@[simp] theorem State.postEvent_waitDue (f : Port → Bool) (e : Event) : (s.postEvent f e).waitDue = s.waitDue := rfl
@[simp] theorem State.postEvent_serial (f : Port → Bool) (e : Event) : (s.postEvent f e).serial = s.serial := rfl
@[simp] theorem State.postEvent_sweeps (f : Port → Bool) (e : Event) : (s.postEvent f e).sweeps = s.sweeps := rfl
@[simp] theorem State.postEvent_sweepPos (f : Port → Bool) (e : Event) : (s.postEvent f e).sweepPos = s.sweepPos := rfl
@[simp] theorem State.postEvent_sweepVisit (f : Port → Bool) (e : Event) : (s.postEvent f e).sweepVisit = s.sweepVisit := rfl
@[simp] theorem State.postEvent_links (f : Port → Bool) (e : Event) : (s.postEvent f e).links = s.links := rfl
@[simp] theorem State.postEvent_freeIndex (f : Port → Bool) (e : Event) : (s.postEvent f e).freeIndex = s.freeIndex := rfl
@[simp] theorem State.postEvent_pending (f : Port → Bool) (e : Event) : (s.postEvent f e).pending = s.pending := rfl
@[simp] theorem State.postEvent_entry (f : Port → Bool) (e : Event) (j : Slot) : (s.postEvent f e).entry j = s.entry j := rfl
@[simp] theorem State.postEvent_row (f : Port → Bool) (e : Event) (j : Slot) : (s.postEvent f e).row j = s.row j := rfl
@[simp] theorem State.postEvent_allocated (f : Port → Bool) (e : Event) (j : Slot) : (s.postEvent f e).allocated j = s.allocated j := rfl
@[simp] theorem State.postEvent_inbound (f : Port → Bool) (e : Event) (j : Slot) : (s.postEvent f e).inbound j = s.inbound j := rfl
@[simp] theorem State.postEvent_link (f : Port → Bool) (e : Event) (q : Port) : (s.postEvent f e).link q = s.link q := rfl
@[simp] theorem State.postEvent_executor (f : Port → Bool) (e : Event) (q : Port) : (s.postEvent f e).executor q = s.executor q := rfl
@[simp] theorem State.postEvent_oldestWait (f : Port → Bool) (e : Event) (j : Slot) : (s.postEvent f e).oldestWait j = s.oldestWait j := rfl
@[simp] theorem State.postEvent_waitsOn (f : Port → Bool) (e : Event) (j : Slot) : (s.postEvent f e).waitsOn j = s.waitsOn j := rfl
@[simp] theorem State.postEvent_hasCycle (f : Port → Bool) (e : Event) (x : Requestor) : (s.postEvent f e).hasCycle x = s.hasCycle x := by cases x <;> rfl
@[simp] theorem State.postEvent_isMaintenance (f : Port → Bool) (e : Event) (q : Port) : (s.postEvent f e).isMaintenance q = s.isMaintenance q := rfl

/-! ## removeOldestWait -/

@[simp] theorem State.removeOldestWait_held (k : Slot) : (s.removeOldestWait k).held = s.held := rfl
@[simp] theorem State.removeOldestWait_device (k : Slot) : (s.removeOldestWait k).device = s.device := rfl
@[simp] theorem State.removeOldestWait_maint (k : Slot) : (s.removeOldestWait k).maint = s.maint := rfl
@[simp] theorem State.removeOldestWait_passPos (k : Slot) : (s.removeOldestWait k).passPos = s.passPos := rfl
@[simp] theorem State.removeOldestWait_entries (k : Slot) : (s.removeOldestWait k).entries = s.entries := rfl
@[simp] theorem State.removeOldestWait_rows (k : Slot) : (s.removeOldestWait k).rows = s.rows := rfl
@[simp] theorem State.removeOldestWait_tallies (k : Slot) : (s.removeOldestWait k).tallies = s.tallies := rfl
@[simp] theorem State.removeOldestWait_freeList (k : Slot) : (s.removeOldestWait k).freeList = s.freeList := rfl
@[simp] theorem State.removeOldestWait_clearDue (k : Slot) : (s.removeOldestWait k).clearDue = s.clearDue := rfl
@[simp] theorem State.removeOldestWait_inProgress (k : Slot) : (s.removeOldestWait k).inProgress = s.inProgress := rfl
@[simp] theorem State.removeOldestWait_lastGranted (k : Slot) : (s.removeOldestWait k).lastGranted = s.lastGranted := rfl
@[simp] theorem State.removeOldestWait_execs (k : Slot) : (s.removeOldestWait k).execs = s.execs := rfl
@[simp] theorem State.removeOldestWait_waitDue (k : Slot) : (s.removeOldestWait k).waitDue = s.waitDue := rfl
@[simp] theorem State.removeOldestWait_serial (k : Slot) : (s.removeOldestWait k).serial = s.serial := rfl
@[simp] theorem State.removeOldestWait_sweeps (k : Slot) : (s.removeOldestWait k).sweeps = s.sweeps := rfl
@[simp] theorem State.removeOldestWait_sweepPos (k : Slot) : (s.removeOldestWait k).sweepPos = s.sweepPos := rfl
@[simp] theorem State.removeOldestWait_sweepVisit (k : Slot) : (s.removeOldestWait k).sweepVisit = s.sweepVisit := rfl
@[simp] theorem State.removeOldestWait_ports (k : Slot) : (s.removeOldestWait k).ports = s.ports := rfl
@[simp] theorem State.removeOldestWait_links (k : Slot) : (s.removeOldestWait k).links = s.links := rfl
@[simp] theorem State.removeOldestWait_freeIndex (k : Slot) : (s.removeOldestWait k).freeIndex = s.freeIndex := rfl
@[simp] theorem State.removeOldestWait_pending (k : Slot) : (s.removeOldestWait k).pending = s.pending := rfl
@[simp] theorem State.removeOldestWait_entry (k : Slot) (j : Slot) : (s.removeOldestWait k).entry j = s.entry j := rfl
@[simp] theorem State.removeOldestWait_row (k : Slot) (j : Slot) : (s.removeOldestWait k).row j = s.row j := rfl
@[simp] theorem State.removeOldestWait_allocated (k : Slot) (j : Slot) : (s.removeOldestWait k).allocated j = s.allocated j := rfl
@[simp] theorem State.removeOldestWait_inbound (k : Slot) (j : Slot) : (s.removeOldestWait k).inbound j = s.inbound j := rfl
@[simp] theorem State.removeOldestWait_port (k : Slot) (q : Port) : (s.removeOldestWait k).port q = s.port q := rfl
@[simp] theorem State.removeOldestWait_portState (k : Slot) (q : Port) : (s.removeOldestWait k).portState q = s.portState q := rfl
@[simp] theorem State.removeOldestWait_link (k : Slot) (q : Port) : (s.removeOldestWait k).link q = s.link q := rfl
@[simp] theorem State.removeOldestWait_executor (k : Slot) (q : Port) : (s.removeOldestWait k).executor q = s.executor q := rfl
@[simp] theorem State.removeOldestWait_hasCycle (k : Slot) (x : Requestor) : (s.removeOldestWait k).hasCycle x = s.hasCycle x := by cases x <;> rfl
@[simp] theorem State.removeOldestWait_isMaintenance (k : Slot) (q : Port) : (s.removeOldestWait k).isMaintenance q = s.isMaintenance q := rfl

/-! ## dropWaitsOf -/

@[simp] theorem State.dropWaitsOf_held (n : Port) : (s.dropWaitsOf n).held = s.held := rfl
@[simp] theorem State.dropWaitsOf_device (n : Port) : (s.dropWaitsOf n).device = s.device := rfl
@[simp] theorem State.dropWaitsOf_maint (n : Port) : (s.dropWaitsOf n).maint = s.maint := rfl
@[simp] theorem State.dropWaitsOf_passPos (n : Port) : (s.dropWaitsOf n).passPos = s.passPos := rfl
@[simp] theorem State.dropWaitsOf_entries (n : Port) : (s.dropWaitsOf n).entries = s.entries := rfl
@[simp] theorem State.dropWaitsOf_rows (n : Port) : (s.dropWaitsOf n).rows = s.rows := rfl
@[simp] theorem State.dropWaitsOf_tallies (n : Port) : (s.dropWaitsOf n).tallies = s.tallies := rfl
@[simp] theorem State.dropWaitsOf_freeList (n : Port) : (s.dropWaitsOf n).freeList = s.freeList := rfl
@[simp] theorem State.dropWaitsOf_clearDue (n : Port) : (s.dropWaitsOf n).clearDue = s.clearDue := rfl
@[simp] theorem State.dropWaitsOf_inProgress (n : Port) : (s.dropWaitsOf n).inProgress = s.inProgress := rfl
@[simp] theorem State.dropWaitsOf_lastGranted (n : Port) : (s.dropWaitsOf n).lastGranted = s.lastGranted := rfl
@[simp] theorem State.dropWaitsOf_execs (n : Port) : (s.dropWaitsOf n).execs = s.execs := rfl
@[simp] theorem State.dropWaitsOf_waitDue (n : Port) : (s.dropWaitsOf n).waitDue = s.waitDue := rfl
@[simp] theorem State.dropWaitsOf_serial (n : Port) : (s.dropWaitsOf n).serial = s.serial := rfl
@[simp] theorem State.dropWaitsOf_sweeps (n : Port) : (s.dropWaitsOf n).sweeps = s.sweeps := rfl
@[simp] theorem State.dropWaitsOf_sweepPos (n : Port) : (s.dropWaitsOf n).sweepPos = s.sweepPos := rfl
@[simp] theorem State.dropWaitsOf_sweepVisit (n : Port) : (s.dropWaitsOf n).sweepVisit = s.sweepVisit := rfl
@[simp] theorem State.dropWaitsOf_ports (n : Port) : (s.dropWaitsOf n).ports = s.ports := rfl
@[simp] theorem State.dropWaitsOf_links (n : Port) : (s.dropWaitsOf n).links = s.links := rfl
@[simp] theorem State.dropWaitsOf_freeIndex (n : Port) : (s.dropWaitsOf n).freeIndex = s.freeIndex := rfl
@[simp] theorem State.dropWaitsOf_pending (n : Port) : (s.dropWaitsOf n).pending = s.pending := rfl
@[simp] theorem State.dropWaitsOf_entry (n : Port) (j : Slot) : (s.dropWaitsOf n).entry j = s.entry j := rfl
@[simp] theorem State.dropWaitsOf_row (n : Port) (j : Slot) : (s.dropWaitsOf n).row j = s.row j := rfl
@[simp] theorem State.dropWaitsOf_allocated (n : Port) (j : Slot) : (s.dropWaitsOf n).allocated j = s.allocated j := rfl
@[simp] theorem State.dropWaitsOf_inbound (n : Port) (j : Slot) : (s.dropWaitsOf n).inbound j = s.inbound j := rfl
@[simp] theorem State.dropWaitsOf_port (n : Port) (q : Port) : (s.dropWaitsOf n).port q = s.port q := rfl
@[simp] theorem State.dropWaitsOf_portState (n : Port) (q : Port) : (s.dropWaitsOf n).portState q = s.portState q := rfl
@[simp] theorem State.dropWaitsOf_link (n : Port) (q : Port) : (s.dropWaitsOf n).link q = s.link q := rfl
@[simp] theorem State.dropWaitsOf_executor (n : Port) (q : Port) : (s.dropWaitsOf n).executor q = s.executor q := rfl
@[simp] theorem State.dropWaitsOf_hasCycle (n : Port) (x : Requestor) : (s.dropWaitsOf n).hasCycle x = s.hasCycle x := by cases x <;> rfl
@[simp] theorem State.dropWaitsOf_isMaintenance (n : Port) (q : Port) : (s.dropWaitsOf n).isMaintenance q = s.isMaintenance q := rfl

end Sys2Proof.Machine
end

