-- ==== Sys2Proof/Laws/Tables.lean ====
section
/-! SUPPORT. What a value held once for each port, and a sparse table, read after an update; and that every table operation
keeps the canonical form. -/

namespace Sys2Proof

variable {α : Type}

/-! ## One thing for each port -/

@[simp] theorem PerPort.get_set_self (f : PerPort α) (n : Port) (a : α) : (f.set n a).get n = a := by cases n <;> rfl

@[simp] theorem PerPort.get_set_of_ne (f : PerPort α) {n m : Port} (a : α) (h : m ≠ n) : (f.set n a).get m = f.get m := by
  cases n <;> cases m <;> first | rfl | exact absurd rfl h

theorem PerPort.get_set (f : PerPort α) (n m : Port) (a : α) : (f.set n a).get m = if m = n then a else f.get m := by
  cases n <;> cases m <;> rfl

theorem PerPort.set_get_self (f : PerPort α) (n : Port) : f.set n (f.get n) = f := by cases n <;> rfl

theorem PerPort.set_set (f : PerPort α) (n : Port) (a b : α) : (f.set n a).set n b = f.set n b := by cases n <;> rfl

@[simp] theorem PerPort.get_mapPorts (g : Port → α → α) (f : PerPort α) (n : Port) :
    (f.mapPorts g).get n = g n (f.get n) := by cases n <;> rfl

@[simp] theorem PerPort.get_same (a : α) (n : Port) : (PerPort.same a).get n = a := by cases n <;> rfl

theorem PerPort.eq_of_get {f g : PerPort α} (h : ∀ p, f.get p = g.get p) : f = g :=
  PerPort.ext (h .p0) (h .p1) (h .p2) (h .p3)

theorem Port.mem_all (p : Port) : p ∈ Port.all := by cases p <;> decide

end Sys2Proof

namespace Sys2Proof.Machine.Table

variable {α : Type} (d : Nat → α)

/-! ## Reading after a write -/

@[simp] theorem get_nil (k : Nat) : get d k [] = d k := rfl

theorem get_insert (j k : Nat) (a : α) (t : List (Nat × α)) :
    get d j (insert k a t) = if j = k then a else get d j t := by
  induction t with
  | nil => simp only [insert, get]; split <;> split <;> first | rfl | omega
  | cons r t ih =>
    obtain ⟨i, b⟩ := r
    by_cases hj : j = k
    · subst hj
      simp only [insert, if_true]
      split
      · simp [get]
      · split
        · simp [get]
        · rename_i hk
          simp [get, hk, ih]
    · have hk : k ≠ j := fun h => hj h.symm
      simp only [insert, if_neg hj] at ih ⊢
      split
      · simp [get, hk]
      · split
        · rename_i hi
          simp [get, hk, hi]
        · simp [get, ih]

theorem get_erase (j k : Nat) (t : List (Nat × α)) : get d j (erase k t) = if j = k then d k else get d j t := by
  induction t with
  | nil => simp only [erase, List.filter_nil, get]; split <;> simp_all
  | cons r t ih =>
    obtain ⟨i, b⟩ := r
    by_cases h : i = k
    · subst h
      simp only [erase, List.filter_cons] at ih ⊢
      simp only [ne_eq, not_true_eq_false, decide_false, Bool.false_eq_true, if_false, ih, get]
      split
      · rfl
      · rw [if_neg (fun e => by omega)]
    · simp only [erase, List.filter_cons] at ih ⊢
      simp only [ne_eq, h, not_false_eq_true, decide_true, if_true, get, ih]
      split
      · rw [if_neg (fun e => by omega)]
      · rfl

/-- A table reads, after a write of slot k, the record written at k and what it read before everywhere else. -/
theorem get_set [DecidableEq α] (j k : Nat) (a : α) (t : List (Nat × α)) :
    get d j (set d k a t) = if j = k then a else get d j t := by
  unfold set
  split
  · rename_i h; rw [get_erase, h]
  · exact get_insert d j k a t

/-! ## The canonical form -/

theorem rising_iff (t : List (Nat × α)) : rising t = true ↔ t.Pairwise (fun r q => r.1 < q.1) := by
  induction t with
  | nil => simp [rising]
  | cons r t ih =>
    cases t with
    | nil => simp [rising]
    | cons q t =>
      obtain ⟨j, a⟩ := r
      obtain ⟨k, b⟩ := q
      simp only [rising, Bool.and_eq_true, decide_eq_true_eq, ih]
      constructor
      · intro h
        refine List.pairwise_cons.2 ⟨fun x hx => ?_, h.2⟩
        rcases List.mem_cons.1 hx with rfl | hx
        · exact h.1
        · exact lt_trans h.1 ((List.pairwise_cons.1 h.2).1 x hx)
      · intro h
        exact ⟨(List.pairwise_cons.1 h).1 (k, b) List.mem_cons_self, (List.pairwise_cons.1 h).2⟩

theorem wf_iff [DecidableEq α] (t : List (Nat × α)) :
    wf d t = true ↔ t.Pairwise (fun r q => r.1 < q.1) ∧ ∀ r ∈ t, r.2 ≠ d r.1 := by
  simp [wf, rising_iff]

theorem mem_insert_fst {k : Nat} {a : α} {t : List (Nat × α)} {r : Nat × α} (h : r ∈ insert k a t) :
    r = (k, a) ∨ r ∈ t := by
  induction t with
  | nil => simpa [insert] using h
  | cons q t ih =>
    obtain ⟨i, b⟩ := q
    simp only [insert] at h
    split at h
    · simpa using h
    · split at h
      · rcases List.mem_cons.1 h with h | h
        · exact .inl h
        · exact .inr (List.mem_cons_of_mem _ h)
      · rcases List.mem_cons.1 h with h | h
        · exact .inr (h ▸ List.mem_cons_self)
        · rcases ih h with h | h
          · exact .inl h
          · exact .inr (List.mem_cons_of_mem _ h)

theorem pairwise_insert {k : Nat} {a : α} {t : List (Nat × α)} (h : t.Pairwise (fun r q => r.1 < q.1)) :
    (insert k a t).Pairwise (fun r q => r.1 < q.1) := by
  induction t with
  | nil => simp [insert]
  | cons q t ih =>
    obtain ⟨i, b⟩ := q
    have hi := List.pairwise_cons.1 h
    simp only [insert]
    split
    · rename_i hk
      refine List.pairwise_cons.2 ⟨fun x hx => ?_, h⟩
      rcases List.mem_cons.1 hx with rfl | hx
      · exact hk
      · exact lt_trans hk (hi.1 x hx)
    · split
      · rename_i hk
        exact List.pairwise_cons.2 ⟨fun x hx => hk ▸ hi.1 x hx, hi.2⟩
      · refine List.pairwise_cons.2 ⟨fun x hx => ?_, ih hi.2⟩
        rcases mem_insert_fst hx with rfl | hx
        · simp only; omega
        · exact hi.1 x hx

/-- Every write keeps the canonical form. -/
theorem wf_set [DecidableEq α] (k : Nat) (a : α) {t : List (Nat × α)} (h : wf d t = true) :
    wf d (set d k a t) = true := by
  rw [wf_iff] at h ⊢
  unfold set
  split
  · exact ⟨h.1.sublist List.filter_sublist, fun r hr => h.2 r (List.mem_of_mem_filter hr)⟩
  · rename_i ha
    refine ⟨pairwise_insert h.1, fun r hr => ?_⟩
    rcases mem_insert_fst hr with rfl | hr
    · exact ha
    · exact h.2 r hr

/-- A write lists no slot but those listed before and its own. -/
theorem mem_set [DecidableEq α] {k : Nat} {a : α} {t : List (Nat × α)} {r : Nat × α} (h : r ∈ set d k a t) :
    r = (k, a) ∨ r ∈ t := by
  unfold set at h
  split at h
  · exact .inr (List.mem_of_mem_filter h)
  · exact mem_insert_fst h

/-- The record of a slot that a table lists in its canonical form is the listed one. -/
theorem get_of_mem [DecidableEq α] {t : List (Nat × α)} (h : wf d t = true) {r : Nat × α} (hr : r ∈ t) :
    get d r.1 t = r.2 := by
  rw [wf_iff] at h
  obtain ⟨hp, -⟩ := h
  induction t with
  | nil => simp at hr
  | cons q t ih =>
    obtain ⟨i, b⟩ := q
    have hi := List.pairwise_cons.1 hp
    rcases List.mem_cons.1 hr with rfl | hr
    · simp [get]
    · have : i < r.1 := hi.1 r hr
      simp only [get]
      rw [if_neg (by omega)]
      exact ih hr hi.2

/-- A slot that no row of a table lists reads its default. -/
theorem get_of_not_mem {k : Nat} {t : List (Nat × α)} (h : ∀ r ∈ t, r.1 ≠ k) : get d k t = d k := by
  induction t with
  | nil => rfl
  | cons q t ih =>
    obtain ⟨i, b⟩ := q
    simp only [get]
    rw [if_neg (h (i, b) List.mem_cons_self)]
    exact ih (fun r hr => h r (List.mem_cons_of_mem _ hr))

end Sys2Proof.Machine.Table
end

