-- ==== Sys2Proof/Laws/Ops.lean ====
section
/-! SUPPORT. What each shared operation does, said once: the readings it changes, and those it leaves. -/

namespace Sys2Proof.Machine

variable (s : State)

/-! ## Readings after a write -/

theorem State.entry_setEntry (j k : Slot) (e : Entry) : (s.setEntry k e).entry j = if j = k then e else s.entry j :=
  Table.get_set _ j k e s.entries

@[simp] theorem State.entry_setEntry_self (k : Slot) (e : Entry) : (s.setEntry k e).entry k = e := by
  simp [State.entry_setEntry]

theorem State.entry_setEntry_of_ne {j k : Slot} (e : Entry) (h : j ≠ k) : (s.setEntry k e).entry j = s.entry j := by
  simp [State.entry_setEntry, h]

theorem State.row_setRow (j k : Slot) (r : Row) : (s.setRow k r).row j = if j = k then r else s.row j :=
  Table.get_set _ j k r s.rows

@[simp] theorem State.row_setRow_self (k : Slot) (r : Row) : (s.setRow k r).row k = r := by simp [State.row_setRow]

theorem State.row_setRow_of_ne {j k : Slot} (r : Row) (h : j ≠ k) : (s.setRow k r).row j = s.row j := by
  simp [State.row_setRow, h]

theorem State.allocated_eq (k : Slot) : s.allocated k = (decide (k < Config.fixedSlots) || (s.row k).allocated) := rfl

theorem State.inbound_eq (k : Slot) : s.inbound k = (s.row k).inbound := rfl

theorem State.row_raiseInbound (j k : Slot) :
    (s.raiseInbound k).row j = if j = k then { s.row k with inbound := (s.row k).inbound + 1 } else s.row j :=
  State.row_setRow s j k _

theorem State.row_lowerInbound (j k : Slot) :
    (s.lowerInbound k).row j = if j = k then { s.row k with inbound := (s.row k).inbound - 1 } else s.row j :=
  State.row_setRow s j k _

@[simp] theorem State.port_setPort_self (n : Port) (c : PortControl) : (s.setPort n c).port n = c :=
  PerPort.get_set_self s.ports n c

@[simp] theorem State.port_setPort_of_ne {n q : Port} (c : PortControl) (h : q ≠ n) : (s.setPort n c).port q = s.port q :=
  PerPort.get_set_of_ne s.ports c h

theorem State.port_setPort (n q : Port) (c : PortControl) : (s.setPort n c).port q = if q = n then c else s.port q :=
  PerPort.get_set s.ports n q c

@[simp] theorem State.link_setLink_self (n : Port) (l : PortLink) : (s.setLink n l).link n = l :=
  PerPort.get_set_self s.links n l

@[simp] theorem State.link_setLink_of_ne {n q : Port} (l : PortLink) (h : q ≠ n) : (s.setLink n l).link q = s.link q :=
  PerPort.get_set_of_ne s.links l h

@[simp] theorem State.executor_setExecutor_self (n : Port) (e : Executor) : (s.setExecutor n e).executor n = e :=
  PerPort.get_set_self s.execs n e

@[simp] theorem State.executor_setExecutor_of_ne {n q : Port} (e : Executor) (h : q ≠ n) :
    (s.setExecutor n e).executor q = s.executor q := PerPort.get_set_of_ne s.execs e h

theorem State.executor_setExecutor (n q : Port) (e : Executor) :
    (s.setExecutor n e).executor q = if q = n then e else s.executor q := PerPort.get_set s.execs n q e

/-! ## The tallies -/

theorem State.raiseOwned_tally (p q : Port) : (s.raiseOwned p).tallies.get q =
    if q = p then { s.tallies.get p with owned := (s.tallies.get p).owned + 1 } else s.tallies.get q :=
  PerPort.get_set s.tallies p q _

theorem State.lowerOwned_tally (p q : Port) : (s.lowerOwned p).tallies.get q =
    if q = p then { s.tallies.get p with owned := (s.tallies.get p).owned - 1 } else s.tallies.get q :=
  PerPort.get_set s.tallies p q _

theorem State.raiseWatch_tally (p q : Port) : (s.raiseWatch p).tallies.get q =
    if q = p then { s.tallies.get p with watch := (s.tallies.get p).watch + 1 } else s.tallies.get q :=
  PerPort.get_set s.tallies p q _

theorem State.lowerWatch_tally (p q : Port) : (s.lowerWatch p).tallies.get q =
    if q = p then { s.tallies.get p with watch := (s.tallies.get p).watch - 1 } else s.tallies.get q :=
  PerPort.get_set s.tallies p q _

theorem State.lowerWatchers_tally (w : PerPort Bool) (q : Port) : (s.lowerWatchers w).tallies.get q =
    if w.get q then { s.tallies.get q with watch := (s.tallies.get q).watch - 1 } else s.tallies.get q :=
  PerPort.get_mapPorts _ s.tallies q

/-! ## Replies and events -/

@[simp] theorem State.postReplies_port (f : Port → List Reply) (q : Port) :
    (s.postReplies f).port q = { s.port q with replyQueue := (s.port q).replyQueue ++ f q } :=
  PerPort.get_mapPorts _ s.ports q

theorem State.postReply_port (n q : Port) (r : Reply) : (s.postReply n r).port q =
    if q = n then { s.port n with replyQueue := (s.port n).replyQueue ++ [r] } else s.port q :=
  PerPort.get_set s.ports n q _

/-- Posting one reply is posting it to its port and none to the others. -/
theorem State.postReply_eq_postReplies (n : Port) (r : Reply) :
    s.postReply n r = s.postReplies (fun p => if p = n then [r] else []) := by
  unfold State.postReply State.postReplies State.setPort State.port
  congr 1
  apply PerPort.eq_of_get
  intro p
  rw [PerPort.get_set, PerPort.get_mapPorts]
  split
  · rename_i h; subst h; simp
  · rename_i h; simp [h]

@[simp] theorem State.postEvent_port (f : Port → Bool) (e : Event) (q : Port) :
    (s.postEvent f e).port q = if f q && (s.port q).admits q e then (s.port q).push e else s.port q :=
  PerPort.get_mapPorts _ s.ports q

@[simp] theorem State.postReplies_portState (f : Port → List Reply) (q : Port) :
    (s.postReplies f).portState q = s.portState q := by simp [State.portState]

@[simp] theorem State.postReply_portState (n q : Port) (r : Reply) : (s.postReply n r).portState q = s.portState q := by
  rw [State.postReply_eq_postReplies]; simp

/-! ## One posting to an event queue touches the queue and the counter alone -/

@[simp] theorem PortControl.push_portState (c : PortControl) (e : Event) : (c.push e).portState = c.portState := by
  unfold PortControl.push; split; · rfl
  · split <;> rfl

@[simp] theorem PortControl.push_linkDown (c : PortControl) (e : Event) : (c.push e).linkDown = c.linkDown := by
  unfold PortControl.push; split; · rfl
  · split <;> rfl

@[simp] theorem PortControl.push_detachPending (c : PortControl) (e : Event) : (c.push e).detachPending = c.detachPending := by
  unfold PortControl.push; split; · rfl
  · split <;> rfl

@[simp] theorem PortControl.push_session (c : PortControl) (e : Event) : (c.push e).session = c.session := by
  unfold PortControl.push; split; · rfl
  · split <;> rfl

@[simp] theorem PortControl.push_lease (c : PortControl) (e : Event) : (c.push e).lease = c.lease := by
  unfold PortControl.push; split; · rfl
  · split <;> rfl

@[simp] theorem PortControl.push_leaseTimer (c : PortControl) (e : Event) : (c.push e).leaseTimer = c.leaseTimer := by
  unfold PortControl.push; split; · rfl
  · split <;> rfl

@[simp] theorem PortControl.push_leaseDue (c : PortControl) (e : Event) : (c.push e).leaseDue = c.leaseDue := by
  unfold PortControl.push; split; · rfl
  · split <;> rfl

@[simp] theorem PortControl.push_mask (c : PortControl) (e : Event) : (c.push e).mask = c.mask := by
  unfold PortControl.push; split; · rfl
  · split <;> rfl

@[simp] theorem PortControl.push_suppressOwn (c : PortControl) (e : Event) : (c.push e).suppressOwn = c.suppressOwn := by
  unfold PortControl.push; split; · rfl
  · split <;> rfl

@[simp] theorem PortControl.push_credits (c : PortControl) (e : Event) : (c.push e).credits = c.credits := by
  unfold PortControl.push; split; · rfl
  · split <;> rfl

@[simp] theorem PortControl.push_tags (c : PortControl) (e : Event) : (c.push e).tags = c.tags := by
  unfold PortControl.push; split; · rfl
  · split <;> rfl

@[simp] theorem PortControl.push_requestQueue (c : PortControl) (e : Event) : (c.push e).requestQueue = c.requestQueue := by
  unfold PortControl.push; split; · rfl
  · split <;> rfl

@[simp] theorem PortControl.push_replyQueue (c : PortControl) (e : Event) : (c.push e).replyQueue = c.replyQueue := by
  unfold PortControl.push; split; · rfl
  · split <;> rfl

@[simp] theorem State.postEvent_portState (f : Port → Bool) (e : Event) (q : Port) :
    (s.postEvent f e).portState q = s.portState q := by
  simp only [State.portState, State.postEvent_port]; split <;> simp


/-! ## What grant leaves -/

@[simp] theorem State.grant_held : s.grant.held = s.held := by
  unfold State.grant; split; · split <;> rfl
  · rfl

@[simp] theorem State.grant_device : s.grant.device = s.device := by
  unfold State.grant; split; · split <;> rfl
  · rfl

@[simp] theorem State.grant_maint : s.grant.maint = s.maint := by
  unfold State.grant; split; · split <;> rfl
  · rfl

@[simp] theorem State.grant_passPos : s.grant.passPos = s.passPos := by
  unfold State.grant; split; · split <;> rfl
  · rfl

@[simp] theorem State.grant_entries : s.grant.entries = s.entries := by
  unfold State.grant; split; · split <;> rfl
  · rfl

@[simp] theorem State.grant_rows : s.grant.rows = s.rows := by
  unfold State.grant; split; · split <;> rfl
  · rfl

@[simp] theorem State.grant_tallies : s.grant.tallies = s.tallies := by
  unfold State.grant; split; · split <;> rfl
  · rfl

@[simp] theorem State.grant_freeList : s.grant.freeList = s.freeList := by
  unfold State.grant; split; · split <;> rfl
  · rfl

@[simp] theorem State.grant_clearDue : s.grant.clearDue = s.clearDue := by
  unfold State.grant; split; · split <;> rfl
  · rfl

@[simp] theorem State.grant_execs : s.grant.execs = s.execs := by
  unfold State.grant; split; · split <;> rfl
  · rfl

@[simp] theorem State.grant_waits : s.grant.waits = s.waits := by
  unfold State.grant; split; · split <;> rfl
  · rfl

@[simp] theorem State.grant_waitDue : s.grant.waitDue = s.waitDue := by
  unfold State.grant; split; · split <;> rfl
  · rfl

@[simp] theorem State.grant_serial : s.grant.serial = s.serial := by
  unfold State.grant; split; · split <;> rfl
  · rfl

@[simp] theorem State.grant_sweeps : s.grant.sweeps = s.sweeps := by
  unfold State.grant; split; · split <;> rfl
  · rfl

@[simp] theorem State.grant_sweepPos : s.grant.sweepPos = s.sweepPos := by
  unfold State.grant; split; · split <;> rfl
  · rfl

@[simp] theorem State.grant_sweepVisit : s.grant.sweepVisit = s.sweepVisit := by
  unfold State.grant; split; · split <;> rfl
  · rfl

@[simp] theorem State.grant_ports : s.grant.ports = s.ports := by
  unfold State.grant; split; · split <;> rfl
  · rfl

@[simp] theorem State.grant_links : s.grant.links = s.links := by
  unfold State.grant; split; · split <;> rfl
  · rfl

@[simp] theorem State.grant_freeIndex : s.grant.freeIndex = s.freeIndex := by
  unfold State.grant; split; · split <;> rfl
  · rfl

@[simp] theorem State.grant_pending : s.grant.pending = s.pending := by
  unfold State.grant; split; · split <;> rfl
  · rfl

@[simp] theorem State.grant_entry (j : Slot) : s.grant.entry j = s.entry j := by
  simp only [State.entry, State.grant_entries]

@[simp] theorem State.grant_row (j : Slot) : s.grant.row j = s.row j := by
  simp only [State.row, State.grant_rows]

@[simp] theorem State.grant_allocated (j : Slot) : s.grant.allocated j = s.allocated j := by
  simp only [State.allocated, State.row, State.grant_rows]

@[simp] theorem State.grant_inbound (j : Slot) : s.grant.inbound j = s.inbound j := by
  simp only [State.inbound, State.row, State.grant_rows]

@[simp] theorem State.grant_port (q : Port) : s.grant.port q = s.port q := by
  simp only [State.port, State.grant_ports]

@[simp] theorem State.grant_portState (q : Port) : s.grant.portState q = s.portState q := by
  simp only [State.portState, State.port, State.grant_ports]

@[simp] theorem State.grant_link (q : Port) : s.grant.link q = s.link q := by
  simp only [State.link, State.grant_links]

@[simp] theorem State.grant_executor (q : Port) : s.grant.executor q = s.executor q := by
  simp only [State.executor, State.grant_execs]

@[simp] theorem State.grant_oldestWait (j : Slot) : s.grant.oldestWait j = s.oldestWait j := by
  simp only [State.oldestWait, State.grant_waits]

@[simp] theorem State.grant_waitsOn (j : Slot) : s.grant.waitsOn j = s.waitsOn j := by
  simp only [State.waitsOn, State.grant_waits]

@[simp] theorem State.grant_isMaintenance (q : Port) : s.grant.isMaintenance q = s.isMaintenance q := by
  simp only [State.isMaintenance, State.grant_maint]


/-! ## What passToken leaves -/

@[simp] theorem State.passToken_held : s.passToken.held = s.held := by unfold State.passToken; split <;> rfl

@[simp] theorem State.passToken_device : s.passToken.device = s.device := by unfold State.passToken; split <;> rfl

@[simp] theorem State.passToken_maint : s.passToken.maint = s.maint := by unfold State.passToken; split <;> rfl

@[simp] theorem State.passToken_passPos : s.passToken.passPos = s.passPos := by unfold State.passToken; split <;> rfl

@[simp] theorem State.passToken_entries : s.passToken.entries = s.entries := by unfold State.passToken; split <;> rfl

@[simp] theorem State.passToken_rows : s.passToken.rows = s.rows := by unfold State.passToken; split <;> rfl

@[simp] theorem State.passToken_tallies : s.passToken.tallies = s.tallies := by unfold State.passToken; split <;> rfl

@[simp] theorem State.passToken_freeList : s.passToken.freeList = s.freeList := by unfold State.passToken; split <;> rfl

@[simp] theorem State.passToken_clearDue : s.passToken.clearDue = s.clearDue := by unfold State.passToken; split <;> rfl

@[simp] theorem State.passToken_inProgress : s.passToken.inProgress = s.inProgress := by
  unfold State.passToken; split <;> rfl

@[simp] theorem State.passToken_lastGranted : s.passToken.lastGranted = s.lastGranted := by
  unfold State.passToken; split <;> rfl

@[simp] theorem State.passToken_waits : s.passToken.waits = s.waits := by unfold State.passToken; split <;> rfl

@[simp] theorem State.passToken_waitDue : s.passToken.waitDue = s.waitDue := by unfold State.passToken; split <;> rfl

@[simp] theorem State.passToken_sweeps : s.passToken.sweeps = s.sweeps := by unfold State.passToken; split <;> rfl

@[simp] theorem State.passToken_sweepPos : s.passToken.sweepPos = s.sweepPos := by unfold State.passToken; split <;> rfl

@[simp] theorem State.passToken_sweepVisit : s.passToken.sweepVisit = s.sweepVisit := by
  unfold State.passToken; split <;> rfl

@[simp] theorem State.passToken_ports : s.passToken.ports = s.ports := by unfold State.passToken; split <;> rfl

@[simp] theorem State.passToken_links : s.passToken.links = s.links := by unfold State.passToken; split <;> rfl

@[simp] theorem State.passToken_freeIndex : s.passToken.freeIndex = s.freeIndex := by
  unfold State.passToken; split <;> rfl

@[simp] theorem State.passToken_pending : s.passToken.pending = s.pending := by unfold State.passToken; split <;> rfl

@[simp] theorem State.passToken_entry (j : Slot) : s.passToken.entry j = s.entry j := by
  simp only [State.entry, State.passToken_entries]

@[simp] theorem State.passToken_row (j : Slot) : s.passToken.row j = s.row j := by
  simp only [State.row, State.passToken_rows]

@[simp] theorem State.passToken_allocated (j : Slot) : s.passToken.allocated j = s.allocated j := by
  simp only [State.allocated, State.row, State.passToken_rows]

@[simp] theorem State.passToken_inbound (j : Slot) : s.passToken.inbound j = s.inbound j := by
  simp only [State.inbound, State.row, State.passToken_rows]

@[simp] theorem State.passToken_port (q : Port) : s.passToken.port q = s.port q := by
  simp only [State.port, State.passToken_ports]

@[simp] theorem State.passToken_portState (q : Port) : s.passToken.portState q = s.portState q := by
  simp only [State.portState, State.port, State.passToken_ports]

@[simp] theorem State.passToken_link (q : Port) : s.passToken.link q = s.link q := by
  simp only [State.link, State.passToken_links]

@[simp] theorem State.passToken_oldestWait (j : Slot) : s.passToken.oldestWait j = s.oldestWait j := by
  simp only [State.oldestWait, State.passToken_waits]

@[simp] theorem State.passToken_waitsOn (j : Slot) : s.passToken.waitsOn j = s.waitsOn j := by
  simp only [State.waitsOn, State.passToken_waits]

@[simp] theorem State.passToken_isMaintenance (q : Port) : s.passToken.isMaintenance q = s.isMaintenance q := by
  simp only [State.isMaintenance, State.passToken_maint]


/-! ## What endRequest leaves -/

@[simp] theorem State.endRequest_held (n : Port) : (s.endRequest n).held = s.held := by
  unfold State.endRequest; split
  · simp only [State.passToken_held, State.setExecutor_held]
  · rfl

@[simp] theorem State.endRequest_device (n : Port) : (s.endRequest n).device = s.device := by
  unfold State.endRequest; split
  · simp only [State.passToken_device, State.setExecutor_device]
  · rfl

@[simp] theorem State.endRequest_maint (n : Port) : (s.endRequest n).maint = s.maint := by
  unfold State.endRequest; split
  · simp only [State.passToken_maint, State.setExecutor_maint]
  · rfl

@[simp] theorem State.endRequest_passPos (n : Port) : (s.endRequest n).passPos = s.passPos := by
  unfold State.endRequest; split
  · simp only [State.passToken_passPos, State.setExecutor_passPos]
  · rfl

@[simp] theorem State.endRequest_entries (n : Port) : (s.endRequest n).entries = s.entries := by
  unfold State.endRequest; split
  · simp only [State.passToken_entries, State.setExecutor_entries]
  · rfl

@[simp] theorem State.endRequest_rows (n : Port) : (s.endRequest n).rows = s.rows := by
  unfold State.endRequest; split
  · simp only [State.passToken_rows, State.setExecutor_rows]
  · rfl

@[simp] theorem State.endRequest_tallies (n : Port) : (s.endRequest n).tallies = s.tallies := by
  unfold State.endRequest; split
  · simp only [State.passToken_tallies, State.setExecutor_tallies]
  · rfl

@[simp] theorem State.endRequest_freeList (n : Port) : (s.endRequest n).freeList = s.freeList := by
  unfold State.endRequest; split
  · simp only [State.passToken_freeList, State.setExecutor_freeList]
  · rfl

@[simp] theorem State.endRequest_clearDue (n : Port) : (s.endRequest n).clearDue = s.clearDue := by
  unfold State.endRequest; split
  · simp only [State.passToken_clearDue, State.setExecutor_clearDue]
  · rfl

@[simp] theorem State.endRequest_inProgress (n : Port) : (s.endRequest n).inProgress = s.inProgress := by
  unfold State.endRequest; split
  · simp only [State.passToken_inProgress, State.setExecutor_inProgress]
  · rfl

@[simp] theorem State.endRequest_lastGranted (n : Port) : (s.endRequest n).lastGranted = s.lastGranted := by
  unfold State.endRequest; split
  · simp only [State.passToken_lastGranted, State.setExecutor_lastGranted]
  · rfl

@[simp] theorem State.endRequest_waits (n : Port) : (s.endRequest n).waits = s.waits := by
  unfold State.endRequest; split
  · simp only [State.passToken_waits, State.setExecutor_waits]
  · rfl

@[simp] theorem State.endRequest_waitDue (n : Port) : (s.endRequest n).waitDue = s.waitDue := by
  unfold State.endRequest; split
  · simp only [State.passToken_waitDue, State.setExecutor_waitDue]
  · rfl

@[simp] theorem State.endRequest_sweeps (n : Port) : (s.endRequest n).sweeps = s.sweeps := by
  unfold State.endRequest; split
  · simp only [State.passToken_sweeps, State.setExecutor_sweeps]
  · rfl

@[simp] theorem State.endRequest_sweepPos (n : Port) : (s.endRequest n).sweepPos = s.sweepPos := by
  unfold State.endRequest; split
  · simp only [State.passToken_sweepPos, State.setExecutor_sweepPos]
  · rfl

@[simp] theorem State.endRequest_sweepVisit (n : Port) : (s.endRequest n).sweepVisit = s.sweepVisit := by
  unfold State.endRequest; split
  · simp only [State.passToken_sweepVisit, State.setExecutor_sweepVisit]
  · rfl

@[simp] theorem State.endRequest_ports (n : Port) : (s.endRequest n).ports = s.ports := by
  unfold State.endRequest; split
  · simp only [State.passToken_ports, State.setExecutor_ports]
  · rfl

@[simp] theorem State.endRequest_links (n : Port) : (s.endRequest n).links = s.links := by
  unfold State.endRequest; split
  · simp only [State.passToken_links, State.setExecutor_links]
  · rfl

@[simp] theorem State.endRequest_freeIndex (n : Port) : (s.endRequest n).freeIndex = s.freeIndex := by
  unfold State.endRequest; split
  · simp only [State.passToken_freeIndex, State.setExecutor_freeIndex]
  · rfl

@[simp] theorem State.endRequest_pending (n : Port) : (s.endRequest n).pending = s.pending := by
  unfold State.endRequest; split
  · simp only [State.passToken_pending, State.setExecutor_pending]
  · rfl

@[simp] theorem State.endRequest_entry (n : Port) (j : Slot) : (s.endRequest n).entry j = s.entry j := by
  simp only [State.entry, State.endRequest_entries]

@[simp] theorem State.endRequest_row (n : Port) (j : Slot) : (s.endRequest n).row j = s.row j := by
  simp only [State.row, State.endRequest_rows]

@[simp] theorem State.endRequest_allocated (n : Port) (j : Slot) : (s.endRequest n).allocated j = s.allocated j := by
  simp only [State.allocated, State.row, State.endRequest_rows]

@[simp] theorem State.endRequest_inbound (n : Port) (j : Slot) : (s.endRequest n).inbound j = s.inbound j := by
  simp only [State.inbound, State.row, State.endRequest_rows]

@[simp] theorem State.endRequest_port (n : Port) (q : Port) : (s.endRequest n).port q = s.port q := by
  simp only [State.port, State.endRequest_ports]

@[simp] theorem State.endRequest_portState (n : Port) (q : Port) : (s.endRequest n).portState q = s.portState q := by
  simp only [State.portState, State.port, State.endRequest_ports]

@[simp] theorem State.endRequest_link (n : Port) (q : Port) : (s.endRequest n).link q = s.link q := by
  simp only [State.link, State.endRequest_links]

@[simp] theorem State.endRequest_oldestWait (n : Port) (j : Slot) : (s.endRequest n).oldestWait j = s.oldestWait j := by
  simp only [State.oldestWait, State.endRequest_waits]

@[simp] theorem State.endRequest_waitsOn (n : Port) (j : Slot) : (s.endRequest n).waitsOn j = s.waitsOn j := by
  simp only [State.waitsOn, State.endRequest_waits]

@[simp] theorem State.endRequest_isMaintenance (n : Port) (q : Port) : (s.endRequest n).isMaintenance q = s.isMaintenance q := by
  simp only [State.isMaintenance, State.endRequest_maint]


/-! ## What withdraw leaves -/

@[simp] theorem State.withdraw_held (f : Port → Bool) (n : Port) : (s.withdraw f n).held = s.held := by
  unfold State.withdraw; split
  · exact State.endRequest_held s n
  · rfl

@[simp] theorem State.withdraw_device (f : Port → Bool) (n : Port) : (s.withdraw f n).device = s.device := by
  unfold State.withdraw; split
  · exact State.endRequest_device s n
  · rfl

@[simp] theorem State.withdraw_maint (f : Port → Bool) (n : Port) : (s.withdraw f n).maint = s.maint := by
  unfold State.withdraw; split
  · exact State.endRequest_maint s n
  · rfl

@[simp] theorem State.withdraw_passPos (f : Port → Bool) (n : Port) : (s.withdraw f n).passPos = s.passPos := by
  unfold State.withdraw; split
  · exact State.endRequest_passPos s n
  · rfl

@[simp] theorem State.withdraw_entries (f : Port → Bool) (n : Port) : (s.withdraw f n).entries = s.entries := by
  unfold State.withdraw; split
  · exact State.endRequest_entries s n
  · rfl

@[simp] theorem State.withdraw_rows (f : Port → Bool) (n : Port) : (s.withdraw f n).rows = s.rows := by
  unfold State.withdraw; split
  · exact State.endRequest_rows s n
  · rfl

@[simp] theorem State.withdraw_tallies (f : Port → Bool) (n : Port) : (s.withdraw f n).tallies = s.tallies := by
  unfold State.withdraw; split
  · exact State.endRequest_tallies s n
  · rfl

@[simp] theorem State.withdraw_freeList (f : Port → Bool) (n : Port) : (s.withdraw f n).freeList = s.freeList := by
  unfold State.withdraw; split
  · exact State.endRequest_freeList s n
  · rfl

@[simp] theorem State.withdraw_clearDue (f : Port → Bool) (n : Port) : (s.withdraw f n).clearDue = s.clearDue := by
  unfold State.withdraw; split
  · exact State.endRequest_clearDue s n
  · rfl

@[simp] theorem State.withdraw_inProgress (f : Port → Bool) (n : Port) : (s.withdraw f n).inProgress = s.inProgress := by
  unfold State.withdraw; split
  · exact State.endRequest_inProgress s n
  · rfl

@[simp] theorem State.withdraw_lastGranted (f : Port → Bool) (n : Port) : (s.withdraw f n).lastGranted = s.lastGranted := by
  unfold State.withdraw; split
  · exact State.endRequest_lastGranted s n
  · rfl

@[simp] theorem State.withdraw_waits (f : Port → Bool) (n : Port) : (s.withdraw f n).waits = s.waits := by
  unfold State.withdraw; split
  · exact State.endRequest_waits s n
  · rfl

@[simp] theorem State.withdraw_waitDue (f : Port → Bool) (n : Port) : (s.withdraw f n).waitDue = s.waitDue := by
  unfold State.withdraw; split
  · exact State.endRequest_waitDue s n
  · rfl

@[simp] theorem State.withdraw_sweeps (f : Port → Bool) (n : Port) : (s.withdraw f n).sweeps = s.sweeps := by
  unfold State.withdraw; split
  · exact State.endRequest_sweeps s n
  · rfl

@[simp] theorem State.withdraw_sweepPos (f : Port → Bool) (n : Port) : (s.withdraw f n).sweepPos = s.sweepPos := by
  unfold State.withdraw; split
  · exact State.endRequest_sweepPos s n
  · rfl

@[simp] theorem State.withdraw_sweepVisit (f : Port → Bool) (n : Port) : (s.withdraw f n).sweepVisit = s.sweepVisit := by
  unfold State.withdraw; split
  · exact State.endRequest_sweepVisit s n
  · rfl

@[simp] theorem State.withdraw_ports (f : Port → Bool) (n : Port) : (s.withdraw f n).ports = s.ports := by
  unfold State.withdraw; split
  · exact State.endRequest_ports s n
  · rfl

@[simp] theorem State.withdraw_links (f : Port → Bool) (n : Port) : (s.withdraw f n).links = s.links := by
  unfold State.withdraw; split
  · exact State.endRequest_links s n
  · rfl

@[simp] theorem State.withdraw_freeIndex (f : Port → Bool) (n : Port) : (s.withdraw f n).freeIndex = s.freeIndex := by
  unfold State.withdraw; split
  · exact State.endRequest_freeIndex s n
  · rfl

@[simp] theorem State.withdraw_pending (f : Port → Bool) (n : Port) : (s.withdraw f n).pending = s.pending := by
  unfold State.withdraw; split
  · exact State.endRequest_pending s n
  · rfl


/-! ## What takeWithdrawals leaves -/

@[simp] theorem State.takeWithdrawals_held : s.takeWithdrawals.held = s.held := by
  unfold State.takeWithdrawals; split
  · simp only [Port.all, List.foldl, State.withdraw_held]
  · rfl

@[simp] theorem State.takeWithdrawals_device : s.takeWithdrawals.device = s.device := by
  unfold State.takeWithdrawals; split
  · simp only [Port.all, List.foldl, State.withdraw_device]
  · rfl

@[simp] theorem State.takeWithdrawals_maint : s.takeWithdrawals.maint = s.maint := by
  unfold State.takeWithdrawals; split
  · simp only [Port.all, List.foldl, State.withdraw_maint]
  · rfl

@[simp] theorem State.takeWithdrawals_passPos : s.takeWithdrawals.passPos = s.passPos := by
  unfold State.takeWithdrawals; split
  · simp only [Port.all, List.foldl, State.withdraw_passPos]
  · rfl

@[simp] theorem State.takeWithdrawals_entries : s.takeWithdrawals.entries = s.entries := by
  unfold State.takeWithdrawals; split
  · simp only [Port.all, List.foldl, State.withdraw_entries]
  · rfl

@[simp] theorem State.takeWithdrawals_rows : s.takeWithdrawals.rows = s.rows := by
  unfold State.takeWithdrawals; split
  · simp only [Port.all, List.foldl, State.withdraw_rows]
  · rfl

@[simp] theorem State.takeWithdrawals_tallies : s.takeWithdrawals.tallies = s.tallies := by
  unfold State.takeWithdrawals; split
  · simp only [Port.all, List.foldl, State.withdraw_tallies]
  · rfl

@[simp] theorem State.takeWithdrawals_freeList : s.takeWithdrawals.freeList = s.freeList := by
  unfold State.takeWithdrawals; split
  · simp only [Port.all, List.foldl, State.withdraw_freeList]
  · rfl

@[simp] theorem State.takeWithdrawals_clearDue : s.takeWithdrawals.clearDue = s.clearDue := by
  unfold State.takeWithdrawals; split
  · simp only [Port.all, List.foldl, State.withdraw_clearDue]
  · rfl

@[simp] theorem State.takeWithdrawals_inProgress : s.takeWithdrawals.inProgress = s.inProgress := by
  unfold State.takeWithdrawals; split
  · simp only [Port.all, List.foldl, State.withdraw_inProgress]
  · rfl

@[simp] theorem State.takeWithdrawals_lastGranted : s.takeWithdrawals.lastGranted = s.lastGranted := by
  unfold State.takeWithdrawals; split
  · simp only [Port.all, List.foldl, State.withdraw_lastGranted]
  · rfl

@[simp] theorem State.takeWithdrawals_waits : s.takeWithdrawals.waits = s.waits := by
  unfold State.takeWithdrawals; split
  · simp only [Port.all, List.foldl, State.withdraw_waits]
  · rfl

@[simp] theorem State.takeWithdrawals_waitDue : s.takeWithdrawals.waitDue = s.waitDue := by
  unfold State.takeWithdrawals; split
  · simp only [Port.all, List.foldl, State.withdraw_waitDue]
  · rfl

@[simp] theorem State.takeWithdrawals_sweeps : s.takeWithdrawals.sweeps = s.sweeps := by
  unfold State.takeWithdrawals; split
  · simp only [Port.all, List.foldl, State.withdraw_sweeps]
  · rfl

@[simp] theorem State.takeWithdrawals_sweepPos : s.takeWithdrawals.sweepPos = s.sweepPos := by
  unfold State.takeWithdrawals; split
  · simp only [Port.all, List.foldl, State.withdraw_sweepPos]
  · rfl

@[simp] theorem State.takeWithdrawals_sweepVisit : s.takeWithdrawals.sweepVisit = s.sweepVisit := by
  unfold State.takeWithdrawals; split
  · simp only [Port.all, List.foldl, State.withdraw_sweepVisit]
  · rfl

@[simp] theorem State.takeWithdrawals_ports : s.takeWithdrawals.ports = s.ports := by
  unfold State.takeWithdrawals; split
  · simp only [Port.all, List.foldl, State.withdraw_ports]
  · rfl

@[simp] theorem State.takeWithdrawals_links : s.takeWithdrawals.links = s.links := by
  unfold State.takeWithdrawals; split
  · simp only [Port.all, List.foldl, State.withdraw_links]
  · rfl

@[simp] theorem State.takeWithdrawals_pending : s.takeWithdrawals.pending = s.pending := by
  unfold State.takeWithdrawals; split
  · simp only [Port.all, List.foldl, State.withdraw_pending]
  · rfl


/-! ## What arbitrate leaves -/

@[simp] theorem State.arbitrate_held : s.arbitrate.held = s.held := by
  rw [State.arbitrate, State.grant_held, State.takeWithdrawals_held]

@[simp] theorem State.arbitrate_device : s.arbitrate.device = s.device := by
  rw [State.arbitrate, State.grant_device, State.takeWithdrawals_device]

@[simp] theorem State.arbitrate_maint : s.arbitrate.maint = s.maint := by
  rw [State.arbitrate, State.grant_maint, State.takeWithdrawals_maint]

@[simp] theorem State.arbitrate_passPos : s.arbitrate.passPos = s.passPos := by
  rw [State.arbitrate, State.grant_passPos, State.takeWithdrawals_passPos]

@[simp] theorem State.arbitrate_entries : s.arbitrate.entries = s.entries := by
  rw [State.arbitrate, State.grant_entries, State.takeWithdrawals_entries]

@[simp] theorem State.arbitrate_rows : s.arbitrate.rows = s.rows := by
  rw [State.arbitrate, State.grant_rows, State.takeWithdrawals_rows]

@[simp] theorem State.arbitrate_tallies : s.arbitrate.tallies = s.tallies := by
  rw [State.arbitrate, State.grant_tallies, State.takeWithdrawals_tallies]

@[simp] theorem State.arbitrate_freeList : s.arbitrate.freeList = s.freeList := by
  rw [State.arbitrate, State.grant_freeList, State.takeWithdrawals_freeList]

@[simp] theorem State.arbitrate_clearDue : s.arbitrate.clearDue = s.clearDue := by
  rw [State.arbitrate, State.grant_clearDue, State.takeWithdrawals_clearDue]

@[simp] theorem State.arbitrate_waits : s.arbitrate.waits = s.waits := by
  rw [State.arbitrate, State.grant_waits, State.takeWithdrawals_waits]

@[simp] theorem State.arbitrate_waitDue : s.arbitrate.waitDue = s.waitDue := by
  rw [State.arbitrate, State.grant_waitDue, State.takeWithdrawals_waitDue]

@[simp] theorem State.arbitrate_sweeps : s.arbitrate.sweeps = s.sweeps := by
  rw [State.arbitrate, State.grant_sweeps, State.takeWithdrawals_sweeps]

@[simp] theorem State.arbitrate_sweepPos : s.arbitrate.sweepPos = s.sweepPos := by
  rw [State.arbitrate, State.grant_sweepPos, State.takeWithdrawals_sweepPos]

@[simp] theorem State.arbitrate_sweepVisit : s.arbitrate.sweepVisit = s.sweepVisit := by
  rw [State.arbitrate, State.grant_sweepVisit, State.takeWithdrawals_sweepVisit]

@[simp] theorem State.arbitrate_ports : s.arbitrate.ports = s.ports := by
  rw [State.arbitrate, State.grant_ports, State.takeWithdrawals_ports]

@[simp] theorem State.arbitrate_links : s.arbitrate.links = s.links := by
  rw [State.arbitrate, State.grant_links, State.takeWithdrawals_links]

@[simp] theorem State.arbitrate_pending : s.arbitrate.pending = s.pending := by
  rw [State.arbitrate, State.grant_pending, State.takeWithdrawals_pending]

@[simp] theorem State.arbitrate_entry (j : Slot) : s.arbitrate.entry j = s.entry j := by
  simp only [State.entry, State.arbitrate_entries]

@[simp] theorem State.arbitrate_row (j : Slot) : s.arbitrate.row j = s.row j := by
  simp only [State.row, State.arbitrate_rows]

@[simp] theorem State.arbitrate_allocated (j : Slot) : s.arbitrate.allocated j = s.allocated j := by
  simp only [State.allocated, State.row, State.arbitrate_rows]

@[simp] theorem State.arbitrate_inbound (j : Slot) : s.arbitrate.inbound j = s.inbound j := by
  simp only [State.inbound, State.row, State.arbitrate_rows]

@[simp] theorem State.arbitrate_port (q : Port) : s.arbitrate.port q = s.port q := by
  simp only [State.port, State.arbitrate_ports]

@[simp] theorem State.arbitrate_portState (q : Port) : s.arbitrate.portState q = s.portState q := by
  simp only [State.portState, State.port, State.arbitrate_ports]

@[simp] theorem State.arbitrate_link (q : Port) : s.arbitrate.link q = s.link q := by
  simp only [State.link, State.arbitrate_links]

@[simp] theorem State.arbitrate_oldestWait (j : Slot) : s.arbitrate.oldestWait j = s.oldestWait j := by
  simp only [State.oldestWait, State.arbitrate_waits]

@[simp] theorem State.arbitrate_waitsOn (j : Slot) : s.arbitrate.waitsOn j = s.waitsOn j := by
  simp only [State.waitsOn, State.arbitrate_waits]

@[simp] theorem State.arbitrate_isMaintenance (q : Port) : s.arbitrate.isMaintenance q = s.isMaintenance q := by
  simp only [State.isMaintenance, State.arbitrate_maint]


/-! ## What abandon leaves -/

@[simp] theorem State.abandon_held (n : Port) : (s.abandon n).held = s.held := by
  unfold State.abandon; split
  · rfl
  · rfl
  · split
    · rfl
    · split
      · simp only [State.passToken_held, State.setExecutor_held]
      · rfl

@[simp] theorem State.abandon_device (n : Port) : (s.abandon n).device = s.device := by
  unfold State.abandon; split
  · rfl
  · rfl
  · split
    · rfl
    · split
      · simp only [State.passToken_device, State.setExecutor_device]
      · rfl

@[simp] theorem State.abandon_maint (n : Port) : (s.abandon n).maint = s.maint := by
  unfold State.abandon; split
  · rfl
  · rfl
  · split
    · rfl
    · split
      · simp only [State.passToken_maint, State.setExecutor_maint]
      · rfl

@[simp] theorem State.abandon_passPos (n : Port) : (s.abandon n).passPos = s.passPos := by
  unfold State.abandon; split
  · rfl
  · rfl
  · split
    · rfl
    · split
      · simp only [State.passToken_passPos, State.setExecutor_passPos]
      · rfl

@[simp] theorem State.abandon_entries (n : Port) : (s.abandon n).entries = s.entries := by
  unfold State.abandon; split
  · rfl
  · rfl
  · split
    · rfl
    · split
      · simp only [State.passToken_entries, State.setExecutor_entries]
      · rfl

@[simp] theorem State.abandon_rows (n : Port) : (s.abandon n).rows = s.rows := by
  unfold State.abandon; split
  · rfl
  · rfl
  · split
    · rfl
    · split
      · simp only [State.passToken_rows, State.setExecutor_rows]
      · rfl

@[simp] theorem State.abandon_tallies (n : Port) : (s.abandon n).tallies = s.tallies := by
  unfold State.abandon; split
  · rfl
  · rfl
  · split
    · rfl
    · split
      · simp only [State.passToken_tallies, State.setExecutor_tallies]
      · rfl

@[simp] theorem State.abandon_freeList (n : Port) : (s.abandon n).freeList = s.freeList := by
  unfold State.abandon; split
  · rfl
  · rfl
  · split
    · rfl
    · split
      · simp only [State.passToken_freeList, State.setExecutor_freeList]
      · rfl

@[simp] theorem State.abandon_clearDue (n : Port) : (s.abandon n).clearDue = s.clearDue := by
  unfold State.abandon; split
  · rfl
  · rfl
  · split
    · rfl
    · split
      · simp only [State.passToken_clearDue, State.setExecutor_clearDue]
      · rfl

@[simp] theorem State.abandon_inProgress (n : Port) : (s.abandon n).inProgress = s.inProgress := by
  unfold State.abandon; split
  · rfl
  · rfl
  · split
    · rfl
    · split
      · simp only [State.passToken_inProgress, State.setExecutor_inProgress]
      · rfl

@[simp] theorem State.abandon_lastGranted (n : Port) : (s.abandon n).lastGranted = s.lastGranted := by
  unfold State.abandon; split
  · rfl
  · rfl
  · split
    · rfl
    · split
      · simp only [State.passToken_lastGranted, State.setExecutor_lastGranted]
      · rfl

@[simp] theorem State.abandon_waits (n : Port) : (s.abandon n).waits = s.waits := by
  unfold State.abandon; split
  · rfl
  · rfl
  · split
    · rfl
    · split
      · simp only [State.passToken_waits, State.setExecutor_waits]
      · rfl

@[simp] theorem State.abandon_waitDue (n : Port) : (s.abandon n).waitDue = s.waitDue := by
  unfold State.abandon; split
  · rfl
  · rfl
  · split
    · rfl
    · split
      · simp only [State.passToken_waitDue, State.setExecutor_waitDue]
      · rfl

@[simp] theorem State.abandon_sweeps (n : Port) : (s.abandon n).sweeps = s.sweeps := by
  unfold State.abandon; split
  · rfl
  · rfl
  · split
    · rfl
    · split
      · simp only [State.passToken_sweeps, State.setExecutor_sweeps]
      · rfl

@[simp] theorem State.abandon_sweepPos (n : Port) : (s.abandon n).sweepPos = s.sweepPos := by
  unfold State.abandon; split
  · rfl
  · rfl
  · split
    · rfl
    · split
      · simp only [State.passToken_sweepPos, State.setExecutor_sweepPos]
      · rfl

@[simp] theorem State.abandon_sweepVisit (n : Port) : (s.abandon n).sweepVisit = s.sweepVisit := by
  unfold State.abandon; split
  · rfl
  · rfl
  · split
    · rfl
    · split
      · simp only [State.passToken_sweepVisit, State.setExecutor_sweepVisit]
      · rfl

@[simp] theorem State.abandon_ports (n : Port) : (s.abandon n).ports = s.ports := by
  unfold State.abandon; split
  · rfl
  · rfl
  · split
    · rfl
    · split
      · simp only [State.passToken_ports, State.setExecutor_ports]
      · rfl

@[simp] theorem State.abandon_links (n : Port) : (s.abandon n).links = s.links := by
  unfold State.abandon; split
  · rfl
  · rfl
  · split
    · rfl
    · split
      · simp only [State.passToken_links, State.setExecutor_links]
      · rfl

@[simp] theorem State.abandon_freeIndex (n : Port) : (s.abandon n).freeIndex = s.freeIndex := by
  unfold State.abandon; split
  · rfl
  · rfl
  · split
    · rfl
    · split
      · simp only [State.passToken_freeIndex, State.setExecutor_freeIndex]
      · rfl

@[simp] theorem State.abandon_pending (n : Port) : (s.abandon n).pending = s.pending := by
  unfold State.abandon; split
  · rfl
  · rfl
  · split
    · rfl
    · split
      · simp only [State.passToken_pending, State.setExecutor_pending]
      · rfl

@[simp] theorem State.abandon_entry (n : Port) (j : Slot) : (s.abandon n).entry j = s.entry j := by
  simp only [State.entry, State.abandon_entries]

@[simp] theorem State.abandon_row (n : Port) (j : Slot) : (s.abandon n).row j = s.row j := by
  simp only [State.row, State.abandon_rows]

@[simp] theorem State.abandon_allocated (n : Port) (j : Slot) : (s.abandon n).allocated j = s.allocated j := by
  simp only [State.allocated, State.row, State.abandon_rows]

@[simp] theorem State.abandon_inbound (n : Port) (j : Slot) : (s.abandon n).inbound j = s.inbound j := by
  simp only [State.inbound, State.row, State.abandon_rows]

@[simp] theorem State.abandon_port (n : Port) (q : Port) : (s.abandon n).port q = s.port q := by
  simp only [State.port, State.abandon_ports]

@[simp] theorem State.abandon_portState (n : Port) (q : Port) : (s.abandon n).portState q = s.portState q := by
  simp only [State.portState, State.port, State.abandon_ports]

@[simp] theorem State.abandon_link (n : Port) (q : Port) : (s.abandon n).link q = s.link q := by
  simp only [State.link, State.abandon_links]

@[simp] theorem State.abandon_oldestWait (n : Port) (j : Slot) : (s.abandon n).oldestWait j = s.oldestWait j := by
  simp only [State.oldestWait, State.abandon_waits]

@[simp] theorem State.abandon_waitsOn (n : Port) (j : Slot) : (s.abandon n).waitsOn j = s.waitsOn j := by
  simp only [State.waitsOn, State.abandon_waits]

@[simp] theorem State.abandon_isMaintenance (n : Port) (q : Port) : (s.abandon n).isMaintenance q = s.isMaintenance q := by
  simp only [State.isMaintenance, State.abandon_maint]


/-! ## What dropForward leaves -/

@[simp] theorem State.dropForward_held (c : Content) : (s.dropForward c).held = s.held := by cases c <;> rfl

@[simp] theorem State.dropForward_device (c : Content) : (s.dropForward c).device = s.device := by cases c <;> rfl

@[simp] theorem State.dropForward_maint (c : Content) : (s.dropForward c).maint = s.maint := by cases c <;> rfl

@[simp] theorem State.dropForward_passPos (c : Content) : (s.dropForward c).passPos = s.passPos := by cases c <;> rfl

@[simp] theorem State.dropForward_entries (c : Content) : (s.dropForward c).entries = s.entries := by cases c <;> rfl

@[simp] theorem State.dropForward_tallies (c : Content) : (s.dropForward c).tallies = s.tallies := by cases c <;> rfl

@[simp] theorem State.dropForward_freeList (c : Content) : (s.dropForward c).freeList = s.freeList := by cases c <;> rfl

@[simp] theorem State.dropForward_clearDue (c : Content) : (s.dropForward c).clearDue = s.clearDue := by cases c <;> rfl

@[simp] theorem State.dropForward_inProgress (c : Content) : (s.dropForward c).inProgress = s.inProgress := by
  cases c <;> rfl

@[simp] theorem State.dropForward_lastGranted (c : Content) : (s.dropForward c).lastGranted = s.lastGranted := by
  cases c <;> rfl

@[simp] theorem State.dropForward_execs (c : Content) : (s.dropForward c).execs = s.execs := by cases c <;> rfl

@[simp] theorem State.dropForward_waits (c : Content) : (s.dropForward c).waits = s.waits := by cases c <;> rfl

@[simp] theorem State.dropForward_waitDue (c : Content) : (s.dropForward c).waitDue = s.waitDue := by cases c <;> rfl

@[simp] theorem State.dropForward_serial (c : Content) : (s.dropForward c).serial = s.serial := by cases c <;> rfl

@[simp] theorem State.dropForward_sweeps (c : Content) : (s.dropForward c).sweeps = s.sweeps := by cases c <;> rfl

@[simp] theorem State.dropForward_sweepPos (c : Content) : (s.dropForward c).sweepPos = s.sweepPos := by cases c <;> rfl

@[simp] theorem State.dropForward_sweepVisit (c : Content) : (s.dropForward c).sweepVisit = s.sweepVisit := by
  cases c <;> rfl

@[simp] theorem State.dropForward_ports (c : Content) : (s.dropForward c).ports = s.ports := by cases c <;> rfl

@[simp] theorem State.dropForward_links (c : Content) : (s.dropForward c).links = s.links := by cases c <;> rfl

@[simp] theorem State.dropForward_freeIndex (c : Content) : (s.dropForward c).freeIndex = s.freeIndex := by
  cases c <;> rfl

@[simp] theorem State.dropForward_pending (c : Content) : (s.dropForward c).pending = s.pending := by cases c <;> rfl

@[simp] theorem State.dropForward_entry (c : Content) (j : Slot) : (s.dropForward c).entry j = s.entry j := by
  simp only [State.entry, State.dropForward_entries]

@[simp] theorem State.dropForward_port (c : Content) (q : Port) : (s.dropForward c).port q = s.port q := by
  simp only [State.port, State.dropForward_ports]

@[simp] theorem State.dropForward_portState (c : Content) (q : Port) : (s.dropForward c).portState q = s.portState q := by
  simp only [State.portState, State.port, State.dropForward_ports]

@[simp] theorem State.dropForward_link (c : Content) (q : Port) : (s.dropForward c).link q = s.link q := by
  simp only [State.link, State.dropForward_links]

@[simp] theorem State.dropForward_executor (c : Content) (q : Port) : (s.dropForward c).executor q = s.executor q := by
  simp only [State.executor, State.dropForward_execs]

@[simp] theorem State.dropForward_oldestWait (c : Content) (j : Slot) : (s.dropForward c).oldestWait j = s.oldestWait j := by
  simp only [State.oldestWait, State.dropForward_waits]

@[simp] theorem State.dropForward_waitsOn (c : Content) (j : Slot) : (s.dropForward c).waitsOn j = s.waitsOn j := by
  simp only [State.waitsOn, State.dropForward_waits]

@[simp] theorem State.dropForward_isMaintenance (c : Content) (q : Port) : (s.dropForward c).isMaintenance q = s.isMaintenance q := by
  simp only [State.isMaintenance, State.dropForward_maint]


/-! ## The arbiter's turn: withdrawals and the grant -/

/-- With no pending cycle to withdraw, the arbiter's turn is its grant. -/
theorem State.takeWithdrawals_of_none (h : ∀ p, s.withdrawing p = false) : s.takeWithdrawals = s := by
  unfold State.takeWithdrawals
  rw [if_neg]
  simp [h]

theorem State.arbitrate_of_none (h : ∀ p, s.withdrawing p = false) : s.arbitrate = s.grant := by
  rw [State.arbitrate, State.takeWithdrawals_of_none s h]

/-- An executor that has not been abandoned has no cycle to withdraw. -/
theorem State.withdrawing_of_not_abandoned {p : Port} (h : (s.executor p).abandoned = false) :
    s.withdrawing p = false := by
  simp [State.withdrawing, h]

/-- An executor without a cycle has none to withdraw. -/
theorem State.withdrawing_of_no_cycle {p : Port} (h : (s.executor p).hasCycle = false) : s.withdrawing p = false := by
  simp [State.withdrawing, h]

/-- In CLEARING no cycle is to be withdrawn (R36). -/
theorem State.withdrawing_of_clearing (h : s.device = .clearing) (p : Port) : s.withdrawing p = false := by
  simp [State.withdrawing, h]

/-- The withdrawals change nothing but executors, the Link Serializer and the free values' index (R27, R51). -/
theorem State.takeWithdrawals_eq : ∃ x y i, s.takeWithdrawals = { s with execs := x, serial := y, freeIndex := i } :=
  ⟨s.takeWithdrawals.execs, s.takeWithdrawals.serial, s.takeWithdrawals.freeIndex, by rw [State.ext_iff]; simp⟩

/-- The grant changes nothing but the cycle in progress and last granted (R28, R29). -/
theorem State.grant_eq : ∃ r l, s.grant = { s with inProgress := r, lastGranted := l } :=
  ⟨s.grant.inProgress, s.grant.lastGranted, by rw [State.ext_iff]; simp⟩

/-- Outside READY, or with a cycle in progress, nothing is granted (R29). -/
theorem State.grant_of_busy (h : s.device ≠ .ready ∨ s.inProgress ≠ none) : s.grant = s := by
  unfold State.grant
  rw [if_neg]
  rintro ⟨hd, hp⟩
  rcases h with h | h
  · exact h hd
  · exact h hp

/-- In CLEARING the arbiter's turn does nothing (R29, R36). -/
theorem State.arbitrate_of_clearing (h : s.device = .clearing) : s.arbitrate = s := by
  rw [State.arbitrate_of_none s (State.withdrawing_of_clearing s h), State.grant_of_busy s (Or.inl (by simp [h]))]

/-- Every requestor stands once in a rotation. -/
theorem mem_grantOrder (l r : Requestor) : r ∈ grantOrder l := by
  cases l with
  | sweeper => cases r with
    | sweeper => decide
    | executor p => cases p <;> decide
  | executor q => cases q <;> (cases r with
    | sweeper => decide
    | executor p => cases p <;> decide)

/-- After the grant, in READY, a cycle is in progress or none is pending (R29). -/
theorem State.grant_serves (hd : s.device = .ready) (hn : s.grant.inProgress = none) (r : Requestor) :
    s.hasCycle r = false := by
  unfold State.grant at hn
  by_cases hp : s.inProgress = none
  · rw [if_pos ⟨hd, hp⟩] at hn
    split at hn
    · simp at hn
    · rename_i h
      simpa using List.find?_eq_none.1 h r (mem_grantOrder _ r)
  · rw [if_neg (fun h => hp h.2)] at hn
    exact absurd hn hp

/-! ## The completion of a cycle -/

/-- A cycle that leaves a request with a finished reply, its request not abandoned (R25). -/
theorem State.complete_finish (n : Port) (r : Reply) (h : (s.executor n).abandoned = false) :
    s.complete n (.finish r) = ((State.postReply { s with inProgress := none } n r).endRequest n).afterCompletion := by
  have h' : (State.executor { s with inProgress := none } n).abandoned = false := h
  simp [State.complete, h']

/-- A cycle of an abandoned request ends it without a reply (R131). -/
theorem State.complete_abandoned (n : Port) (o : CycleEnd) (h : (s.executor n).abandoned = true) :
    s.complete n o = (State.endRequest { s with inProgress := none } n).afterCompletion := by
  have h' : (State.executor { s with inProgress := none } n).abandoned = true := h
  simp [State.complete, h']

/-- A request that is not a LINK ends by its executor going IDLE. -/
theorem State.endRequest_of_not_link (n : Port) (h : (s.executor n).onLink = false) :
    s.endRequest n = s.setExecutor n .idle := by
  simp [State.endRequest, h]

/-- The request whose cycle is in progress. -/
theorem State.cycleOf_eq_some (n : Port) (w : Work) (rq : Request) : s.cycleOf n w = some rq ↔
    s.inProgress = some (.executor n) ∧ (s.executor n).state = .running w ∧ (s.executor n).current = some rq := by
  unfold State.cycleOf
  constructor
  · intro h
    split at h
    · rename_i hh; exact ⟨hh.1, hh.2, h⟩
    · simp at h
  · rintro ⟨h1, h2, h3⟩
    rw [if_pos ⟨h1, h2⟩, h3]

/-- The request an executor takes next. -/
theorem State.nextRequest_eq_some (n : Port) (rq : Request) : s.nextRequest n = some rq ↔
    (s.executor n).state = .idle ∧ (s.port n).requestQueue.head? = some rq := by
  unfold State.nextRequest
  constructor
  · intro h
    split at h
    · rename_i hh; exact ⟨hh, h⟩
    · simp at h
  · rintro ⟨h1, h2⟩
    rw [if_pos h1, h2]

end Sys2Proof.Machine
end

