-- ==== Sys2Proof/Laws/Completion.lean ====
section
/-! SUPPORT. What the shared operations do, in the words of the statements: how a cycle completes, what the tests of an
entry answer, what a notice, a loss, an entry to CLEARING, the end of a sweep pass and a visit do. -/

namespace Sys2Proof.Machine

variable (s : State)

/-! ## The completion of a cycle (R25, R131) -/

/-- A request other than a LINK that ends with a reply. -/
theorem State.complete_finish_eq (n : Port) (r : Reply) (h : (s.executor n).onLink = false) :
    s.complete n (.finish r) = (s.endedWith n r).afterCompletion := by
  unfold State.complete State.endedWith State.replyTo
  have e1 : (State.executor { s with inProgress := none } n) = s.executor n := rfl
  simp only [e1]
  split
  · rw [State.endRequest_of_not_link _ _ (by exact h)]; rfl
  · rw [State.endRequest_of_not_link _ _ (by exact h)]; rfl

/-- A request other than a LINK that ends without one. -/
theorem State.complete_endSilent_eq (n : Port) (h : (s.executor n).onLink = false) :
    s.complete n .endSilent = (s.cycleEnded n).afterCompletion := by
  unfold State.complete
  have e1 : (State.executor { s with inProgress := none } n) = s.executor n := rfl
  simp only [e1]
  split <;> (rw [State.endRequest_of_not_link _ _ (by exact h)]; rfl)

/-- A LINK that ends with a reply: its token passes on. -/
theorem State.complete_finish_link (n : Port) (r : Reply) (h : (s.executor n).onLink = true) :
    s.complete n (.finish r) = (s.endedWith n r).passToken.afterCompletion := by
  unfold State.complete State.endedWith State.replyTo
  have e1 : (State.executor { s with inProgress := none } n) = s.executor n := rfl
  simp only [e1]
  split
  · unfold State.endRequest; rw [if_pos (by exact h)]; rfl
  · unfold State.endRequest; rw [if_pos (by exact h)]; rfl

theorem Executor.onLink_of_link {e : Executor} {tag : Tag} {k t : Slot} (h : e.current = some ⟨tag, .link k t⟩) :
    e.onLink = true := by
  unfold Executor.onLink; rw [h]

theorem Executor.not_onLink {e : Executor} {rq : Request} (h : e.current = some rq)
    (h2 : ∀ a b, rq.op ≠ .link a b) : e.onLink = false := by
  unfold Executor.onLink; rw [h]
  obtain ⟨tag, op⟩ := rq
  cases op <;> first | rfl | exact absurd rfl (h2 _ _)

theorem State.replyTo_ports_congr {s u : State} {n : Port} {r : Reply} (h1 : u.executor n = s.executor n)
    (h2 : u.ports = s.ports) : (u.replyTo n r).ports = (s.replyTo n r).ports := by
  unfold State.replyTo; rw [h1]; split
  · exact h2
  · simp only [State.postReply, State.setPort, State.port, h2]

/-- The end of a cycle that wrote the directory, the Wait Table or the ports and nothing else; p is a state with the
same ports and executor. -/
theorem State.endedWith_eq {s u : State} (p : State) {n : Port} {r : Reply} (hx : u.executor n = p.executor n)
    (hp : u.ports = p.ports)
    (hs : u.cycleEnded n = { s.cycleEnded n with
      entries := u.entries, rows := u.rows, tallies := u.tallies, waits := u.waits, freeList := u.freeList
      ports := u.ports }) :
    u.endedWith n r = { s.cycleEnded n with
      entries := u.entries, rows := u.rows, tallies := u.tallies, waits := u.waits, freeList := u.freeList
      ports := (p.replyTo n r).ports } := by
  unfold State.endedWith
  rw [State.replyTo_ports_congr hx hp, hs]

/-- The request of a walk's terminal cycle (R42). -/
theorem State.atTerminal_eq {s : State} {n : Port} {rq : Request} {k : Slot} (h1 : s.cycleOf n .walk = some rq)
    (h2 : (s.executor n).walkPos = k) (h3 : s.allocated k = true) (h4 : ∀ t, (s.entry k).content ≠ .forward t) :
    s.atTerminal n = some rq := by
  unfold State.atTerminal
  rw [h2, if_pos]
  · exact h1
  · refine ⟨h3, ?_⟩
    cases h : (s.entry k).content <;> simp_all [Content.isForward]

/-! ## Permission (R62, R107) -/

theorem State.modifyRefusal_passes {s : State} {n : Port} {k : Slot} (h : s.modifyPasses n k) :
    modifyRefusal s.portState n (s.entry k) = none := by
  unfold State.modifyPasses at h; unfold modifyRefusal
  rcases h with h | ⟨h, h2⟩ <;> simp [h]
  simp [h2]

theorem State.modifyRefusal_fails {s : State} {n : Port} {k : Slot} {st : Status} (h : s.modifyFails n k st) :
    modifyRefusal s.portState n (s.entry k) = some st := by
  obtain ⟨q, hq, h⟩ := h
  unfold modifyRefusal ownerRefusal
  rcases h with ⟨a, rfl⟩ | ⟨a, b, c, rfl⟩ | ⟨a, b, c, rfl⟩ <;> simp [*]

theorem State.ownerOnlyRefusal_fails {s : State} {n : Port} {k : Slot} {st : Status}
    (h : s.modifyFails n k st ∨ ((s.entry k).owner = none ∧ st = .notOwner)) :
    ownerOnlyRefusal s.portState n (s.entry k) = some st := by
  rcases h with ⟨q, hq, h⟩ | ⟨h, rfl⟩
  · unfold ownerOnlyRefusal ownerRefusal
    rcases h with ⟨a, rfl⟩ | ⟨a, b, c, rfl⟩ | ⟨a, b, c, rfl⟩ <;> simp [*]
  · simp [ownerOnlyRefusal, h]

theorem State.terminalRefusal_fails {s : State} {n : Port} {k : Slot} {flag : Bool} {st : Status}
    (h : s.flagFails n k flag st) : terminalRefusal s.portState n (s.entry k) flag = some st := by
  obtain ⟨hf, q, hq, h⟩ := h
  unfold terminalRefusal ownerRefusal
  rcases h with ⟨a, rfl⟩ | ⟨a, b, c, rfl⟩ | ⟨a, b, c, rfl⟩ <;> simp [*]

theorem State.terminalRefusal_passes {s : State} {n : Port} {k : Slot} {flag : Bool} (h : s.flagPasses n k flag) :
    terminalRefusal s.portState n (s.entry k) flag = none := by
  unfold State.flagPasses State.modifyPasses at h; unfold terminalRefusal
  rcases h with h | h | ⟨h, h2⟩
  · cases ho : (s.entry k).owner <;> simp [h]
  · simp [h]
  · simp [h, h2]

/-! ## The pass (R33) -/

theorem State.entry_passWrite (k j : Slot) : (s.passWrite k).entry j = if j = k then Entry.default else s.entry j := by
  have key := Table.get_set (fun _ => Entry.default) j k Entry.default s.entries
  unfold State.passWrite
  split <;> split <;> exact key

theorem State.row_passWrite (k j : Slot) : (s.passWrite k).row j = if j = k then Row.default k else s.row j := by
  have key := Table.get_set Row.default j k (Row.default k) s.rows
  unfold State.passWrite
  split <;> split <;> exact key

theorem State.passWrite_frame (k : Slot) : s.passWrite k = { s with
    entries := (s.passWrite k).entries, rows := (s.passWrite k).rows, tallies := (s.passWrite k).tallies
    freeList := (s.passWrite k).freeList } := by
  unfold State.passWrite
  split <;> split <;> rfl

theorem State.passWrite_wrote (k : Slot) : PassWrote k s (s.passWrite k) := by
  refine ⟨State.entry_passWrite s k, fun j => ?_, ?_, ?_⟩
  · rw [State.row_passWrite]
    unfold Row.default
    have : (k < 256) = (k ≤ 255) := propext Nat.lt_succ_iff
    simp only [this]
  · unfold State.passWrite; split <;> split <;> rfl
  · unfold State.passWrite
    by_cases hk : k = 0
    · subst hk; rfl
    · by_cases h2 : k < Config.fixedSlots
      · have : ¬ 256 ≤ k := Nat.not_le.2 h2
        simp [hk, h2, this]
      · have : 256 ≤ k := Nat.not_lt.1 h2
        simp [hk, h2, this]

/-! ## Events and entry to CLEARING (R36, R145, R153) -/

theorem PortControl.push_flushed (c : PortControl) (e : Event) (h : c.eventQueue = []) : c.push e =
    { c with eventQueue := [{ seq := c.seqCounter, event := e }], seqCounter := c.seqCounter + 1 } := by
  unfold PortControl.push
  rw [h, if_pos (by decide)]
  unfold PortControl.append
  rw [h]; rfl

theorem inFreeOrder_cases (b : Bool) (x y : List Reply) : inFreeOrder b x y = x ++ y ∨ inFreeOrder b x y = y ++ x := by
  cases x <;> cases y <;> cases b <;> simp [inFreeOrder]

/-- What a PORTS notice does to each port. -/
theorem State.postNotice_port (k : EventKind) (n : Port) (r : Option LossReason) (p : Port)
    (hk : k = .portAttached ∨ k = .portDetached ∨ k = .portLost ∨ k = .sweepDone) :
    (s.postNotice k n r).port p =
      if p ≠ n ∧ s.portState p = .attached ∧ (s.port p).mask.ports = true then
        (s.port p).push { kind := k, entry := none, value := none, cause := .device, subject := some n, reason := r
                          lost := none }
      else s.port p := by
  unfold State.postNotice
  rw [State.postEvent_port]
  have : (s.port p).admits p { kind := k, entry := none, value := none, cause := .device, subject := some n
                               reason := r, lost := none }
      = (decide (s.portState p = .attached) && (s.port p).mask.ports) := by
    unfold PortControl.admits
    rcases hk with rfl | rfl | rfl | rfl <;> simp [EventMask.admits, State.portState] <;> rfl
  rw [this]
  by_cases h1 : p = n <;> by_cases h2 : s.portState p = .attached <;> cases h3 : (s.port p).mask.ports <;>
    simp [h1, h2]

theorem State.enterClearing_port (p : Port) :
    s.enterClearing.port p = clearingPort s.freeIndex s.waits p (s.executor p) (s.port p) := by
  simp only [State.enterClearing, State.port, PerPort.get_mapPorts]

/-- The operation `enterClearing` is an entry to CLEARING. -/
theorem State.enterClearing_enters : EntersClearing s s.enterClearing := by
  have hp := State.enterClearing_port s
  refine ⟨?_, ?_, ?_, ?_, ?_, ?_⟩
  · unfold State.enterClearing; rfl
  · intro p; simp only [State.enterClearing, State.executor, PerPort.get_mapPorts]; rfl
  · intro p
    refine ⟨_, _, rfl, rfl, ?_⟩
    have key := inFreeOrder_cases (Config.parkedCancelledFirst s.freeIndex p)
      (if (s.port p).portState = .attached ∧ (s.executor p).onClearDirectory = false then
        ((s.executor p).current.map (fun rq => bareReply rq .cancelled)).toList else [])
      ((s.waits.filter (fun w => decide (w.port = p))).map fun w => waitReply w .cancelled none none)
    rw [hp]
    unfold clearingPort stoppedReplies
    simp only [State.portState]
    split
    · rw [PortControl.push_flushed _ _ rfl]
      dsimp only
      rcases key with h | h
      · left; rw [h, List.append_assoc]; rfl
      · right; rw [h, List.append_assoc]; rfl
    · dsimp only
      rcases key with h | h
      · left; rw [h, List.append_assoc]; rfl
      · right; rw [h, List.append_assoc]; rfl
  · intro p h
    rw [hp]; unfold clearingPort
    simp only [State.portState] at h
    dsimp only
    rw [if_pos h, PortControl.push_flushed _ _ rfl]
    exact ⟨rfl, rfl⟩
  · intro p
    rw [hp]; unfold clearingPort
    dsimp only
    split
    · rw [PortControl.push_flushed _ _ rfl]
    · rfl
  · intro p h
    rw [hp]; unfold clearingPort
    simp only [State.portState] at h
    dsimp only
    rw [if_neg h]
    exact ⟨rfl, rfl⟩

/-! ## Session loss (R51, R130, R131) -/

theorem State.abandon_frame (n : Port) :
    s.abandon n = { s with execs := (s.abandon n).execs, serial := (s.abandon n).serial } := by
  rw [State.ext_iff]; simp

/-- The operation `startLoss` starts a loss, and the arbiter takes its turn. -/
theorem State.startLoss_started (n : Port) (reason : LossReason) :
    ∃ t : State, s.startLoss n reason = t.arbitrate ∧ LossStarted s n reason t := by
  unfold State.startLoss
  dsimp only
  refine ⟨_, rfl, ?_⟩
  have hidle : (s.executor n).state = .idle → s.abandon n = s := fun h => by simp [State.abandon, h]
  have hwait : (s.executor n).state = .tokenWait →
      s.abandon n = State.setExecutor { s with serial := s.serial.leave n } n .idle :=
    fun h => by simp [State.abandon, h]
  have hwork : ∀ w, (s.executor n).state = .running w →
      (s.inProgress = some (.executor n) ∨ (w ≠ .clearing ∧ w ≠ .awaitPass ∧ s.device ≠ .clearing)) →
      s.abandon n =
        State.setExecutor { s with serial := s.serial.recall n } n { s.executor n with abandoned := true } := by
    intro w h h2
    simp only [State.abandon, h]
    rw [if_pos]
    exact h2.imp_right fun ⟨h3, h4, h5⟩ => ⟨by cases w <;> simp_all [Work.needsCycle], h5⟩
  have hstop : ∀ w, (s.executor n).state = .running w → s.inProgress ≠ some (.executor n) →
      (w = .clearing ∨ w = .awaitPass ∨ s.device = .clearing) →
      s.abandon n = if s.serial.token = .held n then (s.setExecutor n .idle).passToken else s.setExecutor n .idle := by
    intro w h h2 h3
    simp only [State.abandon, h]
    rw [if_neg]
    rintro (h4 | ⟨h4, h5⟩)
    · exact h2 h4
    · rcases h3 with rfl | rfl | h3
      · simp [Work.needsCycle] at h4
      · simp [Work.needsCycle] at h4
      · exact h5 h3
  have hf := State.abandon_frame s n
  generalize s.abandon n = a at *
  obtain ⟨x, y, hxy⟩ : ∃ x y, a = { s with execs := x, serial := y } := ⟨_, _, hf⟩
  clear hf
  let b : State := { s with
    ports := s.ports.set n ((s.port n).lose reason), links := s.links.set n { s.link n with ackBuffer := [] }
    execs := x, serial := y, waits := s.waits.filter (fun w => decide (w.port ≠ n))
    sweeps := s.sweeps ++ [SweepRecord.mk n (.loss reason)] }
  have hb : ∀ z : State, z = b.postNotice .portLost n (some reason) → LossStarted s n reason z := by
    have hports : ∀ p, b.port p = if p = n then (s.port n).lose reason else s.port p :=
      fun p => PerPort.get_set _ _ _ _
    have hstate : ∀ p, b.portState p = if p = n then .closing else s.portState p := by
      intro p; unfold State.portState; rw [hports]; split <;> rfl
    intro z hz
    have hex : z.execs = a.execs := by rw [hz, hxy]; rfl
    have hse : z.serial = a.serial := by rw [hz, hxy]; rfl
    have hpz : ∀ p, z.port p = (b.postNotice .portLost n (some reason)).port p := by intro p; rw [hz]
    refine ⟨by rw [hz]; rfl, ?_, ?_, by rw [hz]; rfl, ?_, ?_, ?_, ?_, ?_⟩
    · rw [hpz, State.postNotice_port _ _ _ _ _ (by simp), hports]
      simp [PortControl.lose]
    · intro p hp
      rw [hpz, State.postNotice_port _ _ _ _ _ (by simp)]
      simp [hports, hp, hstate]
    · intro h; rw [hex, hse, hidle h]; exact ⟨rfl, rfl⟩
    · intro h; rw [hex, hse, hwait h]; exact ⟨rfl, rfl⟩
    · intro w h h2; rw [hex, hse, hwork w h h2]; exact ⟨rfl, rfl⟩
    · intro w h h2 h3 h7
      rw [hex, hse, hstop w h h2 h3, if_pos h7]
      have hs : (s.setExecutor n .idle).serial = s.serial := rfl
      constructor
      · intro h4
        unfold State.passToken; rw [hs, h4]; exact ⟨rfl, rfl⟩
      · intro p rest tag named target h4 hp h6
        unfold State.passToken; rw [hs, h4]
        dsimp only
        rw [State.executor_setExecutor_of_ne _ _ hp]
        refine ⟨rfl, ?_⟩
        show (s.execs.set n .idle).set p (s.executor p).resume = _
        rw [Executor.resume, h6]
    · intro w h h2 h3 h7; rw [hex, hse, hstop w h h2 h3, if_neg h7]; exact ⟨rfl, rfl⟩
  refine hb _ ?_
  subst hxy
  rfl

/-! ## A forward dropped (R12) -/

theorem State.dropForward_frame (c : Content) : s.dropForward c = { s with rows := (s.dropForward c).rows } := by
  cases c <;> rfl

theorem State.dropForward_row (c : Content) (j : Slot) : (s.dropForward c).row j =
    { s.row j with inbound := (s.row j).inbound - if c = Content.forward j then 1 else 0 } := by
  cases c with
  | empty => simp [State.dropForward]
  | value v => simp [State.dropForward]
  | forward t =>
    show (s.lowerInbound t).row j = _
    rw [State.row_lowerInbound]
    by_cases h : j = t
    · subst h; simp
    · have : ¬ t = j := fun h' => h h'.symm
      simp [h, this]

/-! ## Sweep passes and visits (R135 to R137) -/

theorem State.countsZero_iff (p : Port) : s.countsZero p = true ↔ s.tallies.get p = { owned := 0, watch := 0 } := by
  unfold State.countsZero; rw [Tally.ext_iff]; simp

theorem State.closeRecord_frame (st : Status) (r : SweepRecord) :
    s.closeRecord st r = { s with ports := (s.closeRecord st r).ports } := by
  unfold State.closeRecord
  cases r.detachReply st <;> rfl

/-- The operation `endPass` ends the head record's pass. -/
theorem State.endPass_ended (r : SweepRecord) (rest : List SweepRecord) (h : s.sweeps = r :: rest) :
    PassEnded s r rest s.endPass := by
  unfold State.endPass; rw [h]; dsimp only
  refine ⟨?_, ?_, ?_⟩
  · conv_lhs => rw [State.closeRecord_frame]
  · show (s.closeRecord .ok r).port r.port = _
    unfold State.closeRecord
    dsimp only
    rw [State.postNotice_port _ _ _ _ _ (by simp), if_neg (by simp)]
    obtain ⟨rp, rk⟩ := r
    rcases rk with ⟨_ | tag, c⟩ | x <;> simp [SweepRecord.detachReply, State.stateAfterClosing, State.postReply]
  · intro p hp
    show (s.closeRecord .ok r).port p = _
    unfold State.closeRecord
    dsimp only
    rw [State.postNotice_port _ _ _ _ _ (by simp)]
    obtain ⟨rp, rk⟩ := r
    rcases rk with ⟨_ | tag, c⟩ | x <;>
      simp [SweepRecord.detachReply, State.postReply, hp, State.portState, SweepRecord.reason] <;> rfl

/-- The Sweeper's test of the head record (R135). -/
theorem State.sweepTest_cons {s : State} {r : SweepRecord} {rest : List SweepRecord} (h : s.sweeps = r :: rest) :
    s.sweepTest = if s.tallies.get r.port = { owned := 0, watch := 0 } then s.endPass
      else { s with sweepVisit := true } := by
  unfold State.sweepTest; rw [h]; dsimp only
  simp only [State.countsZero_iff]

/-- A LOSS record whose pass may start has its executor stopped (R134). -/
theorem State.sweepMayStart_loss {s : State} {r : SweepRecord} (h : s.sweepMayStart r = true) :
    (∃ x, r.kind = .loss x) → (s.executor r.port).abandoned = false := by
  rintro ⟨x, hx⟩
  unfold State.sweepMayStart at h
  rw [hx] at h
  simpa using h

/-- The tests that the Sweeper makes ahead of an entry end the first records' passes: some, none or all. -/
theorem State.testsAhead_ended (m : Nat) : ∀ s : State, ∃ ended, PassesEnded ended s (s.testsAhead m) := by
  induction m with
  | zero => exact fun s => ⟨[], rfl⟩
  | succ m ih =>
    intro s
    unfold State.testsAhead
    split
    · exact ⟨[], rfl⟩
    · next r rest hr =>
      split
      · next h =>
        obtain ⟨ended, he⟩ := ih (State.endPass { s with freeIndex := s.freeIndex + 1 })
        exact ⟨r :: ended, rest, s.freeIndex + 1, _, hr, State.sweepMayStart_loss h.2.2.1,
          (State.countsZero_iff _ _).1 h.2.2.2, State.endPass_ended _ r rest hr, he⟩
      · exact ⟨[], rfl⟩

/-- The end of a completion with an entry to CLEARING due: the Sweeper's tests ahead of it, and the entry. -/
theorem State.afterCompletion_of_due {s : State} (h : s.clearDue = true) :
    s.afterCompletion = (s.testsAhead s.sweeps.length).enterClearing := by
  unfold State.afterCompletion
  rw [if_pos h, State.arbitrate_of_clearing]
  rfl

/-- In READY a STATUS shows the length of the free list as it stands. -/
theorem State.freeLength_of_ready {s : State} (h : s.device = .ready) : s.freeLength = s.freeList.length :=
  if_neg fun hp => hp.1 h

/-- Before a pass has written a slot, a STATUS shows the length of the free list as it stood (R34). -/
theorem State.freeLength_of_start {s : State} (h : s.passPos = 0) : s.freeLength = s.freeList.length :=
  if_neg fun hp => absurd hp.2 (by rw [h]; exact Nat.lt_irrefl 0)

/-- Part-way through a pass, a STATUS shows the length that the completed pass leaves (R34). -/
theorem State.freeLength_of_midPass {s : State} (h : s.device ≠ .ready) (hp : 0 < s.passPos) : s.freeLength = 3840 :=
  if_pos ⟨h, hp⟩

theorem State.sweepVisit_eq {s : State} {r : SweepRecord} {rest : List SweepRecord} {k : Slot}
    (h1 : s.inProgress = some .sweeper) (h2 : s.sweeps = r :: rest) (h3 : s.sweepPos = k) :
    exec .sweepVisit s = .next ((s.visit r.port k).afterVisit k) := by
  simp only [exec, execSweepVisit, h2]; rw [if_pos h1, h3]

/-- The first part of a visit: the swept port's watch is removed. -/
theorem State.visit_unwatch (p : Port) (k : Slot) : ∃ entries tallies,
    (if (s.entry k).watch.get p then
      (s.setEntry k { s.entry k with watch := (s.entry k).watch.set p false }).lowerWatch p else s)
      = { s with entries := entries, tallies := tallies } ∧
    (∀ j, Table.get (fun _ => Entry.default) j entries =
      if j = k then { s.entry k with watch := (s.entry k).watch.set p false } else s.entry j) ∧
    ∀ q, tallies.get q = { s.tallies.get q with
      watch := (s.tallies.get q).watch - if q = p ∧ (s.entry k).watch.get q = true then 1 else 0 } := by
  cases h : (s.entry k).watch.get p
  · refine ⟨s.entries, s.tallies, rfl, ?_, ?_⟩
    · intro j
      have : (s.entry k).watch.set p false = (s.entry k).watch := by rw [← h, PerPort.set_get_self]
      rw [this]; split
      · rename_i h; subst h; rfl
      · rfl
    · intro q
      by_cases hq : q = p
      · subst hq; simp [h]
      · simp [hq]
  · refine ⟨_, _, rfl, ?_, ?_⟩
    · intro j; exact State.entry_setEntry s j k _
    · intro q
      show ((s.setEntry k _).lowerWatch p).tallies.get q = _
      rw [State.lowerWatch_tally]
      by_cases hq : q = p
      · subst hq; simp [h]
      · simp [hq]

theorem State.countDisposition_eq (d : Disposition) (r : SweepRecord) (rest : List SweepRecord)
    (h : s.sweeps = r :: rest) : s.countDisposition d = { s with sweeps := countedHead r d :: rest } := by
  unfold State.countDisposition; rw [h]
  obtain ⟨rp, rk⟩ := r
  cases rk with
  | loss x => rfl
  | detach t c => cases d <;> simp [countedHead, SweepRecord.count, DispositionCounts.raise]

end Sys2Proof.Machine
end

