-- ==== Sys2Proof/Laws/Link.lean ====
section
/-! SUPPORT. What a clock of a port link does, and what it leaves. -/

namespace Sys2Proof.Machine

variable {s : State} {n : Port} {bit first : Bool}

/-- The scheduler's choice is the command of the frame that is due, and changes nothing where none is (R163). -/
theorem State.schedule_exec : match s.frameDue n with
    | none => s.schedule n = s
    | some i => exec i s = .next (s.schedule n) := by
  unfold State.frameDue State.schedule
  cases hc : s.canSend n with
  | false => rfl
  | true =>
    simp only [if_true]
    unfold State.frameWaiting
    by_cases ha : (s.link n).ackBuffer = []
    · by_cases hr : (s.port n).replyQueue = []
      · by_cases he : (s.port n).eventQueue ≠ [] ∧ 0 < (s.port n).credits
        · simp [ha, hr, he, execEventFrame, hc]
        · simp only [ha, hr, he, ne_eq, not_true_eq_false, if_false]
          split
          · unfold State.sendEvent
            rw [not_and] at he
            rw [show (s.port n).eventQueue = [] from not_not.1 fun h => he h ‹_›]
          · rfl
      · simp [ha, hr, execReplyFrame, hc]
    · simp [ha, execAckFrame, hc]

/-- Where no frame is due, the scheduler changes nothing. -/
theorem State.schedule_of_none (h : s.frameDue n = none) : s.schedule n = s := by
  have := State.schedule_exec (s := s) (n := n); rw [h] at this; exact this

/-- The scheduler's choice changes its port and its link: the acknowledgment buffer, which does not grow, its flag, and the
line, on which a whole frame begins at a byte boundary (R163). -/
theorem State.schedule_eq : ∃ c a d o,
    s.schedule n = (s.setPort n c).setLink n { s.link n with ackBuffer := a, framesDropped := d, line := o } ∧
    a.length ≤ (s.link n).ackBuffer.length ∧
    (o = (s.link n).line ∨ ((s.link n).bits.sent = 0 ∧ ∃ body, o = some (frameBytes body))) := by
  have hs : s = (s.setPort n (s.port n)).setLink n { s.link n with
      ackBuffer := (s.link n).ackBuffer, framesDropped := (s.link n).framesDropped, line := (s.link n).line } := by
    show s = { s with ports := s.ports.set n (s.ports.get n), links := s.links.set n (s.links.get n) }
    rw [PerPort.set_get_self, PerPort.set_get_self]
  unfold State.schedule
  split
  · next hc =>
    have hb : (s.link n).bits.sent = 0 := by simp [State.canSend, PortLink.atBoundary] at hc; exact hc.2
    split
    · unfold State.sendAck
      split
      · exact ⟨_, _, _, _, hs, le_refl _, .inl rfl⟩
      · next a rest ha =>
        refine ⟨s.port n, rest, false, some (frameBytes (ackBody a (s.link n).framesDropped)), ?_, by simp [ha],
          .inr ⟨hb, _, rfl⟩⟩
        unfold State.setPort State.port
        rw [PerPort.set_get_self]
    · split
      · unfold State.sendReply
        split
        · exact ⟨_, _, _, _, hs, le_refl _, .inl rfl⟩
        · exact ⟨_, _, _, _, rfl, le_refl _, .inr ⟨hb, _, rfl⟩⟩
      · split
        · unfold State.sendEvent
          split
          · exact ⟨_, _, _, _, hs, le_refl _, .inl rfl⟩
          · exact ⟨_, _, _, _, rfl, le_refl _, .inr ⟨hb, _, rfl⟩⟩
        · exact ⟨_, _, _, _, hs, le_refl _, .inl rfl⟩
  · exact ⟨_, _, _, _, hs, le_refl _, .inl rfl⟩

/-- The scheduler keeps a link listening. -/
theorem State.schedule_listens : (s.schedule n).listens n = s.listens n := by
  obtain ⟨c, a, d, o, h, -⟩ := State.schedule_eq (s := s) (n := n)
  rw [h]; simp [State.listens]

/-- The scheduler keeps the law of its link. -/
theorem State.schedule_linkFits (h : linkFits (s.link n)) : linkFits ((s.schedule n).link n) := by
  obtain ⟨c, a, d, o, he, ha, ho⟩ := State.schedule_eq (s := s) (n := n)
  rw [he, State.link_setLink_self]
  refine ⟨le_trans ha h.acks, h.framing, h.taken, ?_, h.noBitsInReset⟩
  rcases ho with rfl | ⟨hb, body, rfl⟩
  · exact h.sent
  · show (s.link n).bits.sent < 8 * (frameBytes body).length
    rw [hb]; simp [frameBytes]

/-- In reset a clock moves nothing and PnDO is low (R155). -/
theorem State.clock_of_reset (h : s.listens n = false) :
    s.clock n bit first = { chosen := none, pnDO := false, part := s, acts := [] } := by
  have hp : s.pinOut n = .low := by
    unfold State.pinOut
    unfold State.listens at h
    revert h; cases s.held <;> cases (s.link n).lineHigh <;> simp
  simp [State.clock, h, hp, PinOut.bit]

/-- A byte under way has fewer than eight of its bits. -/
theorem Framer.takeBit_lt (f : Framer) (last8 : Byte) {taken : Nat} (h : taken < 8) : (f.takeBit last8 taken).1 < 8 := by
  unfold Framer.takeBit
  split
  · exact Nat.zero_lt_succ _
  · split
    · exact Nat.zero_lt_succ _
    · show taken + 1 < 8; omega

/-- One bit each way keeps the law of a link out of reset. -/
theorem State.moveBit_linkFits (hl : s.listens n = true) (h : linkFits (s.link n)) :
    linkFits ((s.moveBit n bit).1.link n) := by
  have hhigh : (s.link n).lineHigh = true := by
    unfold State.listens at hl; revert hl; cases (s.link n).lineHigh <;> simp
  unfold State.moveBit
  rw [State.link_setLink_self]
  refine ⟨h.acks, h.framing, Framer.takeBit_lt _ _ h.taken, ?_, fun hlow => absurd (hhigh.symm.trans hlow) (by simp)⟩
  have h1 := h.sent
  show (if (s.link n).bits.sent + 1 = (s.link n).span then 0 else (s.link n).bits.sent + 1) < (s.link n).span
  split <;> omega

/-- A clock keeps the law of its link. -/
theorem State.clock_linkFits (h : linkFits (s.link n)) : linkFits ((s.clock n bit first).part.link n) := by
  cases hl : s.listens n with
  | false => rw [State.clock_of_reset hl]; exact h
  | true =>
    unfold State.clock
    rw [if_pos hl]
    exact State.moveBit_linkFits (State.schedule_listens.trans hl) (State.schedule_linkFits h)

end Sys2Proof.Machine
end

