-- ==== Sys2Proof/Tests/Slice0.lean ====
section
/-! SUPPORT. The model's own tests: the smoke of well-formedness, the check and the layouts of frames, one small test for
each command, and a witness for the hypotheses of each statement (a hypothesis that only names an expression, `∀ x, f x = …`,
is met by the function it spells and has no witness of its own). -/

namespace Sys2Proof.Tests

set_option Elab.async false

open Sys2Proof Sys2Proof.Machine

/-! ## Small states -/

/-- The state after a command. -/
def after (c : Instr) (s : State) : State :=
  match exec c s with
  | .next t => t
  | .refused _ => s

/-- The state after a run of commands. -/
def afterAll (cs : List Instr) (s : State) : State := cs.foldl (fun s c => after c s) s

/-- An ATTACHED port in session 1, every event class enabled, with 2 credits. -/
def attachedPort : PortControl :=
  { PortControl.reset true with
    portState := .attached, session := 1, credits := 2
    mask := { content := true, ownership := true, retirement := true, ports := true } }

/-- READY, every line high and every port OPEN, the free list short, the strap at P3. -/
def opened : State :=
  { State.reset with
    held := false, device := .ready, maint := 3, freeList := [256, 257]
    ports := .same (.reset true), links := .same (.reset true) }

/-- READY with every port ATTACHED. -/
def live : State := { opened with ports := .same attachedPort }

/-- An entry that port p owns with both flags clear, holding value 7 at version 5. -/
def ownedBy (p : Port) (d : Disposition) : Entry :=
  { Entry.default with
    content := .value 7, version := 5, owner := some p
    access := { disposition := d, putOpen := false, takeOpen := false } }

/-- A plain entry with a content at version 5, watched by P2. -/
def holding (c : Content) : Entry := { Entry.default with content := c, version := 5, watch := { p0 := false, p1 := false, p2 := true, p3 := false } }

/-- The head request of port n is op, with tag 4. -/
def asked (n : Port) (op : RequestOp) (s : State) : State :=
  s.setPort n { s.port n with requestQueue := [{ tag := 4, op := op }], tags := [4] }

/-- The cycle of port n's request op, with tag 4, is in progress. -/
def cycling (n : Port) (op : RequestOp) (w : Work) (k : Slot) (h : Nat) (s : State) : State :=
  { s with
    inProgress := some (.executor n), lastGranted := .executor n
    execs := s.execs.set n
      { state := .running w, current := some { tag := 4, op := op }, walkPos := k, hops := h, abandoned := false } }

/-- A LINK's cycle is in progress and port n holds the token. -/
def linking (n : Port) (op : RequestOp) (w : Work) (k : Slot) (h : Nat) (s : State) : State :=
  { cycling n op w k h s with serial := { token := .held n, queue := [] } }

/-- Port p is CLOSING with the head sweep record, and the visit to slot k is in progress. -/
def sweeping (p : Port) (kind : SweepKind) (k : Slot) (t : Tally) (s : State) : State :=
  { s with
    ports := s.ports.set p { PortControl.reset true with portState := .closing }
    sweeps := [{ port := p, kind := kind }], sweepPos := k, sweepVisit := true
    inProgress := some .sweeper, lastGranted := .sweeper, tallies := s.tallies.set p t }

/-- A take of port p parked on slot k with the time given. -/
def parked (p : Port) (tag : Tag) (k : Slot) (time : Option Nat) : WaitRecord :=
  { port := p, tag := tag, named := k, terminal := k, hops := 0, remaining := time }

/-- The newest reply of port n, with its status. -/
def lastReply (n : Port) (s : State) : Option Reply := (s.port n).replyQueue.getLast?

/-- The status of the newest reply of port n. -/
def lastStatus (n : Port) (s : State) : Option Status := (lastReply n s).map Reply.status

/-- The kinds of the event records of port n. -/
def eventKinds (n : Port) (s : State) : List EventKind := (s.port n).eventQueue.map (fun r => r.event.kind)

/-- The framer of port n is in the state given. -/
def framing (n : Port) (f : Framer) (s : State) : State := s.setLink n { s.link n with framer := f }

/-! ## Well-formedness -/

theorem test_length_error_refuses_good_lengths :
    (Instr.lengthError .p0 2#8).wellFormed = false ∧ (Instr.lengthError .p0 5#8).wellFormed = false
    ∧ (Instr.lengthError .p0 15#8).wellFormed = false := by decide

theorem test_length_error_accepts_wrong_lengths :
    (Instr.lengthError .p0 0#8).wellFormed = true ∧ (Instr.lengthError .p0 1#8).wellFormed = true
    ∧ (Instr.lengthError .p0 16#8).wellFormed = true ∧ (Instr.lengthError .p0 255#8).wellFormed = true := by decide

theorem test_other_commands_are_well_formed :
    Instr.tick.wellFormed = true ∧ (Instr.frameComplete .p3 0xFF#8).wellFormed = true := by decide

/-! ## Words and frames -/

theorem test_no_word_spells_a_command : decodeTableWord 8 0 = none ∧ State.reset.withFetchWord 8 0 = State.reset :=
  ⟨rfl, rfl⟩

/-- R156: the check of the ASCII characters 123456789 is 29B1h. -/
theorem test_check_of_the_nine_digits :
    frameCheck 0x31#8 [0x32#8, 0x33#8, 0x34#8, 0x35#8, 0x36#8, 0x37#8, 0x38#8, 0x39#8] = 0x29B1#16 := by decide +kernel

/-- Table 10-5, written out: PUT 300 IF_VERSION 4660 with value 5. -/
theorem test_put_bytes :
    readOperands 0x11#8
      [0x01#8, 0x2C#8, 0x02#8, 0x12#8, 0x34#8, 0x00#8, 0x00#8, 0x00#8, 0x00#8, 0x00#8, 0x00#8, 0x00#8, 0x05#8]
      = some (.put 300 2#8 0x1234#16 5#64) := by decide

theorem test_link_and_take_bytes :
    readOperands 0x15#8 [0x02#8, 0x58#8, 0x03#8, 0x20#8] = some (.link 600 800)
    ∧ readOperands 0x12#8 [0x00#8, 0x32#8, 0xFF#8, 0xFF#8] = some (.take 50 65535)
    ∧ readOperands 0x22#8 [0x00#8, 0x32#8, 0x03#8, 0x01#8, 0x00#8] = some (.claim 50 3#8 1#8 0#8)
    ∧ readOperands 0x99#8 [] = none := by decide

/-- Table 10-2, written out: the reply OK to a READ of slot 5 that ended at slot 6 after one hop, with value 9, version 3. -/
theorem test_reply_body :
    replyBody { tag := 4, code := 0x10#8, status := .ok, named := some 5, terminal := some (6, 1)
                content := some (.value 9), version := some 3, extra := .none }
      = [0x81#8, 0x04#8, 0x10#8, 0x00#8, 0x2F#8, 0x00#8, 0x05#8, 0x00#8, 0x06#8, 0x01#8, 0x01#8,
         0x00#8, 0x00#8, 0x00#8, 0x00#8, 0x00#8, 0x00#8, 0x00#8, 0x09#8, 0x00#8, 0x03#8] := by decide

/-- Table 10-6, written out: PORT_LOST of P1 by lease, sequence number 2. -/
theorem test_event_body :
    eventBody { seq := 2, event := { kind := .portLost, entry := none, value := none, cause := .device
                                     subject := some .p1, reason := some .lease, lost := none } }
      = [0x82#8, 0x00#8, 0x02#8, 0x0B#8, 0x04#8, 0x0C#8, 0x01#8, 0x01#8] := by decide

/-- A whole frame: sync byte, length byte, body, two check bytes. -/
theorem test_frame_of_an_ack :
    (frameBytes (ackBody { tag := none, code := 0, result := .lengthError } true)).length = 9
    ∧ (frameBytes (ackBody { tag := none, code := 0, result := .lengthError } true)).take 7
      = [0xA5#8, 0x05#8, 0x80#8, 0xFF#8, 0x00#8, 0x08#8, 0x01#8] := by decide

/-! ## Device, lines and time -/

theorem test_device_reset :
    after .deviceReset (linking .p0 (.link 1 2) .commit 2 0 live) =
      { opened with
        held := true, device := .init, tallies := .same { owned := 0, watch := 0 } } := by decide +kernel

theorem test_reset_n_high :
    (after (.resetNHigh 5#3) (State.reset)).maint = 5#3 ∧ (after (.resetNHigh 5#3) State.reset).held = false
    ∧ (after (.resetNHigh 5#3) State.reset).portState .p0 = .down
    ∧ after (.resetNHigh 5#3) opened = opened := by decide +kernel

/-- R33 at slots 0, 255 and 256, and R35 at slot 4095. -/
theorem test_pass_cycle :
    (after .passCycle { opened with device := .init }).freeList = []
    ∧ (after .passCycle { opened with device := .init, passPos := 255 }).freeList = [256, 257]
    ∧ (after .passCycle { opened with device := .init, passPos := 256, freeList := [] }).freeList = [256]
    ∧ (after .passCycle { opened with device := .init, passPos := 4095 }).device = .ready
    ∧ after .passCycle opened = opened := by decide +kernel

theorem test_port_reset_low :
    (after (.portResetLow .p1) opened).portState .p1 = .down ∧ (after (.portResetLow .p1) live).portState .p1 = .closing
    ∧ eventKinds .p0 (after (.portResetLow .p1) live) = [.portLost]
    ∧ (after (.portResetLow .p1) live).sweeps = [{ port := .p1, kind := .loss .linkReset }]
    ∧ (after (.portResetLow .p1) live).pinOut .p1 = .low := by decide +kernel

theorem test_port_reset_high :
    (after (.portResetHigh .p1) (after (.portResetLow .p1) opened)).portState .p1 = .opened
    ∧ (after (.portResetHigh .p1) (after (.portResetLow .p1) live)).portState .p1 = .closing
    ∧ ((after (.portResetHigh .p1) (after (.portResetLow .p1) live)).port .p1).linkDown = false := by decide +kernel

/-- R89, R126: a wait of 2 ticks is lowered at once; a wait of 1 stays until WAIT_EXPIRY. -/
theorem test_tick :
    (after .tick { live with waits := [parked .p0 1 9 (some 2), parked .p1 1 9 none] }).waits
      = [parked .p0 1 9 (some 1), parked .p1 1 9 none]
    ∧ (after .tick { live with waits := [parked .p0 1 9 (some 1)] }).waits = [parked .p0 1 9 (some 1)]
    ∧ (after .tick { live with waits := [parked .p0 1 9 (some 1)] }).waitDue = 1
    ∧ after .tick State.reset = State.reset := by decide +kernel

theorem test_wait_expiry :
    (after .waitExpiry { live with waits := [parked .p0 1 9 (some 1), parked .p1 2 9 none], waitDue := 1 }).waits
      = [parked .p1 2 9 none]
    ∧ lastReply .p0 (after .waitExpiry { live with waits := [parked .p0 1 9 (some 1)], waitDue := 1 })
      = some { tag := 1, code := 0x12#8, status := .timeout, named := some 9, terminal := some (9, 0), content := none
               version := none, extra := .none } := by decide +kernel

theorem test_lease_expiry :
    ((after (.leaseExpiry .p0) (live.setPort .p0 { attachedPort with leaseTimer := some 1, leaseDue := 1 })).sweeps
      = [{ port := .p0, kind := .loss .lease }])
    ∧ ((after (.leaseExpiry .p0) (live.setPort .p0 { attachedPort with leaseTimer := some 2, leaseDue := 1 })).port .p0)
      = { attachedPort with leaseTimer := some 1 } := by decide +kernel

theorem test_truncated_frame :
    ((after (.truncatedFrame .p0)
        (live.setLink .p0 { PortLink.reset true with framer := .length, byteTicks := 1, framerDue := 1 })).link .p0)
      = { PortLink.reset true with ackBuffer := [{ tag := none, code := 0, result := .frameError }] } := by decide +kernel

/-! ## Port links -/

theorem test_sync_byte_found :
    ((after (.syncByteFound .p0) live).link .p0).framer = .length
    ∧ after (.syncByteFound .p0) State.reset = State.reset := by decide +kernel

theorem test_frame_byte_received :
    ((after (.frameByteReceived .p0 2#8) (framing .p0 .length live)).link .p0).framer = .body 2#8 []
    ∧ ((after (.frameByteReceived .p0 3#8) (framing .p0 (.body 2#8 [7#8]) live)).link .p0).framer
      = .check 2#8 [7#8, 3#8] none := by decide +kernel

theorem test_length_error :
    ((after (.lengthError .p0 1#8) (framing .p0 .length live)).link .p0)
      = { PortLink.reset true with ackBuffer := [{ tag := none, code := 0, result := .lengthError }] }
    ∧ after (.lengthError .p0 2#8) (framing .p0 .length live) = framing .p0 .length live := by decide +kernel

/-- A whole STATUS frame with tag 4 is queued and acknowledged; READ in OPEN is answered NO_SESSION. -/
theorem test_frame_complete :
    ((afterAll (frameCommands .p0 [0x03#8, 0x04#8]) live).port .p0).requestQueue = [{ tag := 4, op := .status }]
    ∧ ((afterAll (frameCommands .p0 [0x03#8, 0x04#8]) live).link .p0).ackBuffer
      = [{ tag := some 4, code := 0x03#8, result := .accepted }]
    ∧ ((afterAll (frameCommands .p0 [0x10#8, 0x04#8, 0x00#8, 0x05#8]) opened).link .p0).ackBuffer
      = [{ tag := some 4, code := 0x10#8, result := .noSession }]
    ∧ ((afterAll (frameCommands .p0 [0x99#8, 0x04#8]) live).link .p0).ackBuffer
      = [{ tag := some 4, code := 0x99#8, result := .unknownRequest }] := by decide +kernel

theorem test_ack_frame :
    ((after (.ackFrame .p0) (live.setLink .p0 { PortLink.reset true with
        ackBuffer := [{ tag := some 4, code := 0x03#8, result := .accepted }], framesDropped := true })).link .p0)
      = { PortLink.reset true with line := some (frameBytes [0x80#8, 0x04#8, 0x03#8, 0x00#8, 0x01#8]) } := by
  decide +kernel

theorem test_reply_frame :
    ((after (.replyFrame .p0) (live.setPort .p0 { attachedPort with
        tags := [3, 4], replyQueue := [bareReply { tag := 4, op := .status } .ok] })).port .p0)
      = { attachedPort with tags := [3] } := by decide +kernel

theorem test_event_frame :
    ((after (.eventFrame .p0) (live.setPort .p0 { attachedPort with
        eventQueue := [{ seq := 0, event := directoryClearedEvent }] })).port .p0)
      = { attachedPort with credits := 1 } := by decide +kernel

theorem test_frame_sent :
    ((after (.frameSent .p0) (live.setLink .p0 { PortLink.reset true with line := some [1#8] })).link .p0)
      = PortLink.reset true := by decide +kernel

/-! ## Requests without a store cycle -/

theorem test_attach :
    (after (.attach .p0) (asked .p0 (.attach 9 3#8 1#8) (opened.setPort .p1 attachedPort))).port .p0
      = { PortControl.reset true with
          portState := .attached, session := 1, lease := 9, leaseTimer := some 9, suppressOwn := true, tags := [4]
          mask := { content := true, ownership := true, retirement := false, ports := false }
          replyQueue := [{ bareReply { tag := 4, op := .attach 9 3#8 1#8 } .ok with extra := .session 1 }] }
    ∧ eventKinds .p1 (after (.attach .p0) (asked .p0 (.attach 9 3#8 1#8) (opened.setPort .p1 attachedPort)))
      = [.portAttached]
    ∧ lastStatus .p0 (after (.attach .p0) (asked .p0 (.attach 9 3#8 1#8) live)) = some .alreadyAttached
    ∧ lastStatus .p0 (after (.attach .p0) (asked .p0 (.attach 9 16#8 1#8) opened)) = some .badArgument := by
  decide +kernel

theorem test_detach :
    (after (.detach .p0) (asked .p0 .detach { live with waits := [parked .p0 1 9 none] })).sweeps
      = [{ port := .p0, kind := .detach (some 4) { keep := 0, release := 0, drop := 0, restore := 0 } }]
    ∧ lastStatus .p0 (after (.detach .p0) (asked .p0 .detach { live with waits := [parked .p0 1 9 none] }))
      = some .cancelled
    ∧ eventKinds .p2 (after (.detach .p0) (asked .p0 .detach live)) = [.portDetached] := by decide +kernel

theorem test_status :
    (lastReply .p0 (after (.status .p0) (asked .p0 .status live))).map Reply.extra
      = some (.status { portState := .attached, session := 1, outstanding := 1, credits := 2, eventDepth := 0, owned := 0
                        watch := 0, device := .ready, freeLength := 2, waits := 0, sweeps := 0 }) := by decide +kernel

theorem test_credit :
    ((after (.credit .p0) (asked .p0 (.credit 32#8) live)).port .p0).credits = 34
    ∧ lastStatus .p0 (after (.credit .p0) (asked .p0 (.credit 33#8) live)) = some .badArgument
    ∧ lastStatus .p0 (after (.credit .p0) (asked .p0 (.credit 0#8) live)) = some .badArgument := by decide +kernel

theorem test_set_events :
    ((after (.setEvents .p0) (asked .p0 (.setEvents 0#8 1#8) live)).port .p0).mask
      = { content := false, ownership := false, retirement := false, ports := false }
    ∧ (lastReply .p0 (after (.setEvents .p0) (asked .p0 (.setEvents 0#8 1#8) live))).map Reply.extra
      = some (.previousSettings attachedPort.mask false) := by decide +kernel

theorem test_force_detach :
    (after (.forceDetach .p3) (asked .p3 (.forceDetach 1#8) live)).sweeps = [{ port := .p1, kind := .loss .forced }]
    ∧ lastReply .p3 (after (.forceDetach .p3) (asked .p3 (.forceDetach 1#8) live))
      = some { bareReply { tag := 4, op := .forceDetach 1#8 } .ok with extra := .alreadyClosing false }
    ∧ lastStatus .p0 (after (.forceDetach .p0) (asked .p0 (.forceDetach 1#8) live)) = some .notPermitted
    ∧ lastStatus .p3 (after (.forceDetach .p3) (asked .p3 (.forceDetach 4#8) live)) = some .badArgument := by
  decide +kernel

theorem test_clear_directory :
    (after (.clearDirectory .p3) (asked .p3 .clearDirectory live)).device = .clearing
    ∧ eventKinds .p0 (after (.clearDirectory .p3) (asked .p3 .clearDirectory live)) = [.directoryCleared]
    ∧ (after (.clearDirectory .p3) (asked .p3 .clearDirectory (cycling .p0 (.read 5) .walk 5 0 live))).clearDue = true
    ∧ lastStatus .p0 (after (.readTerminal .p0)
        (after (.clearDirectory .p3) (asked .p3 .clearDirectory (cycling .p0 (.read 5) .walk 5 0 live)))) = some .ok
    ∧ (after (.readTerminal .p0)
        (after (.clearDirectory .p3) (asked .p3 .clearDirectory (cycling .p0 (.read 5) .walk 5 0 live)))).device
      = .clearing := by decide +kernel

/-! ## Requests that present a cycle -/

/-- Port n's executor is RUNNING on op with tag 4, its cycle of the sort given on slot k granted, its queue empty. -/
def begun (n : Port) (op : RequestOp) (w : Work) (k : Slot) (s : State) : Bool :=
  decide (s.executor n = { state := .running w, current := some { tag := 4, op := op }, walkPos := k, hops := 0
                           abandoned := false })
  && decide (s.inProgress = some (.executor n)) && decide ((s.port n).requestQueue = [])

theorem test_read :
    begun .p0 (.read 5) .walk 5 (after (.read .p0) (asked .p0 (.read 5) live)) = true
    ∧ lastStatus .p0 (after (.read .p0) (asked .p0 (.read 4096) live)) = some .badArgument := by
  decide +kernel

theorem test_put :
    begun .p0 (.put 5 0#8 0 7) .walk 5 (after (.put .p0) (asked .p0 (.put 5 0#8 0 7) live)) = true
    ∧ lastStatus .p0 (after (.put .p0) (asked .p0 (.put 5 3#8 0 7) live)) = some .badArgument := by
  decide +kernel

theorem test_take :
    begun .p0 (.take 5 0) .walk 5 (after (.take .p0) (asked .p0 (.take 5 0) live)) = true
    ∧ lastStatus .p0 (after (.take .p0) (asked .p0 (.take 65535 0) live)) = some .badArgument := by
  decide +kernel

theorem test_clear :
    begun .p0 (.clear 5) .single 5 (after (.clear .p0) (asked .p0 (.clear 5) live)) = true
    ∧ lastStatus .p0 (after (.clear .p0) (asked .p0 (.clear 4096) live)) = some .badArgument := by
  decide +kernel

theorem test_checkpoint :
    begun .p0 (.checkpoint 5) .single 5 (after (.checkpoint .p0) (asked .p0 (.checkpoint 5) live)) = true
    ∧ lastStatus .p0 (after (.checkpoint .p0) (asked .p0 (.checkpoint 4096) live)) = some .badArgument := by
  decide +kernel

theorem test_watch :
    begun .p0 (.watch 5) .single 5 (after (.watch .p0) (asked .p0 (.watch 5) live)) = true
    ∧ lastStatus .p0 (after (.watch .p0) (asked .p0 (.watch 4096) live)) = some .badArgument := by
  decide +kernel

theorem test_unwatch :
    begun .p0 (.unwatch 5) .single 5 (after (.unwatch .p0) (asked .p0 (.unwatch 5) live)) = true
    ∧ lastStatus .p0 (after (.unwatch .p0) (asked .p0 (.unwatch 4096) live)) = some .badArgument := by
  decide +kernel

theorem test_alloc :
    begun .p0 (.alloc 1#8 1#8 1#8) .single 0 (after (.alloc .p0) (asked .p0 (.alloc 1#8 1#8 1#8) live)) = true
    ∧ lastStatus .p0 (after (.alloc .p0) (asked .p0 (.alloc 4#8 1#8 1#8) live)) = some .badArgument := by
  decide +kernel

theorem test_retire :
    begun .p0 (.retire 300) .single 300 (after (.retire .p0) (asked .p0 (.retire 300) live)) = true
    ∧ lastStatus .p0 (after (.retire .p0) (asked .p0 (.retire 4096) live)) = some .badArgument := by
  decide +kernel

theorem test_claim :
    begun .p0 (.claim 5 1#8 1#8 1#8) .single 5 (after (.claim .p0) (asked .p0 (.claim 5 1#8 1#8 1#8) live)) = true
    ∧ lastStatus .p0 (after (.claim .p0) (asked .p0 (.claim 5 1#8 2#8 1#8) live)) = some .badArgument := by
  decide +kernel

theorem test_release :
    begun .p0 (.release 5) .single 5 (after (.release .p0) (asked .p0 (.release 5) live)) = true
    ∧ lastStatus .p0 (after (.release .p0) (asked .p0 (.release 4096) live)) = some .badArgument := by
  decide +kernel

theorem test_adopt :
    begun .p0 (.adopt 5 1#8 1#8 1#8) .single 5 (after (.adopt .p0) (asked .p0 (.adopt 5 1#8 1#8 1#8) live)) = true
    ∧ lastStatus .p0 (after (.adopt .p0) (asked .p0 (.adopt 5 1#8 1#8 2#8) live)) = some .badArgument := by
  decide +kernel

theorem test_set_access :
    begun .p0 (.setAccess 5 1#8 1#8 1#8) .single 5 (after (.setAccess .p0) (asked .p0 (.setAccess 5 1#8 1#8 1#8) live)) = true
    ∧ lastStatus .p0 (after (.setAccess .p0) (asked .p0 (.setAccess 5 4#8 1#8 1#8) live)) = some .badArgument := by
  decide +kernel

theorem test_inspect :
    begun .p3 (.inspect 5) .single 5 (after (.inspect .p3) (asked .p3 (.inspect 5) live)) = true
    ∧ lastStatus .p3 (after (.inspect .p3) (asked .p3 (.inspect 4096) live)) = some .badArgument
    ∧ lastStatus .p0 (after (.inspect .p0) (asked .p0 (.inspect 5) live)) = some .notPermitted := by
  decide +kernel

theorem test_break_wait :
    begun .p3 (.breakWait 5) .single 5 (after (.breakWait .p3) (asked .p3 (.breakWait 5) live)) = true
    ∧ lastStatus .p3 (after (.breakWait .p3) (asked .p3 (.breakWait 4096) live)) = some .badArgument
    ∧ lastStatus .p0 (after (.breakWait .p0) (asked .p0 (.breakWait 5) live)) = some .notPermitted := by
  decide +kernel

/-- R48, R49: the token FREE, and the token held by another executor. -/
theorem test_link :
    (after (.link .p0) (asked .p0 (.link 5 6) live)).serial = { token := .held .p0, queue := [] }
    ∧ begun .p0 (.link 5 6) .checkWalk 6 (after (.link .p0) (asked .p0 (.link 5 6) live)) = true
    ∧ (after (.link .p1) (asked .p1 (.link 5 6) (linking .p0 (.link 8 9) .commit 9 0 live))).serial
      = { token := .held .p0, queue := [.p1] }
    ∧ lastStatus .p0 (after (.link .p0) (asked .p0 (.link 5 4096) live)) = some .badArgument := by decide +kernel

/-! ## Walks, PUT and TAKE -/

/-- R41, R43, R44: a forward followed, the eighth hop passed, an unallocated slot. -/
theorem test_walk_hop :
    (after (.walkHop .p0) (cycling .p0 (.read 5) .walk 5 7 (live.setEntry 5 (holding (.forward 6))))).executor .p0
      = { state := .running .walk, current := some { tag := 4, op := .read 5 }, walkPos := 6, hops := 8
          abandoned := false }
    ∧ lastReply .p0 (after (.walkHop .p0) (cycling .p0 (.read 5) .walk 5 8 (live.setEntry 5 (holding (.forward 6)))))
      = some { bareReply { tag := 4, op := .read 5 } .chainDeep with terminal := some (5, 8) }
    ∧ lastReply .p0 (after (.walkHop .p0) (cycling .p0 (.read 300) .walk 300 0 live))
      = some { bareReply { tag := 4, op := .read 300 } .unallocated with terminal := some (300, 0) } := by
  decide +kernel

theorem test_read_terminal :
    lastReply .p0 (after (.readTerminal .p0) (cycling .p0 (.read 5) .walk 6 1 (live.setEntry 6 (holding (.value 9)))))
      = some { bareReply { tag := 4, op := .read 5 } .ok with
          terminal := some (6, 1), content := some (.value 9), version := some 5 } := by decide +kernel

/-- R68, R71: stored where nobody waits, handed to the oldest wait record where one does. -/
theorem test_put_terminal :
    (after (.putTerminal .p0) (cycling .p0 (.put 6 0#8 0 9) .walk 6 0 (live.setEntry 6 (holding (.value 1))))).entry 6
      = { holding (.value 9) with version := 6 }
    ∧ eventKinds .p2 (after (.putTerminal .p0)
        (cycling .p0 (.put 6 0#8 0 9) .walk 6 0 (live.setEntry 6 (holding (.value 1))))) = [.valuePut]
    ∧ lastReply .p1 (after (.putTerminal .p0) (cycling .p0 (.put 6 1#8 0 9) .walk 6 0
        { live.setEntry 6 (holding .empty) with waits := [parked .p1 2 6 none, parked .p2 3 6 none] }))
      = some { tag := 2, code := 0x12#8, status := .ok, named := some 6, terminal := some (6, 0)
               content := some (.value 9), version := some 6, extra := .none }
    ∧ lastStatus .p0 (after (.putTerminal .p0) (cycling .p0 (.put 6 1#8 0 9) .walk 6 0
        { live.setEntry 6 (holding .empty) with waits := [parked .p1 2 6 none] })) = some .handedOff := by decide +kernel

/-- R62, R69, R70: the refusals of a PUT. -/
theorem test_put_refusals :
    lastStatus .p0 (after (.putTerminal .p0) (cycling .p0 (.put 6 0#8 0 9) .walk 6 0
        (live.setEntry 6 (ownedBy .p1 .keep)))) = some .notOwner
    ∧ lastStatus .p0 (after (.putTerminal .p0) (cycling .p0 (.put 6 0#8 0 9) .walk 6 0
        (live.setEntry 6 { ownedBy .p0 .keep with orphaned := true }))) = some .orphaned
    ∧ lastStatus .p0 (after (.putTerminal .p0) (cycling .p0 (.put 6 1#8 0 9) .walk 6 0
        (live.setEntry 6 (holding (.value 1))))) = some .notEmpty
    ∧ lastStatus .p0 (after (.putTerminal .p0) (cycling .p0 (.put 6 2#8 4 9) .walk 6 0
        (live.setEntry 6 (holding (.value 1))))) = some .versionMismatch := by decide +kernel

theorem test_take_terminal :
    (after (.takeTerminal .p0) (cycling .p0 (.take 6 0) .walk 6 0 (live.setEntry 6 (holding (.value 1))))).entry 6
      = { holding .empty with version := 6 }
    ∧ lastReply .p0 (after (.takeTerminal .p0) (cycling .p0 (.take 6 0) .walk 6 0 (live.setEntry 6 (holding (.value 1)))))
      = some { bareReply { tag := 4, op := .take 6 0 } .ok with
          terminal := some (6, 0), content := some (.value 1), version := some 6 }
    ∧ lastStatus .p0 (after (.takeTerminal .p0) (cycling .p0 (.take 6 0) .walk 6 0 live)) = some .empty
    ∧ (after (.takeTerminal .p0) (cycling .p0 (.take 6 65535) .walk 6 0 live)).waits = [parked .p0 4 6 none] := by
  decide +kernel

/-- R85: the Wait Table full, and room for one more. -/
theorem test_take_wait_full :
    lastStatus .p0 (after (.takeTerminal .p0) (cycling .p0 (.take 6 3) .walk 6 0
        { live with waits := List.replicate 16 (parked .p1 1 9 none) })) = some .waitFull
    ∧ (after (.takeTerminal .p0) (cycling .p0 (.take 6 3) .walk 6 0
        { live with waits := List.replicate 15 (parked .p1 1 9 none) })).waits.length = 16 := by decide +kernel

/-! ## LINK -/

/-- R53, R54: the tests of a check walk, and the passing of the token. -/
theorem test_check_walk_cycle :
    (after (.checkWalkCycle .p0) (linking .p0 (.link 5 6) .checkWalk 6 0 live)).executor .p0
      = { state := .running .commit, current := some { tag := 4, op := .link 5 6 }, walkPos := 6, hops := 0
          abandoned := false }
    ∧ lastReply .p0 (after (.checkWalkCycle .p0) (linking .p0 (.link 5 6) .checkWalk 5 2 live))
      = some { bareReply { tag := 4, op := .link 5 6 } .loop with terminal := some (5, 2) }
    ∧ lastStatus .p0 (after (.checkWalkCycle .p0)
        (linking .p0 (.link 5 6) .checkWalk 7 7 (live.setEntry 7 (holding (.forward 8))))) = some .chainDeep
    ∧ (after (.checkWalkCycle .p0) (linking .p0 (.link 5 6) .checkWalk 5 2 live)).serial.token = .free := by
  decide +kernel

/-- R56, R57, R91: a commit over a forward, with a take parked on the slot. -/
theorem test_commit_cycle :
    (after (.commitCycle .p0) (linking .p0 (.link 5 6) .commit 6 0
      ((live.setEntry 5 (holding (.forward 7))).setRow 7 { allocated := true, inbound := 1 }))).entry 5
      = { holding (.forward 6) with version := 6 }
    ∧ (after (.commitCycle .p0) (linking .p0 (.link 5 6) .commit 6 0
      ((live.setEntry 5 (holding (.forward 7))).setRow 7 { allocated := true, inbound := 1 }))).rows
      = [(6, { allocated := true, inbound := 1 })]
    ∧ lastStatus .p1 (after (.commitCycle .p0) (linking .p0 (.link 5 6) .commit 6 0
        { live with waits := [parked .p1 1 5 none] })) = some .relinked
    ∧ lastReply .p0 (after (.commitCycle .p0) (linking .p0 (.link 5 6) .commit 6 0 live))
      = some { bareReply { tag := 4, op := .link 5 6 } .ok with
          terminal := some (6, 0), content := some .empty, version := some 1 } := by decide +kernel

theorem test_commit_refusals :
    lastStatus .p0 (after (.commitCycle .p0) (linking .p0 (.link 300 6) .commit 6 0 live)) = some .unallocated
    ∧ lastStatus .p0 (after (.commitCycle .p0) (linking .p0 (.link 5 6) .commit 6 0
        (live.setEntry 5 (ownedBy .p1 .keep)))) = some .notOwner
    ∧ lastStatus .p0 (after (.commitCycle .p0) (linking .p0 (.link 5 6) .commit 6 0
        (live.setEntry 5 (holding (.value 1))))) = some .notEmpty
    ∧ lastReply .p0 (after (.commitCycle .p0) (linking .p0 (.link 5 300) .commit 300 0 live))
      = some { bareReply { tag := 4, op := .link 5 300 } .unallocated with terminal := some (300, 0) } := by
  decide +kernel

/-! ## Single cycles -/

theorem test_clear_cycle :
    (after (.clearCycle .p0) (cycling .p0 (.clear 5) .single 5 0
      ((live.setEntry 5 (holding (.forward 7))).setRow 7 { allocated := true, inbound := 1 }))).rows = []
    ∧ lastReply .p0 (after (.clearCycle .p0) (cycling .p0 (.clear 5) .single 5 0 (live.setEntry 5 (holding (.forward 7)))))
      = some { bareReply { tag := 4, op := .clear 5 } .ok with content := some (.forward 7), version := some 6 }
    ∧ (after (.clearCycle .p0) (cycling .p0 (.clear 5) .single 5 0 live)).entries = [] := by decide +kernel

theorem test_checkpoint_cycle :
    ((after (.checkpointCycle .p0) (cycling .p0 (.checkpoint 5) .single 5 0 (live.setEntry 5 (holding (.value 3))))).entry
      5).saved = .value 3
    ∧ lastStatus .p0 (after (.checkpointCycle .p0) (cycling .p0 (.checkpoint 5) .single 5 0
        (live.setEntry 5 (holding (.forward 3))))) = some .isForward := by decide +kernel

theorem test_watch_cycle :
    ((after (.watchCycle .p0) (cycling .p0 (.watch 5) .single 5 0 live)).tallies.get .p0) = { owned := 0, watch := 1 }
    ∧ (lastReply .p2 (after (.watchCycle .p2) (cycling .p2 (.watch 5) .single 5 0
        (live.setEntry 5 (holding .empty))))).map Reply.extra = some (.wasWatching true) := by decide +kernel

theorem test_unwatch_cycle :
    ((after (.unwatchCycle .p2) (cycling .p2 (.unwatch 5) .single 5 0 (live.setEntry 5 (holding .empty)))).entry 5).watch
      = .same false
    ∧ (lastReply .p0 (after (.unwatchCycle .p0) (cycling .p0 (.unwatch 5) .single 5 0 live))).map Reply.extra
      = some (.wasWatching false) := by decide +kernel

theorem test_alloc_cycle :
    (after (.allocCycle .p0) (cycling .p0 (.alloc 0#8 0#8 1#8) .single 0 0 live)).freeList = [257]
    ∧ (after (.allocCycle .p0) (cycling .p0 (.alloc 0#8 0#8 1#8) .single 0 0 live)).entry 256
      = { Entry.default with owner := some .p0, access := { disposition := .keep, putOpen := false, takeOpen := true } }
    ∧ lastStatus .p0 (after (.allocCycle .p0) (cycling .p0 (.alloc 0#8 0#8 1#8) .single 0 0 { live with freeList := [] }))
      = some .poolEmpty := by decide +kernel

/-- R100 to R102: a pooled slot retired, and the refusals in their order. -/
theorem test_retire_cycle :
    (after (.retireCycle .p0) (cycling .p0 (.retire 300) .single 300 0
      ((live.setEntry 300 (holding .empty)).setRow 300 { allocated := true, inbound := 0 }))).freeList = [256, 257, 300]
    ∧ (after (.retireCycle .p0) (cycling .p0 (.retire 300) .single 300 0
      ((live.setEntry 300 (holding .empty)).setRow 300 { allocated := true, inbound := 0 }))).entry 300
      = { Entry.default with version := 6 }
    ∧ lastStatus .p0 (after (.retireCycle .p0) (cycling .p0 (.retire 255) .single 255 0 live)) = some .fixedSlot
    ∧ lastStatus .p0 (after (.retireCycle .p0) (cycling .p0 (.retire 300) .single 300 0
        (live.setRow 300 { allocated := true, inbound := 2 }))) = some .referenced := by decide +kernel

theorem test_claim_cycle :
    (after (.claimCycle .p0) (cycling .p0 (.claim 5 3#8 1#8 0#8) .single 5 0 live)).entry 5
      = { Entry.default with owner := some .p0, access := { disposition := .restore, putOpen := true, takeOpen := false } }
    ∧ lastReply .p0 (after (.claimCycle .p0) (cycling .p0 (.claim 5 3#8 1#8 0#8) .single 5 0
        (live.setEntry 5 (ownedBy .p1 .keep))))
      = some { bareReply { tag := 4, op := .claim 5 3#8 1#8 0#8 } .alreadyOwned with extra := .owner (some .p1) } := by
  decide +kernel

theorem test_release_cycle :
    ((after (.releaseCycle .p0) (cycling .p0 (.release 5) .single 5 0 (live.setEntry 5 (ownedBy .p0 .keep)))).entry 5).owner
      = none
    ∧ lastStatus .p0 (after (.releaseCycle .p0) (cycling .p0 (.release 5) .single 5 0 live)) = some .notOwner := by
  decide +kernel

theorem test_adopt_cycle :
    ((after (.adoptCycle .p0) (cycling .p0 (.adopt 5 1#8 1#8 1#8) .single 5 0
      (live.setEntry 5 { ownedBy .p1 .keep with orphaned := true }))).entry 5).owner = some .p0
    ∧ (lastReply .p0 (after (.adoptCycle .p0) (cycling .p0 (.adopt 5 1#8 1#8 1#8) .single 5 0
        (live.setEntry 5 { ownedBy .p1 .keep with orphaned := true })))).map Reply.extra = some (.owner (some .p1))
    ∧ lastStatus .p0 (after (.adoptCycle .p0) (cycling .p0 (.adopt 5 1#8 1#8 1#8) .single 5 0 live))
      = some .notOrphaned := by decide +kernel

theorem test_set_access_cycle :
    ((after (.setAccessCycle .p0) (cycling .p0 (.setAccess 5 2#8 1#8 1#8) .single 5 0
      (live.setEntry 5 (ownedBy .p0 .keep)))).entry 5).access = { disposition := .drop, putOpen := true, takeOpen := true }
    ∧ (lastReply .p0 (after (.setAccessCycle .p0) (cycling .p0 (.setAccess 5 2#8 1#8 1#8) .single 5 0
        (live.setEntry 5 (ownedBy .p0 .keep))))).map Reply.extra
      = some (.previousAccess { disposition := .keep, putOpen := false, takeOpen := false }) := by decide +kernel

theorem test_inspect_cycle :
    (lastReply .p3 (after (.inspectCycle .p3) (cycling .p3 (.inspect 5) .single 5 0
      (live.setEntry 5 (ownedBy .p1 .keep))))).map Reply.extra
      = some (.inspect
          { owner := some .p1, orphaned := false, access := (ownedBy .p1 .keep).access, saved := .absent
            watch := .same false, allocated := true, inbound := 0, waits := 0 }) := by decide +kernel

theorem test_break_wait_cycle :
    (after (.breakWaitCycle .p3) (cycling .p3 (.breakWait 6) .single 6 0
      { live with waits := [parked .p0 1 6 none, parked .p1 2 9 none] })).waits = [parked .p1 2 9 none]
    ∧ lastStatus .p0 (after (.breakWaitCycle .p3) (cycling .p3 (.breakWait 6) .single 6 0
      { live with waits := [parked .p0 1 6 none, parked .p1 2 9 none] })) = some .cancelled
    ∧ (lastReply .p3 (after (.breakWaitCycle .p3) (cycling .p3 (.breakWait 6) .single 6 0
      { live with waits := [parked .p0 1 6 none, parked .p1 2 9 none] }))).map Reply.extra = some (.broken 1) := by
  decide +kernel

/-! ## The Recovery Sweeper -/

/-- R134, R135, R137: nothing owned and nothing watched ends the pass at once. -/
theorem test_sweep_pass_start :
    (after .sweepPassStart (after (.portResetHigh .p0) (after (.portResetLow .p0) live))).portState .p0 = .opened
    ∧ (after .sweepPassStart (after (.portResetLow .p0) live)).portState .p0 = .down
    ∧ (after .sweepPassStart (after (.portResetLow .p0)
        { live with tallies := live.tallies.set .p0 { owned := 1, watch := 0 } })).inProgress = some .sweeper := by
  decide +kernel

/-- R116 to R118: KEEP, RELEASE and DROP of slot 5, owned by P0. -/
theorem test_sweep_visit :
    (after .sweepVisit (sweeping .p0 (.loss .lease) 5 { owned := 1, watch := 0 } (live.setEntry 5 (ownedBy .p0 .keep)))).entry
      5 = { ownedBy .p0 .keep with orphaned := true }
    ∧ (after .sweepVisit (sweeping .p0 (.loss .lease) 5 { owned := 1, watch := 0 }
        (live.setEntry 5 (ownedBy .p0 .release)))).entry 5 = { ownedBy .p0 .release with owner := none }
    ∧ (after .sweepVisit (sweeping .p0 (.loss .lease) 5 { owned := 1, watch := 0 }
        (live.setEntry 5 (ownedBy .p0 .drop)))).entry 5
      = { ownedBy .p0 .drop with owner := none, content := .empty, version := 6 }
    ∧ (after .sweepVisit (sweeping .p0 (.loss .lease) 5 { owned := 1, watch := 0 }
        (live.setEntry 5 (ownedBy .p0 .drop)))).portState .p0 = .opened := by decide +kernel

/-- R119: RESTORE of a saved value, and of an absent checkpoint. -/
theorem test_sweep_restores :
    (after .sweepVisit (sweeping .p0 (.loss .lease) 5 { owned := 1, watch := 0 }
      (live.setEntry 5 { ownedBy .p0 .restore with saved := .value 9 }))).entry 5
      = { ownedBy .p0 .restore with owner := none, content := .value 9, version := 6 }
    ∧ (after .sweepVisit (sweeping .p0 (.loss .lease) 5 { owned := 1, watch := 0 }
        (live.setEntry 5 (ownedBy .p0 .restore)))).entry 5 = { ownedBy .p0 .restore with owner := none } := by
  decide +kernel

/-- A step takes the front command; an empty queue idles (log 1). -/
theorem test_step :
    (match step { opened with pending := [.tick, .sweepVisit] } with
      | .next t => t.pending
      | .refused _ => []) = [.sweepVisit] := by decide +kernel

/-! ## The hypotheses of the statements are met -/

theorem forPorts {P : Port → Prop} (h : P .p0 ∧ P .p1 ∧ P .p2 ∧ P .p3) : ∀ p, P p := by
  intro p
  obtain ⟨h0, h1, h2, h3⟩ := h
  cases p <;> assumption

theorem notForward {c : Content} (h : c.isForward = false) (t : Slot) : c ≠ .forward t := by
  intro hc; rw [hc] at h; cases h

/-- P0 and P1 are ATTACHED and each executes a READ of slot 5; the cycle of P0 is in progress. -/
def twoReads : State :=
  { live with
    inProgress := some (.executor .p0), lastGranted := .executor .p0
    execs := { live.execs with
      p0 := { state := .running .walk, current := some { tag := 4, op := .read 5 }, walkPos := 5, hops := 0
              abandoned := false }
      p1 := { state := .running .walk, current := some { tag := 4, op := .read 5 }, walkPos := 5, hops := 0
              abandoned := false } } }

/-- A pass under way. -/
def passing (device : DeviceState) (k : Slot) : State := { opened with device := device, passPos := k }

/-- P3 stands on a CLEAR_DIRECTORY. -/
def clearing (w : Work) (s : State) : State :=
  s.setExecutor .p3
    { state := .running w, current := some { tag := 4, op := .clearDirectory }, walkPos := 0, hops := 0, abandoned := false }

/-- P0 and P1 are CLOSING, after a loss and after a DETACH that is owed its reply; P2 is ATTACHED. -/
def twoSwept (s : State) : State :=
  { s with
    ports := { p0 := { PortControl.reset true with portState := .closing, linkDown := true }
               p1 := { PortControl.reset true with portState := .closing, tags := [4] }
               p2 := attachedPort, p3 := PortControl.reset true }
    sweeps := [{ port := .p0, kind := .loss .linkReset },
      { port := .p1, kind := .detach (some 4) { keep := 0, release := 0, drop := 0, restore := 0 } }] }

/-- One state for each clause: a queue headed by another request, a busy executor, an empty queue; no cycle, another sort of
cycle, a slot that brings a hop and one that brings the terminal cycle; the lines and the passes either way; no tick due;
a framer in each state, with the boundary bytes; nothing to send. -/
theorem witness_UndueCommandsChangeNothing :
    (asked .p0 .status live).nextRequest .p0 = some { tag := 4, op := .status }
    ∧ RequestOp.command .p0 .status ≠ .read .p0 ∧ Instr.read .p0 ∈ takingCommands .p0
    ∧ (cycling .p0 (.read 9) .walk 9 0 live).nextRequest .p0 = none ∧ live.nextRequest .p0 = none
    ∧ live.inProgress ≠ some (.executor .p0) ∧ live.inProgress ≠ some .sweeper
    ∧ (live.executor .p0).state = .idle ∧ (live.executor .p0).current = none
    ∧ (((cycling .p0 (.read 9) .walk 9 0 live).executor .p0).state = .running .walk
      ∧ ((cycling .p0 (.read 9) .walk 9 0 live).executor .p0).current = some ⟨4, .read 9⟩
      ∧ Instr.putTerminal .p0 ∈ cycleCommands .p0 ∧ Instr.putTerminal .p0 ∉ dueCycles .p0 .walk (.read 9))
    ∧ (((cycling .p0 (.read 300) .walk 300 0 live).executor .p0).walkPos = 300
      ∧ (cycling .p0 (.read 300) .walk 300 0 live).allocated 300 = false
      ∧ ((cycling .p0 (.read 9) .walk 9 0 live).setEntry 9 (holding (.forward 6))).allocated 9 = true
      ∧ (((cycling .p0 (.read 9) .walk 9 0 live).setEntry 9 (holding (.forward 6))).entry 9).content = .forward 6
      ∧ ((cycling .p0 (.read 9) .walk 9 0 live).entry 9).content = .empty)
    ∧ live.sweeps = [] ∧ State.reset.device ≠ .ready
    ∧ (sweeping .p0 (.loss .lease) 0 { owned := 1, watch := 0 } live).sweepVisit = true
    ∧ live.held = false ∧ State.reset.held = true ∧ live.device = .ready
    ∧ (State.reset.link .p0).lineHigh = false ∧ (live.link .p0).lineHigh = true
    ∧ live.waitDue = 0 ∧ (live.port .p0).leaseDue = 0 ∧ (live.link .p0).framerDue = 0
    ∧ ((live.link .p0).framer = .hunt ∧ ((framing .p0 .length live).link .p0).framer = .length
      ∧ ((framing .p0 .length live).link .p0).framer ≠ .hunt
      ∧ ((framing .p0 (.check 2#8 [1#8, 2#8] (some 3#8)) live).link .p0).framer = .check 2#8 [1#8, 2#8] (some 3#8)
      ∧ (1#8).toNat < 2 ∧ 15 < (16#8).toNat ∧ 2 ≤ (2#8).toNat ∧ (15#8).toNat ≤ 15)
    ∧ (live.link .p0).ackBuffer = [] ∧ (live.port .p0).replyQueue = [] ∧ (live.port .p0).eventQueue = []
    ∧ (live.link .p0).line = none := by decide +kernel

theorem witness_CommandsLeaveTheQueue : ∃ t, exec .tick live = .next t := ⟨_, rfl⟩

theorem witness_ResetHoldsAndReleasesThePart : State.reset.held = true := rfl

theorem witness_PassLeavesTheDefaults :
    (passing .init 0).held = false ∧ (passing .init 0).device ≠ .ready ∧ (passing .init 0).passPos = 0
    ∧ (passing .clearing 0).device ≠ .ready ∧ (passing .clearing 0).sweeps = [] ∧ (passing .init 0).device = .init
    ∧ (State.executor (passing .init 0) .p0).state = .idle := by decide +kernel

theorem witness_PassCyclesActAsGiven :
    ((passing .init 0).passPos + 1 < 4096 ∧ ((passing .init 0).passPos = 0 → (passing .init 0).device = .init))
    ∧ ((passing .clearing 4094).passPos + 1 < 4096 ∧ (passing .clearing 4094).passPos ≠ 0)
    ∧ ((clearing .clearing (passing .clearing 4095)).passPos = 4095
      ∧ (∀ p, ((clearing .clearing (passing .clearing 4095)).executor p).state ≠ .running .awaitPass)
      ∧ ((clearing .clearing (passing .clearing 4095)).executor .p3).state = .running .clearing)
    ∧ (clearing .awaitPass (passing .clearing 4095)).tallies = .same { owned := 0, watch := 0 }
    ∧ ∃ p, ((clearing .awaitPass (passing .clearing 4095)).executor p).state = .running .awaitPass :=
  ⟨by decide +kernel, by decide +kernel, ⟨rfl, forPorts (by decide +kernel), by decide +kernel⟩, by decide +kernel, .p3,
    by decide +kernel⟩

theorem witness_ClearingPassRemovesTheSweeps :
    (twoSwept (passing .clearing 0)).held = false ∧ (twoSwept (passing .clearing 0)).device = .clearing
    ∧ (twoSwept (passing .clearing 0)).passPos = 0
    ∧ ((twoSwept (passing .clearing 0)).sweeps.map SweepRecord.port).Nodup
    ∧ (∀ r ∈ (twoSwept (passing .clearing 0)).sweeps, (twoSwept (passing .clearing 0)).portState r.port = .closing)
    ∧ ∀ r ∈ (twoSwept (passing .clearing 0)).sweeps, r.port ≠ .p2 := by decide +kernel

theorem witness_CompletionThenEntryThenGrant :
    live.inProgress = none ∧ live.clearDue = false ∧ ({ live with clearDue := true }).inProgress = none
    ∧ live.portState .p0 = .attached ∧ opened.portState .p0 ≠ .attached := by decide +kernel

theorem witness_PortResetOutsideAttached :
    ((opened.link .p0).lineHigh = true ∧ opened.portState .p0 = .opened)
    ∧ ((twoSwept live).link .p1).lineHigh = true ∧ (twoSwept live).portState .p1 = .closing
    ∧ ((opened.setPort .p0 (PortControl.reset false)).portState .p0 = .down
      ∧ ((opened.setPort .p0 (PortControl.reset false)).link .p0).lineHigh = true)
    ∧ ((after (.portResetLow .p0) opened).link .p0).lineHigh = false
    ∧ (after (.portResetLow .p0) opened).portState .p0 = .down
    ∧ ((after (.portResetLow .p0) live).link .p0).lineHigh = false
    ∧ (after (.portResetLow .p0) live).portState .p0 = .closing := by decide +kernel

/-- A LINK of P0 whose first check-walk cycle is pending in CLEARING, every port ATTACHED. -/
def linkInClearing : State := { linking .p0 (.link 5 6) .checkWalk 6 0 live with device := .clearing, inProgress := none }

/-- Every case of a loss: by line, lease and FORCE_DETACH of another and of itself; the lost executor IDLE, in
TOKEN_WAIT, with its cycle in progress, with it pending in READY, and stopping at once: with a cycle pending in CLEARING, the
token held with and without a waiter, or not held, and on a CLEAR_DIRECTORY. -/
theorem witness_SessionLossStarts :
    (live.portState .p0 = .attached ∧ (live.link .p0).lineHigh = true)
    ∧ (((live.setPort .p0 { attachedPort with leaseTimer := some 1, leaseDue := 1 }).port .p0).leaseTimer = some 1
      ∧ 0 < ((live.setPort .p0 { attachedPort with leaseTimer := some 1, leaseDue := 1 }).port .p0).leaseDue
      ∧ (live.setPort .p0 { attachedPort with leaseTimer := some 1, leaseDue := 1 }).portState .p0 = .attached)
    ∧ ((asked .p3 (.forceDetach 0#8) live).nextRequest .p3 = some ⟨4, .forceDetach 0#8⟩ ∧ portOfCode 0#8 = some .p0
      ∧ portOfCode 3#8 = some .p3 ∧ live.isMaintenance .p3 = true)
    ∧ (live.executor .p0).state = .idle
    ∧ ((after (.link .p0) (asked .p0 (.link 5 6) (linking .p1 (.link 8 9) .commit 9 0 live))).executor .p0).state = .tokenWait
    ∧ ((twoReads.executor .p0).state = .running .walk ∧ twoReads.inProgress = some (.executor .p0))
    ∧ ((twoReads.executor .p1).state = .running .walk ∧ twoReads.inProgress ≠ some (.executor .p1)
      ∧ twoReads.device ≠ .clearing)
    ∧ (linkInClearing.portState .p0 = .attached ∧ (linkInClearing.executor .p0).state = .running .checkWalk
      ∧ linkInClearing.inProgress ≠ some (.executor .p0) ∧ linkInClearing.device = .clearing
      ∧ linkInClearing.serial = { token := .held .p0, queue := [] })
    ∧ ((after (.link .p1) (asked .p1 (.link 8 9) linkInClearing)).serial = { token := .held .p0, queue := [.p1] }
      ∧ ((after (.link .p1) (asked .p1 (.link 8 9) linkInClearing)).executor .p1).current = some ⟨4, .link 8 9⟩)
    ∧ (({ twoReads with device := .clearing, inProgress := none }).serial.token ≠ .held .p1
      ∧ ((clearing .awaitPass linkInClearing).executor .p3).state = .running .awaitPass
      ∧ (clearing .awaitPass linkInClearing).serial.token ≠ .held .p3) := by decide +kernel

theorem witness_TickReachesEveryBlock :
    State.reset.held = true ∧ live.held = false ∧ live.waits = []
    ∧ ([parked .p0 1 9 (some 2), parked .p1 1 9 none].all (fun w => w.remaining.all (fun m => decide (2 ≤ m))) = true)
    ∧ ((parked .p0 1 9 (some 1)).remaining = some 1 ∧ (parked .p0 1 9 (some 2)).remaining = some 2)
    ∧ (attachedPort.leaseTimer = none ∧ ({ attachedPort with leaseTimer := some 2 }).leaseTimer = some 2
      ∧ attachedPort.leaseDue = 0 ∧ ({ attachedPort with leaseTimer := some 1 }).leaseTimer = some 1)
    ∧ ((live.link .p0).framer = .hunt ∧ ((framing .p0 .length live).link .p0).framer ≠ .hunt
      ∧ ((framing .p0 .length live).link .p0).byteTicks = 0 ∧ ((framing .p0 .length live).link .p0).framerDue = 0
      ∧ 0 < ({ PortLink.reset true with framer := .length, byteTicks := 1 }).byteTicks) := by decide +kernel

theorem witness_DeliveredTicksAreTaken :
    0 < ({ live with waitDue := 1 }).waitDue
    ∧ 0 < ({ attachedPort with leaseTimer := some 2, leaseDue := 1 }).leaseDue
    ∧ ({ attachedPort with leaseTimer := some 2, leaseDue := 1 }).leaseTimer = some 2 := by decide +kernel

/-- A framer in each state, with the boundary bytes of each clause. -/
theorem witness_FramerFollowsItsTable :
    (live.held = false ∧ (live.link .p0).lineHigh = true ∧ (live.link .p0).framer = .hunt)
    ∧ (((framing .p0 .length live).link .p0).framer = .length ∧ 2 ≤ (2#8).toNat ∧ (15#8).toNat ≤ 15
      ∧ (1#8).toNat < 2 ∧ 15 < (16#8).toNat)
    ∧ ((framing .p0 (.body 2#8 [1#8]) live).link .p0).framer = .body 2#8 [1#8]
    ∧ ((framing .p0 (.check 2#8 [1#8, 2#8] none) live).link .p0).framer = .check 2#8 [1#8, 2#8] none
    ∧ (0 < ({ PortLink.reset true with framer := .length, framerDue := 1 }).framerDue
      ∧ ({ PortLink.reset true with framer := .length, framerDue := 1 }).byteTicks = 0
      ∧ 0 < ({ PortLink.reset true with framer := .length, framerDue := 1, byteTicks := 1 }).byteTicks)
    ∧ (((framing .p0 (.check 2#8 [0x03#8, 0x04#8] (some 0#8)) live).link .p0).framer
        = .check 2#8 [0x03#8, 0x04#8] (some 0#8)
      ∧ frameCheck 2#8 [0x03#8, 0x04#8] ≠ 0#8 ++ 0#8)
    ∧ (requestLength 0x03#8 = some 2 ∧ 2 ≠ [0x03#8, 0x04#8, 0x05#8].length
      ∧ frameCheck 3#8 [0x03#8, 0x04#8, 0x05#8]
        = (frameCheck 3#8 [0x03#8, 0x04#8, 0x05#8]).extractLsb' 8 8
          ++ (frameCheck 3#8 [0x03#8, 0x04#8, 0x05#8]).extractLsb' 0 8) := by decide +kernel

/-- A port for each result of the admission tests, and a frame whose check is right. -/
theorem witness_CompleteFramesAreAdmitted :
    (frameCheck 2#8 [0x02#8, 0x04#8] = (frameCheck 2#8 [0x02#8, 0x04#8]).extractLsb' 8 8
        ++ (frameCheck 2#8 [0x02#8, 0x04#8]).extractLsb' 0 8
      ∧ live.held = false ∧ (live.link .p0).lineHigh = true ∧ live.portState .p0 ≠ .down)
    ∧ (requestLength 0x99#8 = none ∧ requestLength 0x02#8 = some ([] : List Byte).length.succ.succ)
    ∧ (4 ≤ (List.replicate 4 (Ack.mk none 0 .frameError)).length ∧ (live.link .p0).ackBuffer.length < 4)
    ∧ ((passing .init 0).device = .init ∧ live.device ≠ .init)
    ∧ (RequestOp.detach.fieldsFit = true ∧ 0x02#8 = RequestOp.detach.code ∧ [] = RequestOp.detach.operandBytes)
    ∧ (opened.port .p0).portState = .opened
    ∧ ((twoSwept live).port .p0).portState = .closing
    ∧ (({ attachedPort with detachPending := true }).detachPending = true ∧ attachedPort.portState = .attached)
    ∧ (8 ≤ [0, 1, 2, 3, 4, 5, 6, 7].length ∧ (attachedPort.tags.length < 8 ∧ (4 : Tag) ∉ attachedPort.tags)
      ∧ (4 : Tag) ∈ ({ attachedPort with tags := [4] }).tags ∧ ({ attachedPort with tags := [4] }).tags.length < 8)
    ∧ attachedPort.detachPending = false := by decide +kernel

/-- No state refuses a request of an ATTACHED port whose detach-pending mark is clear, or a STATUS. -/
theorem witness_CompleteFramesAreAdmitted_unrefused :
    (∀ r, ¬ (live.port .p0).stateRefuses .detach r) ∧ (∀ r, ¬ (opened.port .p0).stateRefuses .status r)
    ∧ (opened.port .p0).stateRefuses .detach .noSession ∧ ((twoSwept live).port .p0).stateRefuses .detach .closing := by
  refine ⟨fun r h => ?_, fun r h => h.1 rfl, ?_, ?_⟩
  · rcases h.2 with h | h | h
    · exact absurd h.1 (by decide +kernel)
    · exact absurd h.2.1 (by decide +kernel)
    · exact absurd h.1 (by decide +kernel)
  · exact ⟨by decide, .inl ⟨by decide +kernel, fun _ _ _ h => (by cases h), rfl⟩⟩
  · exact ⟨by decide, .inr (.inr ⟨by decide +kernel, rfl⟩)⟩

theorem witness_RequestBytesSpellTheRequest :
    (RequestOp.put 65535 0#8 0xFFFF#16 0#64).fieldsFit = true ∧ (RequestOp.read 65536).fieldsFit = false
    ∧ requestLength 0x10#8 = some ([0x00#8, 0x05#8].length + 2)
    ∧ (RequestOp.read 5).operandBytes = [0x00#8, 0x05#8] := by decide +kernel

theorem witness_WholeRequestFrameIsQueued :
    (RequestOp.put 5 0#8 0 7).fieldsFit = true ∧ live.held = false ∧ live.device = .ready
    ∧ (live.link .p0).lineHigh = true ∧ (live.link .p0).framer = .hunt ∧ (live.link .p0).ackBuffer.length < 4
    ∧ live.portState .p0 = .attached ∧ (live.port .p0).detachPending = false ∧ (live.port .p0).tags.length < 8
    ∧ (4 : Tag) ∉ (live.port .p0).tags := by decide +kernel

theorem witness_SchedulerTakesFramesInOrder :
    (live.held = false ∧ (live.link .p0).lineHigh = true ∧ (live.link .p0).line = none ∧ (live.link .p0).ackBuffer = []
      ∧ (live.link .p0).bits.sent = 0)
    ∧ ({ PortLink.reset true with ackBuffer := [{ tag := some 4, code := 3, result := .accepted }] }).ackBuffer
      = { tag := some 4, code := 3, result := .accepted } :: []
    ∧ ({ PortLink.reset true with line := some [] }).line ≠ none
    ∧ ({ attachedPort with replyQueue := [bareReply { tag := 4, op := .status } .ok] }).replyQueue
      = bareReply { tag := 4, op := .status } .ok :: []
    ∧ (attachedPort.replyQueue = [] ∧ 0 < attachedPort.credits ∧ (PortControl.reset true).credits = 0)
    ∧ ({ attachedPort with eventQueue := [{ seq := 0, event := directoryClearedEvent }] }).eventQueue
      = { seq := 0, event := directoryClearedEvent } :: [] := by decide +kernel

/-- Held in reset either way, a hunting framer behind a fill byte with the line free and nothing to send, a frame of two bytes
under way at its first and last bits, clocks that make commands on both sides, a reply waiting behind one of them, and bodies of
2 and 15 bytes. -/
theorem witness_BitsMakeTheFrames :
    State.reset.held = true ∧ (State.reset.link .p0).lineHigh = false
    ∧ (live.held = false ∧ (live.link .p0).lineHigh = true ∧ (live.link .p0).line = none
      ∧ (live.link .p0).framer = .hunt ∧ (live.link .p0).bits.last8 = 0x00#8 ∧ (live.link .p0).bits.sent = 0
      ∧ (live.link .p0).ackBuffer = [] ∧ (live.port .p0).replyQueue = [] ∧ (live.port .p0).eventQueue = [])
    ∧ (((live.setLink .p0 { PortLink.reset true with line := some [0xA5#8, 3#8] }).link .p0).line = some [0xA5#8, 3#8]
      ∧ [0xA5#8, 3#8][1]? = some 3#8 ∧ ({ LinkBits.start with sent := 15 }).sent = 8 * 1 + 7 ∧ 7 < 8
      ∧ LinkBits.start.sent = 8 * 0 + 0)
    ∧ (let s := live.setLink .p0 { PortLink.reset true with
          line := some [0xA5#8, 3#8], framer := .length, bits := { sent := 15, last8 := 1#8, taken := 7 } }
      (s.clock .p0 false true).acts = [.frameSent .p0, .frameByteReceived .p0 2#8]
        ∧ (s.clock .p0 false false).acts = [.frameByteReceived .p0 2#8, .frameSent .p0])
    ∧ (let s := (live.postReply .p0 (bareReply { tag := 4, op := .status } .ok)).setLink .p0 { PortLink.reset true with
          line := some [0xA5#8, 3#8], framer := .length, bits := { sent := 15, last8 := 1#8, taken := 7 } }
      (s.clock .p0 false true).acts = [.frameSent .p0, .replyFrame .p0, .frameByteReceived .p0 2#8]
        ∧ (s.clock .p0 false false).acts = [.frameByteReceived .p0 2#8, .frameSent .p0])
    ∧ 2 ≤ (List.replicate 2 0#8).length ∧ (List.replicate 15 0#8).length ≤ 15 := by decide +kernel

/-- A frame's bits leave most significant first, with 00h behind them. -/
theorem test_bits_out :
    (List.range 24).map ((PinOut.frame [0xA5#8, 0x03#8]).bit)
      = [true, false, true, false, false, true, false, true, false, false, false, false, false, false, true, true,
        false, false, false, false, false, false, false, false]
    ∧ (PinOut.fill fillByte).bit 5 = false ∧ State.pinOut live .p0 = .fill 0x00#8 := by decide +kernel

/-- The eight bits of A5h make SYNC_BYTE_FOUND at the last of them. -/
theorem test_bits_in :
    let s := [true, false, true, false, false, true, false].foldl (fun s bit => (s.clock .p0 bit true).part) live
    ((s.link .p0).bits = { sent := 7, last8 := 0x52#8, taken := 0 } ∧ (s.clock .p0 true false).acts = [.syncByteFound .p0])
    ∧ ((s.clock .p0 true false).part.link .p0).bits = { sent := 0, last8 := 0xA5#8, taken := 0 } := by decide +kernel

/-- At a byte boundary with the line free a clock takes the acknowledgment that waits and drives the first bit of its frame;
with nothing waiting, and part-way through a fill byte, it takes none (R163). -/
theorem test_bits_choice :
    let acked (sent : Nat) : State := live.setLink .p0 { PortLink.reset true with
      ackBuffer := [{ tag := some 4, code := 3, result := .accepted }], bits := { LinkBits.start with sent := sent } }
    let c := (acked 0).clock .p0 false false
    (c.chosen = some (.ackFrame .p0) ∧ c.pnDO = true ∧ (c.part.link .p0).ackBuffer = [] ∧ (c.part.link .p0).line ≠ none
      ∧ (c.part.link .p0).bits.sent = 1)
    ∧ (live.clock .p0 false false).chosen = none ∧ ((acked 3).clock .p0 false false).chosen = none := by decide +kernel

/-- A frame waits for the end of the fill byte under way, and a reset, with the clock stopped, begins a fill byte anew. -/
theorem test_bits_boundary :
    let acked : State := live.setLink .p0 { PortLink.reset true with
      ackBuffer := [{ tag := some 4, code := 3, result := .accepted }], bits := { LinkBits.start with sent := 5 } }
    after (.ackFrame .p0) acked = acked
    ∧ ((after (.portResetHigh .p0) (after (.portResetLow .p0) acked)).link .p0).bits = .start
    ∧ ((after .deviceReset acked).link .p0).bits = .start := by decide +kernel

/-- The four classes and none. -/
theorem witness_PostingsReachTheirQueues_classes :
    (live.port .p0).mask.enables .valuePut ∧ (live.port .p0).mask.enables .ownerChanged
    ∧ (live.port .p0).mask.enables .entryRetired ∧ (live.port .p0).mask.enables .sweepDone
    ∧ (live.port .p0).mask.enables .directoryCleared ∧ ¬ (opened.port .p0).mask.enables .valuePut := by
  refine ⟨Or.inl (by decide), Or.inr (Or.inl (by decide)), Or.inr (Or.inr (Or.inl (by decide))),
    Or.inr (Or.inr (Or.inr (Or.inl (by decide)))), Or.inr (Or.inr (Or.inr (Or.inr (by decide)))), ?_⟩
  unfold EventMask.enables; decide +kernel

/-- An admitted event at 30 and at 31 records, and at 32 with an OVERFLOW newest; and events that are not admitted. -/
theorem witness_PostingsReachTheirQueues :
    (live.portState .p0 = .attached ∧ ¬ ((live.port .p0).suppressOwn = true ∧ Cause.device = .port .p0))
    ∧ opened.portState .p0 ≠ .attached
    ∧ (List.replicate 30 (EventRecord.mk 0 directoryClearedEvent)).length ≤ 30
    ∧ (List.replicate 31 (EventRecord.mk 0 directoryClearedEvent)).length = 31
    ∧ (List.replicate 31 (EventRecord.mk 0 directoryClearedEvent)).getLast? = some (EventRecord.mk 0 directoryClearedEvent)
    ∧ directoryClearedEvent.kind ≠ .overflow
    ∧ (31 ≤ (List.replicate 31 (EventRecord.mk 0 directoryClearedEvent) ++ [EventRecord.mk 0 overflowEvent]).length
      ∧ (EventRecord.mk 0 overflowEvent).event.kind = .overflow) := by decide +kernel

theorem witness_AttachOpensASession :
    (asked .p0 (.attach 9 15#8 0#8) opened).nextRequest .p0 = some ⟨4, .attach 9 15#8 0#8⟩
    ∧ maskOfCode 15#8 = some { content := true, ownership := true, retirement := true, ports := true }
    ∧ flagOfCode 0#8 = some false
    ∧ (asked .p0 (.attach 9 15#8 0#8) opened).portState .p0 = .opened
    ∧ (asked .p0 (.attach 9 15#8 0#8) live).nextRequest .p0 = some ⟨4, .attach 9 15#8 0#8⟩
    ∧ (asked .p0 (.attach 9 15#8 0#8) live).portState .p0 = .attached := by decide +kernel

theorem witness_DetachStartsASweep :
    (asked .p0 .detach live).nextRequest .p0 = some ⟨4, .detach⟩
    ∧ (asked .p0 .detach live).portState .p0 = .attached := by decide +kernel

/-- A STATUS finds the free list as it stood before the pass, or as the completed pass leaves it. -/
theorem test_status_during_a_pass :
    ({ passing .clearing 0 with freeList := [300] }).freeLength = 1
    ∧ ({ passing .clearing 1 with freeList := [] }).freeLength = 3840
    ∧ ({ passing .clearing 300 with freeList := [256] }).freeLength = 3840
    ∧ ({ live with freeList := [300] }).freeLength = 1 := by decide +kernel

theorem witness_RequestsAnsweredAtOnce :
    (asked .p0 .status live).nextRequest .p0 = some ⟨4, .status⟩
    ∧ ((asked .p0 .status (passing .clearing 300)).nextRequest .p0 = some ⟨4, .status⟩
      ∧ (asked .p0 .status (passing .clearing 300)).device ≠ .ready
      ∧ 0 < (asked .p0 .status (passing .clearing 300)).passPos)
    ∧ ((asked .p0 (.credit 32#8) live).nextRequest .p0 = some ⟨4, .credit 32#8⟩ ∧ 1 ≤ (32#8).toNat ∧ (32#8).toNat ≤ 32
      ∧ 1 ≤ (1#8).toNat)
    ∧ ((asked .p0 (.setEvents 3#8 1#8) live).nextRequest .p0 = some ⟨4, .setEvents 3#8 1#8⟩
      ∧ maskOfCode 3#8 = some { content := true, ownership := true, retirement := false, ports := false }
      ∧ flagOfCode 1#8 = some true)
    ∧ ((asked .p3 (.forceDetach 0#8) opened).nextRequest .p3 = some ⟨4, .forceDetach 0#8⟩ ∧ portOfCode 0#8 = some .p0
      ∧ opened.isMaintenance .p3 = true ∧ (asked .p3 (.forceDetach 0#8) opened).portState .p0 ≠ .attached
      ∧ (twoSwept live).portState .p0 = .closing) := by decide +kernel

theorem witness_ClearDirectoryEntersClearing :
    (asked .p3 .clearDirectory live).nextRequest .p3 = some ⟨4, .clearDirectory⟩
    ∧ (asked .p3 .clearDirectory live).isMaintenance .p3 = true
    ∧ ((asked .p3 .clearDirectory live).device = .ready ∧ (asked .p3 .clearDirectory live).inProgress = none)
    ∧ (asked .p3 .clearDirectory twoReads).inProgress ≠ none
    ∧ (asked .p3 .clearDirectory (passing .clearing 5)).device ≠ .ready := by decide +kernel

theorem witness_RefusalsBeforeAnyCycle :
    ((asked .p0 (.read 4096) live).nextRequest .p0 = some ⟨4, .read 4096⟩ ∧ (RequestOp.read 4096).operandsOk = false)
    ∧ ((asked .p0 (.inspect 4095) live).nextRequest .p0 = some ⟨4, .inspect 4095⟩
      ∧ (RequestOp.inspect 4095).operandsOk = true ∧ (RequestOp.inspect 4095).maintenance = true
      ∧ (asked .p0 (.inspect 4095) live).isMaintenance .p0 = false) := by decide +kernel

theorem witness_RequestsBeginTheirWork :
    ((asked .p0 (.put 4095 2#8 0 7) live).nextRequest .p0 = some ⟨4, .put 4095 2#8 0 7⟩
      ∧ (RequestOp.put 4095 2#8 0 7).firstCycle = some (.walk, 4095)
      ∧ (RequestOp.put 4095 2#8 0 7).operandsOk = true ∧ (RequestOp.put 4095 2#8 0 7).maintenance = false)
    ∧ ((asked .p3 (.breakWait 0) live).nextRequest .p3 = some ⟨4, .breakWait 0⟩
      ∧ (RequestOp.breakWait 0).firstCycle = some (.single, 0) ∧ (RequestOp.breakWait 0).operandsOk = true
      ∧ (asked .p3 (.breakWait 0) live).isMaintenance .p3 = true)
    ∧ ((asked .p0 (.link 4095 0) live).nextRequest .p0 = some ⟨4, .link 4095 0⟩ ∧ live.serial.token = .free
      ∧ (linking .p1 (.link 8 9) .commit 9 0 live).serial.token ≠ .free) := by decide +kernel

/-- A walk at an unallocated slot, at a forward with 7 and with 8 hops, abandoned, and at a terminal. -/
theorem witness_WalkCyclesAct :
    ((cycling .p0 (.read 300) .walk 300 0 live).cycleOf .p0 .walk = some ⟨4, .read 300⟩
      ∧ Work.walk.fits (RequestOp.read 300) = true ∧ (cycling .p0 (.read 300) .walk 300 0 live).allocated 300 = false)
    ∧ ((cycling .p0 (.read 5) .walk 5 7 (live.setEntry 5 (holding (.forward 6)))).cycleOf .p0 .walk = some ⟨4, .read 5⟩
      ∧ (cycling .p0 (.read 5) .walk 5 7 (live.setEntry 5 (holding (.forward 6)))).allocated 5 = true
      ∧ ((cycling .p0 (.read 5) .walk 5 7 (live.setEntry 5 (holding (.forward 6)))).entry 5).content = .forward 6
      ∧ ((cycling .p0 (.read 5) .walk 5 7 live).executor .p0).abandoned = false)
    ∧ ((cycling .p0 (.read 5) .walk 5 8 live).executor .p0).hops = 8
    ∧ ((after (.portResetLow .p0) (cycling .p0 (.read 5) .walk 5 7 live)).executor .p0).abandoned = true
    ∧ ((cycling .p0 (.read 5) .walk 5 0 live).entry 5).content.isForward = false := by decide +kernel

/-- A chain of one forward that ends, and one of eight forwards with a ninth. -/
def chain : State :=
  { live with entries :=
      [(1, holding (.forward 2)), (2, holding (.forward 3)), (3, holding (.forward 4)), (4, holding (.forward 5)),
        (5, holding (.forward 6)), (6, holding (.forward 7)), (7, holding (.forward 8)), (8, holding (.forward 9)),
        (9, holding (.forward 10))] }

theorem witness_ReadReachesTheEndOfItsChain :
    ((cycling .p0 (.read 2) .walk 2 0 chain).device = .ready ∧ (cycling .p0 (.read 2) .walk 2 0 chain).clearDue = false
      ∧ (cycling .p0 (.read 2) .walk 2 0 chain).cycleOf .p0 .walk = some ⟨4, .read 2⟩
      ∧ ((cycling .p0 (.read 2) .walk 2 0 chain).executor .p0).walkPos = 2
      ∧ ((cycling .p0 (.read 2) .walk 2 0 chain).executor .p0).hops = 0
      ∧ ((cycling .p0 (.read 2) .walk 2 0 chain).executor .p0).abandoned = false
      ∧ (cycling .p0 (.read 2) .walk 2 0 chain).lastGranted = .executor .p0)
    ∧ ((cycling .p0 (.read 2) .walk 2 0 chain).hasCycle (.executor .p1) = false
      ∧ (cycling .p0 (.read 2) .walk 2 0 chain).hasCycle .sweeper = false)
    ∧ (chain.follow 8 2 = some 10 ∧ (chain.entry 10).content.isForward = false)
    ∧ (chain.follow 8 1 = some 9 ∧ (chain.entry 9).content = .forward 10)
    ∧ ((List.range 9).all (fun i => (chain.follow i 1).all (fun x => chain.allocated x)) = true)
    ∧ (List.range 9).all (fun i => (chain.follow i 2).all (fun x => chain.allocated x)) = true := by decide +kernel

/-- The two chains of the witness, run: an answer after eight hops, and CHAIN_DEEP at the ninth forward. -/
theorem test_reads_of_chains :
    lastReply .p0 (afterAll (List.replicate 8 (.walkHop .p0) ++ [.readTerminal .p0]) (cycling .p0 (.read 2) .walk 2 0 chain))
      = some { bareReply { tag := 4, op := .read 2 } .ok with
          terminal := some (10, 8), content := some .empty, version := some 0 }
    ∧ lastReply .p0 (afterAll (List.replicate 9 (.walkHop .p0)) (cycling .p0 (.read 1) .walk 1 0 chain))
      = some { bareReply { tag := 4, op := .read 1 } .chainDeep with terminal := some (9, 8) } := by decide +kernel

theorem witness_PutsStoreOrHandOff :
    ((cycling .p0 (.put 6 2#8 5 9) .walk 6 0 (live.setEntry 6 (holding (.value 1)))).cycleOf .p0 .walk
        = some ⟨4, .put 6 2#8 5 9⟩
      ∧ (live.setEntry 6 (holding (.value 1))).allocated 6 = true
      ∧ ((live.setEntry 6 (holding (.value 1))).entry 6).access.putOpen = true
      ∧ ((live.setEntry 6 (holding (.value 1))).entry 6).version = 5
      ∧ ((live.setEntry 6 (holding (.value 1))).entry 6).content.isForward = false)
    ∧ ((live.setEntry 6 (ownedBy .p0 .keep)).entry 6).owner = some .p0
    ∧ ((live.entry 6).content = .empty ∧ live.waits = [] ∧ (live.entry 6).owner = none)
    ∧ ([parked .p1 2 9 none, parked .p1 1 6 none] = [parked .p1 2 9 none] ++ parked .p1 1 6 none :: []
      ∧ (parked .p1 1 6 none).terminal = 6 ∧ (parked .p1 2 9 none).terminal ≠ 6) := by decide +kernel

/-- The permission test passes on the flag, and fails with each of its refusals. -/
theorem witness_PutAndTakeRefusals :
    (live.setEntry 6 (ownedBy .p1 .keep)).flagFails .p0 6 false .notOwner
    ∧ (live.setEntry 6 { ownedBy .p0 .keep with orphaned := true }).flagFails .p0 6 false .orphaned
    ∧ ((twoSwept live).setEntry 6 (ownedBy .p0 .keep)).flagFails .p2 6 false .pendingRecovery
    ∧ (live.setEntry 6 (holding (.value 1))).flagPasses .p0 6 true
    ∧ ((live.setEntry 6 (holding (.value 1))).entry 6).content ≠ .empty
    ∧ ((live.setEntry 6 (holding (.value 1))).entry 6).version ≠ 4
    ∧ (cycling .p0 (.take 6 0) .walk 6 0 live).cycleOf .p0 .walk = some ⟨4, .take 6 0⟩
    ∧ (2#8).toNat ≤ 2 :=
  ⟨⟨rfl, .p1, by decide +kernel, .inr (.inr (by decide +kernel))⟩, ⟨rfl, .p0, by decide +kernel, .inl (by decide +kernel)⟩,
    ⟨rfl, .p0, by decide +kernel, .inr (.inl (by decide +kernel))⟩, .inl rfl, by decide +kernel, by decide +kernel,
    by decide +kernel, by decide⟩

theorem witness_TakesEmptyOrWait :
    ((cycling .p0 (.take 6 0) .walk 6 0 (live.setEntry 6 (holding (.value 1)))).cycleOf .p0 .walk = some ⟨4, .take 6 0⟩
      ∧ ((live.setEntry 6 (holding (.value 1))).entry 6).content = .value 1
      ∧ ((live.setEntry 6 (holding (.value 1))).entry 6).access.takeOpen = true)
    ∧ ((cycling .p0 (.take 6 65535) .walk 6 0 live).cycleOf .p0 .walk = some ⟨4, .take 6 65535⟩
      ∧ (live.entry 6).content = .empty ∧ live.allocated 6 = true ∧ (live.entry 6).access.takeOpen = true)
    ∧ (live.portState .p0 = .attached ∧ opened.portState .p0 ≠ .attached)
    ∧ (16 ≤ (List.replicate 16 (parked .p1 1 9 none)).length ∧ (List.replicate 15 (parked .p1 1 9 none)).length < 16) := by
  decide +kernel

theorem witness_CheckWalksAndTheToken :
    ((linking .p0 (.link 5 6) .checkWalk 6 0 live).cycleOf .p0 .checkWalk = some ⟨4, .link 5 6⟩
      ∧ live.allocated 300 = false ∧ live.allocated 5 = true ∧ (6 : Slot) ≠ 5)
    ∧ ((chain.entry 6).content = .forward 7 ∧ (live.entry 6).content.isForward = false)
    ∧ (live.serial.queue = []
      ∧ (after (.link .p1) (asked .p1 (.link 5 6) (linking .p0 (.link 8 9) .commit 9 0 live))).serial.queue = [.p1]
      ∧ ((after (.link .p1) (asked .p1 (.link 5 6) (linking .p0 (.link 8 9) .commit 9 0 live))).executor .p1).current
        = some ⟨4, .link 5 6⟩) := by decide +kernel

theorem witness_CommitLinksItsEntry :
    ((linking .p0 (.link 5 6) .commit 6 7 live).cycleOf .p0 .commit = some ⟨4, .link 5 6⟩
      ∧ ((linking .p0 (.link 5 6) .commit 6 7 live).executor .p0).hops = 7)
    ∧ (live.allocated 300 = false ∧ live.allocated 5 = true ∧ live.allocated 6 = true)
    ∧ (live.setEntry 5 (ownedBy .p1 .keep)).modifyFails .p0 5 .notOwner
    ∧ live.modifyPasses .p0 5 ∧ (live.setEntry 5 (ownedBy .p0 .keep)).modifyPasses .p0 5
    ∧ ((live.setEntry 5 (holding (.value 1))).entry 5).content = .value 1
    ∧ ∀ v, (chain.entry 5).content ≠ .value v :=
  ⟨by decide +kernel, by decide +kernel, ⟨.p1, by decide +kernel, .inr (.inr (by decide +kernel))⟩,
    .inl (by decide +kernel), .inr (by decide +kernel), by decide +kernel,
    fun v h => by rw [show (chain.entry 5).content = .forward 6 by decide +kernel] at h; cases h⟩

theorem witness_SingleCycleRefusals :
    (live.allocated 300 = false ∧ (cycling .p0 (.clear 300) .single 300 0 live).cycleOf .p0 .single = some ⟨4, .clear 300⟩)
    ∧ accessOfCodes 3#8 1#8 0#8 = some { disposition := .restore, putOpen := true, takeOpen := false }
    ∧ (live.setEntry 5 (ownedBy .p1 .keep)).modifyFails .p0 5 .notOwner
    ∧ ((live.setRow 256 { allocated := true, inbound := 0 }).setEntry 256 (ownedBy .p1 .keep)).modifyFails .p0 256 .notOwner
    ∧ (live.setRow 256 { allocated := true, inbound := 0 }).allocated 256 = true
    ∧ (cycling .p0 (.retire 255) .single 255 0 live).cycleOf .p0 .single = some ⟨4, .retire 255⟩
    ∧ (live.allocated 5 = true ∧ (live.entry 5).owner = none) :=
  ⟨by decide +kernel, by decide, ⟨.p1, by decide +kernel, .inr (.inr (by decide +kernel))⟩,
    ⟨.p1, by decide +kernel, .inr (.inr (by decide +kernel))⟩, by decide +kernel, by decide +kernel, by decide +kernel⟩

theorem witness_ClearAndCheckpointAct :
    ((cycling .p0 (.clear 5) .single 5 0 live).cycleOf .p0 .single = some ⟨4, .clear 5⟩ ∧ live.allocated 5 = true
      ∧ (live.entry 5).content = .empty ∧ (chain.entry 5).content ≠ .empty)
    ∧ (cycling .p0 (.checkpoint 5) .single 5 0 live).cycleOf .p0 .single = some ⟨4, .checkpoint 5⟩
    ∧ live.modifyPasses .p0 5 ∧ chain.modifyPasses .p0 5 :=
  ⟨by decide +kernel, by decide +kernel, .inl (by decide +kernel), .inl (by decide +kernel)⟩

theorem witness_WatchAndUnwatchKeepTheSet :
    (cycling .p0 (.watch 5) .single 5 0 live).cycleOf .p0 .single = some ⟨4, .watch 5⟩
    ∧ (cycling .p0 (.unwatch 5) .single 5 0 live).cycleOf .p0 .single = some ⟨4, .unwatch 5⟩
    ∧ live.allocated 5 = true := by decide +kernel

theorem witness_AllocTakesOrIsRefused :
    (cycling .p0 (.alloc 0#8 0#8 1#8) .single 0 0 live).cycleOf .p0 .single = some ⟨4, .alloc 0#8 0#8 1#8⟩
    ∧ accessOfCodes 0#8 0#8 1#8 = some { disposition := .keep, putOpen := false, takeOpen := true }
    ∧ live.freeList = 256 :: [257] ∧ ({ live with freeList := [] }).freeList = [] := by decide +kernel

/-- Slot 256, allocated: with content, referenced, waited on, and free to go. -/
theorem witness_RetireReturnsTheSlot :
    ((cycling .p0 (.retire 256) .single 256 0 (live.setRow 256 { allocated := true, inbound := 0 })).cycleOf .p0 .single
        = some ⟨4, .retire 256⟩
      ∧ (live.setRow 256 { allocated := true, inbound := 0 }).allocated 256 = true)
    ∧ (live.setRow 256 { allocated := true, inbound := 0 }).modifyPasses .p0 256
    ∧ (((live.setRow 256 { allocated := true, inbound := 0 }).entry 256).content = .empty
      ∧ ((live.setEntry 256 (holding (.value 1))).entry 256).content ≠ .empty)
    ∧ (0 < (live.setRow 256 { allocated := true, inbound := 1 }).inbound 256
      ∧ (live.setRow 256 { allocated := true, inbound := 0 }).inbound 256 = 0)
    ∧ (0 < ({ live with waits := [parked .p1 1 256 none] }).waitsOn 256 ∧ live.waitsOn 256 = 0) :=
  ⟨by decide +kernel, .inl (by decide +kernel), by decide +kernel, by decide +kernel, by decide +kernel⟩

theorem witness_ClaimAndAdoptTakeOwnership :
    accessOfCodes 1#8 1#8 1#8 = some { disposition := .release, putOpen := true, takeOpen := true }
    ∧ live.allocated 5 = true
    ∧ (cycling .p0 (.claim 5 1#8 1#8 1#8) .single 5 0 live).cycleOf .p0 .single = some ⟨4, .claim 5 1#8 1#8 1#8⟩
    ∧ (cycling .p0 (.adopt 5 1#8 1#8 1#8) .single 5 0 live).cycleOf .p0 .single = some ⟨4, .adopt 5 1#8 1#8 1#8⟩
    ∧ ((live.entry 5).owner = none ∧ ((live.setEntry 5 (ownedBy .p1 .keep)).entry 5).owner = some .p1)
    ∧ ((live.setEntry 5 { ownedBy .p1 .keep with orphaned := true }).entry 5).orphaned = true
    ∧ ((live.setEntry 5 (ownedBy .p1 .keep)).entry 5).orphaned = false := by decide +kernel

theorem witness_ReleaseAndSetAccessAct :
    (cycling .p0 (.release 5) .single 5 0 (live.setEntry 5 (ownedBy .p0 .keep))).cycleOf .p0 .single = some ⟨4, .release 5⟩
    ∧ (cycling .p0 (.setAccess 5 2#8 0#8 0#8) .single 5 0 (live.setEntry 5 (ownedBy .p0 .keep))).cycleOf .p0 .single
      = some ⟨4, .setAccess 5 2#8 0#8 0#8⟩
    ∧ accessOfCodes 2#8 0#8 0#8 = some { disposition := .drop, putOpen := false, takeOpen := false }
    ∧ (live.setEntry 5 (ownedBy .p0 .keep)).allocated 5 = true
    ∧ ((live.setEntry 5 (ownedBy .p0 .keep)).entry 5).owner = some .p0
    ∧ ((live.setEntry 5 (ownedBy .p0 .keep)).entry 5).orphaned = false := by decide +kernel

theorem witness_InspectAndBreakWaitAct :
    (cycling .p3 (.inspect 5) .single 5 0 live).cycleOf .p3 .single = some ⟨4, .inspect 5⟩
    ∧ (cycling .p3 (.breakWait 5) .single 5 0 live).cycleOf .p3 .single = some ⟨4, .breakWait 5⟩
    ∧ live.allocated 5 = true := by decide +kernel

theorem witness_SweepPassesRun :
    ((twoSwept live).device = .ready ∧ (twoSwept live).sweepVisit = false
      ∧ (twoSwept live).sweeps = { port := .p0, kind := .loss .linkReset } ::
        [{ port := .p1, kind := .detach (some 4) { keep := 0, release := 0, drop := 0, restore := 0 } }])
    ∧ ((after (.portResetLow .p0) twoReads).executor .p0).abandoned = true
    ∧ ((twoSwept live).executor .p0).abandoned = false
    ∧ ((twoSwept live).tallies.get .p0 = { owned := 0, watch := 0 }
      ∧ (sweeping .p0 (.loss .lease) 5 { owned := 1, watch := 0 } live).tallies.get .p0 ≠ { owned := 0, watch := 0 })
    ∧ ((twoSwept live).clearDue = false ∧ ({ twoSwept live with clearDue := true }).clearDue = true) := by decide +kernel

theorem witness_VisitsRemoveKeepAndRelease :
    (sweeping .p0 (.loss .lease) 300 { owned := 1, watch := 0 } live).allocated 300 = false
    ∧ Visiting (sweeping .p0 (.loss .lease) 5 { owned := 1, watch := 0 } (live.setEntry 5 (ownedBy .p0 .keep)))
      { port := .p0, kind := .loss .lease } [] 5
    ∧ ((live.setEntry 5 (ownedBy .p0 .keep)).entry 5).owner = some .p0
    ∧ ((live.setEntry 5 (ownedBy .p0 .keep)).entry 5).orphaned = false
    ∧ ((live.setEntry 5 (ownedBy .p0 .keep)).entry 5).access.disposition = .keep
    ∧ ((live.setEntry 5 (ownedBy .p0 .release)).entry 5).access.disposition = .release
    ∧ (live.entry 5).owner ≠ some .p0 :=
  ⟨by decide +kernel, ⟨by decide +kernel, by decide +kernel, by decide +kernel, by decide +kernel⟩, by decide +kernel,
    by decide +kernel, by decide +kernel, by decide +kernel, by decide +kernel⟩

/-- A pooled slot that a DROP retires and a fixed one that it does not; a checkpoint of each kind, over each content. -/
theorem witness_VisitsDropAndRestore :
    Visiting (sweeping .p0 (.loss .lease) 256 { owned := 1, watch := 0 }
        ((live.setEntry 256 (ownedBy .p0 .drop)).setRow 256 { allocated := true, inbound := 0 }))
      { port := .p0, kind := .loss .lease } [] 256
    ∧ ((live.setEntry 5 (ownedBy .p0 .drop)).entry 5).access.disposition = .drop
    ∧ (live.waitsOn 256 = 0 ∧ ¬ 256 ≤ 255)
    ∧ ((ownedBy .p0 .restore).saved = .absent ∧ (ownedBy .p0 .restore).access.disposition = .restore)
    ∧ (({ ownedBy .p0 .restore with saved := .empty }).saved = .empty
      ∧ ({ ownedBy .p0 .restore with saved := .empty }).content ≠ .empty)
    ∧ (({ ownedBy .p0 .restore with saved := .value 7 }).saved = .value 7
      ∧ ({ ownedBy .p0 .restore with saved := .value 7 }).content = .value 7
      ∧ ({ ownedBy .p0 .restore with saved := .value 9 }).content ≠ .value 9)
    ∧ (({ ownedBy .p0 .restore with content := .empty, saved := .value 9 }).content = .empty
      ∧ (parked .p1 1 5 none).terminal = 5) :=
  ⟨⟨by decide +kernel, by decide +kernel, by decide +kernel, by decide +kernel⟩, by decide +kernel, by decide +kernel,
    by decide +kernel, by decide +kernel, by decide +kernel, by decide +kernel⟩

theorem witness_GrantFollowsTheRotation :
    opened.inProgress = none ∧ opened.device = .ready ∧ (passing .init 0).device ≠ .ready ∧ twoReads.inProgress ≠ none
    ∧ ({ twoReads with inProgress := none }).hasCycle (.executor .p1) = true
    ∧ ahead (.executor .p0) (.executor .p1) = 0 ∧ opened.hasCycle .sweeper = false
    ∧ (opened.executor .p0).abandoned = false ∧ (opened.executor .p1).abandoned = false
    ∧ (opened.executor .p2).abandoned = false ∧ (opened.executor .p3).abandoned = false := by decide +kernel

/-- Before the arbiter's turn: P0, lost, has its LINK's commit pending with the token RECALLED, P1's LINK waits for the
token, and P2, lost, has a READ's cycle pending. -/
def twoLost : State :=
  { live with
    execs := { live.execs with
      p0 := { state := .running .commit, current := some { tag := 4, op := .link 5 6 }, walkPos := 6, hops := 0
              abandoned := true }
      p1 := { state := .tokenWait, current := some { tag := 4, op := .link 8 9 }, walkPos := 0, hops := 0
              abandoned := false }
      p2 := { state := .running .walk, current := some { tag := 4, op := .read 5 }, walkPos := 5, hops := 0
              abandoned := true } }
    serial := { token := .recalled, queue := [.p1] } }

theorem witness_WithdrawalsComeInEitherOrder :
    twoLost.ExecutorLaw ∧ twoLost.TokenLaw ∧ twoLost.withdrawing .p0 = true ∧ twoLost.withdrawing .p2 = true
    ∧ (twoLost.executor .p0).onLink = true ∧ (twoLost.executor .p2).onLink = false
    ∧ (twoLost.executor .p1).current = some ⟨4, .link 8 9⟩ := by
  refine ⟨⟨?_, ?_, ?_, ?_, ?_⟩, ⟨?_, ?_, ?_, ?_, ?_, ?_, ?_, ?_⟩, ?_⟩
  · exact forPorts ⟨⟨_, rfl, rfl⟩, ⟨rfl, rfl⟩, ⟨_, rfl, rfl⟩, rfl⟩
  · intro p rq h; cases p <;> cases h <;> rfl
  · exact forPorts (by decide +kernel)
  · exact forPorts (by decide +kernel)
  · exact forPorts (by decide +kernel)
  · intro p h; cases h
  · intro p h h'; cases p <;> revert h h' <;> decide +kernel
  · intro p _ _; rfl
  · exact fun _ => ⟨.p0, rfl, rfl⟩
  · intro p q h1 h2 h3 h4
    cases p <;> cases q <;> revert h1 h2 h3 h4 <;> decide +kernel
  · exact forPorts (by decide +kernel)
  · decide +kernel
  · intro h; cases h
  · decide +kernel

/-! ## The laws are met -/

/-- READY, four ports ATTACHED, P0 and P1 each executing a READ of slot 5: P0's cycle in progress, P1's pending. -/
def lawful : State :=
  { twoReads with
    freeList := List.range' 256 3840
    ports := { p0 := { attachedPort with tags := [4] }, p1 := { attachedPort with tags := [4] }
               p2 := attachedPort, p3 := attachedPort }
    pending := [.readTerminal .p0] }

theorem lawful_entry (k : Slot) : lawful.entry k = .default := rfl

theorem lawful_row (k : Slot) : lawful.row k = .default k := rfl

theorem lawful_allocated (k : Slot) : lawful.allocated k = decide (k < 256) := by
  show (decide (k < 256) || decide (k < 256)) = decide (k < 256)
  exact Bool.or_self _

theorem lawful_directory : lawful.DirectoryLaws where
  inboundCounts := fun _ => rfl
  targetsAllocated := by intro k t h; rw [lawful_entry] at h; cases h
  ownedCounts := forPorts (by decide +kernel)
  watchCounts := forPorts (by decide +kernel)
  freeOnce := List.nodup_range'
  freeUnallocated := by
    intro k
    rw [lawful_allocated]
    show k ∈ List.range' 256 3840 ↔ (256 ≤ k ∧ k < 4096 ∧ decide (k < 256) = false)
    rw [List.mem_range'_1, decide_eq_false_iff_not]
    constructor
    · rintro ⟨h1, h2⟩; exact ⟨h1, h2, Nat.not_lt.2 h1⟩
    · rintro ⟨h1, h2, _⟩; exact ⟨h1, h2⟩
  unownedNotOrphaned := fun _ _ => rfl
  unallocatedDefault := fun _ _ _ => rfl

theorem lawful_ports : ∀ p, portFits (lawful.port p) (lawful.link p).lineHigh := by
  intro p
  cases p <;> exact
    { line := rfl, detachPending := fun h => (by cases h), leaseTimer := fun t h => (by cases h)
      eventsOnlyAttached := fun h => absurd rfl h
      queue := (by intro rq h; cases h), needsLine := fun h => (by cases h), sessionRange := by decide +kernel }

theorem lawful_laws : lawful.Laws where
  arbiter :=
    { servesInReady := fun h => absurd rfl h
      grantsPending := fun r h => (by cases h; rfl)
      grantedLast := fun r h => (by cases h; rfl)
      grantsAtOnce := fun _ h => (by cases h)
      clearWaits := fun h => (by cases h)
      heldInInit := fun h => (by cases h) }
  executors :=
    { shaped := fun p => (by cases p <;> first | exact ⟨_, rfl, rfl⟩ | rfl)
      examined := fun p rq h => (by cases p <;> cases h <;> decide +kernel)
      inRange := forPorts (by decide +kernel)
      hopsInRange := forPorts (by decide +kernel)
      abandonedRuns := fun p h => (by cases p <;> cases h) }
  tables :=
    { entriesWf := rfl, rowsWf := rfl
      entriesInRange := fun r h => (by cases h), rowsInRange := fun r h => (by cases h)
      targetsInRange := fun k t h => (by rw [lawful_entry] at h; cases h)
      passInRange := by decide +kernel
      sweepInRange := by decide +kernel }
  directory := { inReady := fun _ => lawful_directory, inPass := fun h => absurd rfl h }
  sessions :=
    { fits := lawful_ports
      closingSwept := fun p => ⟨fun h => (by cases p <;> cases h), fun ⟨r, h, _⟩ => (by cases h)⟩
      sweptOnce := List.nodup_nil
      executingAttached := fun p _ _ => (by cases p <;> rfl)
      abandonedLost := fun p h => (by cases p <;> cases h)
      heldEmpty := fun h => (by cases h) }
  sweeps :=
    { runningPass := fun _ h => (by cases h)
      onlyInReady := fun h => absurd rfl h
      closedOwnsNothing := fun p h => (by cases p <;> rcases h with h | h <;> cases h) }
  waits :=
    { terminalEmpty := fun w h => (by cases h), portAttached := fun w h => (by cases h)
      places := Nat.zero_le _, onlyInReady := fun _ => rfl }
  token :=
    { holderLinks := fun p h => (by cases h)
      linkerHolds := fun p h _ => (by cases p <;> cases h)
      abandonedRecalled := fun p _ h => (by cases p <;> cases h)
      recalledRuns := fun h => (by cases h)
      recalledOnce := fun p q _ h _ _ => (by cases p <;> cases h)
      waitersWait := fun p => ⟨fun h => (by cases h), fun h => (by cases p <;> cases h)⟩
      waitersOnce := List.nodup_nil
      freeNoWaiters := fun _ => rfl }
  chains :=
    { acyclic := fun k => ⟨1, rfl⟩
      checked := fun p tag named target h _ => (by cases p <;> cases h)
      committing := fun p tag named target h _ => (by cases p <;> cases h) }
  queues :=
    { events := fun p => (by
        cases p <;> exact
          { places := (by decide +kernel), fullOverflows := fun h => (by cases h)
            numbered := fun i r h => (by cases h), creditsSaturate := by decide +kernel })
      links := fun p => (by
        cases p <;> exact
          { acks := (by decide +kernel), framing := trivial, taken := (by decide +kernel), sent := (by decide +kernel)
            noBitsInReset := fun h => (by cases h) })
      noBitsWhileHeld := fun h => (by cases h) }
  outstanding :=
    { atMostEight := forPorts (by decide +kernel)
      tagsDiffer := forPorts (by decide +kernel)
      onePlaceEach := fun p => (by cases p <;> exact List.Perm.refl _) }

/-- The hypotheses of
`PendingRequestorsAreServed` for the executor of P1: at a grant, in a step that completes a cycle and in one that does not. -/
theorem witness_PendingRequestorsAreServed :
    (({ lawful with inProgress := none }).device = .ready ∧ ({ lawful with inProgress := none }).inProgress = none
      ∧ ({ lawful with inProgress := none }).hasCycle (.executor .p1) = true)
    ∧ ({ lawful with inProgress := none }).arbitrate.hasCycle (.executor .p1) = true
    ∧ lawful.completes (.readTerminal .p0) ∧ ¬ lawful.completes .tick :=
  ⟨by decide +kernel, by decide +kernel,
    .inr ⟨.p0, .walk, ⟨4, .read 5⟩, rfl, rfl, rfl, by decide, fun _ => ⟨fun h => (by cases h), fun h => (by
      rcases h with h | ⟨_, h⟩
      · exact absurd h (by decide +kernel)
      · exact absurd h (fun h => (by cases h)))⟩⟩,
    fun h => (by
      rcases h with ⟨_, _, h⟩ | ⟨_, _, _, h1, h2, h3, h4, _⟩
      · cases h
      · cases h1; cases h2; cases h3; revert h4; decide)⟩

/-- The hypotheses of every statement over `Laws`. -/
theorem witness_Laws :
    lawful.Laws ∧ (∃ t, step lawful = .next t ∧ t.device = .ready ∧ t.hasCycle (.executor .p1) = true)
    ∧ lawful.device = .ready ∧ lawful.hasCycle (.executor .p1) = true
    ∧ lawful.inProgress ≠ some (.executor .p1) :=
  ⟨lawful_laws, ⟨_, rfl, by decide +kernel, by decide +kernel⟩, rfl, by decide +kernel, by decide +kernel⟩

/-- A port in OPEN and a port in DOWN after a step. -/
theorem witness_OpenAndDownPortsHoldNothing :
    opened.portState .p0 = .opened ∧ (after (.portResetLow .p0) opened).portState .p0 = .down := by decide +kernel

end Sys2Proof.Tests
end

