-- ==== Sys2Proof/Proofs/SingleRefusals.lean ====
section
/-! SUPPORT. What refuses a single cycle (R2, R107), and that a refusal changes nothing but its reply. -/

namespace Sys2Proof.Machine

variable {s : State} {n : Port}

/-- A refused cycle of a request that is not a LINK ends it with the bare reply. -/
theorem State.refuse_eq {w : Work} {rq : Request} (st : Status) (hc : s.cycleOf n w = some rq)
    (hl : ∀ a b, rq.op ≠ .link a b) :
    s.refuse n rq st = (s.endedWith n (bareReply rq st)).afterCompletion := by
  obtain ⟨-, -, hcur⟩ := (s.cycleOf_eq_some n w rq).1 hc
  exact s.complete_finish_eq n _ (Executor.not_onLink hcur hl)

/-- On an unallocated slot a single cycle is refused UNALLOCATED (R2). -/
theorem State.ifAllocated_of_unallocated {k : Slot} {rq : Request} (proceed : State) (h : s.allocated k = false) :
    s.ifAllocated n rq k proceed = s.refuse n rq .unallocated := by simp [State.ifAllocated, h]

theorem State.ifAllocated_of_allocated {k : Slot} {rq : Request} (proceed : State) (h : s.allocated k = true) :
    s.ifAllocated n rq k proceed = proceed := by simp [State.ifAllocated, h]

/-- An unallocated slot is no fixed slot (R1). -/
theorem State.not_fixed_of_unallocated {k : Slot} (h : s.allocated k = false) : ¬ k < Config.fixedSlots := by
  intro hk
  simp [State.allocated, hk] at h

end Sys2Proof.Machine

open Sys2Proof Sys2Proof.Machine

/-- Settles O33: each cycle's tests in their order, each refusal by `State.refuse_eq`. -/
theorem singleCycleRefusals : Obligations.SingleCycleRefusals := by
  intro s n tag k refused hrefused
  have hrefuse : ∀ op st, op.named = some k → (∀ a b, op ≠ .link a b) → s.cycleOf n .single = some ⟨tag, op⟩ →
      s.refuse n ⟨tag, op⟩ st = refused op st := by
    intro op st hk hl hc
    rw [State.refuse_eq st hc hl, hrefused]
    simp only [bareReply, hk]
  refine ⟨?unallocated, ?modify, ?retire, ?fixed, ?ownerOnly⟩
  case unallocated =>
    intro hu d pf tf a _ row hrow hc
    have hfix := State.not_fixed_of_unallocated hu
    simp only [List.mem_cons, List.not_mem_nil, or_false] at hrow
    rcases hrow with rfl | rfl | rfl | rfl | rfl | rfl | rfl | rfl | rfl | rfl | rfl
    all_goals
      rw [← hrefuse _ _ rfl (fun _ _ => RequestOp.noConfusion) hc]
      simp only [exec_clearCycle, execClearCycle, exec_checkpointCycle, execCheckpointCycle, exec_watchCycle,
        execWatchCycle, exec_unwatchCycle, execUnwatchCycle, exec_retireCycle, execRetireCycle, exec_claimCycle,
        execClaimCycle, exec_releaseCycle, execReleaseCycle, exec_adoptCycle, execAdoptCycle, exec_setAccessCycle,
        execSetAccessCycle, exec_inspectCycle, execInspectCycle, exec_breakWaitCycle, execBreakWaitCycle, hc,
        if_neg hfix, State.ifAllocated_of_unallocated _ hu]
  case modify =>
    intro ha st hf row hrow hc
    simp only [List.mem_cons, List.not_mem_nil, or_false] at hrow
    rcases hrow with rfl | rfl
    all_goals
      rw [← hrefuse _ _ rfl (fun _ _ => RequestOp.noConfusion) hc]
      simp only [exec_clearCycle, execClearCycle, exec_checkpointCycle, execCheckpointCycle, hc,
        State.ifAllocated_of_allocated _ ha, State.modifyRefusal_fails hf]
  case retire =>
    intro ha hk st hf hc
    have hfix : ¬ k < Config.fixedSlots := Nat.not_lt.2 hk
    rw [← hrefuse _ _ rfl (fun _ _ => RequestOp.noConfusion) hc]
    simp only [exec_retireCycle, execRetireCycle, hc, if_neg hfix, State.ifAllocated_of_allocated _ ha,
      State.modifyRefusal_fails hf]
  case fixed =>
    intro hk hc
    have hfix : k < Config.fixedSlots := Nat.lt_succ_of_le hk
    rw [← hrefuse _ _ rfl (fun _ _ => RequestOp.noConfusion) hc]
    simp only [exec_retireCycle, execRetireCycle, hc, if_pos hfix]
  case ownerOnly =>
    intro ha d pf tf a _ st hf row hrow hc
    simp only [List.mem_cons, List.not_mem_nil, or_false] at hrow
    rcases hrow with rfl | rfl
    all_goals
      rw [← hrefuse _ _ rfl (fun _ _ => RequestOp.noConfusion) hc]
      simp only [exec_releaseCycle, execReleaseCycle, exec_setAccessCycle, execSetAccessCycle, hc,
        State.ifAllocated_of_allocated _ ha, State.ownerOnlyRefusal_fails hf]
end

