-- ==== Sys2Proof/Proofs/Sound.lean ====
section
/-! SUPPORT. The laws that hold between the acts of one step, and on which fields each law depends. -/

namespace Sys2Proof.Machine

/-- The laws that hold between the acts of one step. The arbiter's turn and a due entry to CLEARING may still be to come,
so a pending cycle need not be granted yet and a due entry need not wait behind a cycle; and where the outstanding
requests stand is told apart from this (`State.OutstandingLaw`). -/
structure State.Sound (s : State) : Prop where
  servesInReady : s.device ≠ .ready → s.inProgress = none
  grantsPending : ∀ r, s.inProgress = some r → s.hasCycle r = true
  grantedLast : ∀ r, s.inProgress = some r → s.lastGranted = r
  heldInInit : s.held = true → s.device = .init
  executors : s.ExecutorLaw
  tables : s.TableLaw
  directory : s.DirectoryLaw
  sessions : s.SessionLaw
  sweeps : s.SweepLaw
  waits : s.WaitLaw
  token : s.TokenLaw
  chains : s.ChainLaw
  queues : s.QueueLaw

variable {s t : State}

theorem State.Laws.sound (h : s.Laws) : s.Sound where
  servesInReady := h.arbiter.servesInReady
  grantsPending := h.arbiter.grantsPending
  grantedLast := h.arbiter.grantedLast
  heldInInit := h.arbiter.heldInInit
  executors := h.executors
  tables := h.tables
  directory := h.directory
  sessions := h.sessions
  sweeps := h.sweeps
  waits := h.waits
  token := h.token
  chains := h.chains
  queues := h.queues

/-- What the end of a step adds to the laws between acts. -/
theorem State.Sound.laws (h : s.Sound) (ho : s.OutstandingLaw)
    (hgrant : s.device = .ready → s.inProgress = none → ∀ r, s.hasCycle r = false)
    (hclear : s.clearDue = true → s.inProgress ≠ none) : s.Laws where
  arbiter := ⟨h.servesInReady, h.grantsPending, h.grantedLast, hgrant, hclear, h.heldInInit⟩
  executors := h.executors
  tables := h.tables
  directory := h.directory
  sessions := h.sessions
  sweeps := h.sweeps
  waits := h.waits
  token := h.token
  chains := h.chains
  queues := h.queues
  outstanding := ho

/-- An act that presents, completes and withdraws no cycle leaves the arbiter as it was. -/
theorem State.Laws.of_sound (h : s.Laws) (ht : t.Sound) (ho : t.OutstandingLaw)
    (hcycle : ∀ r, t.hasCycle r = s.hasCycle r := by simp) (hdevice : t.device = s.device := by simp)
    (hprogress : t.inProgress = s.inProgress := by simp) (hclear : t.clearDue = s.clearDue := by simp) : t.Laws :=
  ht.laws ho (fun hd hp r => by
    rw [hcycle]; exact h.arbiter.grantsAtOnce (hdevice ▸ hd) (hprogress ▸ hp) r)
    (fun hc => by rw [hprogress]; exact h.arbiter.clearWaits (hclear ▸ hc))

/-! ## The fields on which each law depends -/

theorem State.entry_congr (he : t.entries = s.entries) (k : Slot) : t.entry k = s.entry k := by
  simp only [State.entry, he]

theorem State.row_congr (hr : t.rows = s.rows) (k : Slot) : t.row k = s.row k := by simp only [State.row, hr]

theorem State.allocated_congr (hr : t.rows = s.rows) (k : Slot) : t.allocated k = s.allocated k := by
  simp only [State.allocated, State.row_congr hr]

theorem State.executor_congr (hx : t.execs = s.execs) (p : Port) : t.executor p = s.executor p := by
  simp only [State.executor, hx]

theorem State.hasCycle_congr (hx : t.execs = s.execs) (hv : t.sweepVisit = s.sweepVisit) (r : Requestor) :
    t.hasCycle r = s.hasCycle r := by
  cases r with
  | executor p => simp only [State.hasCycle, State.executor_congr hx]
  | sweeper => exact hv

theorem State.follow_congr (he : t.entries = s.entries) (m : Nat) (k : Slot) : t.follow m k = s.follow m k := by
  induction m generalizing k with
  | zero => rfl
  | succ m ih => simp only [State.follow, State.entry_congr he, ih]

theorem State.ExecutorLaw.congr (h : s.ExecutorLaw) (hx : t.execs = s.execs := by simp)
    (hd : t.device = s.device := by simp) : t.ExecutorLaw := by
  have hex := State.executor_congr hx
  constructor
  · simpa only [hex] using h.shaped
  · simpa only [hex] using h.examined
  · simpa only [hex] using h.inRange
  · simpa only [hex] using h.hopsInRange
  · simpa only [hex, hd] using h.abandonedRuns

theorem State.TableLaw.congr (h : s.TableLaw) (he : t.entries = s.entries := by simp)
    (hr : t.rows = s.rows := by simp) (hp : t.passPos = s.passPos := by simp)
    (hs : t.sweepPos = s.sweepPos := by simp) : t.TableLaw where
  entriesWf := he ▸ h.entriesWf
  rowsWf := hr ▸ h.rowsWf
  entriesInRange := he ▸ h.entriesInRange
  rowsInRange := hr ▸ h.rowsInRange
  targetsInRange := by simpa only [State.entry_congr he] using h.targetsInRange
  passInRange := hp ▸ h.passInRange
  sweepInRange := hs ▸ h.sweepInRange

theorem State.DirectoryLaws.congr (h : s.DirectoryLaws) (he : t.entries = s.entries := by simp)
    (hr : t.rows = s.rows := by simp) (ht : t.tallies = s.tallies := by simp)
    (hf : t.freeList = s.freeList := by simp) : t.DirectoryLaws := by
  have hen := State.entry_congr he
  have hal := State.allocated_congr hr
  constructor
  · simpa only [State.inbound, State.row_congr hr, State.forwardsTo, he] using h.inboundCounts
  · simpa only [hen, hal] using h.targetsAllocated
  · simpa only [ht, State.ownedBy, he] using h.ownedCounts
  · simpa only [ht, State.watchedBy, he] using h.watchCounts
  · simpa only [hf] using h.freeOnce
  · simpa only [hf, hal] using h.freeUnallocated
  · simpa only [hen] using h.unownedNotOrphaned
  · simpa only [hen, hal] using h.unallocatedDefault

theorem State.MidPass.congr (h : s.MidPass) (he : t.entries = s.entries := by simp)
    (hr : t.rows = s.rows := by simp) (ht : t.tallies = s.tallies := by simp)
    (hf : t.freeList = s.freeList := by simp) (hp : t.passPos = s.passPos := by simp) : t.MidPass where
  entriesWritten := by simpa only [State.entry_congr he, hp] using h.entriesWritten
  rowsWritten := by simpa only [State.row_congr hr, hp] using h.rowsWritten
  talliesZero := ht ▸ h.talliesZero
  freeSoFar := by rw [hf, hp]; exact h.freeSoFar

theorem State.DirectoryLaw.congr (h : s.DirectoryLaw) (he : t.entries = s.entries := by simp)
    (hr : t.rows = s.rows := by simp) (ht : t.tallies = s.tallies := by simp)
    (hf : t.freeList = s.freeList := by simp) (hp : t.passPos = s.passPos := by simp)
    (hd : t.device = s.device := by simp) : t.DirectoryLaw where
  inReady := fun hready => (h.inReady (hd ▸ hready)).congr he hr ht hf
  inPass := fun hready hpos => (h.inPass (hd ▸ hready) (hp ▸ hpos)).congr he hr ht hf hp

theorem State.SweepLaw.congr (h : s.SweepLaw) (he : t.entries = s.entries := by simp)
    (ht : t.tallies = s.tallies := by simp) (hx : t.execs = s.execs := by simp)
    (hv : t.sweepVisit = s.sweepVisit := by simp) (hw : t.sweeps = s.sweeps := by simp)
    (hp : t.sweepPos = s.sweepPos := by simp) (hd : t.device = s.device := by simp)
    (hs : ∀ p, t.portState p = s.portState p := by intro p; rfl) : t.SweepLaw where
  runningPass := by
    simpa only [hd, hv, hw, hp, State.executor_congr hx, State.entry_congr he] using h.runningPass
  onlyInReady := by simpa only [hd, hv] using h.onlyInReady
  closedOwnsNothing := by simpa only [hs, ht] using h.closedOwnsNothing

theorem State.WaitLaw.congr (h : s.WaitLaw) (he : t.entries = s.entries := by simp)
    (hr : t.rows = s.rows := by simp) (hw : t.waits = s.waits := by simp)
    (hd : t.device = s.device := by simp) (hs : ∀ p, t.portState p = s.portState p := by intro p; rfl) : t.WaitLaw where
  terminalEmpty := by simpa only [hw, State.allocated_congr hr, State.entry_congr he] using h.terminalEmpty
  portAttached := by simpa only [hw, hs] using h.portAttached
  places := hw ▸ h.places
  onlyInReady := by simpa only [hw, hd] using h.onlyInReady

theorem State.TokenLaw.congr (h : s.TokenLaw) (hx : t.execs = s.execs := by simp)
    (hl : t.serial = s.serial := by simp) : t.TokenLaw := by
  have hex := State.executor_congr hx
  constructor
  · simpa only [hex, hl] using h.holderLinks
  · simpa only [hex, hl] using h.linkerHolds
  · simpa only [hex, hl] using h.abandonedRecalled
  · simpa only [hex, hl] using h.recalledRuns
  · simpa only [hex] using h.recalledOnce
  · simpa only [hex, hl] using h.waitersWait
  · simpa only [hl] using h.waitersOnce
  · simpa only [hl] using h.freeNoWaiters

theorem State.ChainLaw.congr (h : s.ChainLaw) (he : t.entries = s.entries := by simp)
    (hx : t.execs = s.execs := by simp) : t.ChainLaw := by
  have hex := State.executor_congr hx
  have hfo := State.follow_congr he
  constructor
  · simpa only [hfo] using h.acyclic
  · simpa only [hex, hfo] using h.checked
  · simpa only [hex, hfo] using h.committing

theorem State.QueueLaw.congr (h : s.QueueLaw) (hp : t.ports = s.ports := by simp)
    (hl : t.links = s.links := by simp) (hh : t.held = s.held := by simp) : t.QueueLaw where
  events := by simpa only [State.port, hp] using h.events
  links := by simpa only [State.link, hl] using h.links
  noBitsWhileHeld := by simpa only [State.link, hl, hh] using h.noBitsWhileHeld

theorem State.SessionLaw.congr (h : s.SessionLaw) (hp : t.ports = s.ports := by simp)
    (hl : ∀ p, (t.link p).lineHigh = (s.link p).lineHigh := by intro p; rfl) (hw : t.sweeps = s.sweeps := by simp)
    (hx : t.execs = s.execs := by simp) (ha : t.waits = s.waits := by simp)
    (hh : t.held = s.held := by simp) : t.SessionLaw := by
  have hex := State.executor_congr hx
  have hpo : ∀ p, t.port p = s.port p := fun p => by simp only [State.port, hp]
  constructor
  · simpa only [hpo, hl] using h.fits
  · simpa only [State.portState, hpo, hw] using h.closingSwept
  · simpa only [hw] using h.sweptOnce
  · simpa only [hex, State.portState, hpo] using h.executingAttached
  · simpa only [hex, hw] using h.abandonedLost
  · simpa only [hh, hw, ha, State.portState, hpo] using h.heldEmpty

theorem State.OutstandingLaw.of_perm (h : s.OutstandingLaw)
    (htags : ∀ p, (t.port p).tags = (s.port p).tags)
    (hplaces : ∀ p, (t.outstandingPlaces p).Perm (s.outstandingPlaces p)) : t.OutstandingLaw where
  atMostEight := fun p => by rw [htags]; exact h.atMostEight p
  tagsDiffer := fun p => by rw [htags]; exact h.tagsDiffer p
  onePlaceEach := fun p => by rw [htags]; exact (h.onePlaceEach p).trans (hplaces p).symm

theorem State.OutstandingLaw.congr (h : s.OutstandingLaw) (hp : t.ports = s.ports := by simp)
    (hx : t.execs = s.execs := by simp) (ha : t.waits = s.waits := by simp)
    (hw : t.sweeps = s.sweeps := by simp) : t.OutstandingLaw := by
  refine h.of_perm (fun p => by simp only [State.port, hp]) (fun p => ?_)
  simp only [State.outstandingPlaces, State.port, State.executor, hp, hx, ha, hw]
  exact List.Perm.refl _

/-- The free values' index, the queue of commands, and the ticks delivered to the Wait Table are in no law. -/
theorem State.Sound.congr (h : s.Sound) (ht : t = { s with
    freeIndex := t.freeIndex, pending := t.pending, waitDue := t.waitDue }) : t.Sound := by
  rw [ht]
  exact ⟨h.servesInReady, h.grantsPending, h.grantedLast, h.heldInInit, h.executors.congr, h.tables.congr,
    h.directory.congr, h.sessions.congr, h.sweeps.congr, h.waits.congr, h.token.congr, h.chains.congr, h.queues.congr⟩

end Sys2Proof.Machine
end

