-- ==== Sys2Proof/Proofs/Executors.lean ====
section
/-! SUPPORT. What an executor may hold under the laws, the end of a request with its link token, and the arbiter's turn
(R26 to R29, R39, R49 to R51, R131). -/

namespace Sys2Proof.Machine

variable {s t : State} {n p : Port} {e : Executor}

/-! ## Readings of an executor -/

@[simp] theorem Executor.idle_state : Executor.idle.state = .idle := rfl
@[simp] theorem Executor.idle_current : Executor.idle.current = none := rfl
@[simp] theorem Executor.idle_abandoned : Executor.idle.abandoned = false := rfl
@[simp] theorem Executor.idle_hasCycle : Executor.idle.hasCycle = false := rfl
@[simp] theorem Executor.idle_linking : Executor.idle.linking = false := rfl
@[simp] theorem Executor.idle_onLink : Executor.idle.onLink = false := rfl
@[simp] theorem Executor.idle_shaped : Executor.idle.shaped := rfl

theorem Executor.linking_iff : e.linking = true ↔ e.state = .running .checkWalk ∨ e.state = .running .commit := by
  simp [Executor.linking]

theorem Executor.hasCycle_iff : e.hasCycle = true ↔ ∃ w, e.state = .running w ∧ w.needsCycle = true := by
  unfold Executor.hasCycle
  cases e.state <;> simp

theorem Executor.hasCycle_of_linking (h : e.linking = true) : e.hasCycle = true := by
  rcases Executor.linking_iff.1 h with h | h <;> simp [Executor.hasCycle, h, Work.needsCycle]

theorem Executor.onLink_iff : e.onLink = true ↔ ∃ tag k t, e.current = some ⟨tag, .link k t⟩ := by
  unfold Executor.onLink
  constructor
  · intro h
    split at h
    · exact ⟨_, _, _, ‹_›⟩
    · cases h
  · rintro ⟨tag, k, t, h⟩
    rw [h]

theorem Executor.shaped.eq_idle (h : e.shaped) (hs : e.state = .idle) : e = .idle := by
  rw [Executor.shaped, hs] at h; exact h

theorem Executor.shaped.waiting (h : e.shaped) (hs : e.state = .tokenWait) : e.onLink = true ∧ e.abandoned = false := by
  rw [Executor.shaped, hs] at h; exact h

theorem Executor.shaped.running {w : Work} (h : e.shaped) (hs : e.state = .running w) :
    ∃ rq, e.current = some rq ∧ w.fits rq.op = true := by
  rw [Executor.shaped, hs] at h; exact h

/-- A running executor runs a LINK exactly where its work is a check walk or a commit. -/
theorem Executor.shaped.onLink_eq_linking {w : Work} (h : e.shaped) (hs : e.state = .running w) :
    e.onLink = e.linking := by
  obtain ⟨⟨tag, op⟩, hc, hfit⟩ := h.running hs
  unfold Executor.onLink Executor.linking
  rw [hc, hs]
  cases w <;> cases op <;> simp [Work.fits] at hfit ⊢

theorem Executor.shaped.onLink_of_linking (h : e.shaped) (hl : e.linking = true) : e.onLink = true := by
  rcases Executor.linking_iff.1 hl with hs | hs <;> rw [h.onLink_eq_linking hs, hl]

/-- What an executor awaiting the token becomes when it is granted (R50). -/
theorem Executor.shaped.resume_eq (h : e.shaped) (hs : e.state = .tokenWait) :
    ∃ tag k t, e.current = some ⟨tag, .link k t⟩ ∧
      e.resume = { e with state := .running .checkWalk, walkPos := t, hops := 0 } := by
  obtain ⟨tag, k, t, hc⟩ := Executor.onLink_iff.1 (h.waiting hs).1
  exact ⟨tag, k, t, hc, by unfold Executor.resume; rw [hc]⟩

/-! ## What an executor may hold -/

/-- What the check walk of an executor has found is true of the directory (R59). -/
structure State.chainFits (s : State) (e : Executor) : Prop where
  checked : ∀ tag named target, e.current = some (Request.mk tag (.link named target)) → e.state = .running .checkWalk →
    ∀ i, s.follow i target = some named → ∃ j, j ≤ i ∧ s.follow j target = some e.walkPos
  committing : ∀ tag named target, e.current = some (Request.mk tag (.link named target)) → e.state = .running .commit →
    ∀ i, s.follow i target ≠ some named

/-- Only the executor of a LINK has a check walk. -/
theorem State.chainFits_of_not_linking (h : e.linking = false) : s.chainFits e where
  checked := fun _ _ _ _ hs => by simp [Executor.linking, hs] at h
  committing := fun _ _ _ _ hs => by simp [Executor.linking, hs] at h

theorem State.chainFits.congr (h : s.chainFits e) (he : t.entries = s.entries) : t.chainFits e where
  checked := by simpa only [State.follow_congr he] using h.checked
  committing := by simpa only [State.follow_congr he] using h.committing

/-- The chain law is that no chain is cyclic and that every executor's check walk has found what is true. -/
theorem State.chainLaw_iff : s.ChainLaw ↔ (∀ k, ∃ m, s.follow m k = none) ∧ ∀ p, s.chainFits (s.executor p) :=
  ⟨fun h => ⟨h.acyclic, fun p => ⟨h.checked p, h.committing p⟩⟩,
    fun h => ⟨h.1, fun p => (h.2 p).checked, fun p => (h.2 p).committing⟩⟩

/-- The executor of port p may hold e under the laws, the link token apart. -/
structure State.ExecFits (s : State) (p : Port) (e : Executor) : Prop where
  shaped : e.shaped
  examined : ∀ rq, e.current = some rq → rq.op.operandsOk = true
  inRange : e.walkPos < Config.slots
  hopsInRange : e.hops ≤ Config.hopLimit
  abandonedRuns : e.abandoned = true → e.hasCycle = true ∧ s.device ≠ .clearing
  granted : s.inProgress = some (.executor p) → e.hasCycle = true
  attached : e.state ≠ .idle → e.abandoned = false → s.portState p = .attached
  lost : e.abandoned = true → ∃ r ∈ s.sweeps, r.port = p ∧ ∃ x, r.kind = .loss x
  stillBusy : e.state ≠ .idle → s.portState p = .attached ∨ (s.executor p).state ≠ .idle
  chain : s.chainFits e

theorem State.Sound.execFits (h : s.Sound) (p : Port) : s.ExecFits p (s.executor p) where
  shaped := h.executors.shaped p
  examined := h.executors.examined p
  inRange := h.executors.inRange p
  hopsInRange := h.executors.hopsInRange p
  abandonedRuns := h.executors.abandonedRuns p
  granted := fun hp => h.grantsPending _ hp
  attached := h.sessions.executingAttached p
  lost := h.sessions.abandonedLost p
  stillBusy := .inr
  chain := (State.chainLaw_iff.1 h.chains).2 p

/-- An executor with no cycle in progress may be IDLE. -/
theorem State.execFits_idle (h : s.inProgress ≠ some (.executor p)) : s.ExecFits p .idle where
  shaped := rfl
  examined := fun _ hc => by cases hc
  inRange := by decide
  hopsInRange := by decide
  abandonedRuns := fun ha => by cases ha
  granted := fun hp => absurd hp h
  attached := fun hs => absurd rfl hs
  lost := fun ha => by cases ha
  stillBusy := fun hs => absurd rfl hs
  chain := State.chainFits_of_not_linking rfl

/-- The executor of a waiter may present its first check-walk cycle (R50, R53). -/
theorem State.Sound.execFits_resume (h : s.Sound) (hw : (s.executor p).state = .tokenWait) :
    s.ExecFits p (s.executor p).resume := by
  have hf := h.execFits p
  obtain ⟨tag, k, t, hc, hr⟩ := hf.shaped.resume_eq hw
  have hna := (hf.shaped.waiting hw).2
  have hok := hf.examined _ hc
  rw [hr]
  exact {
    shaped := ⟨_, hc, rfl⟩
    examined := hf.examined
    inRange := by
      simp only [RequestOp.operandsOk, Bool.and_eq_true, slotOk, decide_eq_true_eq] at hok
      exact hok.2
    hopsInRange := Nat.zero_le _
    abandonedRuns := fun ha => absurd (hna.symm.trans ha) Bool.false_ne_true
    granted := fun _ => rfl
    attached := fun _ ha => hf.attached (by simp [hw]) ha
    lost := fun ha => absurd (hna.symm.trans ha) Bool.false_ne_true
    stillBusy := fun _ => .inr (by simp [hw])
    chain := {
      checked := fun tag' named target hc' _ i _ => ⟨0, Nat.zero_le _, by
        obtain ⟨-, -, rfl⟩ : tag = tag' ∧ k = named ∧ t = target := by simpa [hc] using hc'
        rfl⟩
      committing := fun _ _ _ _ hs => by cases hs } }

/-- A state in which executors and the Link Serializer alone have changed. -/
theorem State.Sound.withExecs (h : s.Sound) (ht : t = { s with execs := t.execs, serial := t.serial })
    (hfit : ∀ p, s.ExecFits p (t.executor p)) (htoken : t.TokenLaw) : t.Sound := by
  have hchain : t.ChainLaw := by
    have he : t.entries = s.entries := by rw [ht]
    exact State.chainLaw_iff.2 ⟨fun k => by simpa only [State.follow_congr he] using h.chains.acyclic k,
      fun p => (hfit p).chain.congr he⟩
  generalize hx : t.executor = x at hfit
  have hex : ∀ p, t.executor p = x p := fun p => congrFun hx p
  generalize t.execs = xs at ht
  generalize t.serial = l at ht
  subst ht
  refine ⟨h.servesInReady, fun r hr => ?_, h.grantedLast, h.heldInInit, ?_, h.tables.congr, h.directory.congr, ?_, ?_,
    h.waits.congr, htoken, hchain, h.queues.congr⟩
  · cases r with
    | sweeper => exact h.grantsPending _ hr
    | executor p => simpa only [State.hasCycle, hex] using (hfit p).granted hr
  · constructor
    · simpa only [hex] using fun p => (hfit p).shaped
    · simpa only [hex] using fun p => (hfit p).examined
    · simpa only [hex] using fun p => (hfit p).inRange
    · simpa only [hex] using fun p => (hfit p).hopsInRange
    · simpa only [hex] using fun p => (hfit p).abandonedRuns
  · exact {
      fits := h.sessions.fits
      closingSwept := h.sessions.closingSwept
      sweptOnce := h.sessions.sweptOnce
      executingAttached := fun p => by simp only [hex]; exact (hfit p).attached
      abandonedLost := fun p => by simp only [hex]; exact (hfit p).lost
      heldEmpty := h.sessions.heldEmpty }
  · refine ⟨fun hd hv => ?_, h.sweeps.onlyInReady, h.sweeps.closedOwnsNothing⟩
    obtain ⟨r, rest, hr, hidle, hdone⟩ := h.sweeps.runningPass hd hv
    refine ⟨r, rest, hr, ?_, hdone⟩
    rw [hex]
    by_contra hbusy
    rcases (hfit r.port).stillBusy hbusy with hatt | hb
    · have : s.portState r.port = .closing := (h.sessions.closingSwept _).2 ⟨r, by rw [hr]; simp, rfl⟩
      simp [this] at hatt
    · exact hb hidle

end Sys2Proof.Machine
end

