-- ==== Sys2Proof/Proofs/Outstanding.lean ====
section
/-! SUPPORT. Where the outstanding requests of a port stand, counted tag by tag (R160 to R162). -/

namespace Sys2Proof.Machine

variable {s t : State}

/-- The tags of the requests that wait in the queue of port p. -/
def State.queueTags (s : State) (p : Port) : List Tag := (s.port p).requestQueue.map Request.tag

/-- The tag of the request that an executor owes a reply for. -/
def Executor.tags (e : Executor) : List Tag := if e.abandoned then [] else (e.current.map Request.tag).toList

/-- The tags of the parked takes of port p. -/
def waitTags (ws : List WaitRecord) (p : Port) : List Tag :=
  (ws.filter (fun w => decide (w.port = p))).map WaitRecord.tag

/-- The tags of the DETACH requests of port p that a sweep record owes a reply for. -/
def sweepTags (rs : List SweepRecord) (p : Port) : List Tag :=
  (rs.filter (fun r => decide (r.port = p))).filterMap SweepRecord.owedTag

/-- The tags of the replies that wait in the queue of port p. -/
def State.replyTags (s : State) (p : Port) : List Tag := (s.port p).replyQueue.map Reply.tag

theorem State.outstandingPlaces_eq (p : Port) : s.outstandingPlaces p = s.queueTags p ++ (s.executor p).tags
    ++ waitTags s.waits p ++ sweepTags s.sweeps p ++ s.replyTags p := rfl

theorem State.count_outstandingPlaces (p : Port) (a : Tag) : (s.outstandingPlaces p).count a =
    (s.queueTags p).count a + (s.executor p).tags.count a + (waitTags s.waits p).count a
      + (sweepTags s.sweeps p).count a + (s.replyTags p).count a := by
  simp only [State.outstandingPlaces, List.count_append, State.queueTags, Executor.tags, waitTags, sweepTags,
    State.replyTags]

/-- Requests that move from place to place, none lost and none doubled, keep the law. -/
theorem State.OutstandingLaw.of_count (h : s.OutstandingLaw) (htags : ∀ p, (t.port p).tags = (s.port p).tags)
    (hcount : ∀ p a, (t.queueTags p).count a + (t.executor p).tags.count a + (waitTags t.waits p).count a
        + (sweepTags t.sweeps p).count a + (t.replyTags p).count a
      = (s.queueTags p).count a + (s.executor p).tags.count a + (waitTags s.waits p).count a
        + (sweepTags s.sweeps p).count a + (s.replyTags p).count a) : t.OutstandingLaw :=
  h.of_perm htags fun p => List.perm_iff_count.2 fun a => by
    rw [State.count_outstandingPlaces, State.count_outstandingPlaces, hcount]

/-! ## The tags of a part after a change of it -/

@[simp] theorem Executor.tags_idle : Executor.idle.tags = [] := rfl

theorem Executor.tags_of_abandoned {e : Executor} (h : e.abandoned = true) : e.tags = [] := by simp [Executor.tags, h]

theorem Executor.tags_of_current {e : Executor} {rq : Request} (h : e.abandoned = false) (hc : e.current = some rq) :
    e.tags = [rq.tag] := by simp [Executor.tags, h, hc]

theorem Executor.tags_resume (e : Executor) : e.resume.tags = e.tags := by
  unfold Executor.resume
  split <;> rfl

@[simp] theorem waitTags_nil (p : Port) : waitTags [] p = [] := rfl

@[simp] theorem waitTags_append (x y : List WaitRecord) (p : Port) :
    waitTags (x ++ y) p = waitTags x p ++ waitTags y p := by simp [waitTags]

theorem waitTags_singleton (w : WaitRecord) (p : Port) : waitTags [w] p = if w.port = p then [w.tag] else [] := by
  by_cases h : w.port = p <;> simp [waitTags, h]

theorem waitTags_cons (w : WaitRecord) (x : List WaitRecord) (p : Port) :
    waitTags (w :: x) p = (if w.port = p then [w.tag] else []) ++ waitTags x p := by
  rw [← waitTags_singleton, ← waitTags_append]; rfl

/-- The records of a Wait Table are those that a test keeps and those that it removes. -/
theorem count_waitTags_filter (f : WaitRecord → Bool) (ws : List WaitRecord) (p : Port) (a : Tag) :
    (waitTags (ws.filter f) p).count a + (waitTags (ws.filter (fun w => !f w)) p).count a = (waitTags ws p).count a := by
  induction ws with
  | nil => rfl
  | cons w ws ih =>
    cases hf : f w <;> simp only [List.filter_cons, hf, Bool.not_false, Bool.not_true, Bool.false_eq_true, if_true, if_false,
      waitTags_cons, List.count_append] <;> omega

@[simp] theorem sweepTags_nil (p : Port) : sweepTags [] p = [] := rfl

@[simp] theorem sweepTags_append (x y : List SweepRecord) (p : Port) :
    sweepTags (x ++ y) p = sweepTags x p ++ sweepTags y p := by simp [sweepTags]

theorem sweepTags_singleton (r : SweepRecord) (p : Port) :
    sweepTags [r] p = if r.port = p then r.owedTag.toList else [] := by
  by_cases h : r.port = p
  · cases ho : r.owedTag <;> simp [sweepTags, h, ho]
  · simp [sweepTags, h]

theorem sweepTags_cons (r : SweepRecord) (x : List SweepRecord) (p : Port) :
    sweepTags (r :: x) p = (if r.port = p then r.owedTag.toList else []) ++ sweepTags x p := by
  rw [← sweepTags_singleton, ← sweepTags_append]; rfl

/-- Records of other ports owe port p nothing. -/
theorem sweepTags_of_forall_ne {x : List SweepRecord} {p : Port} (h : ∀ r ∈ x, r.port ≠ p) : sweepTags x p = [] := by
  unfold sweepTags
  rw [List.filter_eq_nil_iff.2 (fun r hr => by simpa using h r hr), List.filterMap_nil]

theorem waitTags_of_forall_ne {x : List WaitRecord} {p : Port} (h : ∀ w ∈ x, w.port ≠ p) : waitTags x p = [] := by
  unfold waitTags
  rw [List.filter_eq_nil_iff.2 (fun r hr => by simpa using h r hr), List.map_nil]

@[simp] theorem State.postReplies_replyTags (f : Port → List Reply) (p : Port) :
    (s.postReplies f).replyTags p = s.replyTags p ++ (f p).map Reply.tag := by simp [State.replyTags]

@[simp] theorem State.postReplies_queueTags (f : Port → List Reply) (p : Port) :
    (s.postReplies f).queueTags p = s.queueTags p := by simp [State.queueTags]

theorem State.postReply_replyTags (n p : Port) (r : Reply) :
    (s.postReply n r).replyTags p = s.replyTags p ++ if p = n then [r.tag] else [] := by
  rw [State.postReply_eq_postReplies, State.postReplies_replyTags]
  split <;> rfl

@[simp] theorem State.postReply_queueTags (n p : Port) (r : Reply) :
    (s.postReply n r).queueTags p = s.queueTags p := by
  rw [State.postReply_eq_postReplies, State.postReplies_queueTags]

@[simp] theorem State.postReply_tags (n p : Port) (r : Reply) :
    ((s.postReply n r).port p).tags = (s.port p).tags := by
  rw [State.postReply_eq_postReplies, State.postReplies_port]

@[simp] theorem State.postEvent_replyTags (f : Port → Bool) (e : Event) (p : Port) :
    (s.postEvent f e).replyTags p = s.replyTags p := by
  unfold State.replyTags
  rw [State.postEvent_port]
  split <;> simp

@[simp] theorem State.postEvent_queueTags (f : Port → Bool) (e : Event) (p : Port) :
    (s.postEvent f e).queueTags p = s.queueTags p := by
  unfold State.queueTags
  rw [State.postEvent_port]
  split <;> simp

@[simp] theorem State.postEvent_tags (f : Port → Bool) (e : Event) (p : Port) :
    ((s.postEvent f e).port p).tags = (s.port p).tags := by
  rw [State.postEvent_port]
  split <;> simp

theorem State.queueTags_congr (hp : t.ports = s.ports) (p : Port) : t.queueTags p = s.queueTags p := by
  simp only [State.queueTags, State.port, hp]

theorem State.replyTags_congr (hp : t.ports = s.ports) (p : Port) : t.replyTags p = s.replyTags p := by
  simp only [State.replyTags, State.port, hp]

end Sys2Proof.Machine
end

