-- ==== Sys2Proof/Proofs/Arbiter.lean ====
section
/-! SUPPORT. The end of a request with its link token (R50, R51), and the arbiter's turn, which ends a step in the laws
(R27 to R29, R131). -/

namespace Sys2Proof.Machine

variable {s t : State} {n p : Port} {e : Executor}

/-! ## The link token -/

/-- At most one executor links, abandoned or not (R49, R51). -/
theorem State.TokenLaw.onlyLinker (h : s.TokenLaw) {p q : Port} (hp : (s.executor p).linking = true)
    (hq : (s.executor q).linking = true) : p = q := by
  cases hap : (s.executor p).abandoned <;> cases haq : (s.executor q).abandoned
  · have h1 := h.linkerHolds p hp hap
    have h2 := h.linkerHolds q hq haq
    rw [h1] at h2
    simpa using h2
  · have h1 := h.linkerHolds p hp hap
    have h2 := h.abandonedRecalled q hq haq
    simp [h1] at h2
  · have h1 := h.abandonedRecalled p hp hap
    have h2 := h.linkerHolds q hq haq
    simp [h1] at h2
  · exact h.recalledOnce p q hp hap hq haq

/-- Executors that link and wait as before, on the same marks, keep the law of the token. -/
theorem State.TokenLaw.withExecs (h : s.TokenLaw) (hserial : t.serial = s.serial)
    (hlink : ∀ p, (t.executor p).linking = (s.executor p).linking)
    (hmark : ∀ p, (s.executor p).linking = true → (t.executor p).abandoned = (s.executor p).abandoned)
    (hwait : ∀ p, (t.executor p).state = .tokenWait ↔ (s.executor p).state = .tokenWait) : t.TokenLaw where
  holderLinks := fun p hp => by
    obtain ⟨hl, ha⟩ := h.holderLinks p (hserial ▸ hp)
    exact ⟨(hlink p).trans hl, (hmark p hl).trans ha⟩
  linkerHolds := fun p hl ha => by
    have hl' := (hlink p).symm.trans hl
    exact hserial ▸ h.linkerHolds p hl' ((hmark p hl').symm.trans ha)
  abandonedRecalled := fun p hl ha => by
    have hl' := (hlink p).symm.trans hl
    exact hserial ▸ h.abandonedRecalled p hl' ((hmark p hl').symm.trans ha)
  recalledRuns := fun hr => by
    obtain ⟨p, hl, ha⟩ := h.recalledRuns (hserial ▸ hr)
    exact ⟨p, (hlink p).trans hl, (hmark p hl).trans ha⟩
  recalledOnce := fun p q hp _ hq _ => h.onlyLinker ((hlink p).symm.trans hp) ((hlink q).symm.trans hq)
  waitersWait := fun p => by rw [hserial, hwait]; exact h.waitersWait p
  waitersOnce := hserial ▸ h.waitersOnce
  freeNoWaiters := hserial ▸ h.freeNoWaiters

/-- A FREE token: no executor links and none waits. -/
theorem State.tokenLaw_of_free (hs : t.serial = { token := .free, queue := [] })
    (hlink : ∀ p, (t.executor p).linking = false) (hwait : ∀ p, (t.executor p).state ≠ .tokenWait) : t.TokenLaw where
  holderLinks := fun p hp => by simp [hs] at hp
  linkerHolds := fun p hl => by simp [hlink] at hl
  abandonedRecalled := fun p hl => by simp [hlink] at hl
  recalledRuns := fun hr => by simp [hs] at hr
  recalledOnce := fun p _ hl => by simp [hlink] at hl
  waitersWait := fun p => by simp [hs, hwait]
  waitersOnce := by simp [hs]
  freeNoWaiters := fun _ => by rw [hs]

/-- A held token: its holder alone links. -/
theorem State.tokenLaw_of_held (hs : t.serial.token = .held p)
    (hlink : ∀ q, (t.executor q).linking = true ↔ q = p) (hmark : (t.executor p).abandoned = false)
    (hwait : ∀ q, q ∈ t.serial.queue ↔ (t.executor q).state = .tokenWait) (honce : t.serial.queue.Nodup) :
    t.TokenLaw where
  holderLinks := fun q hq => by
    obtain rfl : p = q := by simpa [hs] using hq
    exact ⟨(hlink p).2 rfl, hmark⟩
  linkerHolds := fun q hl _ => by rw [(hlink q).1 hl, hs]
  abandonedRecalled := fun q hl ha => by
    rw [(hlink q).1 hl, hmark] at ha
    cases ha
  recalledRuns := fun hr => by simp [hs] at hr
  recalledOnce := fun q r hq _ hr _ => ((hlink q).1 hq).trans ((hlink r).1 hr).symm
  waitersWait := hwait
  waitersOnce := honce
  freeNoWaiters := fun hf => by simp [hs] at hf

/-! ## The end of a request -/

/-- What the end of a running request does: its executor goes IDLE, and the token of a LINK becomes FREE or passes to the
head waiter (R50, R51). -/
theorem State.Sound.endRequest_cases (h : s.Sound) {w : Work} (hw : (s.executor n).state = .running w) :
    ((s.executor n).linking = false ∧ s.endRequest n = s.setExecutor n .idle) ∨
    ((s.executor n).linking = true ∧ s.serial.queue = [] ∧
      s.endRequest n = { s.setExecutor n .idle with serial := { token := .free, queue := [] } }) ∨
    ((s.executor n).linking = true ∧ ∃ head rest, s.serial.queue = head :: rest ∧ head ≠ n ∧
      (s.executor head).state = .tokenWait ∧
      s.endRequest n = { (s.setExecutor n .idle).setExecutor head (s.executor head).resume with
        serial := { token := .held head, queue := rest } }) := by
  have hl := (h.executors.shaped n).onLink_eq_linking hw
  cases hlink : (s.executor n).linking with
  | false => exact .inl ⟨rfl, State.endRequest_of_not_link s n (hl.trans hlink)⟩
  | true =>
    have he : s.endRequest n = (s.setExecutor n .idle).passToken := by
      unfold State.endRequest
      rw [if_pos (hl.trans hlink)]
    cases hq : s.serial.queue with
    | nil => exact .inr (.inl ⟨rfl, rfl, by rw [he]; unfold State.passToken; rw [State.setExecutor_serial, hq]⟩)
    | cons head rest =>
      have hwait : (s.executor head).state = .tokenWait := (h.token.waitersWait head).1 (by rw [hq]; simp)
      have hne : head ≠ n := by rintro rfl; simp [hw] at hwait
      refine .inr (.inr ⟨rfl, head, rest, rfl, hne, hwait, ?_⟩)
      rw [he]
      unfold State.passToken
      rw [State.setExecutor_serial, hq]
      dsimp only
      rw [State.executor_setExecutor_of_ne s _ hne]
      rfl

/-- The state after a LINK ends with no other waiting: the token is free (R51). -/
def State.endFreeing (s : State) (n : Port) : State :=
  { s.setExecutor n .idle with serial := { token := .free, queue := [] } }

/-- The state after a LINK ends with others waiting: the first of them resumes with the token (R50, R51). -/
def State.endHanding (s : State) (n head : Port) (rest : List Port) : State :=
  { (s.setExecutor n .idle).setExecutor head (s.executor head).resume with
    serial := { token := .held head, queue := rest } }

theorem State.endFreeing_executor (s : State) (n q : Port) :
    (s.endFreeing n).executor q = if q = n then .idle else s.executor q := State.executor_setExecutor s n q .idle

theorem State.endHanding_executor (s : State) (n head : Port) (rest : List Port) (q : Port) :
    (s.endHanding n head rest).executor q =
      if q = head then (s.executor head).resume else if q = n then .idle else s.executor q := by
  show ((s.setExecutor n .idle).setExecutor head _).executor q = _
  rw [State.executor_setExecutor, State.executor_setExecutor]

/-- An executor that runs no LINK goes IDLE. -/
theorem State.Sound.endQuietly (h : s.Sound) {w : Work} (hw : (s.executor n).state = .running w)
    (hp : s.inProgress ≠ some (.executor n)) (hlink : (s.executor n).linking = false) :
    (s.setExecutor n .idle).Sound := by
  have hex : ∀ q, (s.setExecutor n .idle).executor q = if q = n then .idle else s.executor q :=
    fun q => State.executor_setExecutor s n q .idle
  refine h.withExecs rfl (fun q => ?_) (h.token.withExecs rfl (fun q => ?_) (fun q hl => ?_) (fun q => ?_)) <;>
    rw [hex] <;> split
  · next hqn => exact hqn ▸ State.execFits_idle hp
  · exact h.execFits q
  · next hqn => rw [hqn, hlink]; rfl
  · rfl
  · next hqn => rw [hqn, hlink] at hl; cases hl
  · rfl
  · next hqn => simp [hqn, hw]
  · rfl

theorem State.Sound.endFreeing (h : s.Sound) (hp : s.inProgress ≠ some (.executor n))
    (hlink : (s.executor n).linking = true) (hq : s.serial.queue = []) : (s.endFreeing n).Sound := by
  refine h.withExecs (t := s.endFreeing n) rfl (fun q => ?_)
    (State.tokenLaw_of_free rfl (fun q => ?_) (fun q => ?_)) <;> rw [State.endFreeing_executor] <;> split
  · next hqn => exact hqn ▸ State.execFits_idle hp
  · exact h.execFits q
  · rfl
  · next hqn => exact Bool.eq_false_iff.2 fun hl => hqn (h.token.onlyLinker hl hlink)
  · simp
  · intro hwait
    have := (h.token.waitersWait q).2 hwait
    simp [hq] at this

theorem State.Sound.endHanding (h : s.Sound) {w : Work} (hw : (s.executor n).state = .running w)
    (hp : s.inProgress ≠ some (.executor n)) (hlink : (s.executor n).linking = true) {head : Port} {rest : List Port}
    (hq : s.serial.queue = head :: rest) (hwait : (s.executor head).state = .tokenWait) :
    (s.endHanding n head rest).Sound := by
  have hex := s.endHanding_executor n head rest
  obtain ⟨tag, k, target, hcur, hres⟩ := (h.executors.shaped head).resume_eq hwait
  have hnodup := h.token.waitersOnce
  rw [hq, List.nodup_cons] at hnodup
  refine h.withExecs (t := s.endHanding n head rest) rfl (fun q => ?fits)
    (State.tokenLaw_of_held rfl (fun q => ?linker) ?runs (fun q => ?waiters) hnodup.2) <;> rw [hex]
  case fits =>
    split
    · next hqh => rw [hqh]; exact h.execFits_resume hwait
    · split
      · next hqn => exact hqn ▸ State.execFits_idle hp
      · exact h.execFits q
  case linker =>
    split
    · next hqh => simp [hqh, hres, Executor.linking]
    · next hqh =>
      split
      · simp [hqh]
      · next hqn => simp only [hqh, iff_false]; exact fun hl => hqn (h.token.onlyLinker hl hlink)
  case runs =>
    rw [if_pos rfl, hres]
    exact ((h.executors.shaped head).waiting hwait).2
  case waiters =>
    have hmem : q ∈ s.serial.queue ↔ (s.executor q).state = .tokenWait := h.token.waitersWait q
    rw [hq, List.mem_cons] at hmem
    show q ∈ rest ↔ _
    split
    · next hqh => subst hqh; simp [hres, hnodup.1]
    · next hqh =>
      split
      · next hqn =>
        subst hqn
        simp only [hqh, false_or, hw] at hmem
        simpa using hmem
      · simpa [hqh] using hmem

/-- The end of a request whose cycle is not in progress keeps the laws between acts. -/
theorem State.Sound.endRequest (h : s.Sound) {w : Work} (hw : (s.executor n).state = .running w)
    (hp : s.inProgress ≠ some (.executor n)) : (s.endRequest n).Sound := by
  rcases h.endRequest_cases hw with ⟨hlink, he⟩ | ⟨hlink, hq, he⟩ | ⟨hlink, head, rest, hq, hne, hwait, he⟩ <;> rw [he]
  · exact h.endQuietly hw hp hlink
  · exact h.endFreeing hp hlink hq
  · exact h.endHanding hw hp hlink hq hwait

/-- The end of a running request takes its tag from its executor and touches no other. -/
theorem State.Sound.endRequest_executor_tags (h : s.Sound) {w : Work} (hw : (s.executor n).state = .running w) (q : Port) :
    ((s.endRequest n).executor q).tags = if q = n then [] else (s.executor q).tags := by
  have hidle : ((s.setExecutor n .idle).executor q).tags = if q = n then [] else (s.executor q).tags := by
    rw [State.executor_setExecutor]; split <;> rfl
  rcases h.endRequest_cases hw with ⟨-, he⟩ | ⟨-, -, he⟩ | ⟨-, head, rest, -, hne, -, he⟩ <;> rw [he]
  · exact hidle
  · exact hidle
  · show (((s.setExecutor n .idle).setExecutor head _).executor q).tags = _
    rw [State.executor_setExecutor]
    split
    · next hqh => rw [Executor.tags_resume, hqh, if_neg hne]
    · exact hidle

/-- A request that ends leaves its tag to the place given by t. -/
theorem State.Sound.endRequest_outstanding (h : s.Sound) {w : Work} (hw : (s.executor n).state = .running w)
    {u : State} (hu : u.OutstandingLaw) (htags : ∀ p, (s.port p).tags = (u.port p).tags)
    (hcount : ∀ p a, (s.queueTags p).count a + (if p = n then 0 else (s.executor p).tags.count a)
        + (waitTags s.waits p).count a + (sweepTags s.sweeps p).count a + (s.replyTags p).count a
      = (u.queueTags p).count a + (u.executor p).tags.count a + (waitTags u.waits p).count a
        + (sweepTags u.sweeps p).count a + (u.replyTags p).count a) : (s.endRequest n).OutstandingLaw := by
  refine hu.of_count (fun p => by rw [State.endRequest_port]; exact htags p) (fun p a => ?_)
  rw [h.endRequest_executor_tags hw, State.endRequest_waits, State.endRequest_sweeps,
    State.queueTags_congr (State.endRequest_ports s n), State.replyTags_congr (State.endRequest_ports s n), ← hcount]
  by_cases hp : p = n <;> simp [hp]

/-! ## The arbiter's turn (R27, R29) -/

theorem State.Sound.grant (h : s.Sound) : s.grant.Sound := by
  unfold State.grant
  split
  · next hready =>
    split
    · next r hr =>
      have hcycle : s.hasCycle r = true := by simpa using List.find?_some hr
      exact ⟨fun hd => absurd hready.1 hd, fun x hx => by cases hx; rw [← hcycle]; exact State.hasCycle_congr rfl rfl r,
        fun x hx => by cases hx; rfl, h.heldInInit, h.executors.congr, h.tables.congr, h.directory.congr,
        h.sessions.congr, h.sweeps.congr, h.waits.congr, h.token.congr, h.chains.congr, h.queues.congr⟩
    · exact h
  · exact h

theorem State.Sound.withdraw (h : s.Sound) (f : Port → Bool) (n : Port) : (s.withdraw f n).Sound := by
  unfold State.withdraw
  split
  · next hw =>
    simp only [State.withdrawing, Bool.and_eq_true, decide_eq_true_eq] at hw
    obtain ⟨⟨⟨⟨-, hcycle⟩, hprog⟩, -⟩, -⟩ := hw
    obtain ⟨w, hrun, -⟩ := Executor.hasCycle_iff.1 hcycle
    exact h.endRequest hrun hprog
  · exact h

/-- A withdrawal takes no reply's tag: the request was abandoned (R131). -/
theorem State.Sound.withdraw_tags (h : s.Sound) (f : Port → Bool) (n p : Port) :
    ((s.withdraw f n).executor p).tags = (s.executor p).tags := by
  unfold State.withdraw
  split
  · next hw =>
    simp only [State.withdrawing, Bool.and_eq_true, decide_eq_true_eq] at hw
    obtain ⟨⟨⟨⟨hab, hcycle⟩, -⟩, -⟩, -⟩ := hw
    obtain ⟨w, hrun, -⟩ := Executor.hasCycle_iff.1 hcycle
    rw [h.endRequest_executor_tags hrun]
    split
    · next hp => rw [hp, Executor.tags_of_abandoned hab]
    · rfl
  · rfl

theorem State.Sound.withdraw_all (f : Port → Bool) (ps : List Port) : ∀ {s : State}, s.Sound →
    (ps.foldl (State.withdraw f) s).Sound ∧
      ∀ p, ((ps.foldl (State.withdraw f) s).executor p).tags = (s.executor p).tags := by
  induction ps with
  | nil => exact fun h => ⟨h, fun _ => rfl⟩
  | cons n ps ih =>
    intro s h
    obtain ⟨hsound, htags⟩ := ih (h.withdraw f n)
    exact ⟨hsound, fun p => (htags p).trans (h.withdraw_tags f n p)⟩

theorem State.Sound.takeWithdrawals (h : s.Sound) :
    s.takeWithdrawals.Sound ∧ ∀ p, (s.takeWithdrawals.executor p).tags = (s.executor p).tags := by
  unfold State.takeWithdrawals
  split
  · obtain ⟨hsound, htags⟩ := State.Sound.withdraw_all (Config.withdrawalTaken s.freeIndex) Port.all h
    exact ⟨hsound.congr rfl, htags⟩
  · exact ⟨h, fun _ => rfl⟩

/-- The arbiter's turn keeps the laws between acts. -/
theorem State.Sound.arbitrate_sound (h : s.Sound) : s.arbitrate.Sound := h.takeWithdrawals.1.grant

theorem State.Sound.arbitrate_tags (h : s.Sound) (p : Port) :
    (s.arbitrate.executor p).tags = (s.executor p).tags := by
  rw [State.arbitrate, State.grant_executor]
  exact h.takeWithdrawals.2 p

/-- After the arbiter's turn, in READY, a cycle is in progress or none is pending (R29). -/
theorem State.arbitrate_serves (hd : s.arbitrate.device = .ready) (hp : s.arbitrate.inProgress = none) (r : Requestor) :
    s.arbitrate.hasCycle r = false := by
  rw [State.arbitrate, State.hasCycle_congr (State.grant_execs _) (State.grant_sweepVisit _)]
  exact State.grant_serves _ (by simpa using hd) hp r

/-- The arbiter's turn leaves a cycle in progress where there is one. -/
theorem State.arbitrate_inProgress (h : s.inProgress ≠ none) : s.arbitrate.inProgress = s.inProgress := by
  rw [State.arbitrate, State.grant_of_busy _ (.inr (by simpa using h)), State.takeWithdrawals_inProgress]

/-- The arbiter's turn ends a step in the laws. -/
theorem State.Sound.arbitrate (h : s.Sound) (ho : s.OutstandingLaw) (hclear : s.clearDue = true → s.inProgress ≠ none) :
    s.arbitrate.Laws := by
  refine h.arbitrate_sound.laws (ho.of_count (by simp) fun p a => ?_) State.arbitrate_serves (fun hc => ?_)
  · rw [State.queueTags_congr (State.arbitrate_ports s), State.replyTags_congr (State.arbitrate_ports s),
      h.arbitrate_tags, State.arbitrate_waits, State.arbitrate_sweeps]
  · have hbusy := hclear (by simpa using hc)
    rwa [State.arbitrate_inProgress hbusy]

end Sys2Proof.Machine
end

