-- ==== Sys2Proof/Proofs/Ports.lean ====
section
/-! SUPPORT. Changes of the Port Controllers and the port links that keep the laws between acts: a posting to an event queue
(R147, R148), a reply (R162), a change of one controller in its state, a change of one link (R155 to R158). -/

namespace Sys2Proof.Machine

variable {s t : State} {n p : Port} {c : PortControl} {l : PortLink}

/-! ## Event queues (R147, R148) -/

theorem newestIsOverflow_concat (q : List EventRecord) (r : EventRecord) :
    newestIsOverflow (q ++ [r]) = decide (r.event.kind = .overflow) := by simp [newestIsOverflow]

theorem eventsFit_of_nil (h : c.eventQueue = []) (hc : c.credits ≤ Config.creditLimit) : eventsFit c where
  places := by simp [h]
  fullOverflows := fun hl => by simp [h, Config.eventPlaces] at hl
  numbered := fun i r hr => by simp [h] at hr
  creditsSaturate := hc

/-- A record under the next sequence number keeps the queue's law, where it is an OVERFLOW if it is the last that fits. -/
theorem eventsFit.append (h : eventsFit c) {e : Event} (hplace : c.eventQueue.length + 1 ≤ Config.eventPlaces)
    (hfull : c.eventQueue.length + 1 = Config.eventPlaces → e.kind = .overflow) : eventsFit (c.append e) where
  places := by simpa [PortControl.append] using hplace
  fullOverflows := fun hl => by
    have : c.eventQueue.length + 1 = Config.eventPlaces := by simpa [PortControl.append] using hl
    simp [PortControl.append, newestIsOverflow_concat, hfull this]
  numbered := fun i r hr => by
    simp only [PortControl.append, List.length_append, List.length_singleton] at hr ⊢
    rcases Nat.lt_trichotomy i c.eventQueue.length with hi | hi | hi
    · rw [List.getElem?_append_left hi] at hr
      have hlen : c.eventQueue.length + 1 - i = (c.eventQueue.length - i) + 1 := by omega
      rw [hlen, BitVec.ofNat_add, ← h.numbered i r hr, BitVec.add_assoc]
      rfl
    · have hr' : { seq := c.seqCounter, event := e } = r := by simpa [hi] using hr
      have hlen : c.eventQueue.length + 1 - i = 1 := by omega
      rw [hlen, ← hr']
      rfl
    · simp [hi] at hr
  creditsSaturate := h.creditsSaturate

/-- One more event lost keeps the queue's law: the newest record's count alone changes. -/
theorem eventsFit.raiseNewest (h : eventsFit c) : eventsFit { c with
    eventQueue := c.eventQueue.dropLast ++ (c.eventQueue.getLast?.map EventRecord.raiseLost).toList } := by
  rcases List.eq_nil_or_concat c.eventQueue with hq | ⟨q, r, hq⟩
  · exact eventsFit_of_nil (by simp [hq]) h.creditsSaturate
  · rw [List.concat_eq_append] at hq
    have hraised : c.eventQueue.dropLast ++ (c.eventQueue.getLast?.map EventRecord.raiseLost).toList
        = q ++ [r.raiseLost] := by simp [hq]
    have hplaces := h.places
    have hfull := h.fullOverflows
    have hnum := h.numbered
    simp only [hq, newestIsOverflow_concat, List.length_append, List.length_singleton] at hplaces hfull hnum
    rw [hraised]
    refine ⟨by simpa using hplaces, fun hl => ?_, fun i x hx => ?_, h.creditsSaturate⟩
    · simpa [newestIsOverflow_concat, EventRecord.raiseLost] using hfull (by simpa using hl)
    · simp only [List.length_append, List.length_singleton]
      rcases Nat.lt_trichotomy i q.length with hi | hi | hi
      · rw [List.getElem?_append_left hi] at hx
        exact hnum i x (by rw [List.getElem?_append_left hi, hx])
      · have hseq := hnum i r (by simp [hi])
        have hx' : r.raiseLost = x := by simpa [hi] using hx
        rw [← hx']
        exact hseq
      · simp [hi] at hx

/-- A posting to an event queue keeps its law (R147, R148). -/
theorem eventsFit.push (h : eventsFit c) (e : Event) : eventsFit (c.push e) := by
  have hplaces := h.places
  unfold PortControl.push
  split
  · next hroom => exact h.append (by omega) (fun hl => by omega)
  · next hroom =>
    split
    · exact h.raiseNewest
    · next hnew =>
      have hne : c.eventQueue.length ≠ Config.eventPlaces := fun hl => hnew (h.fullOverflows hl)
      exact h.append (by omega) (fun _ => rfl)

/-- The head record leaves: the others keep their places and numbers. -/
theorem eventsFit.tail (h : eventsFit c) {r : EventRecord} {rest : List EventRecord} (hq : c.eventQueue = r :: rest)
    {k : Nat} (hk : k ≤ c.credits) : eventsFit { c with eventQueue := rest, credits := k } where
  places := by have := h.places; simp only [hq, List.length_cons] at this ⊢; omega
  fullOverflows := fun hl => by
    have := h.places
    simp only [hq, List.length_cons] at this hl
    omega
  numbered := fun i x hx => by
    have := h.numbered (i + 1) x (by simpa [hq] using hx)
    simpa [hq] using this
  creditsSaturate := le_trans hk h.creditsSaturate

/-- The law of an event queue reads the queue, the counter and the credits alone. -/
theorem eventsFit.congr {d : PortControl} (h : eventsFit c) (hq : d.eventQueue = c.eventQueue := by rfl)
    (hs : d.seqCounter = c.seqCounter := by rfl) (hc : d.credits = c.credits := by rfl) : eventsFit d where
  places := hq ▸ h.places
  fullOverflows := hq ▸ h.fullOverflows
  numbered := by rw [hq, hs]; exact h.numbered
  creditsSaturate := hc ▸ h.creditsSaturate

/-! ## How a controller fits its state -/

theorem queueFits.congr {d : PortControl} (h : queueFits c) (hp : d.portState = c.portState := by rfl)
    (hd : d.detachPending = c.detachPending := by rfl) (hq : d.requestQueue = c.requestQueue := by rfl) : queueFits d := by
  unfold queueFits
  rw [hp, hd, hq]
  exact h

/-- Only an ATTACHED port's controller has events posted to it. -/
theorem portFits.push {b : Bool} (h : portFits c b) (e : Event) (ha : c.portState = .attached) : portFits (c.push e) b where
  line := by simpa only [PortControl.push_portState, PortControl.push_linkDown] using h.line
  detachPending := by simpa only [PortControl.push_portState, PortControl.push_detachPending] using h.detachPending
  leaseTimer := by simpa only [PortControl.push_portState, PortControl.push_detachPending,
    PortControl.push_leaseTimer] using h.leaseTimer
  eventsOnlyAttached := fun hne => absurd (by simpa using ha) hne
  queue := h.queue.congr (by simp) (by simp) (by simp)
  needsLine := by simpa only [PortControl.push_requestQueue, PortControl.push_replyQueue,
    PortControl.push_tags] using h.needsLine
  sessionRange := by simpa only [PortControl.push_session] using h.sessionRange

/-- Replies posted to a port whose line is high. -/
theorem portFits.postReplies {b : Bool} (h : portFits c b) {x : List Reply} (hx : b = false → x = []) :
    portFits { c with replyQueue := c.replyQueue ++ x } b where
  line := h.line
  detachPending := h.detachPending
  leaseTimer := h.leaseTimer
  eventsOnlyAttached := h.eventsOnlyAttached
  queue := h.queue.congr
  needsLine := fun hb => by
    obtain ⟨hq, hr, ht⟩ := h.needsLine hb
    exact ⟨hq, by simp [hr, hx hb], ht⟩
  sessionRange := h.sessionRange

theorem portFits.lineHigh {b : Bool} (h : portFits c b) (ha : c.portState = .attached ∨ c.portState = .opened) :
    b = true := by
  have := h.line
  rcases ha with ha | ha <;> rw [ha] at this <;> exact this

/-! ## Controllers that keep their states -/

/-- A change of the controllers that leaves every port in its state. -/
theorem State.Sound.withPorts (h : s.Sound) (ht : t = { s with ports := t.ports })
    (hstate : ∀ p, t.portState p = s.portState p) (hfits : ∀ p, portFits (t.port p) (s.link p).lineHigh)
    (hevents : ∀ p, eventsFit (t.port p)) (hheld : s.held = true → ∀ p, (t.port p).requestQueue = []) : t.Sound := by
  have hkeep : ∀ p, t.port p = t.ports.get p := fun _ => rfl
  generalize t.ports = x at ht hkeep
  subst ht
  refine ⟨h.servesInReady, h.grantsPending, h.grantedLast, h.heldInInit, h.executors.congr, h.tables.congr,
    h.directory.congr, ?_, h.sweeps.congr (hs := hstate), h.waits.congr (hs := hstate), h.token.congr, h.chains.congr,
    ⟨hevents, h.queues.links, h.queues.noBitsWhileHeld⟩⟩
  exact {
    fits := hfits
    closingSwept := fun p => by rw [hstate]; exact h.sessions.closingSwept p
    sweptOnce := h.sessions.sweptOnce
    executingAttached := fun p hs ha => by rw [hstate]; exact h.sessions.executingAttached p hs ha
    abandonedLost := h.sessions.abandonedLost
    heldEmpty := fun hd => by
      obtain ⟨hsw, hw, hp⟩ := h.sessions.heldEmpty hd
      exact ⟨hsw, hw, fun p => ⟨hheld hd p, by rw [hstate]; exact (hp p).2⟩⟩ }

theorem State.Sound.requestQueue_of_held (h : s.Sound) (hd : s.held = true) (p : Port) : (s.port p).requestQueue = [] :=
  ((h.sessions.heldEmpty hd).2.2 p).1

/-- An event posted keeps the laws between acts. -/
theorem State.Sound.postEvent (h : s.Sound) (f : Port → Bool) (e : Event) : (s.postEvent f e).Sound := by
  refine h.withPorts rfl (by simp) (fun p => ?_) (fun p => ?_) (fun hd p => ?_) <;> rw [State.postEvent_port] <;> split
  · next ha =>
    simp only [PortControl.admits, Bool.and_eq_true, decide_eq_true_eq] at ha
    obtain ⟨-, ⟨hatt, -⟩, -⟩ := ha
    exact (h.sessions.fits p).push e hatt
  · exact h.sessions.fits p
  · exact (h.queues.events p).push e
  · exact h.queues.events p
  · simpa using h.requestQueue_of_held hd p
  · exact h.requestQueue_of_held hd p

theorem State.OutstandingLaw.postEvent (h : s.OutstandingLaw) (f : Port → Bool) (e : Event) :
    (s.postEvent f e).OutstandingLaw :=
  h.of_count (fun p => State.postEvent_tags f e p) (fun p a => by simp [State.executor])

/-- Replies posted to ports whose lines are high keep the laws between acts. -/
theorem State.Sound.postReplies (h : s.Sound) {f : Port → List Reply}
    (hf : ∀ p, (s.link p).lineHigh = false → f p = []) : (s.postReplies f).Sound := by
  refine h.withPorts rfl (by simp) (fun p => ?_) (fun p => ?_) (fun hd p => ?_) <;> rw [State.postReplies_port]
  · exact (h.sessions.fits p).postReplies (hf p)
  · exact (h.queues.events p).congr
  · exact h.requestQueue_of_held hd p

theorem State.Sound.postReply (h : s.Sound) {n : Port} (hn : (s.link n).lineHigh = true) (r : Reply) :
    (s.postReply n r).Sound := by
  rw [State.postReply_eq_postReplies]
  refine h.postReplies fun p hp => ?_
  split
  · next hpn => rw [hpn, hn] at hp; cases hp
  · rfl

/-- A change of one controller that leaves its port in its state. -/
theorem State.Sound.setPort (h : s.Sound) (hstate : c.portState = s.portState n)
    (hfits : portFits c (s.link n).lineHigh) (hevents : eventsFit c)
    (hheld : s.held = true → c.requestQueue = []) : (s.setPort n c).Sound := by
  refine h.withPorts rfl (fun p => ?_) (fun p => ?_) (fun p => ?_) (fun hd p => ?_)
  · unfold State.portState
    rw [State.port_setPort]
    split
    · next hp => rw [hp]; exact hstate
    · rfl
  all_goals
    rw [State.port_setPort]
    split
  · next hp => rw [hp]; exact hfits
  · exact h.sessions.fits p
  · exact hevents
  · exact h.queues.events p
  · exact hheld hd
  · exact h.requestQueue_of_held hd p

/-! ## Links -/

/-- A change of one link that leaves its line and its bits. -/
theorem State.Sound.setLink (h : s.Sound) (hline : l.lineHigh = (s.link n).lineHigh) (hbits : l.bits = (s.link n).bits)
    (hfits : linkFits l) : (s.setLink n l).Sound := by
  have hlink : ∀ p, (s.setLink n l).link p = if p = n then l else s.link p := fun p => PerPort.get_set s.links n p l
  refine ⟨h.servesInReady, fun r hr => by simpa using h.grantsPending r hr, h.grantedLast, h.heldInInit, h.executors.congr,
    h.tables.congr, h.directory.congr, h.sessions.congr (hl := fun p => ?_), h.sweeps.congr, h.waits.congr, h.token.congr,
    h.chains.congr, ⟨h.queues.events, fun p => ?_, fun hd p => ?_⟩⟩
  all_goals
    rw [hlink]
    split
  · next hp => rw [hp]; exact hline
  · rfl
  · exact hfits
  · exact h.queues.links p
  · exact hbits.trans (h.queues.noBitsWhileHeld hd n)
  · exact h.queues.noBitsWhileHeld hd p

/-- The law of a link reads its buffer, its framer, its line of bits and its level alone. -/
theorem linkFits.congr {m : PortLink} (h : linkFits l) (ha : m.ackBuffer.length ≤ l.ackBuffer.length := by rfl)
    (hf : m.framer = l.framer := by rfl) (hb : m.bits = l.bits := by rfl) (ho : m.line = l.line := by rfl)
    (hh : m.lineHigh = l.lineHigh := by rfl) : linkFits m where
  acks := le_trans ha h.acks
  framing := by rw [hf]; exact h.framing
  taken := by rw [hb]; exact h.taken
  sent := by rw [hb, PortLink.span, ho]; exact h.sent
  noBitsInReset := fun hl => by rw [hb]; exact h.noBitsInReset (hh ▸ hl)

/-- The framer back in HUNT has nothing to measure. -/
theorem linkFits.toHunt (h : linkFits l) : linkFits l.toHunt where
  acks := h.acks
  framing := trivial
  taken := h.taken
  sent := h.sent
  noBitsInReset := h.noBitsInReset

/-- An acknowledgment joins the buffer where it has a place (R158). -/
theorem linkFits.acknowledge (h : linkFits l) (a : Ack) : linkFits (l.acknowledge a) := by
  unfold PortLink.acknowledge
  split
  · next hroom => exact {
      acks := by simpa using hroom
      framing := h.framing
      taken := h.taken
      sent := h.sent
      noBitsInReset := h.noBitsInReset }
  · exact h.congr

@[simp] theorem PortLink.acknowledge_lineHigh (l : PortLink) (a : Ack) : (l.acknowledge a).lineHigh = l.lineHigh := by
  unfold PortLink.acknowledge; split <;> rfl

@[simp] theorem PortLink.acknowledge_bits (l : PortLink) (a : Ack) : (l.acknowledge a).bits = l.bits := by
  unfold PortLink.acknowledge; split <;> rfl

end Sys2Proof.Machine
end

