-- ==== Sys2Proof/Proofs/Waits.lean ====
section
/-! SUPPORT. Wait records that leave the Wait Table with a reply or without one, or are lowered by a tick (R82 to R95). -/

namespace Sys2Proof.Machine

variable {s t : State} {n p : Port}

/-- A parked take belongs to a port whose line is high (R83, R122). -/
theorem State.Sound.lineHigh_of_attached (h : s.Sound) (ha : s.portState p = .attached) : (s.link p).lineHigh = true :=
  (h.sessions.fits p).lineHigh (.inl ha)

/-- A Wait Table whose records, no more than before, keep the ports and terminals of records that stood in it. -/
theorem State.Sound.withWaits (h : s.Sound) {x : List WaitRecord}
    (hmem : ∀ w ∈ x, ∃ v ∈ s.waits, v.port = w.port ∧ v.terminal = w.terminal)
    (hlen : x.length ≤ s.waits.length) : ({ s with waits := x } : State).Sound := by
  have hnil : s.waits = [] → x = [] := fun hw => List.eq_nil_of_length_eq_zero (by simpa [hw] using hlen)
  refine ⟨h.servesInReady, h.grantsPending, h.grantedLast, h.heldInInit, h.executors.congr, h.tables.congr,
    h.directory.congr, ?_, h.sweeps.congr, ?_, h.token.congr, h.chains.congr, h.queues.congr⟩
  · exact {
      fits := h.sessions.fits
      closingSwept := h.sessions.closingSwept
      sweptOnce := h.sessions.sweptOnce
      executingAttached := h.sessions.executingAttached
      abandonedLost := h.sessions.abandonedLost
      heldEmpty := fun hd => by
        obtain ⟨hsw, hw, hp⟩ := h.sessions.heldEmpty hd
        exact ⟨hsw, hnil hw, hp⟩ }
  · exact {
      terminalEmpty := fun w hw => by
        obtain ⟨v, hv, -, ht⟩ := hmem w hw
        rw [← ht]
        exact h.waits.terminalEmpty v hv
      portAttached := fun w hw => by
        obtain ⟨v, hv, hp, -⟩ := hmem w hw
        rw [← hp]
        exact h.waits.portAttached v hv
      places := le_trans hlen h.waits.places
      onlyInReady := fun hd => hnil (h.waits.onlyInReady hd) }

/-- Records removed from the Wait Table. -/
theorem State.Sound.filterWaits (h : s.Sound) (f : WaitRecord → Bool) :
    ({ s with waits := s.waits.filter f } : State).Sound :=
  h.withWaits (fun w hw => ⟨w, List.mem_of_mem_filter hw, rfl, rfl⟩) (List.length_filter_le _ _)

/-- The records that f picks leave the Wait Table, and each is answered (R89, R91 to R93). -/
def State.endWaits (s : State) (f : WaitRecord → Bool) (st : Status) (c : Option Content) (v : Option Version) : State :=
  State.postReplies { s with waits := s.waits.filter (fun w => !f w) }
    (fun p => (s.waits.filter (fun w => f w && decide (w.port = p))).map (fun w => waitReply w st c v))

theorem State.endWaitsOn_eq (k : Slot) (st : Status) (c : Option Content) (v : Option Version) :
    s.endWaitsOn k st c v = s.endWaits (fun w => decide (w.terminal = k)) st c v := by
  unfold State.endWaitsOn State.endWaits
  simp only [ne_eq, decide_not]

/-- The tags of the replies to the records that f picks, of port p, are those records' tags. -/
theorem replyTags_of_waits (f : WaitRecord → Bool) (ws : List WaitRecord) (st : Status) (c : Option Content)
    (v : Option Version) (p : Port) :
    ((ws.filter (fun w => f w && decide (w.port = p))).map (fun w => waitReply w st c v)).map Reply.tag
      = waitTags (ws.filter f) p := by
  unfold waitTags
  rw [List.map_map, List.filter_filter]
  simp only [Bool.and_comm]
  rfl

theorem State.Sound.endWaits (h : s.Sound) (f : WaitRecord → Bool) (st : Status) (c : Option Content)
    (v : Option Version) : (s.endWaits f st c v).Sound := by
  refine (h.filterWaits (fun w => !f w)).postReplies fun p hp => ?_
  rw [List.map_eq_nil_iff, List.filter_eq_nil_iff]
  intro w hw hf
  simp only [Bool.and_eq_true, decide_eq_true_eq] at hf
  have hhigh : (s.link p).lineHigh = true := h.lineHigh_of_attached (hf.2 ▸ h.waits.portAttached w hw)
  exact absurd (hhigh.symm.trans hp) (by simp)

theorem State.OutstandingLaw.endWaits (h : s.OutstandingLaw) (f : WaitRecord → Bool) (st : Status) (c : Option Content)
    (v : Option Version) : (s.endWaits f st c v).OutstandingLaw := by
  refine h.of_count (fun p => by unfold State.endWaits; rw [State.postReplies_port]; rfl) (fun p a => ?_)
  have hwait := count_waitTags_filter f s.waits p a
  unfold State.endWaits
  rw [State.postReplies_replyTags, replyTags_of_waits, List.count_append, State.postReplies_queueTags]
  simp only [State.postReplies_executor, State.postReplies_waits, State.postReplies_sweeps]
  show (s.queueTags p).count a + (s.executor p).tags.count a + _ + _ + ((s.replyTags p).count a + _) = _
  omega

/-! ## Ticks of the Wait Table (R89, R126) -/

theorem waitTags_tick (ws : List WaitRecord) (p : Port) : waitTags (ws.map WaitRecord.tick) p = waitTags ws p := by
  unfold waitTags
  rw [List.filter_map, List.map_map]
  rfl

/-- Lowering every remaining time keeps the laws between acts. -/
theorem State.Sound.lowerWaits (h : s.Sound) : ({ s with waits := s.waits.map WaitRecord.tick } : State).Sound :=
  h.withWaits (fun w hw => by
    obtain ⟨v, hv, rfl⟩ := List.mem_map.1 hw
    exact ⟨v, hv, rfl, rfl⟩) (by simp)

theorem State.OutstandingLaw.lowerWaits (h : s.OutstandingLaw) :
    ({ s with waits := s.waits.map WaitRecord.tick } : State).OutstandingLaw :=
  h.of_count (fun _ => rfl) (fun p a => by
    rw [waitTags_tick]
    rfl)

/-- The Wait Table takes a tick: times lowered, then the expired records answered TIMEOUT. -/
theorem State.takeWaitTick_eq : s.takeWaitTick =
    State.endWaits { s with waits := s.waits.map WaitRecord.tick } WaitRecord.expired .timeout none none := rfl

theorem State.Sound.takeWaitTick (h : s.Sound) : s.takeWaitTick.Sound := by
  rw [State.takeWaitTick_eq]
  exact h.lowerWaits.endWaits _ _ _ _

theorem State.OutstandingLaw.takeWaitTick (h : s.OutstandingLaw) : s.takeWaitTick.OutstandingLaw := by
  rw [State.takeWaitTick_eq]
  exact h.lowerWaits.endWaits _ _ _ _

end Sys2Proof.Machine
end

