-- ==== Sys2Proof/Proofs/LinkCommands.lean ====
section
/-! SUPPORT. The commands of the port links, of admission and of the transmit scheduler keep the laws (R155 to R163). -/

namespace Sys2Proof.Machine

variable {s t : State} {n p : Port} {b : Byte} {l : PortLink}

/-- A command's outcome: the part goes on, in a state in which the laws hold. -/
def EndsInLaws (o : Host.Outcome State Fault Refusal) : Prop := ∃ t, o = .next t ∧ t.Laws

theorem endsInLaws_next (h : t.Laws) : EndsInLaws (.next t) := ⟨t, rfl, h⟩

/-! ## The receive framer (R157) -/

/-- A change of one link that leaves its line and its bits keeps the laws. -/
theorem State.Laws.setLink (h : s.Laws) (hline : l.lineHigh = (s.link n).lineHigh) (hbits : l.bits = (s.link n).bits)
    (hfits : linkFits l) : (s.setLink n l).Laws :=
  h.of_sound (h.sound.setLink hline hbits hfits) h.outstanding.congr

/-- The law of a framer: a frame being received is within its length (R157). -/
def Framer.fits : Framer → Prop
  | .hunt | .length => True
  | .body len got => lengthByteOk len = true ∧ got.length < len.toNat
  | .check len bytes _ => lengthByteOk len = true ∧ bytes.length = len.toNat

theorem linkFits.framer_fits (h : linkFits l) : l.framer.fits := h.framing

theorem linkFits.withFramer (h : linkFits l) {f : Framer} (hf : f.fits) (m k : Nat) :
    linkFits { l with framer := f, byteTicks := m, framerDue := k } where
  acks := h.acks
  framing := hf
  taken := h.taken
  sent := h.sent
  noBitsInReset := h.noBitsInReset

/-- One more byte of a frame keeps it within its length. -/
theorem Framer.fits_next {f g : Framer} (hf : f.fits) (hg : f.next b = some g) : g.fits := by
  cases f with
  | hunt => cases hg
  | length =>
    simp only [Framer.next, Option.ite_none_right_eq_some, Option.some.injEq] at hg
    obtain ⟨hok, rfl⟩ := hg
    have hlen : 2 ≤ b.toNat := by
      simp only [lengthByteOk, Bool.and_eq_true, decide_eq_true_eq] at hok
      exact hok.1
    exact ⟨hok, by simp only [List.length_nil]; omega⟩
  | body len got =>
    obtain ⟨hok, hlt⟩ := hf
    simp only [Framer.next] at hg
    split at hg <;> cases hg <;> refine ⟨hok, ?_⟩ <;> simp only [List.length_append, List.length_singleton] <;> omega
  | check len bytes high =>
    cases high with
    | none => cases hg; exact hf
    | some x => cases hg

theorem linkFits.fault (h : linkFits l) (r : AckResult) : linkFits (l.fault r) := h.toHunt.acknowledge _

@[simp] theorem PortLink.fault_lineHigh (l : PortLink) (r : AckResult) : (l.fault r).lineHigh = l.lineHigh := by
  simp [PortLink.fault, PortLink.toHunt]

@[simp] theorem PortLink.fault_bits (l : PortLink) (r : AckResult) : (l.fault r).bits = l.bits := by
  simp [PortLink.fault, PortLink.toHunt]

/-- A fault of the framer keeps the laws. -/
theorem State.Laws.linkFault (h : s.Laws) (n : Port) (r : AckResult) : (s.setLink n ((s.link n).fault r)).Laws :=
  h.setLink (by simp) (by simp) ((h.queues.links n).fault r)

theorem execSyncByteFound_keeps (h : s.Laws) : EndsInLaws (execSyncByteFound n s) := by
  refine endsInLaws_next ?_
  split
  · exact h.setLink rfl rfl ((h.queues.links n).withFramer (f := .length) trivial 0 0)
  · exact h

theorem execFrameByteReceived_keeps (h : s.Laws) : EndsInLaws (execFrameByteReceived n b s) := by
  refine endsInLaws_next ?_
  split
  · split
    · next f hf =>
      exact h.setLink rfl rfl
        ((h.queues.links n).withFramer (Framer.fits_next (h.queues.links n).framer_fits hf) 0 (s.link n).framerDue)
    · exact h
  · exact h

theorem execLengthError_keeps (h : s.Laws) : EndsInLaws (execLengthError n b s) := by
  refine endsInLaws_next ?_
  split
  · exact h.linkFault n .lengthError
  · exact h

theorem execTruncatedFrame_keeps (h : s.Laws) : EndsInLaws (execTruncatedFrame n s) := by
  refine endsInLaws_next ?_
  split
  · exact h
  · have hl : linkFits { s.link n with framerDue := (s.link n).framerDue - 1 } := (h.queues.links n).congr
    dsimp only
    split
    · exact h.setLink rfl rfl hl
    · split
      · exact h.setLink rfl rfl hl.congr
      · exact h.setLink (by simp) (by simp) (hl.fault _)

theorem execFrameSent_keeps (h : s.Laws) : EndsInLaws (execFrameSent n s) := by
  refine endsInLaws_next ?_
  split
  · next hb =>
    simp only [PortLink.atBoundary, decide_eq_true_eq] at hb
    have hl := h.queues.links n
    exact h.setLink rfl rfl ⟨hl.acks, hl.framing, hl.taken, by rw [hb]; exact Nat.zero_lt_succ _, hl.noBitsInReset⟩
  · exact h

/-! ## Admission (R123, R127, R128, R159) -/

/-- A port has its outstanding requests in their places when each of its own does, and the others' do not move. -/
theorem State.OutstandingLaw.atPort (h : s.OutstandingLaw) (n : Port)
    (hother : ∀ p, p ≠ n → (t.port p).tags = (s.port p).tags ∧ t.outstandingPlaces p = s.outstandingPlaces p)
    (height : (t.port n).tags.length ≤ Config.outstandingLimit) (hdiffer : (t.port n).tags.Nodup)
    (hperm : (t.port n).tags.Perm (t.outstandingPlaces n)) : t.OutstandingLaw where
  atMostEight := fun p => by
    by_cases hp : p = n
    · exact hp ▸ height
    · rw [(hother p hp).1]; exact h.atMostEight p
  tagsDiffer := fun p => by
    by_cases hp : p = n
    · exact hp ▸ hdiffer
    · rw [(hother p hp).1]; exact h.tagsDiffer p
  onePlaceEach := fun p => by
    by_cases hp : p = n
    · exact hp ▸ hperm
    · rw [(hother p hp).1, (hother p hp).2]; exact h.onePlaceEach p

/-- A change of one controller keeps the law where its tags change as its queues do. -/
theorem State.OutstandingLaw.setPort_tags (h : s.OutstandingLaw) {c : PortControl}
    (height : c.tags.length ≤ Config.outstandingLimit) (hdiffer : c.tags.Nodup)
    (hcount : ∀ a, c.tags.count a + (s.queueTags n).count a + (s.replyTags n).count a
      = (s.port n).tags.count a + (c.requestQueue.map Request.tag).count a + (c.replyQueue.map Reply.tag).count a) :
    (s.setPort n c).OutstandingLaw := by
  refine h.atPort n (fun p hp => ⟨by rw [State.port_setPort_of_ne s _ hp], ?_⟩) ?_ ?_ ?_
  · unfold State.outstandingPlaces
    rw [State.port_setPort_of_ne s _ hp]
    rfl
  · rwa [State.port_setPort_self]
  · rwa [State.port_setPort_self]
  · rw [State.port_setPort_self]
    refine List.perm_iff_count.2 fun a => ?_
    have hperm := List.perm_iff_count.1 (h.onePlaceEach n) a
    have hchange := hcount a
    rw [State.count_outstandingPlaces] at hperm ⊢
    simp only [State.setPort_executor, State.setPort_waits, State.setPort_sweeps]
    rw [show (s.setPort n c).queueTags n = c.requestQueue.map Request.tag by simp [State.queueTags],
      show (s.setPort n c).replyTags n = c.replyQueue.map Reply.tag by simp [State.replyTags]]
    omega

/-- A change of one controller that leaves its tags, its requests and its replies. -/
theorem State.OutstandingLaw.setPort (h : s.OutstandingLaw) {c : PortControl} (ht : c.tags = (s.port n).tags)
    (hq : c.requestQueue = (s.port n).requestQueue) (hr : c.replyQueue = (s.port n).replyQueue) :
    (s.setPort n c).OutstandingLaw :=
  h.setPort_tags (ht ▸ h.atMostEight n) (ht ▸ h.tagsDiffer n) fun a => by rw [ht, hq, hr]; rfl

/-- What an ACCEPTED request has passed (R159). -/
theorem State.admission_accepted {tag : Tag} {op : RequestOp} (h : s.admission n tag (some op) = .accepted) :
    portStateRefusal (s.port n) op = none ∧ (s.port n).tags.length < Config.outstandingLimit ∧
      tag ∉ (s.port n).tags := by
  unfold State.admission at h
  split at h
  · cases h
  · dsimp only at h
    split at h
    · next r hr =>
      subst h
      unfold portStateRefusal at hr
      split at hr <;> simp at hr
    · next hr =>
      split at h
      · cases h
      · next hlen =>
        split at h
        · cases h
        · next htag => exact ⟨hr, by omega, htag⟩

@[simp] theorem PortControl.accept_portState (c : PortControl) (rq : Request) : (c.accept rq).portState = c.portState := by
  unfold PortControl.accept; split; · split <;> rfl
  · rfl

@[simp] theorem PortControl.accept_tags (c : PortControl) (rq : Request) : (c.accept rq).tags = c.tags ++ [rq.tag] := by
  unfold PortControl.accept; split; · split <;> rfl
  · rfl

@[simp] theorem PortControl.accept_requestQueue (c : PortControl) (rq : Request) :
    (c.accept rq).requestQueue = c.requestQueue ++ [rq] := by
  unfold PortControl.accept; split; · split <;> rfl
  · rfl

@[simp] theorem PortControl.accept_replyQueue (c : PortControl) (rq : Request) :
    (c.accept rq).replyQueue = c.replyQueue := by
  unfold PortControl.accept; split; · split <;> rfl
  · rfl

@[simp] theorem PortControl.accept_eventQueue (c : PortControl) (rq : Request) :
    (c.accept rq).eventQueue = c.eventQueue := by
  unfold PortControl.accept; split; · split <;> rfl
  · rfl

@[simp] theorem PortControl.accept_seqCounter (c : PortControl) (rq : Request) :
    (c.accept rq).seqCounter = c.seqCounter := by
  unfold PortControl.accept; split; · split <;> rfl
  · rfl

@[simp] theorem PortControl.accept_credits (c : PortControl) (rq : Request) : (c.accept rq).credits = c.credits := by
  unfold PortControl.accept; split; · split <;> rfl
  · rfl

@[simp] theorem PortControl.accept_linkDown (c : PortControl) (rq : Request) : (c.accept rq).linkDown = c.linkDown := by
  unfold PortControl.accept; split; · split <;> rfl
  · rfl

@[simp] theorem PortControl.accept_session (c : PortControl) (rq : Request) : (c.accept rq).session = c.session := by
  unfold PortControl.accept; split; · split <;> rfl
  · rfl

/-- An accepted request fits the queue that its port's state allows (R123, R128). -/
theorem queueFits.accept {c : PortControl} {rq : Request} (h : queueFits c) (hr : portStateRefusal c rq.op = none) :
    queueFits (c.accept rq) := by
  unfold queueFits at h ⊢
  rw [PortControl.accept_portState, PortControl.accept_requestQueue]
  cases hs : c.portState with
  | down => unfold portStateRefusal at hr; simp [hs] at hr
  | opened =>
    rw [hs] at h
    intro x hx
    rcases List.mem_append.1 hx with hx | hx
    · exact h x hx
    · obtain rfl := List.mem_singleton.1 hx
      cases ho : x.op <;> simp [portStateRefusal, hs, ho, RequestOp.code] at hr ⊢
  | closing =>
    rw [hs] at h
    intro x hx
    rcases List.mem_append.1 hx with hx | hx
    · exact h x hx
    · obtain rfl := List.mem_singleton.1 hx
      cases ho : x.op <;> simp [portStateRefusal, hs, ho] at hr ⊢
  | attached =>
    rw [hs] at h
    dsimp only at h ⊢
    cases hd : c.detachPending with
    | true =>
      have hstatus : rq.op = .status := by
        cases ho : rq.op <;> simp [portStateRefusal, hs, ho, hd] at hr ⊢
      have hkeep : (c.accept rq).detachPending = true := by simp [PortControl.accept, hd]
      rw [hd] at h
      obtain ⟨before, tag, after, hq, hbefore, hafter⟩ := h
      rw [hkeep, if_pos rfl]
      refine ⟨before, tag, after ++ [rq], by simp [hq], hbefore, fun x hx => ?_⟩
      rcases List.mem_append.1 hx with hx | hx
      · exact hafter x hx
      · exact (List.mem_singleton.1 hx) ▸ hstatus
    | false =>
      rw [hd] at h
      by_cases hdet : rq.op = .detach
      · have hmark : (c.accept rq).detachPending = true := by simp [PortControl.accept, hs, hd, hdet]
        rw [hmark, if_pos rfl]
        exact ⟨c.requestQueue, rq.tag, [], by rw [← hdet], h, by simp⟩
      · have hkeep : (c.accept rq).detachPending = false := by simp [PortControl.accept, hs, hd, hdet]
        rw [hkeep, if_neg Bool.false_ne_true]
        intro x hx
        rcases List.mem_append.1 hx with hx | hx
        · exact h x hx
        · exact (List.mem_singleton.1 hx) ▸ hdet

theorem portFits.accept {c : PortControl} {rq : Request} (h : portFits c true) (hr : portStateRefusal c rq.op = none) :
    portFits (c.accept rq) true where
  line := by simpa only [PortControl.accept_portState, PortControl.accept_linkDown] using h.line
  detachPending := fun hd => by
    rw [PortControl.accept_portState]
    unfold PortControl.accept at hd
    split at hd
    · next hs => exact hs.1
    · exact h.detachPending hd
  leaseTimer := fun m hm => by
    rw [PortControl.accept_portState]
    unfold PortControl.accept at hm ⊢
    split at hm
    · next hs =>
      split at hm
      · cases hm
      · next hdet =>
        rw [if_pos hs, if_neg hdet]
        simp only [leaseStart, Option.ite_none_left_eq_some, Option.some.injEq] at hm
        exact ⟨hs.1, hs.2, by omega⟩
    · next hs => rw [if_neg hs]; exact h.leaseTimer m hm
  eventsOnlyAttached := fun hne => by
    simpa only [PortControl.accept_eventQueue, PortControl.accept_credits] using
      h.eventsOnlyAttached (by simpa using hne)
  queue := h.queue.accept hr
  needsLine := fun hb => by cases hb
  sessionRange := by simpa only [PortControl.accept_session] using h.sessionRange

/-- An ACCEPTED request joins its port's queue with its tag (R159, R160). -/
theorem State.Laws.accept (h : s.Laws) {tag : Tag} {op : RequestOp} (hl : s.listens n = true)
    (ha : s.admission n tag (some op) = .accepted) : (s.setPort n ((s.port n).accept ⟨tag, op⟩)).Laws := by
  obtain ⟨hr, hlen, htag⟩ := State.admission_accepted ha
  simp only [State.listens, Bool.and_eq_true, Bool.not_eq_true'] at hl
  have hfits := h.sessions.fits n
  rw [hl.2] at hfits
  refine h.of_sound (h.sound.setPort (by simp [State.portState]) ?_ ((h.queues.events n).congr (by simp) (by simp) (by simp))
    (fun hd => absurd (hl.1.symm.trans hd) (by simp))) (h.outstanding.setPort_tags ?_ ?_ fun a => ?_)
  · rw [hl.2]; exact hfits.accept hr
  · simpa using hlen
  · rw [PortControl.accept_tags]
    exact List.nodup_append_comm.1 (by simpa using ⟨htag, h.outstanding.tagsDiffer n⟩)
  · simp only [PortControl.accept_tags, PortControl.accept_requestQueue, PortControl.accept_replyQueue, List.map_append,
      List.count_append, State.queueTags, State.replyTags, List.map_singleton]
    omega

/-- A frame at the Port Controller keeps the laws. -/
theorem State.Laws.admitFrame (h : s.Laws) (hl : s.listens n = true) (code tagByte : Byte) (operands : List Byte) :
    (s.admitFrame n code tagByte operands).Laws := by
  unfold State.admitFrame
  dsimp only
  have hack : ∀ a, (s.setLink n ((s.link n).toHunt.acknowledge a)).Laws := fun a =>
    h.setLink (by simp [PortLink.toHunt]) (by simp [PortLink.toHunt]) ((h.queues.links n).toHunt.acknowledge a)
  split
  · next hacc =>
    split
    · next op hop =>
      rw [hop] at hacc ⊢
      have hlaws := h.accept hl hacc.2
      exact hlaws.setLink (l := (s.link n).toHunt.acknowledge _) (by simp [PortLink.toHunt]) (by simp [PortLink.toHunt])
        ((h.queues.links n).toHunt.acknowledge _)
    · exact hack _
  · exact hack _

theorem execFrameComplete_keeps (h : s.Laws) : EndsInLaws (execFrameComplete n b s) := by
  refine endsInLaws_next ?_
  split
  · next hl =>
    split
    · unfold State.frameEnds
      split
      · split
        · split
          · exact h.linkFault n _
          · exact h.admitFrame hl _ _ _
        · exact h.linkFault n _
      · exact h.linkFault n _
    all_goals exact h
  · exact h

/-! ## The transmit scheduler (R149, R158, R160, R162, R163) -/

theorem State.canSend_iff : s.canSend n = true ↔ s.held = false ∧ (s.link n).lineHigh = true ∧ (s.link n).line = none ∧
    (s.link n).bits.sent = 0 := by
  simp [State.canSend, PortLink.atBoundary, and_assoc]

/-- A frame that begins at a byte boundary keeps the law of its link. -/
theorem linkFits.startFrame (h : linkFits l) (hs : l.bits.sent = 0) (body : List Byte) {a : List Ack} {d : Bool}
    (ha : a.length ≤ l.ackBuffer.length) :
    linkFits { l with ackBuffer := a, framesDropped := d, line := some (frameBytes body) } where
  acks := le_trans ha h.acks
  framing := h.framing
  taken := h.taken
  sent := by simp [PortLink.span, hs, frameBytes]
  noBitsInReset := h.noBitsInReset

theorem State.Laws.sendAck (h : s.Laws) (hs : s.canSend n = true) : (s.sendAck n).Laws := by
  obtain ⟨-, -, -, hsent⟩ := State.canSend_iff.1 hs
  unfold State.sendAck
  split
  · exact h
  · next a rest hq => exact h.setLink rfl rfl ((h.queues.links n).startFrame hsent _ (by simp [hq]))

/-- The head reply leaves its queue, and its tag is free (R160). -/
theorem State.Laws.popReply (h : s.Laws) {r : Reply} {rest : List Reply} (hline : (s.link n).lineHigh = true)
    (hq : (s.port n).replyQueue = r :: rest) :
    (s.setPort n { s.port n with replyQueue := rest, tags := (s.port n).tags.erase r.tag }).Laws := by
  have hfits := h.sessions.fits n
  refine h.of_sound (h.sound.setPort rfl ⟨hfits.line, hfits.detachPending, hfits.leaseTimer, hfits.eventsOnlyAttached,
      hfits.queue.congr, fun hb => absurd (hline.symm.trans hb) (by simp), hfits.sessionRange⟩
      (h.queues.events n).congr (fun hd => h.sound.requestQueue_of_held hd n))
    (h.outstanding.setPort_tags ?_ ((h.outstanding.tagsDiffer n).erase _) fun a => ?_)
  · exact le_trans List.length_erase_le (h.outstanding.atMostEight n)
  · have hmem : r.tag ∈ (s.port n).tags :=
      (h.outstanding.onePlaceEach n).mem_iff.2 (by simp [State.outstandingPlaces, hq])
    have hcount := List.count_cons (a := a) (b := r.tag) (l := (s.port n).tags.erase r.tag)
    rw [← (List.perm_cons_erase hmem).count_eq] at hcount
    simp only [State.queueTags, State.replyTags, hq, List.map_cons, List.count_cons]
    omega

theorem State.Laws.sendReply (h : s.Laws) (hs : s.canSend n = true) : (s.sendReply n).Laws := by
  obtain ⟨-, hline, -, hsent⟩ := State.canSend_iff.1 hs
  unfold State.sendReply
  split
  · exact h
  · next r rest hq =>
    exact (h.popReply hline hq).setLink rfl rfl ((h.queues.links n).startFrame hsent _ (le_refl _))

theorem State.Laws.sendEvent (h : s.Laws) (hs : s.canSend n = true) : (s.sendEvent n).Laws := by
  obtain ⟨-, hline, -, hsent⟩ := State.canSend_iff.1 hs
  unfold State.sendEvent
  split
  · exact h
  · next r rest hq =>
    have hfits := h.sessions.fits n
    have hatt : (s.port n).portState = .attached := by
      by_contra hne
      simp [(hfits.eventsOnlyAttached hne).1] at hq
    have hpop : (s.setPort n { s.port n with eventQueue := rest, credits := (s.port n).credits - 1 }).Laws :=
      h.of_sound (h.sound.setPort rfl ⟨hfits.line, hfits.detachPending, hfits.leaseTimer, fun hne => absurd hatt hne,
          hfits.queue.congr, hfits.needsLine, hfits.sessionRange⟩
          ((h.queues.events n).tail hq (Nat.sub_le _ _)) (fun hd => h.sound.requestQueue_of_held hd n))
        (h.outstanding.setPort rfl rfl rfl)
    exact hpop.setLink rfl rfl ((h.queues.links n).startFrame hsent _ (le_refl _))

theorem execAckFrame_keeps (h : s.Laws) : EndsInLaws (execAckFrame n s) := by
  refine endsInLaws_next ?_
  split
  · next hs => exact h.sendAck hs
  · exact h

theorem execReplyFrame_keeps (h : s.Laws) : EndsInLaws (execReplyFrame n s) := by
  refine endsInLaws_next ?_
  split
  · next hs => exact h.sendReply hs.1
  · exact h

theorem execEventFrame_keeps (h : s.Laws) : EndsInLaws (execEventFrame n s) := by
  refine endsInLaws_next ?_
  split
  · next hs => exact h.sendEvent hs.1
  · exact h

end Sys2Proof.Machine
end

