-- ==== Sys2Proof/Proofs/SessionCommands.lean ====
section
/-! SUPPORT. The commands that need no store cycle and end no session keep the laws: ATTACH, STATUS, CREDIT, SET_EVENTS,
PORT_RESET_HIGH, TICK, WAIT_EXPIRY (R122, R124 to R127, R150, R151, R171). -/

namespace Sys2Proof.Machine

variable {s t : State} {n p : Port} {c : PortControl} {rq : Request}

/-! ## A port that changes its state, neither closing nor losing a session -/

/-- A change of one port's controller and link by which the port neither enters nor leaves CLOSING, nor leaves
ATTACHED. -/
theorem State.Sound.setPortLink (h : s.Sound) {l : PortLink}
    (hclosing : c.portState = .closing ↔ s.portState n = .closing)
    (hattached : s.portState n = .attached → c.portState = .attached)
    (hquiet : c.portState = .opened ∨ c.portState = .down → s.portState n = .opened ∨ s.portState n = .down)
    (hfits : portFits c l.lineHigh) (hevents : eventsFit c) (hlink : linkFits l)
    (hheld : s.held = true → c.requestQueue = [] ∧ c.portState ≠ .attached ∧ l.bits = .start) :
    ((s.setPort n c).setLink n l).Sound := by
  have hport : ∀ p, ((s.setPort n c).setLink n l).port p = if p = n then c else s.port p :=
    fun p => PerPort.get_set s.ports n p c
  have hstate : ∀ p, ((s.setPort n c).setLink n l).portState p = if p = n then c.portState else s.portState p := by
    intro p
    unfold State.portState
    rw [hport]
    split <;> rfl
  have hl : ∀ p, ((s.setPort n c).setLink n l).link p = if p = n then l else s.link p :=
    fun p => PerPort.get_set s.links n p l
  refine ⟨h.servesInReady, fun r hr => by simpa using h.grantsPending r hr, h.grantedLast, h.heldInInit, h.executors.congr,
    h.tables.congr, h.directory.congr, ?_, ?_, ?_, h.token.congr, h.chains.congr, ⟨fun p => ?_, fun p => ?_, fun hd p => ?_⟩⟩
  · refine ⟨fun p => ?_, fun p => ?_, h.sessions.sweptOnce, fun p hs ha => ?_, h.sessions.abandonedLost, fun hd => ?_⟩
    · rw [hport, hl]
      split
      · exact hfits
      · exact h.sessions.fits p
    · show _ ↔ ∃ r ∈ s.sweeps, r.port = p
      rw [← h.sessions.closingSwept p, hstate]
      split
      · next hp => rw [hp]; exact hclosing
      · rfl
    · have hold := h.sessions.executingAttached p hs ha
      rw [hstate]
      split
      · next hp => exact hattached (hp ▸ hold)
      · exact hold
    · obtain ⟨hsw, hw, hq⟩ := h.sessions.heldEmpty hd
      refine ⟨hsw, hw, fun p => ?_⟩
      rw [hport, hstate]
      split
      · exact ⟨(hheld hd).1, (hheld hd).2.1⟩
      · exact hq p
  · refine ⟨h.sweeps.runningPass, h.sweeps.onlyInReady, fun p hp => ?_⟩
    rw [hstate] at hp
    split at hp
    · next hpn => exact hpn ▸ h.sweeps.closedOwnsNothing n (hquiet hp)
    · exact h.sweeps.closedOwnsNothing p hp
  · refine ⟨h.waits.terminalEmpty, fun w hw => ?_, h.waits.places, h.waits.onlyInReady⟩
    have hold := h.waits.portAttached w hw
    rw [hstate]
    split
    · next hp => exact hattached (hp ▸ hold)
    · exact hold
  · rw [hport]
    split
    · exact hevents
    · exact h.queues.events p
  · rw [hl]
    split
    · exact hlink
    · exact h.queues.links p
  · rw [hl]
    split
    · exact (hheld hd).2.2
    · exact h.queues.noBitsWhileHeld hd p

theorem State.setLink_self (s : State) (n : Port) : s.setLink n (s.link n) = s := by
  unfold State.setLink State.link
  rw [PerPort.set_get_self]

theorem State.setPort_self (s : State) (n : Port) : s.setPort n (s.port n) = s := by
  unfold State.setPort State.port
  rw [PerPort.set_get_self]

/-! ## The head request of a port -/

/-- Every request but an ATTACH or a STATUS stands in the queue of an ATTACHED port (R123). -/
theorem queueFits.attached (h : queueFits c) (hq : rq ∈ c.requestQueue) (hs : rq.op ≠ .status)
    (ha : rq.op.code ≠ 0x01#8) : c.portState = .attached := by
  unfold queueFits at h
  cases hp : c.portState with
  | attached => rfl
  | down => rw [hp] at h; dsimp only at h; simp [h] at hq
  | opened =>
    rw [hp] at h
    rcases h rq hq with h' | h'
    · exact absurd h' ha
    · exact absurd h' hs
  | closing => rw [hp] at h; exact absurd (h rq hq) hs

/-- A queue keeps fitting its port's state when its head, not the DETACH that the mark waits for, leaves it. -/
theorem queueFits.tail (h : queueFits c) {rest : List Request} (hq : c.requestQueue = rq :: rest)
    (hne : rq.op ≠ .detach) : queueFits { c with requestQueue := rest } := by
  unfold queueFits at h ⊢
  dsimp only
  cases hp : c.portState with
  | down => rw [hp] at h; dsimp only at h; simp [h] at hq
  | opened => rw [hp, hq] at h; exact fun x hx => h x (List.mem_cons_of_mem _ hx)
  | closing => rw [hp, hq] at h; exact fun x hx => h x (List.mem_cons_of_mem _ hx)
  | attached =>
    rw [hp, hq] at h
    dsimp only at h ⊢
    cases hd : c.detachPending with
    | false => rw [hd] at h; exact fun x hx => h x (List.mem_cons_of_mem _ hx)
    | true =>
      rw [hd] at h
      obtain ⟨before, tag, after, hqq, hbefore, hafter⟩ := h
      cases before with
      | nil =>
        rw [List.nil_append, List.cons.injEq] at hqq
        exact absurd (congrArg Request.op hqq.1) hne
      | cons x xs =>
        rw [List.cons_append, List.cons.injEq] at hqq
        exact ⟨xs, tag, after, hqq.2, fun y hy => hbefore y (List.mem_cons_of_mem _ hy), hafter⟩

/-- The head request: its port's line is high, the part is out of reset, the executor is IDLE. -/
theorem State.Sound.head_request (h : s.Sound) (hn : s.nextRequest n = some rq) :
    (s.executor n).state = .idle ∧ (∃ rest, (s.port n).requestQueue = rq :: rest) ∧ (s.link n).lineHigh = true ∧
      s.held = false := by
  obtain ⟨hidle, hhead⟩ := (State.nextRequest_eq_some s n rq).1 hn
  obtain ⟨rest, hq⟩ : ∃ rest, (s.port n).requestQueue = rq :: rest := by
    cases hq : (s.port n).requestQueue with
    | nil => rw [hq] at hhead; cases hhead
    | cons x xs => rw [hq] at hhead; cases hhead; exact ⟨xs, rfl⟩
  refine ⟨hidle, ⟨rest, hq⟩, ?_, ?_⟩
  · by_contra hlow
    have := ((h.sessions.fits n).needsLine (by simpa using hlow)).1
    rw [hq] at this
    cases this
  · by_contra hheld
    have := h.requestQueue_of_held (by simpa using hheld) n
    rw [hq] at this
    cases this

theorem State.Sound.request_attached (h : s.Sound) (hn : s.nextRequest n = some rq) (hs : rq.op ≠ .status)
    (ha : rq.op.code ≠ 0x01#8) : s.portState n = .attached := by
  obtain ⟨-, ⟨rest, hq⟩, -, -⟩ := h.head_request hn
  exact (h.sessions.fits n).queue.attached (by rw [hq]; simp) hs ha

@[simp] theorem State.dequeue_portState (s : State) (n p : Port) : (s.dequeue n).portState p = s.portState p := by
  unfold State.dequeue State.portState
  rw [State.port_setPort]
  split
  · next hp => rw [hp]
  · rfl

theorem State.dequeue_port_self (s : State) (n : Port) :
    (s.dequeue n).port n = { s.port n with requestQueue := (s.port n).requestQueue.tail } :=
  State.port_setPort_self s n _

/-- The head request leaves its queue. -/
theorem State.Sound.dequeue (h : s.Sound) (hn : s.nextRequest n = some rq) (hne : rq.op ≠ .detach) :
    (s.dequeue n).Sound := by
  obtain ⟨-, ⟨rest, hq⟩, hline, hheld⟩ := h.head_request hn
  have hfits := h.sessions.fits n
  refine h.setPort rfl ⟨hfits.line, hfits.detachPending, hfits.leaseTimer, hfits.eventsOnlyAttached, ?_,
    fun hb => absurd (hline.symm.trans hb) (by simp), hfits.sessionRange⟩ (h.queues.events n).congr
    (fun hd => absurd (hheld.symm.trans hd) (by simp))
  rw [hq]
  exact hfits.queue.tail hq hne

/-- The tag of the head request stands in its queue until it is taken. -/
theorem State.count_queueTags_dequeue (hn : s.nextRequest n = some rq) (p : Port) (a : Tag) :
    (s.queueTags p).count a = ((s.dequeue n).queueTags p).count a + if p = n then [rq.tag].count a else 0 := by
  obtain ⟨-, hhead⟩ := (State.nextRequest_eq_some s n rq).1 hn
  by_cases hp : p = n
  · subst hp
    unfold State.queueTags
    rw [State.dequeue_port_self, if_pos rfl]
    cases hq : (s.port p).requestQueue with
    | nil => rw [hq] at hhead; cases hhead
    | cons x xs =>
      rw [hq] at hhead
      cases hhead
      simp [List.count_cons]
  · unfold State.queueTags State.dequeue
    rw [State.port_setPort_of_ne s _ hp, if_neg hp, Nat.add_zero]

@[simp] theorem State.dequeue_replyTags (s : State) (n p : Port) : (s.dequeue n).replyTags p = s.replyTags p := by
  unfold State.replyTags State.dequeue
  rw [State.port_setPort]
  split
  · next hp => rw [hp]
  · rfl

@[simp] theorem State.dequeue_tags (s : State) (n p : Port) : ((s.dequeue n).port p).tags = (s.port p).tags := by
  unfold State.dequeue
  rw [State.port_setPort]
  split
  · next hp => rw [hp]
  · rfl

/-- The outstanding requests after the head request is taken and answered, with nothing else moved. -/
theorem State.OutstandingLaw.answered (h : s.OutstandingLaw) (hn : s.nextRequest n = some rq)
    (htags : ∀ p, (t.port p).tags = (s.port p).tags) (hqueue : ∀ p, t.queueTags p = (s.dequeue n).queueTags p)
    (hreply : ∀ p, t.replyTags p = s.replyTags p ++ if p = n then [rq.tag] else [])
    (hx : t.execs = s.execs := by rfl) (hw : t.waits = s.waits := by rfl) (hr : t.sweeps = s.sweeps := by rfl) :
    t.OutstandingLaw :=
  h.of_count htags fun p a => by
    rw [hqueue, hreply, hw, hr, State.executor_congr hx, State.count_queueTags_dequeue hn, List.count_append]
    by_cases hp : p = n
    · simp [hp]; omega
    · simp [hp]

/-- The head request, not a DETACH, is answered at once (R161). -/
theorem State.Laws.answer (h : s.Laws) (hn : s.nextRequest n = some rq) (hne : rq.op ≠ .detach) {r : Reply}
    (hr : r.tag = rq.tag) : (s.answer n r).Laws := by
  obtain ⟨-, -, hline, -⟩ := h.sound.head_request hn
  have hsound : (s.answer n r).Sound := (h.sound.dequeue hn hne).postReply hline r
  refine h.of_sound hsound (h.outstanding.answered hn (by simp [State.answer]) (by simp [State.answer]) fun p => ?_)
    (by simp [State.answer, State.dequeue]) rfl rfl rfl
  simp [State.answer, State.postReply_replyTags, hr]

theorem State.Laws.examine (h : s.Laws) (hn : s.nextRequest n = some rq) (hne : rq.op ≠ .detach) {u : State}
    (hok : rq.op.operandsOk = true → u.Laws) : (s.examine n rq u).Laws := by
  unfold State.examine
  split
  · next ho => exact hok ho
  · exact h.answer hn hne rfl

theorem State.Laws.ifMaintenance (h : s.Laws) (hn : s.nextRequest n = some rq) (hne : rq.op ≠ .detach) {u : State}
    (hok : u.Laws) : (s.ifMaintenance n rq u).Laws := by
  unfold State.ifMaintenance
  split
  · exact hok
  · exact h.answer hn hne rfl

/-! ## STATUS, CREDIT, SET_EVENTS, ATTACH -/

theorem execStatus_keeps (h : s.Laws) : EndsInLaws (execStatus n s) := by
  refine endsInLaws_next ?_
  split
  · next rq hn =>
    split
    · next ho => exact h.answer hn (by simp [ho]) rfl
    · exact h
  · exact h

/-- A taken request whose answer comes with a change of its port's settings. -/
theorem State.Laws.answerWith (h : s.Laws) (hn : s.nextRequest n = some rq) (hne : rq.op ≠ .detach) {r : Reply}
    (hr : r.tag = rq.tag) (hstate : c.portState = ((s.dequeue n).port n).portState)
    (hfits : portFits ((s.dequeue n).port n) (s.link n).lineHigh → portFits c (s.link n).lineHigh)
    (hevents : eventsFit ((s.dequeue n).port n) → eventsFit c)
    (hqueue : c.requestQueue = ((s.dequeue n).port n).requestQueue)
    (hreplies : c.replyQueue = ((s.dequeue n).port n).replyQueue)
    (htags : c.tags = ((s.dequeue n).port n).tags) :
    (((s.dequeue n).setPort n c).postReply n r).Laws := by
  obtain ⟨-, -, hline, hheld⟩ := h.sound.head_request hn
  have hdeq := h.sound.dequeue hn hne
  have hset : ((s.dequeue n).setPort n c).Sound :=
    hdeq.setPort hstate (hfits (hdeq.sessions.fits n)) (hevents (hdeq.queues.events n))
      (fun hd => absurd (hheld.symm.trans hd) (by simp))
  refine h.of_sound (hset.postReply hline r) (h.outstanding.answered hn (fun p => ?_) (fun p => ?_) (fun p => ?_))
    (by simp [State.dequeue]) rfl rfl rfl
  · rw [State.postReply_tags, State.port_setPort, ← State.dequeue_tags s n p]
    split
    · next hp => rw [hp, htags]
    · rfl
  · rw [State.postReply_queueTags]
    unfold State.queueTags
    rw [State.port_setPort]
    split
    · next hp => rw [hp, hqueue]
    · rfl
  · rw [State.postReply_replyTags, hr, ← State.dequeue_replyTags s n p]
    congr 1
    unfold State.replyTags
    rw [State.port_setPort]
    split
    · next hp => rw [hp, hreplies]
    · rfl

theorem execCredit_keeps (h : s.Laws) : EndsInLaws (execCredit n s) := by
  refine endsInLaws_next ?_
  split
  · next rq hn =>
    split
    · next k ho =>
      refine h.examine hn (by simp [ho]) fun _ => ?_
      have hatt : (s.port n).portState = .attached :=
        h.sound.request_attached hn (by simp [ho]) (by simp [ho, RequestOp.code])
      refine h.answerWith hn (by simp [ho]) rfl rfl (fun hf => ?_) (fun he => ?_) rfl rfl rfl
      · exact ⟨hf.line, hf.detachPending, hf.leaseTimer,
          fun hne => absurd ((State.dequeue_portState s n n).trans hatt) hne, hf.queue.congr, hf.needsLine,
          hf.sessionRange⟩
      · exact ⟨he.places, he.fullOverflows, he.numbered, Nat.min_le_right _ _⟩
    · exact h
  · exact h

theorem execSetEvents_keeps (h : s.Laws) : EndsInLaws (execSetEvents n s) := by
  refine endsInLaws_next ?_
  split
  · next rq hn =>
    split
    · next m f ho =>
      refine h.examine hn (by simp [ho]) fun _ => ?_
      split
      · refine h.answerWith hn (by simp [ho]) rfl rfl (fun hf => ?_) (fun he => he.congr) rfl rfl rfl
        exact ⟨hf.line, hf.detachPending, hf.leaseTimer, hf.eventsOnlyAttached, hf.queue.congr, hf.needsLine,
          hf.sessionRange⟩
      · exact h
    · exact h
  · exact h

/-- The controller of a port in OPEN that is attached (R124). -/
theorem portFits.attach (h : portFits c true) (ho : c.portState = .opened) (lease : Nat) (m : EventMask) (f : Bool) :
    portFits (c.attach lease m f) true where
  line := rfl
  detachPending := fun hd => by cases hd
  leaseTimer := fun k hk => by
    simp only [PortControl.attach, leaseStart, Option.ite_none_left_eq_some, Option.some.injEq] at hk
    exact ⟨rfl, rfl, by omega⟩
  eventsOnlyAttached := fun hne => absurd rfl hne
  queue := by
    have hq := h.queue
    unfold queueFits at hq ⊢
    rw [ho] at hq
    intro rq hrq hdet
    rcases hq rq hrq with hc | hc <;> simp [hdet, RequestOp.code] at hc
  needsLine := fun hb => by cases hb
  sessionRange := by
    have := h.sessionRange
    show nextSession c.session ≤ 255
    unfold nextSession
    split <;> omega

theorem State.Laws.attachAct (h : s.Laws) (hn : s.nextRequest n = some rq) (hne : rq.op ≠ .detach)
    (ho : s.portState n = .opened) (lease : Nat) (m : EventMask) (f : Bool) : (s.attachAct n rq lease m f).Laws := by
  obtain ⟨-, -, hline, hheld⟩ := h.sound.head_request hn
  have hdeq := h.sound.dequeue hn hne
  have hop : ((s.dequeue n).port n).portState = .opened := (State.dequeue_portState s n n).trans ho
  have hfits := hdeq.sessions.fits n
  rw [show ((s.dequeue n).link n).lineHigh = true from hline] at hfits
  have hset : ((s.dequeue n).setPort n (((s.dequeue n).port n).attach lease m f)).Sound := by
    rw [← State.setLink_self ((s.dequeue n).setPort n _) n]
    refine hdeq.setPortLink ?_ ?_ ?_ ?_ (eventsFit_of_nil rfl (Nat.zero_le _)) (h.queues.links n)
      (fun hd => absurd (hheld.symm.trans hd) (by simp))
    · simp [PortControl.attach, ho]
    · exact fun _ => rfl
    · rintro (hx | hx) <;> cases hx
    · rw [show (((s.dequeue n).setPort n (((s.dequeue n).port n).attach lease m f)).link n).lineHigh = true from hline]
      exact hfits.attach hop lease m f
  have hport : ∀ p, ((s.dequeue n).setPort n (((s.dequeue n).port n).attach lease m f)).port p =
      if p = n then ((s.dequeue n).port n).attach lease m f else (s.dequeue n).port p := fun p => State.port_setPort _ n p _
  have hqueue : ∀ p, ((s.dequeue n).setPort n (((s.dequeue n).port n).attach lease m f)).queueTags p
      = (s.dequeue n).queueTags p := fun p => by
    unfold State.queueTags
    rw [hport]
    split
    · next hp => rw [hp]; rfl
    · rfl
  have hreply : ∀ p, ((s.dequeue n).setPort n (((s.dequeue n).port n).attach lease m f)).replyTags p
      = s.replyTags p := fun p => by
    rw [← State.dequeue_replyTags s n p]
    unfold State.replyTags
    rw [hport]
    split
    · next hp => rw [hp]; rfl
    · rfl
  have htags : ∀ p, (((s.dequeue n).setPort n (((s.dequeue n).port n).attach lease m f)).port p).tags
      = (s.port p).tags := fun p => by
    rw [← State.dequeue_tags s n p, hport]
    split
    · next hp => rw [hp]; rfl
    · rfl
  unfold State.attachAct State.postNotice
  dsimp only
  generalize hu : (s.dequeue n).setPort n (((s.dequeue n).port n).attach lease m f) = u at hset hqueue hreply htags
  have hexecs : u.execs = s.execs := hu ▸ rfl
  have hframe : u.device = s.device ∧ u.inProgress = s.inProgress ∧ u.clearDue = s.clearDue ∧
      u.sweepVisit = s.sweepVisit ∧ u.waits = s.waits ∧ u.sweeps = s.sweeps := hu ▸ ⟨rfl, rfl, rfl, rfl, rfl, rfl⟩
  obtain ⟨hdevice, hprogress, hclear, hvisit, hwaits, hsweeps⟩ := hframe
  have hlink : (u.link n).lineHigh = true := hu ▸ hline
  exact h.of_sound ((hset.postReply hlink _).postEvent _ _)
    (h.outstanding.answered hn (fun p => by rw [State.postEvent_tags, State.postReply_tags, htags]) (by simp [hqueue])
      (by simp [hreply, State.postReply_replyTags, bareReply]) (by simpa) (by simpa) (by simpa))
    (fun r => by simp [State.hasCycle_congr hexecs hvisit]) (by simpa) (by simpa) (by simpa)

theorem execAttach_keeps (h : s.Laws) : EndsInLaws (execAttach n s) := by
  refine endsInLaws_next ?_
  split
  · next rq hn =>
    split
    · next lease m f ho =>
      refine h.examine hn (by simp [ho]) fun _ => ?_
      split
      · next hopen _ _ => exact h.attachAct hn (by simp [ho]) hopen _ _ _
      · exact h.answer hn (by simp [ho]) rfl
      · exact h
    · exact h
  · exact h

/-! ## PORT_RESET_HIGH (R122, R164) -/

theorem execPortResetHigh_keeps (h : s.Laws) : EndsInLaws (execPortResetHigh n s) := by
  refine endsInLaws_next ?_
  split
  · exact h
  · next hlow =>
    have hlow : (s.link n).lineHigh = false := by simpa using hlow
    have hfits := h.sessions.fits n
    rw [hlow] at hfits
    obtain ⟨hq, hr, ht⟩ := hfits.needsLine rfl
    have hlink : linkFits { s.link n with lineHigh := true, framer := .hunt } := by
      have hl := h.queues.links n
      exact ⟨hl.acks, trivial, hl.taken, hl.sent, fun hx => by cases hx⟩
    have hline := hfits.line
    unfold State.lineRises
    dsimp only
    have hkeep : ∀ c : PortControl, c.tags = (s.port n).tags → c.requestQueue = (s.port n).requestQueue →
        c.replyQueue = (s.port n).replyQueue → ((s.setLink n { s.link n with lineHigh := true, framer := .hunt }).setPort
          n c).Sound → ((s.setLink n { s.link n with lineHigh := true, framer := .hunt }).setPort n c).Laws :=
      fun c h1 h2 h3 hs => h.of_sound hs
        ((h.outstanding.congr : (s.setLink n { s.link n with lineHigh := true, framer := .hunt }).OutstandingLaw).setPort
          h1 h2 h3)
    split
    · next hp =>
      have hp : (s.port n).portState = .down := hp
      refine hkeep _ rfl rfl rfl ?_
      refine h.sound.setPortLink (l := { s.link n with lineHigh := true, framer := .hunt }) ?_ ?_ ?_ ?_ ?_ hlink ?_
      · simp [State.portState, hp]
      · simp [State.portState, hp]
      · exact fun _ => .inr hp
      · exact ⟨rfl, fun hd => absurd (hfits.detachPending hd) (by simp [hp]),
          fun k hk => absurd (hfits.leaseTimer k hk).1 (by simp [hp]), fun _ => hfits.eventsOnlyAttached (by simp [hp]),
          fun rq hrq => (by simp [hq] at hrq), nofun, hfits.sessionRange⟩
      · exact (h.queues.events n).congr
      · exact fun hd => ⟨hq, by simp, h.queues.noBitsWhileHeld hd n⟩
    · next hp =>
      have hp : (s.port n).portState = .closing := hp
      refine hkeep _ rfl rfl rfl ?_
      refine h.sound.setPortLink (l := { s.link n with lineHigh := true, framer := .hunt }) ?_ ?_ ?_ ?_ ?_ hlink ?_
      · simp [State.portState]
      · exact id
      · exact id
      · exact ⟨by simp [hp], hfits.detachPending, hfits.leaseTimer, hfits.eventsOnlyAttached, hfits.queue.congr,
          nofun, hfits.sessionRange⟩
      · exact (h.queues.events n).congr
      · exact fun hd => ⟨hq, by simp [hp], h.queues.noBitsWhileHeld hd n⟩
    · next hp =>
      have hp : (s.port n).portState = .opened := hp
      rw [hp] at hline
      cases hline
    · next hp =>
      have hp : (s.port n).portState = .attached := hp
      rw [hp] at hline
      cases hline

/-! ## The Time Base (R126, R127) -/

/-- A tick at a lease timer changes that timer and its due ticks alone. -/
theorem PortControl.tickLease_eq (c : PortControl) : ∃ m k, c.tickLease = { c with leaseTimer := m, leaseDue := k } ∧
    ∀ u, m = some u → ∃ v, c.leaseTimer = some v ∧ (1 ≤ v → 1 ≤ u) := by
  unfold PortControl.tickLease
  split
  · exact ⟨c.leaseTimer, 0, rfl, fun u hu => ⟨u, hu, id⟩⟩
  · next v hv =>
    split
    · next hd => exact ⟨some (v - 1), c.leaseDue, rfl, fun u hu => ⟨v, hv, fun _ => by cases hu; omega⟩⟩
    · exact ⟨c.leaseTimer, c.leaseDue + 1, rfl, fun u hu => ⟨u, hu, id⟩⟩

theorem portFits.tickLease {b : Bool} (h : portFits c b) : portFits c.tickLease b := by
  obtain ⟨m, k, he, hm⟩ := c.tickLease_eq
  rw [he]
  exact ⟨h.line, h.detachPending, fun u hu => by
    obtain ⟨v, hv, hle⟩ := hm u hu
    obtain ⟨h1, h2, h3⟩ := h.leaseTimer v hv
    exact ⟨h1, h2, hle h3⟩, h.eventsOnlyAttached, h.queue.congr, h.needsLine, h.sessionRange⟩

theorem linkFits.tickFramer {l : PortLink} (h : linkFits l) : linkFits l.tickFramer := by
  unfold PortLink.tickFramer
  split
  · exact h.toHunt
  · split <;> exact h.congr

@[simp] theorem PortLink.tickFramer_lineHigh (l : PortLink) : l.tickFramer.lineHigh = l.lineHigh := by
  unfold PortLink.tickFramer; split; · rfl
  · split <;> rfl

theorem State.Sound.tickWaits (h : s.Sound) : s.tickWaits.Sound := by
  unfold State.tickWaits
  split
  · exact h.congr rfl
  · split
    · exact h.takeWaitTick
    · exact h.congr rfl

theorem State.OutstandingLaw.tickWaits (h : s.OutstandingLaw) : s.tickWaits.OutstandingLaw := by
  unfold State.tickWaits
  split
  · exact h.congr
  · split
    · exact h.takeWaitTick
    · exact h.congr

/-- Ticks at the Wait Table leave all but waits, due ticks and reply queues. -/
theorem State.tickWaits_frame (s : State) : s.tickWaits =
    { s with waits := s.tickWaits.waits, waitDue := s.tickWaits.waitDue, ports := s.tickWaits.ports } := by
  unfold State.tickWaits
  split
  · rfl
  · split <;> rfl

/-- Ticks at the lease timers keep the laws between acts. -/
theorem State.Sound.tickLeases (h : s.Sound) :
    ({ s with ports := s.ports.mapPorts (fun _ c => c.tickLease) } : State).Sound := by
  have hport : ∀ p, State.port { s with ports := s.ports.mapPorts (fun _ c => c.tickLease) } p = (s.port p).tickLease :=
    fun p => PerPort.get_mapPorts _ _ p
  refine h.withPorts rfl (fun p => ?_) (fun p => ?_) (fun p => ?_) (fun hd p => ?_)
  · unfold State.portState
    rw [hport]
    obtain ⟨m, k, he, -⟩ := (s.port p).tickLease_eq
    rw [he]
  · rw [hport]
    exact (h.sessions.fits p).tickLease
  · rw [hport]
    obtain ⟨m, k, he, -⟩ := (s.port p).tickLease_eq
    rw [he]
    exact (h.queues.events p).congr
  · rw [hport]
    obtain ⟨m, k, he, -⟩ := (s.port p).tickLease_eq
    rw [he]
    exact h.requestQueue_of_held hd p

theorem State.OutstandingLaw.tickLeases (h : s.OutstandingLaw) :
    ({ s with ports := s.ports.mapPorts (fun _ c => c.tickLease) } : State).OutstandingLaw := by
  have hport : ∀ p, State.port { s with ports := s.ports.mapPorts (fun _ c => c.tickLease) } p = (s.port p).tickLease :=
    fun p => PerPort.get_mapPorts _ _ p
  refine h.of_count (fun p => ?_) (fun p a => ?_)
  · rw [hport]
    obtain ⟨m, k, he, -⟩ := (s.port p).tickLease_eq
    rw [he]
  · unfold State.queueTags State.replyTags
    rw [hport]
    obtain ⟨m, k, he, -⟩ := (s.port p).tickLease_eq
    rw [he]
    rfl

/-- Ticks at the framers of a part out of reset keep the laws between acts. -/
theorem State.Sound.tickFramers (h : s.Sound) (hheld : s.held = false) :
    ({ s with links := s.links.mapPorts (fun _ l => l.tickFramer) } : State).Sound := by
  have hlink : ∀ p, State.link { s with links := s.links.mapPorts (fun _ l => l.tickFramer) } p = (s.link p).tickFramer :=
    fun p => PerPort.get_mapPorts _ _ p
  refine ⟨h.servesInReady, h.grantsPending, h.grantedLast, h.heldInInit, h.executors.congr, h.tables.congr,
    h.directory.congr, h.sessions.congr (hl := fun p => ?_), h.sweeps.congr, h.waits.congr, h.token.congr, h.chains.congr,
    ⟨h.queues.events, fun p => ?_, fun hd => absurd (hheld.symm.trans hd) (by simp)⟩⟩
  · rw [hlink]; simp
  · rw [hlink]; exact (h.queues.links p).tickFramer

theorem execTick_keeps (h : s.Laws) : EndsInLaws (execTick s) := by
  refine endsInLaws_next ?_
  split
  · exact h
  · next hheld =>
    have hheld : s.held = false := by simpa using hheld
    have hframe := State.tickWaits_frame s
    have hwaits := h.sound.tickWaits
    have hout := h.outstanding.tickWaits
    generalize s.tickWaits = u at hframe hwaits hout
    refine h.of_sound (hwaits.tickLeases.tickFramers ?_) hout.tickLeases.congr ?_ ?_ ?_ ?_ <;> rw [hframe]
    · exact hheld
    · exact State.hasCycle_congr rfl rfl

theorem execWaitExpiry_keeps (h : s.Laws) : EndsInLaws (execWaitExpiry s) := by
  refine endsInLaws_next ?_
  split
  · exact h
  · have hdue : ({ s with waitDue := s.waitDue - 1 } : State).Sound := h.sound.congr rfl
    have hout : ({ s with waitDue := s.waitDue - 1 } : State).OutstandingLaw := h.outstanding.congr
    exact h.of_sound hdue.takeWaitTick hout.takeWaitTick (State.hasCycle_congr rfl rfl) rfl rfl rfl

end Sys2Proof.Machine
end

