-- ==== Sys2Proof/Proofs/BeginCommands.lean ====
section
/-! SUPPORT. The commands by which an executor takes a request that needs store cycles, or the link token, keep the laws
(R26, R39, R40, R48, R49, R161). -/

namespace Sys2Proof.Machine

variable {s t u : State} {n p : Port} {rq : Request} {w : Work} {k : Slot}

/-- An executor that takes a request. -/
def Executor.onRequest (rq : Request) (x : ExecutorState) (k : Slot) : Executor :=
  { state := x, current := some rq, walkPos := k, hops := 0, abandoned := false }

/-- The cycle in progress is not that of an IDLE executor. -/
theorem State.Sound.not_granted_of_idle (h : s.Sound) (hidle : (s.executor n).state = .idle) :
    s.inProgress ≠ some (.executor n) := by
  intro hp
  have hcycle : (s.executor n).hasCycle = true := h.grantsPending _ hp
  simp [Executor.hasCycle, hidle] at hcycle

theorem Executor.linking_of_idle {e : Executor} (h : e.state = .idle) : e.linking = false := by
  simp [Executor.linking, h]

/-- What an IDLE executor of an ATTACHED port may take. -/
theorem State.Sound.execFits_onRequest (h : s.Sound) (hidle : (s.executor n).state = .idle)
    (hatt : s.portState n = .attached) (hok : rq.op.operandsOk = true) {x : ExecutorState} (hk : k < Config.slots)
    (hshape : (Executor.onRequest rq x k).shaped) (hchain : s.chainFits (Executor.onRequest rq x k)) :
    s.ExecFits n (Executor.onRequest rq x k) where
  shaped := hshape
  examined := fun r hr => by cases hr; exact hok
  inRange := hk
  hopsInRange := Nat.zero_le _
  abandonedRuns := nofun
  granted := fun hp => absurd hp (h.not_granted_of_idle hidle)
  attached := fun _ _ => hatt
  lost := nofun
  stillBusy := fun _ => .inl hatt
  chain := hchain

/-- An executor that has a cycle before the arbiter as before leaves every requestor with its cycles. -/
theorem State.hasCycle_setExecutor {e : Executor} (he : e.hasCycle = (s.executor n).hasCycle) (r : Requestor) :
    (s.setExecutor n e).hasCycle r = s.hasCycle r := by
  cases r with
  | sweeper => rfl
  | executor p =>
    show ((s.setExecutor n e).executor p).hasCycle = (s.executor p).hasCycle
    rw [State.executor_setExecutor]
    split
    · next hp => rw [hp]; exact he
    · rfl

/-- An IDLE executor of an ATTACHED port goes RUNNING on a request that is not a LINK. -/
theorem State.Sound.run (h : s.Sound) (hidle : (s.executor n).state = .idle) (hatt : s.portState n = .attached)
    (hok : rq.op.operandsOk = true) (hk : k < Config.slots) (hfit : w.fits rq.op = true)
    (hlink : (Executor.onRequest rq (.running w) k).linking = false) :
    (s.setExecutor n (Executor.onRequest rq (.running w) k)).Sound := by
  refine h.withExecs rfl (fun p => ?_) (h.token.withExecs rfl (fun p => ?_) (fun p hl => ?_) (fun p => ?_)) <;>
    rw [State.executor_setExecutor] <;> split
  · next hp =>
    rw [hp]
    exact h.execFits_onRequest hidle hatt hok hk ⟨rq, rfl, hfit⟩ (State.chainFits_of_not_linking hlink)
  · exact h.execFits p
  · next hp => rw [hp, hlink, Executor.linking_of_idle hidle]
  · rfl
  · next hp => rw [hp, Executor.linking_of_idle hidle] at hl; cases hl
  · rfl
  · next hp => rw [hp, hidle]; simp [Executor.onRequest]
  · rfl

/-- The outstanding requests after an executor takes the head request. -/
theorem State.Laws.taken (h : s.Laws) (hn : s.nextRequest n = some rq) {x : ExecutorState}
    (hports : t.ports = (s.dequeue n).ports) (hexecs : t.execs = s.execs.set n (Executor.onRequest rq x k))
    (hw : t.waits = s.waits := by rfl) (hr : t.sweeps = s.sweeps := by rfl) : t.OutstandingLaw := by
  obtain ⟨hidle, -⟩ := (State.nextRequest_eq_some s n rq).1 hn
  have hex : ∀ p, t.executor p = if p = n then Executor.onRequest rq x k else s.executor p := fun p => by
    unfold State.executor
    rw [hexecs, PerPort.get_set]
  refine h.outstanding.of_count (fun p => ?_) (fun p a => ?_)
  · rw [← State.dequeue_tags s n p]
    simp only [State.port, hports]
  · rw [State.queueTags_congr hports, State.replyTags_congr hports, hw, hr, State.dequeue_replyTags,
      State.count_queueTags_dequeue hn, hex]
    by_cases hp : p = n
    · have hnone : (s.executor n).tags = [] := by rw [(h.executors.shaped n).eq_idle hidle]; rfl
      rw [if_pos hp, if_pos hp, hp, hnone]
      simp [Executor.tags, Executor.onRequest]
    · rw [if_neg hp, if_neg hp]
      omega

/-- What a request that presents a cycle as soon as it is taken is (R26, R40, R161). -/
theorem RequestOp.of_firstCycle {op : RequestOp} (hc : op.firstCycle = some (w, k)) :
    w.fits op = true ∧ (op.operandsOk = true → k < Config.slots) ∧ (w = .walk ∨ w = .single) ∧ op ≠ .status ∧
      op.code ≠ 0x01#8 ∧ op ≠ .detach := by
  cases op
  all_goals
    simp only [RequestOp.firstCycle, reduceCtorEq, Option.some.injEq, Prod.mk.injEq] at hc
  all_goals
    obtain ⟨rfl, rfl⟩ := hc
    simp +contextual [Work.fits, RequestOp.operandsOk, RequestOp.code, slotOk]
  exact fun _ => Nat.zero_lt_succ _

/-- The first cycle of a taken request is presented (R26, R39). -/
theorem State.Laws.begin (h : s.Laws) (hn : s.nextRequest n = some rq) (hc : rq.op.firstCycle = some (w, k))
    (hok : rq.op.operandsOk = true) : (s.begin n rq w k).Laws := by
  obtain ⟨hfit, hk, hwork, hstatus, hattach, hdetach⟩ := RequestOp.of_firstCycle hc
  obtain ⟨hidle, -, -, -⟩ := h.sound.head_request hn
  have hatt := h.sound.request_attached hn hstatus hattach
  have hrun := (h.sound.dequeue hn hdetach).run (n := n) (w := w) hidle
    ((State.dequeue_portState s n n).trans hatt) hok (hk hok) hfit
    (by rcases hwork with rfl | rfl <;> rfl)
  exact hrun.arbitrate (h.taken hn rfl rfl) h.arbiter.clearWaits

/-- A taken request is examined, and its first cycle presented (R161). -/
theorem State.Laws.examineBegin (h : s.Laws) (hn : s.nextRequest n = some rq)
    (hc : rq.op.firstCycle = some (w, k)) : (s.examine n rq (s.begin n rq w k)).Laws :=
  h.examine hn (RequestOp.of_firstCycle hc).2.2.2.2.2 (h.begin hn hc)

/-- A taken maintenance request is examined, its port's role tested, and its first cycle presented (R167). -/
theorem State.Laws.examineMaintenance (h : s.Laws) (hn : s.nextRequest n = some rq)
    (hc : rq.op.firstCycle = some (w, k)) :
    (s.examine n rq (s.ifMaintenance n rq (s.begin n rq w k))).Laws :=
  h.examine hn (RequestOp.of_firstCycle hc).2.2.2.2.2 fun hok =>
    h.ifMaintenance hn (RequestOp.of_firstCycle hc).2.2.2.2.2 (h.begin hn hc hok)

/-- The commands that take a request of any port and present its first cycle. -/
theorem exec_beginning_keeps (h : s.Laws) {i : Instr}
    (hi : i ∈ [Instr.read n, .put n, .take n, .clear n, .checkpoint n, .watch n, .unwatch n, .alloc n, .retire n,
      .claim n, .release n, .adopt n, .setAccess n]) : EndsInLaws (exec i s) := by
  simp only [List.mem_cons, List.not_mem_nil, or_false] at hi
  rcases hi with rfl | rfl | rfl | rfl | rfl | rfl | rfl | rfl | rfl | rfl | rfl | rfl | rfl
  all_goals
    refine endsInLaws_next ?_
    split
    · next rq hn =>
      split
      · next ho => exact h.examineBegin hn (by rw [ho]; rfl)
      · exact h
    · exact h

/-- The commands that take a request of the maintenance port and present its first cycle. -/
theorem exec_maintenance_keeps (h : s.Laws) {i : Instr} (hi : i ∈ [Instr.inspect n, .breakWait n]) :
    EndsInLaws (exec i s) := by
  simp only [List.mem_cons, List.not_mem_nil, or_false] at hi
  rcases hi with rfl | rfl
  all_goals
    refine endsInLaws_next ?_
    split
    · next rq hn =>
      split
      · next ho => exact h.examineMaintenance hn (by rw [ho]; rfl)
      · exact h
    · exact h

/-! ## LINK (R48 to R50) -/

/-- A FREE token goes at once to an executor that takes a LINK, which presents its first check-walk cycle (R49, R53). -/
theorem State.Sound.grantToken (h : s.Sound) {tag : Tag} {named target : Slot}
    (hidle : (s.executor n).state = .idle) (hatt : s.portState n = .attached)
    (hok : RequestOp.operandsOk (.link named target) = true) (hfree : s.serial.token = .free) :
    (State.setExecutor { s with serial := { s.serial with token := .held n } } n
      (Executor.onRequest ⟨tag, .link named target⟩ (.running .checkWalk) target)).Sound := by
  have htarget : target < Config.slots := by
    simp only [RequestOp.operandsOk, Bool.and_eq_true, slotOk, decide_eq_true_eq] at hok
    exact hok.2
  have hnolink : ∀ q, (s.executor q).linking = false := fun q => by
    by_contra hl
    have hl : (s.executor q).linking = true := by simpa using hl
    cases ha : (s.executor q).abandoned with
    | false => simp [h.token.linkerHolds q hl ha] at hfree
    | true => simp [h.token.abandonedRecalled q hl ha] at hfree
  have hempty := h.token.freeNoWaiters hfree
  have hex : ∀ p, (State.setExecutor { s with serial := { s.serial with token := .held n } } n
      (Executor.onRequest ⟨tag, .link named target⟩ (.running .checkWalk) target)).executor p =
      if p = n then Executor.onRequest ⟨tag, .link named target⟩ (.running .checkWalk) target else s.executor p :=
    fun p => PerPort.get_set s.execs n p _
  refine h.withExecs rfl (fun p => ?_) (State.tokenLaw_of_held (p := n) rfl (fun q => ?_) ?_ (fun q => ?_)
    h.token.waitersOnce)
  · rw [hex]
    split
    · next hp =>
      rw [hp]
      refine h.execFits_onRequest hidle hatt hok htarget ⟨_, rfl, rfl⟩ ⟨fun tag' named' target' hc _ i _ => ?_, nofun⟩
      cases hc
      exact ⟨0, Nat.zero_le _, rfl⟩
    · exact h.execFits p
  · rw [hex]
    split
    · next hq => simp [hq, Executor.linking, Executor.onRequest]
    · next hq => simp [hq, hnolink]
  · rw [hex, if_pos rfl]
    rfl
  · have hwait : q ∈ s.serial.queue ↔ (s.executor q).state = .tokenWait := h.token.waitersWait q
    rw [hex]
    show q ∈ s.serial.queue ↔ _
    split
    · next hq => rw [hq, hempty]; simp [Executor.onRequest]
    · exact hwait

/-- An executor that takes a LINK while the token is not FREE joins the queue (R49). -/
theorem State.Sound.awaitToken (h : s.Sound) {tag : Tag} {named target : Slot}
    (hidle : (s.executor n).state = .idle) (hatt : s.portState n = .attached)
    (hok : RequestOp.operandsOk (.link named target) = true) (htaken : s.serial.token ≠ .free) :
    (State.setExecutor { s with serial := { s.serial with queue := s.serial.queue ++ [n] } } n
      (Executor.onRequest ⟨tag, .link named target⟩ .tokenWait 0)).Sound := by
  have hex : ∀ p, (State.setExecutor { s with serial := { s.serial with queue := s.serial.queue ++ [n] } } n
      (Executor.onRequest ⟨tag, .link named target⟩ .tokenWait 0)).executor p =
      if p = n then Executor.onRequest ⟨tag, .link named target⟩ .tokenWait 0 else s.executor p :=
    fun p => PerPort.get_set s.execs n p _
  have hnew : (Executor.onRequest ⟨tag, .link named target⟩ .tokenWait 0).linking = false := rfl
  have hold : (s.executor n).linking = false := Executor.linking_of_idle hidle
  have hnotin : n ∉ s.serial.queue := fun hmem => by simpa [hidle] using (h.token.waitersWait n).1 hmem
  have hkeep : ∀ q, ((State.setExecutor { s with serial := { s.serial with queue := s.serial.queue ++ [n] } } n
      (Executor.onRequest ⟨tag, .link named target⟩ .tokenWait 0)).executor q).linking = true →
      (s.executor q).linking = true ∧ q ≠ n := fun q hl => by
    rw [hex] at hl
    split at hl
    · cases hl
    · next hq => exact ⟨hl, hq⟩
  have hstay : ∀ q, (s.executor q).linking = true → q ≠ n := fun q hl hq => by rw [hq, hold] at hl; cases hl
  refine h.withExecs rfl (fun p => ?_) ⟨fun q hq => ?_, fun q hl ha => ?_, fun q hl ha => ?_, fun hr => ?_,
    fun q r hq _ hr _ => ?_, fun q => ?_, ?_, fun hf => absurd hf htaken⟩
  · rw [hex]
    split
    · next hp =>
      rw [hp]
      exact h.execFits_onRequest hidle hatt hok (by decide) ⟨rfl, rfl⟩ (State.chainFits_of_not_linking hnew)
    · exact h.execFits p
  · obtain ⟨hl, ha⟩ := h.token.holderLinks q hq
    rw [hex, if_neg (hstay q hl)]
    exact ⟨hl, ha⟩
  · obtain ⟨hl', hq⟩ := hkeep q hl
    rw [hex, if_neg hq] at ha
    exact h.token.linkerHolds q hl' ha
  · obtain ⟨hl', hq⟩ := hkeep q hl
    rw [hex, if_neg hq] at ha
    exact h.token.abandonedRecalled q hl' ha
  · obtain ⟨q, hl, ha⟩ := h.token.recalledRuns hr
    exact ⟨q, by rw [hex, if_neg (hstay q hl)]; exact ⟨hl, ha⟩⟩
  · exact h.token.onlyLinker (hkeep q hq).1 (hkeep r hr).1
  · show q ∈ s.serial.queue ++ [n] ↔ _
    have hwait := h.token.waitersWait q
    rw [hex, List.mem_append, hwait, List.mem_singleton]
    split
    · next hq => simp [hq, Executor.onRequest]
    · next hq => simp [hq]
  · show (s.serial.queue ++ [n]).Nodup
    exact List.nodup_append_comm.1 (by simpa using ⟨hnotin, h.token.waitersOnce⟩)

/-- A taken LINK requests the token (R48, R49). -/
theorem State.Laws.requestToken (h : s.Laws) {tag : Tag} {named target : Slot}
    (hn : s.nextRequest n = some ⟨tag, .link named target⟩) (hok : RequestOp.operandsOk (.link named target) = true) :
    (s.requestToken n ⟨tag, .link named target⟩ target).Laws := by
  obtain ⟨hidle, -, -, -⟩ := h.sound.head_request hn
  have hatt := h.sound.request_attached hn (by simp) (by simp [RequestOp.code])
  have hdeq := h.sound.dequeue hn (by simp)
  have hatt' : (s.dequeue n).portState n = .attached := (State.dequeue_portState s n n).trans hatt
  unfold State.requestToken
  dsimp only
  split
  · next hfree =>
    exact (hdeq.grantToken hidle hatt' hok hfree).arbitrate (h.taken hn rfl rfl) h.arbiter.clearWaits
  all_goals
    next htaken =>
      refine h.of_sound (hdeq.awaitToken hidle hatt' hok (by rw [htaken]; simp)) (h.taken hn rfl rfl) ?_ rfl rfl rfl
      refine State.hasCycle_setExecutor (s := { s.dequeue n with serial := _ }) ?_
      show false = (s.executor n).hasCycle
      simp [Executor.hasCycle, hidle]

theorem execLink_keeps (h : s.Laws) : EndsInLaws (execLink n s) := by
  refine endsInLaws_next ?_
  split
  · next rq hn =>
    obtain ⟨tag, op⟩ := rq
    split
    · next named target ho =>
      dsimp only at ho
      subst ho
      exact h.examine hn (by simp) (h.requestToken hn)
    · exact h
  · exact h

end Sys2Proof.Machine
end

