-- ==== Sys2Proof/Proofs/Losses.lean ====
section
/-! SUPPORT. The end of a session keeps the laws: a port that goes CLOSING, by a loss or a DETACH (R51, R129 to R133), and the
falling edge of PRSTn_N (R122, R132). -/

namespace Sys2Proof.Machine

variable {s t a : State} {n p : Port} {c : PortControl} {l : PortLink} {rq : Request}

/-! ## The outstanding requests of one port -/

/-- The outstanding requests of port p are in their places (R160 to R162). -/
structure State.OutstandingAt (s : State) (p : Port) : Prop where
  atMostEight : (s.port p).tags.length ≤ Config.outstandingLimit
  tagsDiffer : (s.port p).tags.Nodup
  onePlaceEach : (s.port p).tags.Perm (s.outstandingPlaces p)

theorem State.outstandingLaw_iff : s.OutstandingLaw ↔ ∀ p, s.OutstandingAt p :=
  ⟨fun h p => ⟨h.atMostEight p, h.tagsDiffer p, h.onePlaceEach p⟩,
    fun h => ⟨fun p => (h p).atMostEight, fun p => (h p).tagsDiffer, fun p => (h p).onePlaceEach⟩⟩

theorem State.OutstandingAt.congr (h : s.OutstandingAt p) (htags : (t.port p).tags = (s.port p).tags)
    (hplaces : (t.outstandingPlaces p).Perm (s.outstandingPlaces p)) : t.OutstandingAt p where
  atMostEight := htags ▸ h.atMostEight
  tagsDiffer := htags ▸ h.tagsDiffer
  onePlaceEach := htags ▸ h.onePlaceEach.trans hplaces.symm

/-! ## The executor of a port that loses its session (R51, R131) -/

/-- The executor of port n has stopped, or its request is abandoned, and a holder's token has passed on: a is s after
that. -/
structure State.Stopped (s : State) (n : Port) (a : State) : Prop where
  frame : a = { s with execs := a.execs, serial := a.serial }
  executors : a.ExecutorLaw
  token : a.TokenLaw
  chains : a.ChainLaw
  granted : ∀ r, s.inProgress = some r → a.hasCycle r = true
  own : (a.executor n).state = .idle ∨ (a.executor n).abandoned = true
  busy : ∀ p, p ≠ n → (a.executor p).state ≠ .idle → (s.executor p).state ≠ .idle
  marks : ∀ p, p ≠ n → (a.executor p).abandoned = (s.executor p).abandoned
  tags : ∀ p, (a.executor p).tags = if p = n then [] else (s.executor p).tags

theorem State.Sound.stopped (ha : a.Sound) (frame : a = { s with execs := a.execs, serial := a.serial })
    (own : (a.executor n).state = .idle)
    (busy : ∀ p, p ≠ n → (a.executor p).state ≠ .idle → (s.executor p).state ≠ .idle)
    (marks : ∀ p, p ≠ n → (a.executor p).abandoned = (s.executor p).abandoned)
    (tags : ∀ p, (a.executor p).tags = if p = n then [] else (s.executor p).tags) : s.Stopped n a where
  frame := frame
  executors := ha.executors
  token := ha.token
  chains := ha.chains
  granted := fun r hr => ha.grantsPending r (by rw [frame]; exact hr)
  own := .inl own
  busy := busy
  marks := marks
  tags := tags

/-- An IDLE executor has stopped. -/
theorem State.Sound.stopped_of_idle (h : s.Sound) (hidle : (s.executor n).state = .idle) : s.Stopped n s := by
  refine h.stopped rfl hidle (fun _ _ => id) (fun _ _ => rfl) (fun p => ?_)
  split
  · next hp => rw [hp, (h.executors.shaped n).eq_idle hidle]; rfl
  · rfl

/-- A waiter that leaves the queue stops (R51). -/
theorem State.Sound.stopped_of_waiting (h : s.Sound) (hw : (s.executor n).state = .tokenWait) :
    s.Stopped n (State.setExecutor { s with serial := s.serial.leave n } n .idle) := by
  have hex : ∀ p, (State.setExecutor { s with serial := s.serial.leave n } n .idle).executor p =
      if p = n then .idle else s.executor p := fun p => PerPort.get_set s.execs n p _
  have hprog : s.inProgress ≠ some (.executor n) := fun hp => by
    have hcycle : (s.executor n).hasCycle = true := h.grantsPending _ hp
    simp [Executor.hasCycle, hw] at hcycle
  have hnolink : (s.executor n).linking = false := by simp [Executor.linking, hw]
  have hstay : ∀ q, (s.executor q).linking = true → q ≠ n := fun q hl hq => by rw [hq, hnolink] at hl; cases hl
  have hkeep : ∀ q, ((State.setExecutor { s with serial := s.serial.leave n } n .idle).executor q).linking = true →
      (s.executor q).linking = true ∧ q ≠ n := fun q hl => by
    rw [hex] at hl
    split at hl
    · cases hl
    · next hq => exact ⟨hl, hq⟩
  have htoken : (State.setExecutor { s with serial := s.serial.leave n } n .idle).TokenLaw := by
    refine ⟨fun q hq => ?_, fun q hl ha => ?_, fun q hl ha => ?_, fun hr => ?_, fun q r hq _ hr _ => ?_, fun q => ?_,
      h.token.waitersOnce.filter _, fun hf => ?_⟩
    · obtain ⟨hl, ha⟩ := h.token.holderLinks q hq
      rw [hex, if_neg (hstay q hl)]
      exact ⟨hl, ha⟩
    · obtain ⟨hl', hq⟩ := hkeep q hl
      rw [hex, if_neg hq] at ha
      exact h.token.linkerHolds q hl' ha
    · obtain ⟨hl', hq⟩ := hkeep q hl
      rw [hex, if_neg hq] at ha
      exact h.token.abandonedRecalled q hl' ha
    · obtain ⟨q, hl, ha⟩ := h.token.recalledRuns hr
      exact ⟨q, by rw [hex, if_neg (hstay q hl)]; exact ⟨hl, ha⟩⟩
    · exact h.token.onlyLinker (hkeep q hq).1 (hkeep r hr).1
    · show q ∈ s.serial.queue.filter (fun p => decide (p ≠ n)) ↔ _
      have hwait := h.token.waitersWait q
      rw [hex, List.mem_filter, hwait]
      split
      · next hq => simp [hq]
      · next hq => simp [hq]
    · show s.serial.queue.filter _ = []
      rw [h.token.freeNoWaiters hf]
      rfl
  refine (h.withExecs rfl (fun p => ?_) htoken).stopped rfl ?_ (fun p hp => ?_) (fun p hp => ?_) (fun p => ?_) <;> rw [hex]
  · split
    · next hp => exact hp ▸ State.execFits_idle hprog
    · exact h.execFits p
  · rw [if_pos rfl]; rfl
  · rw [if_neg hp]; exact id
  · rw [if_neg hp]
  · split <;> rfl

/-- A running request that has no cycle in progress stops (R131, R139). -/
theorem State.Sound.stopped_of_end (h : s.Sound) {w : Work} (hw : (s.executor n).state = .running w)
    (hp : s.inProgress ≠ some (.executor n)) : s.Stopped n (s.endRequest n) := by
  have hcases := h.endRequest_cases hw
  refine (h.endRequest hw hp).stopped (by rw [State.ext_iff]; simp) ?_ ?_ ?_ (h.endRequest_executor_tags hw)
  all_goals rcases hcases with ⟨-, he⟩ | ⟨-, -, he⟩ | ⟨-, head, rest, -, hne, hwait, he⟩ <;> rw [he]
  · rw [State.executor_setExecutor_self]; rfl
  · show ((s.setExecutor n .idle).executor n).state = .idle
    rw [State.executor_setExecutor_self]; rfl
  · show (((s.setExecutor n .idle).setExecutor head _).executor n).state = .idle
    rw [State.executor_setExecutor_of_ne _ _ hne.symm, State.executor_setExecutor_self]; rfl
  · exact fun p hpn => by rw [State.executor_setExecutor_of_ne _ _ hpn]; exact id
  · intro p hpn
    show ((s.setExecutor n .idle).executor p).state ≠ .idle → _
    rw [State.executor_setExecutor_of_ne _ _ hpn]
    exact id
  · intro p hpn
    show (((s.setExecutor n .idle).setExecutor head _).executor p).state ≠ .idle → _
    rw [State.executor_setExecutor]
    split
    · next hph => rw [hph, hwait]; simp
    · rw [State.executor_setExecutor_of_ne _ _ hpn]; exact id
  · exact fun p hpn => by rw [State.executor_setExecutor_of_ne _ _ hpn]
  · intro p hpn
    show ((s.setExecutor n .idle).executor p).abandoned = _
    rw [State.executor_setExecutor_of_ne _ _ hpn]
  · intro p hpn
    show (((s.setExecutor n .idle).setExecutor head _).executor p).abandoned = _
    rw [State.executor_setExecutor]
    split
    · next hph =>
      obtain ⟨tag, k, target, -, hr⟩ := (h.executors.shaped head).resume_eq hwait
      rw [hr, hph]
    · rw [State.executor_setExecutor_of_ne _ _ hpn]

/-- The state in which the request of port n is abandoned and the token it may hold is RECALLED (R51, R131). -/
def State.marked (s : State) (n : Port) : State :=
  State.setExecutor { s with serial := s.serial.recall n } n { s.executor n with abandoned := true }

theorem State.marked_executor (s : State) (n p : Port) : (s.marked n).executor p =
    { s.executor p with abandoned := decide (p = n) || (s.executor p).abandoned } := by
  refine (PerPort.get_set s.execs n p _).trans ?_
  split
  · next hp => simp [hp, State.executor]
  · next hp => simp [hp, State.executor]

@[simp] theorem State.marked_state (s : State) (n p : Port) :
    ((s.marked n).executor p).state = (s.executor p).state := by rw [State.marked_executor]

@[simp] theorem State.marked_linking (s : State) (n p : Port) :
    ((s.marked n).executor p).linking = (s.executor p).linking := by rw [State.marked_executor]; rfl

@[simp] theorem State.marked_hasCycle (s : State) (n p : Port) :
    ((s.marked n).executor p).hasCycle = (s.executor p).hasCycle := by rw [State.marked_executor]; rfl

@[simp] theorem State.marked_abandoned_iff (s : State) (n p : Port) :
    ((s.marked n).executor p).abandoned = true ↔ p = n ∨ (s.executor p).abandoned = true := by
  rw [State.marked_executor]; simp

theorem State.ExecutorLaw.marked (h : s.ExecutorLaw) {w : Work} (hw : (s.executor n).state = .running w)
    (hcycle : (s.executor n).hasCycle = true) (hd : s.device ≠ .clearing) : (s.marked n).ExecutorLaw where
  shaped p := by
    have hshaped := h.shaped p
    rw [State.marked_executor]
    by_cases hp : p = n
    · rw [Executor.shaped, hp, hw] at hshaped
      rw [Executor.shaped]
      simpa only [hp, hw] using hshaped
    · simpa [hp] using hshaped
  examined p := by rw [State.marked_executor]; exact h.examined p
  inRange p := by rw [State.marked_executor]; exact h.inRange p
  hopsInRange p := by rw [State.marked_executor]; exact h.hopsInRange p
  abandonedRuns p ha := by
    rw [State.marked_hasCycle]
    rcases (State.marked_abandoned_iff s n p).1 ha with hp | ha
    · exact ⟨hp ▸ hcycle, hd⟩
    · exact h.abandonedRuns p ha

/-- The token's holder is the executor that runs a LINK and is not abandoned. -/
theorem State.Sound.held_iff (h : s.Sound) (hna : (s.executor n).abandoned = false) :
    s.serial.token = .held n ↔ (s.executor n).linking = true :=
  ⟨fun ht => (h.token.holderLinks n ht).1, fun hl => h.token.linkerHolds n hl hna⟩

theorem State.Sound.marked_token (h : s.Sound) (hna : (s.executor n).abandoned = false) :
    (s.marked n).serial.token = if (s.executor n).linking = true then .recalled else s.serial.token := by
  show (s.serial.recall n).token = _
  simp only [Serializer.recall, h.held_iff hna]

/-- An abandoned holder's token is RECALLED; an abandoned port that holds none leaves the token as it was. -/
theorem State.Sound.marked_tokenLaw (h : s.Sound) (hna : (s.executor n).abandoned = false) : (s.marked n).TokenLaw := by
  have htok := h.marked_token hna
  have hwaiters : ∀ q, q ∈ (s.marked n).serial.queue ↔ ((s.marked n).executor q).state = .tokenWait := fun q => by
    rw [State.marked_state]; exact h.token.waitersWait q
  by_cases hln : (s.executor n).linking = true
  · rw [if_pos hln] at htok
    have honly : ∀ q, (s.executor q).linking = true → q = n := fun q hl =>
      h.token.onlyLinker hl hln
    exact {
      holderLinks := fun q hq => by rw [htok] at hq; cases hq
      linkerHolds := fun q hl ha => by simp [State.marked_executor, honly q (by simpa using hl)] at ha
      abandonedRecalled := fun _ _ _ => htok
      recalledRuns := fun _ => ⟨n, by simp [hln]⟩
      recalledOnce := fun q r hq _ hr _ => (honly q (by simpa using hq)).trans (honly r (by simpa using hr)).symm
      waitersWait := hwaiters
      waitersOnce := h.token.waitersOnce
      freeNoWaiters := fun hf => by rw [htok] at hf; cases hf }
  · rw [if_neg hln] at htok
    have hother : ∀ q, (s.executor q).linking = true → (s.marked n).executor q = s.executor q := fun q hl => by
      have hq : q ≠ n := fun hq => hln (hq ▸ hl)
      simp [State.marked_executor, hq]
    exact {
      holderLinks := fun q hq => by
        obtain ⟨hl, ha⟩ := h.token.holderLinks q (htok ▸ hq)
        rw [hother q hl]; exact ⟨hl, ha⟩
      linkerHolds := fun q hl ha => by
        rw [State.marked_linking] at hl
        rw [htok]; exact h.token.linkerHolds q hl (hother q hl ▸ ha)
      abandonedRecalled := fun q hl ha => by
        rw [State.marked_linking] at hl
        rw [htok]; exact h.token.abandonedRecalled q hl (hother q hl ▸ ha)
      recalledRuns := fun hr => by
        obtain ⟨q, hl, ha⟩ := h.token.recalledRuns (htok ▸ hr)
        exact ⟨q, by rw [hother q hl]; exact ⟨hl, ha⟩⟩
      recalledOnce := fun q r hq _ hr _ => h.token.onlyLinker (by simpa using hq) (by simpa using hr)
      waitersWait := hwaiters
      waitersOnce := h.token.waitersOnce
      freeNoWaiters := fun hf => h.token.freeNoWaiters (htok ▸ hf) }

/-- Neither the entries nor what a walk has found change when a request is abandoned (R59, R60). -/
theorem State.Sound.marked_chainLaw (h : s.Sound) : (s.marked n).ChainLaw := by
  refine State.chainLaw_iff.2 ⟨fun k => ?_, fun p => ?_⟩
  · obtain ⟨m, hm⟩ := h.chains.acyclic k
    exact ⟨m, (State.follow_congr (s := s) (t := s.marked n) rfl m k).trans hm⟩
  · have hfits := (h.execFits p).chain
    rw [State.marked_executor]
    exact State.chainFits.congr (s := s) ⟨hfits.checked, hfits.committing⟩ rfl

/-- A request with a cycle pending or in progress is abandoned, and a holder's token RECALLED (R51, R131). -/
theorem State.Sound.stopped_of_mark (h : s.Sound) {w : Work} (hw : (s.executor n).state = .running w)
    (hna : (s.executor n).abandoned = false) (hcycle : (s.executor n).hasCycle = true) (hd : s.device ≠ .clearing) :
    s.Stopped n (s.marked n) where
  frame := rfl
  executors := h.executors.marked hw hcycle hd
  token := h.marked_tokenLaw hna
  chains := h.marked_chainLaw
  granted r hr := by
    have hold := h.grantsPending r hr
    cases r with
    | sweeper => exact hold
    | executor p => exact (State.marked_hasCycle s n p).trans hold
  own := .inr (by simp)
  busy p _ := by rw [State.marked_state]; exact id
  marks p hp := by simp [State.marked_executor, hp]
  tags p := by
    rw [State.marked_executor]
    by_cases hp : p = n <;> simp [Executor.tags, hp]

/-- A lost session stops its executor, or marks its request abandoned (R51, R131). -/
theorem State.Sound.stopped_of_abandon (h : s.Sound) (hatt : s.portState n = .attached) : s.Stopped n (s.abandon n) := by
  have hna : (s.executor n).abandoned = false := by
    by_contra ha
    obtain ⟨r, hr, hrp, -⟩ := h.sessions.abandonedLost n (by simpa using ha)
    have := (h.sessions.closingSwept n).2 ⟨r, hr, hrp⟩
    simp [hatt] at this
  unfold State.abandon
  split
  · next hidle => exact h.stopped_of_idle hidle
  · next hwait => exact h.stopped_of_waiting hwait
  · next w hw =>
    split
    · next hc =>
      have hcycle : (s.executor n).hasCycle = true := by
        rcases hc with hp | ⟨hneeds, -⟩
        · exact h.grantsPending _ hp
        · exact Executor.hasCycle_iff.2 ⟨w, hw, hneeds⟩
      have hd : s.device ≠ .clearing := by
        rcases hc with hp | ⟨-, hd⟩
        · intro hd
          have := h.servesInReady (by simp [hd])
          simp [hp] at this
        · exact hd
      exact h.stopped_of_mark hw hna hcycle hd
    · next hc =>
      rw [not_or] at hc
      have hlink := (h.executors.shaped n).onLink_eq_linking hw
      have hheld : s.serial.token = .held n ↔ (s.executor n).onLink = true := by
        rw [hlink]
        exact ⟨fun ht => (h.token.holderLinks n ht).1, fun hl => h.token.linkerHolds n hl hna⟩
      have hend : (if s.serial.token = .held n then (s.setExecutor n .idle).passToken else s.setExecutor n .idle)
          = s.endRequest n := by
        unfold State.endRequest
        simp only [hheld]
      rw [hend]
      exact h.stopped_of_end hw hc.1

/-! ## A port that goes CLOSING -/

/-- Port n has gone CLOSING: its controller is c and its link l, its executor has stopped or its request is abandoned as in
a, its takes are parked no more, and its sweep record is appended (R129, R130). -/
def State.closePort (s : State) (n : Port) (a : State) (c : PortControl) (l : PortLink) (kind : SweepKind) : State :=
  { s with
    execs := a.execs, serial := a.serial, ports := s.ports.set n c, links := s.links.set n l
    waits := s.waits.filter (fun w => decide (w.port ≠ n)), sweeps := s.sweeps ++ [SweepRecord.mk n kind] }

theorem State.closePort_port (kind : SweepKind) (p : Port) :
    (s.closePort n a c l kind).port p = if p = n then c else s.port p := PerPort.get_set s.ports n p c

theorem State.closePort_portState (hc : c.portState = .closing) (kind : SweepKind) (p : Port) :
    (s.closePort n a c l kind).portState p = if p = n then .closing else s.portState p := by
  unfold State.portState
  rw [State.closePort_port]
  split
  · exact hc
  · rfl

theorem State.closePort_link (kind : SweepKind) (p : Port) :
    (s.closePort n a c l kind).link p = if p = n then l else s.link p := PerPort.get_set s.links n p l

/-- An ATTACHED port has no sweep record (R131). -/
theorem State.Sound.no_record_of_attached (h : s.Sound) (hatt : s.portState n = .attached) :
    ∀ r ∈ s.sweeps, r.port ≠ n := fun r hr hrn => by
  have := (h.sessions.closingSwept n).2 ⟨r, hr, hrn⟩
  simp [hatt] at this

theorem State.Sound.not_held_of_attached (h : s.Sound) (hatt : s.portState n = .attached) : s.held ≠ true :=
  fun hd => ((h.sessions.heldEmpty hd).2.2 n).2 hatt

theorem State.Sound.closePort_sessions (h : s.Sound) (hst : s.Stopped n a) (hatt : s.portState n = .attached)
    (hc : c.portState = .closing) (hfits : portFits c l.lineHigh) {kind : SweepKind}
    (hkind : (a.executor n).abandoned = true → ∃ x, kind = .loss x) : (s.closePort n a c l kind).SessionLaw := by
  have hnorec := h.no_record_of_attached hatt
  have hstate := State.closePort_portState (s := s) (n := n) (a := a) (l := l) hc kind
  have hex : ∀ p, (s.closePort n a c l kind).executor p = a.executor p := fun _ => rfl
  refine ⟨fun p => ?fits, fun p => ?closingSwept, ?sweptOnce, fun p hs ha => ?attached, fun p ha => ?lost,
    fun hd => absurd hd (h.not_held_of_attached hatt)⟩
  case fits =>
    rw [State.closePort_port, State.closePort_link]
    split
    · exact hfits
    · exact h.sessions.fits p
  case closingSwept =>
    rw [hstate]
    show _ ↔ ∃ r ∈ s.sweeps ++ [SweepRecord.mk n kind], r.port = p
    split
    · next hp => simp [hp]
    · next hp =>
      rw [h.sessions.closingSwept p]
      simp [List.mem_append, or_and_right, exists_or, Ne.symm hp]
  case sweptOnce =>
    show ((s.sweeps ++ [SweepRecord.mk n kind]).map SweepRecord.port).Nodup
    rw [List.map_append, List.nodup_append]
    exact ⟨h.sessions.sweptOnce, by simp, by simpa using hnorec⟩
  case attached =>
    rw [hex] at hs ha
    have hpn : p ≠ n := by
      rintro rfl
      rcases hst.own with hi | hab
      · exact hs hi
      · rw [ha] at hab; cases hab
    rw [hstate, if_neg hpn]
    exact h.sessions.executingAttached p (hst.busy p hpn hs) ((hst.marks p hpn).symm.trans ha)
  case lost =>
    rw [hex] at ha
    show ∃ r ∈ s.sweeps ++ [SweepRecord.mk n kind], _
    by_cases hp : p = n
    · obtain ⟨x, hx⟩ := hkind (hp ▸ ha)
      exact ⟨⟨n, kind⟩, by simp, hp.symm, x, hx⟩
    · obtain ⟨r, hr, hrp⟩ := h.sessions.abandonedLost p ((hst.marks p hp).symm.trans ha)
      exact ⟨r, List.mem_append_left _ hr, hrp⟩

theorem State.Sound.closePort_sweeps (h : s.Sound) (hst : s.Stopped n a) (hatt : s.portState n = .attached)
    (hc : c.portState = .closing) (kind : SweepKind) : (s.closePort n a c l kind).SweepLaw := by
  have hstate := State.closePort_portState (s := s) (n := n) (a := a) (l := l) hc kind
  refine ⟨fun hd hv => ?running, h.sweeps.onlyInReady, fun p hp => ?closed⟩
  case running =>
    obtain ⟨r, rest, hr, hidle, hdone⟩ := h.sweeps.runningPass hd hv
    have hrn : r.port ≠ n := h.no_record_of_attached hatt r (by rw [hr]; simp)
    refine ⟨r, rest ++ [⟨n, kind⟩], by show s.sweeps ++ _ = _; rw [hr]; rfl, ?_, hdone⟩
    show (a.executor r.port).state = .idle
    by_contra hbusy
    exact hst.busy _ hrn hbusy hidle
  case closed =>
    rw [hstate] at hp
    split at hp
    · simp at hp
    · exact h.sweeps.closedOwnsNothing p hp

theorem State.Sound.closePort_waits (h : s.Sound) (hc : c.portState = .closing) (kind : SweepKind) :
    (s.closePort n a c l kind).WaitLaw where
  terminalEmpty w hw := h.waits.terminalEmpty w (List.mem_of_mem_filter hw)
  portAttached w hw := by
    obtain ⟨hmem, hwn⟩ := List.mem_filter.1 hw
    rw [State.closePort_portState hc kind, if_neg (by simpa using hwn)]
    exact h.waits.portAttached w hmem
  places := le_trans (List.length_filter_le _ _) h.waits.places
  onlyInReady hd := by
    show s.waits.filter _ = []
    rw [h.waits.onlyInReady hd]
    rfl

theorem State.Sound.closePort_queues (h : s.Sound) (hatt : s.portState n = .attached) (hevents : eventsFit c)
    (hlink : linkFits l) (kind : SweepKind) : (s.closePort n a c l kind).QueueLaw := by
  refine ⟨fun p => ?events, fun p => ?links, fun hd => absurd hd (h.not_held_of_attached hatt)⟩
  case events =>
    rw [State.closePort_port]
    split
    · exact hevents
    · exact h.queues.events p
  case links =>
    rw [State.closePort_link]
    split
    · exact hlink
    · exact h.queues.links p

/-- An ATTACHED port that goes CLOSING keeps the laws between acts. -/
theorem State.Sound.closePort (h : s.Sound) (hst : s.Stopped n a) (hatt : s.portState n = .attached)
    (hc : c.portState = .closing) (hfits : portFits c l.lineHigh) (hevents : eventsFit c) (hlink : linkFits l)
    {kind : SweepKind} (hkind : (a.executor n).abandoned = true → ∃ x, kind = .loss x) :
    (s.closePort n a c l kind).Sound where
  servesInReady := h.servesInReady
  grantsPending r hr := by
    have hvisit : s.sweepVisit = a.sweepVisit := by rw [hst.frame]
    exact (State.hasCycle_congr (s := a) (t := s.closePort n a c l kind) rfl hvisit r).trans (hst.granted r hr)
  grantedLast := h.grantedLast
  heldInInit := h.heldInInit
  executors := hst.executors.congr rfl (by rw [hst.frame]; rfl)
  tables := h.tables.congr rfl rfl rfl rfl
  directory := h.directory.congr rfl rfl rfl rfl rfl rfl
  sessions := h.closePort_sessions hst hatt hc hfits hkind
  sweeps := h.closePort_sweeps hst hatt hc kind
  waits := h.closePort_waits hc kind
  token := hst.token.congr rfl rfl
  chains := hst.chains.congr (by rw [hst.frame]; rfl) rfl
  queues := h.closePort_queues hatt hevents hlink kind

/-- Nothing of a port other than n moves when port n goes CLOSING. -/
theorem State.Stopped.closePort_places (hst : s.Stopped n a) {kind : SweepKind} (hp : p ≠ n) :
    (s.closePort n a c l kind).outstandingPlaces p = s.outstandingPlaces p := by
  have hqueue : (s.closePort n a c l kind).queueTags p = s.queueTags p := by
    unfold State.queueTags
    rw [State.closePort_port, if_neg hp]
  have hreply : (s.closePort n a c l kind).replyTags p = s.replyTags p := by
    unfold State.replyTags
    rw [State.closePort_port, if_neg hp]
  have hexec : ((s.closePort n a c l kind).executor p).tags = (s.executor p).tags := by
    show (a.executor p).tags = _
    rw [hst.tags, if_neg hp]
  have hwaits : waitTags (s.closePort n a c l kind).waits p = waitTags s.waits p := by
    show waitTags (s.waits.filter _) p = _
    unfold waitTags
    rw [List.filter_filter]
    congr 1
    refine List.filter_congr fun w _ => ?_
    by_cases hw : w.port = p <;> simp [hw, hp]
  have hsweeps : sweepTags (s.closePort n a c l kind).sweeps p = sweepTags s.sweeps p := by
    show sweepTags (s.sweeps ++ [⟨n, kind⟩]) p = _
    rw [sweepTags_append, sweepTags_singleton, if_neg (Ne.symm hp), List.append_nil]
  rw [State.outstandingPlaces_eq, State.outstandingPlaces_eq, hqueue, hreply, hexec, hwaits, hsweeps]

/-- What port n has outstanding once it has gone CLOSING: its queues, and the DETACH its record owes a reply for. -/
theorem State.Sound.closePort_ownPlaces (h : s.Sound) (hst : s.Stopped n a) (hatt : s.portState n = .attached)
    (kind : SweepKind) : (s.closePort n a c l kind).outstandingPlaces n =
      c.requestQueue.map Request.tag ++ (SweepRecord.mk n kind).owedTag.toList ++ c.replyQueue.map Reply.tag := by
  have hport := State.closePort_port (s := s) (n := n) (a := a) (c := c) (l := l) kind n
  rw [if_pos rfl] at hport
  have hexec : ((s.closePort n a c l kind).executor n).tags = [] := (hst.tags n).trans (if_pos rfl)
  have hwaits : waitTags (s.closePort n a c l kind).waits n = [] :=
    waitTags_of_forall_ne fun w hw => by simpa using (List.mem_filter.1 hw).2
  have hsweeps : sweepTags (s.closePort n a c l kind).sweeps n = (SweepRecord.mk n kind).owedTag.toList := by
    show sweepTags (s.sweeps ++ [⟨n, kind⟩]) n = _
    rw [sweepTags_append, sweepTags_singleton, if_pos rfl, sweepTags_of_forall_ne, List.nil_append]
    intro r hr hrn
    have := (h.sessions.closingSwept n).2 ⟨r, hr, hrn⟩
    simp [hatt] at this
  rw [State.outstandingPlaces_eq, hexec, hwaits, hsweeps]
  simp only [State.queueTags, State.replyTags, hport, List.append_nil]

/-! ## The start of a loss (R130) -/

/-- The controller of a port that loses its session. -/
theorem portFits_lose {b : Bool} {reason : LossReason} (h : portFits c true) (hb : decide (reason = .linkReset) = !b) :
    portFits (c.lose reason) b where
  line := hb
  detachPending := nofun
  leaseTimer := nofun
  eventsOnlyAttached := fun _ => ⟨rfl, rfl⟩
  queue := fun _ hrq => by simp [PortControl.lose] at hrq
  needsLine := fun _ => ⟨rfl, rfl, rfl⟩
  sessionRange := h.sessionRange

theorem State.abandon_setLink (n : Port) (l : PortLink) : (s.setLink n l).abandon n = (s.abandon n).setLink n l := by
  have hpass : ∀ u : State, (u.setLink n l).passToken = u.passToken.setLink n l := fun u => by
    unfold State.passToken
    rw [State.setLink_serial]
    split <;> rfl
  unfold State.abandon
  rw [State.setLink_executor, State.setLink_inProgress, State.setLink_device, State.setLink_serial]
  split
  · rfl
  · rfl
  · split
    · rfl
    · split
      · exact hpass (s.setExecutor n .idle)
      · rfl

/-- The start of a loss: the port goes CLOSING, the others are told, and the arbiter takes its turn. -/
theorem State.startLoss_eq (s : State) (n : Port) (l : PortLink) (reason : LossReason) :
    (s.setLink n l).startLoss n reason =
      (State.postNotice (s.closePort n (s.abandon n) ((s.port n).lose reason) { l with ackBuffer := [] } (.loss reason))
        .portLost n (some reason)).arbitrate := by
  have hlink : ((s.abandon n).setLink n l).link n = l := State.link_setLink_self _ n l
  obtain ⟨x, y, hxy⟩ : ∃ x y, s.abandon n = { s with execs := x, serial := y } := ⟨_, _, State.abandon_frame s n⟩
  unfold State.startLoss
  dsimp only
  rw [State.abandon_setLink]
  simp only [State.setLink_port, State.abandon_port, State.setPort_link, hlink]
  rw [hxy]
  congr 2
  simp only [State.closePort, State.dropWaitsOf, State.setLink, State.setPort, PerPort.set_set]

/-- A port that loses its session has nothing outstanding; the others' requests stay in their places (R130). -/
theorem State.Sound.lost_outstanding (h : s.Sound) (hst : s.Stopped n a) (hatt : s.portState n = .attached)
    (ho : ∀ p, p ≠ n → s.OutstandingAt p) (reason : LossReason) :
    (s.closePort n a ((s.port n).lose reason) l (.loss reason)).OutstandingLaw := by
  refine State.outstandingLaw_iff.2 fun p => ?_
  by_cases hp : p = n
  · rw [hp]
    have hport := State.closePort_port (s := s) (n := n) (a := a) (c := (s.port n).lose reason) (l := l) (.loss reason) n
    rw [if_pos rfl] at hport
    refine ⟨?_, ?_, ?_⟩ <;> rw [hport]
    · exact Nat.zero_le _
    · exact List.nodup_nil
    · rw [h.closePort_ownPlaces hst hatt]
      exact List.Perm.refl _
  · refine (ho p hp).congr ?_ ?_
    · rw [State.closePort_port, if_neg hp]
    · rw [hst.closePort_places hp]

/-- A session lost, with its link as it stands after a reset of the link or without one, leaves the part in the laws. -/
theorem State.Sound.startLoss (h : s.Sound) (hatt : s.portState n = .attached) (ho : ∀ p, p ≠ n → s.OutstandingAt p)
    {reason : LossReason} (hl : linkFits l) (hline : decide (reason = .linkReset) = !l.lineHigh)
    (hclear : s.clearDue = true → s.inProgress ≠ none) : ((s.setLink n l).startLoss n reason).Laws := by
  have hst := h.stopped_of_abandon hatt
  have hfits := h.sessions.fits n
  rw [h.lineHigh_of_attached hatt] at hfits
  have hlink : linkFits { l with ackBuffer := [] } := hl.congr (Nat.zero_le _)
  have hclosed := h.closePort hst hatt (c := (s.port n).lose reason) (l := { l with ackBuffer := [] })
    (kind := .loss reason) rfl (portFits_lose hfits hline) (eventsFit_of_nil rfl (Nat.zero_le _)) hlink
    (fun _ => ⟨reason, rfl⟩)
  rw [State.startLoss_eq]
  exact (hclosed.postEvent _ _).arbitrate ((h.lost_outstanding hst hatt ho reason).postEvent _ _) hclear

/-- A loss by lease or by force, the link standing. -/
theorem State.Laws.startLoss (h : s.Laws) (hatt : s.portState n = .attached) {reason : LossReason}
    (hr : reason ≠ .linkReset) : (s.startLoss n reason).Laws := by
  rw [← State.setLink_self s n]
  refine h.sound.startLoss hatt (fun p _ => State.outstandingLaw_iff.1 h.outstanding p) (h.queues.links n) ?_
    h.arbiter.clearWaits
  rw [h.sound.lineHigh_of_attached hatt]
  simpa using hr

/-! ## LEASE_EXPIRY (R127) -/

/-- A lease timer that takes a tick. -/
theorem portFits.withLease {b : Bool} (h : portFits c b) {m : Option Nat} {k : Nat}
    (hm : ∀ u, m = some u → (∃ v, c.leaseTimer = some v) ∧ 1 ≤ u) : portFits { c with leaseTimer := m, leaseDue := k } b where
  line := h.line
  detachPending := h.detachPending
  leaseTimer := fun u hu => by
    obtain ⟨⟨v, hv⟩, hle⟩ := hm u hu
    obtain ⟨h1, h2, -⟩ := h.leaseTimer v hv
    exact ⟨h1, h2, hle⟩
  eventsOnlyAttached := h.eventsOnlyAttached
  queue := h.queue.congr
  needsLine := h.needsLine
  sessionRange := h.sessionRange

theorem State.Laws.withLease (h : s.Laws) {m : Option Nat} {k : Nat}
    (hm : ∀ u, m = some u → (∃ v, (s.port n).leaseTimer = some v) ∧ 1 ≤ u) :
    (s.setPort n { s.port n with leaseTimer := m, leaseDue := k }).Laws :=
  h.of_sound (h.sound.setPort rfl ((h.sessions.fits n).withLease hm) (h.queues.events n).congr
    (fun hd => h.sound.requestQueue_of_held hd n)) (h.outstanding.setPort rfl rfl rfl)

theorem execLeaseExpiry_keeps (h : s.Laws) : EndsInLaws (execLeaseExpiry n s) := by
  refine endsInLaws_next ?_
  split
  · exact h
  · have hlease := (h.sessions.fits n).leaseTimer
    have hsame : ∀ u, (s.port n).leaseTimer = some u → (∃ v, (s.port n).leaseTimer = some v) ∧ 1 ≤ u :=
      fun u hu => ⟨⟨u, hu⟩, (hlease u hu).2.2⟩
    dsimp only
    split
    · exact h.withLease hsame
    · next v hv =>
      split
      · exact h.withLease fun u hu => ⟨⟨v, hv⟩, by cases hu; omega⟩
      · refine (h.withLease hsame).startLoss ?_ (by simp)
        unfold State.portState
        rw [State.port_setPort_self]
        exact (hlease v hv).1

/-! ## PORT_RESET_LOW (R122, R132, R164) -/

theorem linkFits_reset (b : Bool) : linkFits (PortLink.reset b) where
  acks := Nat.zero_le _
  framing := trivial
  taken := Nat.zero_lt_succ _
  sent := Nat.zero_lt_succ _
  noBitsInReset := fun _ => rfl

/-- The executor of a port that is neither ATTACHED nor lost with a request still running is IDLE (R131, R138). -/
theorem State.Sound.idle_of_not_attached (h : s.Sound) (hatt : s.portState n ≠ .attached)
    (ha : (s.executor n).abandoned = false) : (s.executor n).state = .idle := by
  by_contra hs
  exact hatt (h.sessions.executingAttached n hs ha)

/-- A port that is not ATTACHED has no request executing that it is owed a reply for (R138). -/
theorem State.Sound.tags_of_not_attached (h : s.Sound) (hatt : s.portState n ≠ .attached) : (s.executor n).tags = [] := by
  cases ha : (s.executor n).abandoned with
  | true => exact Executor.tags_of_abandoned ha
  | false => rw [(h.executors.shaped n).eq_idle (h.idle_of_not_attached hatt ha)]; rfl

/-- A port that is not ATTACHED has no take parked (R138). -/
theorem State.Sound.waitTags_of_not_attached (h : s.Sound) (hatt : s.portState n ≠ .attached) :
    waitTags s.waits n = [] :=
  waitTags_of_forall_ne fun w hw hwn => hatt (hwn ▸ h.waits.portAttached w hw)

/-- DETACH replies that are owed no longer (R132). -/
theorem State.Sound.forgetTags (h : s.Sound) (n : Port) :
    ({ s with sweeps := s.sweeps.map (SweepRecord.forgetTag n) } : State).Sound := by
  have hport : ∀ r : SweepRecord, (r.forgetTag n).port = r.port := fun r => by
    unfold SweepRecord.forgetTag
    split
    · split <;> rfl
    · rfl
  have hloss : ∀ r : SweepRecord, (∃ x, r.kind = .loss x) → ∃ x, (r.forgetTag n).kind = .loss x := by
    rintro r ⟨x, hx⟩
    exact ⟨x, by unfold SweepRecord.forgetTag; rw [hx]; exact hx⟩
  have hports : (s.sweeps.map (SweepRecord.forgetTag n)).map SweepRecord.port = s.sweeps.map SweepRecord.port := by
    rw [List.map_map]
    exact List.map_congr_left fun r _ => hport r
  refine ⟨h.servesInReady, h.grantsPending, h.grantedLast, h.heldInInit, h.executors.congr, h.tables.congr,
    h.directory.congr, ?_, ?_, h.waits.congr, h.token.congr, h.chains.congr, h.queues.congr⟩
  · refine ⟨h.sessions.fits, fun p => ?_, by rw [hports]; exact h.sessions.sweptOnce, h.sessions.executingAttached,
      fun p ha => ?_, fun hd => ?_⟩
    · refine Iff.trans (h.sessions.closingSwept p) ?_
      simp only [List.mem_map, exists_exists_and_eq_and, hport]
    · obtain ⟨r, hr, hrp, hx⟩ := h.sessions.abandonedLost p ha
      exact ⟨_, List.mem_map_of_mem hr, (hport r).trans hrp, hloss r hx⟩
    · obtain ⟨hsw, hrest⟩ := h.sessions.heldEmpty hd
      exact ⟨by rw [hsw]; rfl, hrest⟩
  · refine ⟨fun hd hv => ?_, h.sweeps.onlyInReady, h.sweeps.closedOwnsNothing⟩
    obtain ⟨r, rest, hr, hidle, hdone⟩ := h.sweeps.runningPass hd hv
    exact ⟨r.forgetTag n, rest.map (SweepRecord.forgetTag n), by rw [hr]; rfl, by rw [hport]; exact hidle,
      by rw [hport]; exact hdone⟩

/-- After the owed reply of port n is forgotten, n's records owe nothing, and the others' what they owed. -/
theorem sweepTags_forgetTag (x : List SweepRecord) (n p : Port) :
    sweepTags (x.map (SweepRecord.forgetTag n)) p = if p = n then [] else sweepTags x p := by
  induction x with
  | nil => split <;> rfl
  | cons r x ih =>
    obtain ⟨q, kind⟩ := r
    rw [List.map_cons, sweepTags_cons, ih, sweepTags_cons]
    cases kind with
    | loss reason =>
      rw [show (SweepRecord.mk q (.loss reason)).forgetTag n = ⟨q, .loss reason⟩ from rfl]
      by_cases hq : q = p <;> simp [SweepRecord.owedTag, hq]
    | detach tag counts =>
      by_cases hq : q = n
      · subst hq
        by_cases hp : p = q
        · simp [SweepRecord.forgetTag, SweepRecord.owedTag, hp]
        · simp [SweepRecord.forgetTag, hp, Ne.symm hp]
      · by_cases hp : p = n
        · simp [SweepRecord.forgetTag, hp, hq]
        · simp [SweepRecord.forgetTag, hp, hq]

/-- A port outside ATTACHED whose queues and outstanding requests are flushed (R122, R132). -/
theorem State.Sound.flushed_outstanding (h : s.Sound) (ho : s.OutstandingLaw) (hatt : s.portState n ≠ .attached)
    (hports : t.ports = s.ports.set n c) (hq : c.requestQueue = []) (hr : c.replyQueue = []) (ht : c.tags = [])
    (hsweeps : ∀ p, sweepTags t.sweeps p = if p = n then [] else sweepTags s.sweeps p)
    (hx : t.execs = s.execs := by rfl) (hw : t.waits = s.waits := by rfl) : t.OutstandingLaw := by
  have hport : ∀ p, t.port p = if p = n then c else s.port p := fun p => by
    unfold State.port
    rw [hports, PerPort.get_set]
  refine ho.atPort n (fun p hp => ⟨by rw [hport, if_neg hp], ?_⟩) ?_ ?_ ?_
  · rw [State.outstandingPlaces_eq, State.outstandingPlaces_eq, hsweeps, if_neg hp, hw, State.executor_congr hx]
    simp only [State.queueTags, State.replyTags, hport, if_neg hp]
  · rw [hport, if_pos rfl, ht]; exact Nat.zero_le _
  · rw [hport, if_pos rfl, ht]; exact List.nodup_nil
  · rw [State.outstandingPlaces_eq, hsweeps, if_pos rfl, hw, State.executor_congr hx, h.tags_of_not_attached hatt,
      h.waitTags_of_not_attached hatt]
    simp only [State.queueTags, State.replyTags, hport, if_pos, hq, hr, ht]
    exact List.Perm.refl _

theorem portFits_flush {b : Bool} (h : portFits c b) (hatt : c.portState ≠ .attached) {x : PortState} {y : Bool}
    (hx : x = .down ∨ (x = .closing ∧ y = true)) :
    portFits { c.flush with portState := x, linkDown := y } false where
  line := by rcases hx with rfl | ⟨rfl, rfl⟩ <;> rfl
  detachPending := fun hd => absurd (h.detachPending hd) hatt
  leaseTimer := fun m hm => absurd (h.leaseTimer m hm).1 hatt
  eventsOnlyAttached := fun _ => ⟨rfl, (h.eventsOnlyAttached hatt).2⟩
  queue := by
    rcases hx with rfl | ⟨rfl, rfl⟩
    · exact rfl
    · exact fun rq hrq => by simp [PortControl.flush] at hrq
  needsLine := fun _ => ⟨rfl, rfl, rfl⟩
  sessionRange := h.sessionRange

/-- A port in OPEN whose line falls goes DOWN (R122). -/
theorem State.Laws.openedFalls (h : s.Laws) (hp : s.portState n = .opened) :
    ((s.setPort n { (s.port n).flush with portState := .down }).setLink n (.reset false)).Laws := by
  have hatt : s.portState n ≠ .attached := by simp [hp]
  refine h.of_sound (h.sound.setPortLink ?_ ?_ ?_ (portFits_flush (h.sessions.fits n) hatt (.inl rfl)) ?_
    (linkFits_reset false) ?_) (h.sound.flushed_outstanding h.outstanding hatt rfl rfl rfl rfl fun p => ?_)
  · simp [hp]
  · simp [hp]
  · exact fun _ => .inl hp
  · exact eventsFit_of_nil rfl (h.queues.events n).creditsSaturate
  · exact fun _ => ⟨rfl, by simp, rfl⟩
  · split
    · next hpn =>
      refine sweepTags_of_forall_ne fun r hr hrp => ?_
      have := (h.sessions.closingSwept n).2 ⟨r, hr, hrp.trans hpn⟩
      simp [hp] at this
    · rfl

/-- A port in CLOSING whose line falls is marked, and the DETACH reply it is owed is discarded (R132). -/
theorem State.Laws.closingFalls (h : s.Laws) (hp : s.portState n = .closing) :
    ({ (s.setPort n { (s.port n).flush with linkDown := true }).setLink n (.reset false) with
      sweeps := s.sweeps.map (SweepRecord.forgetTag n) } : State).Laws := by
  have hatt : s.portState n ≠ .attached := by simp [hp]
  have hclosing : { (s.port n).flush with linkDown := true } =
      { (s.port n).flush with portState := .closing, linkDown := true } := by
    rw [← hp]; rfl
  have hsound : ((s.setPort n { (s.port n).flush with linkDown := true }).setLink n (.reset false)).Sound := by
    rw [hclosing]
    refine h.sound.setPortLink ?_ ?_ ?_ (portFits_flush (h.sessions.fits n) hatt (.inr ⟨rfl, rfl⟩)) ?_
      (linkFits_reset false) ?_
    · simp [hp]
    · simp [hp]
    · rintro (hx | hx) <;> cases hx
    · exact eventsFit_of_nil rfl (h.queues.events n).creditsSaturate
    · exact fun _ => ⟨rfl, by simp, rfl⟩
  refine h.of_sound (hsound.forgetTags n) (h.sound.flushed_outstanding h.outstanding hatt rfl rfl rfl rfl fun p => ?_)
    (State.hasCycle_congr rfl rfl) rfl rfl rfl
  exact sweepTags_forgetTag s.sweeps n p

theorem execPortResetLow_keeps (h : s.Laws) : EndsInLaws (execPortResetLow n s) := by
  refine endsInLaws_next ?_
  split
  · next hhigh =>
    unfold State.lineFalls
    dsimp only
    split
    · next hp =>
      have hp : (s.port n).portState = .down := hp
      have hline := (h.sessions.fits n).line
      rw [hp, hhigh] at hline
      cases hline
    · next hp => exact h.openedFalls hp
    · next hp =>
      exact h.sound.startLoss hp (fun p _ => State.outstandingLaw_iff.1 h.outstanding p) (linkFits_reset false) rfl
        h.arbiter.clearWaits
    · next hp => exact h.closingFalls hp
  · exact h

end Sys2Proof.Machine
end

