-- ==== Sys2Proof/Proofs/DetachCommands.lean ====
section
/-! SUPPORT. DETACH and FORCE_DETACH keep the laws (R93, R129, R169). -/

namespace Sys2Proof.Machine

variable {s t : State} {n p q : Port} {rq : Request}

/-! ## The places of outstanding requests, act by act -/

theorem State.postEvent_places (f : Port → Bool) (e : Event) (p : Port) :
    (s.postEvent f e).outstandingPlaces p = s.outstandingPlaces p := by
  rw [State.outstandingPlaces_eq, State.outstandingPlaces_eq, State.postEvent_queueTags, State.postEvent_replyTags]
  rfl

theorem State.postReply_places (n p : Port) (r : Reply) :
    (s.postReply n r).outstandingPlaces p = s.outstandingPlaces p ++ if p = n then [r.tag] else [] := by
  rw [State.outstandingPlaces_eq, State.outstandingPlaces_eq, State.postReply_queueTags, State.postReply_replyTags,
    ← List.append_assoc]
  rfl

theorem State.Sound.arbitrate_places (h : s.Sound) (p : Port) :
    s.arbitrate.outstandingPlaces p = s.outstandingPlaces p := by
  rw [State.outstandingPlaces_eq, State.outstandingPlaces_eq, State.queueTags_congr (State.arbitrate_ports s),
    State.replyTags_congr (State.arbitrate_ports s), h.arbitrate_tags, State.arbitrate_waits, State.arbitrate_sweeps]

/-- The head request stands first among the outstanding ones of its port until it is taken. -/
theorem State.dequeue_places (hn : s.nextRequest n = some rq) (p : Port) :
    (s.outstandingPlaces p).Perm ((s.dequeue n).outstandingPlaces p ++ if p = n then [rq.tag] else []) := by
  refine List.perm_iff_count.2 fun a => ?_
  have hcount := State.count_queueTags_dequeue hn p a
  rw [List.count_append, State.count_outstandingPlaces, State.count_outstandingPlaces, hcount, State.dequeue_replyTags]
  show _ + _ + (s.executor p).tags.count a + (waitTags s.waits p).count a + (sweepTags s.sweeps p).count a + _ =
    _ + (s.executor p).tags.count a + (waitTags s.waits p).count a + (sweepTags s.sweeps p).count a + _ + _
  by_cases hp : p = n
  · simp only [hp, if_pos]; omega
  · simp only [hp, if_neg, not_false_eq_true, List.count_nil]; omega

/-! ## DETACH (R93, R129) -/

/-- A DETACH at the head is the one the mark waits for: behind it STATUS requests alone are queued (R123, R128). -/
theorem queueFits.detach {c : PortControl} {tag : Tag} {rest : List Request} (h : queueFits c)
    (ha : c.portState = .attached) (hq : c.requestQueue = ⟨tag, .detach⟩ :: rest) : ∀ rq ∈ rest, rq.op = .status := by
  unfold queueFits at h
  rw [ha, hq] at h
  dsimp only at h
  cases hd : c.detachPending with
  | false => rw [hd] at h; exact absurd rfl (h _ List.mem_cons_self)
  | true =>
    rw [hd] at h
    obtain ⟨before, tag', after, heq, hbefore, hafter⟩ := h
    cases before with
    | nil => rw [List.nil_append, List.cons.injEq] at heq; rw [heq.2]; exact hafter
    | cons x xs =>
      rw [List.cons_append, List.cons.injEq] at heq
      exact absurd (by rw [← heq.1]) (hbefore x List.mem_cons_self)

/-- The controller of a port that detaches: its parked takes are answered CANCELLED (R93). -/
def State.detached (s : State) (n : Port) : PortControl :=
  { (s.port n).detach with
    requestQueue := (s.port n).requestQueue.tail
    replyQueue := (s.port n).replyQueue ++
      (s.waits.filter (fun w => decide (w.port = n))).map (fun w => waitReply w .cancelled none none) }

/-- No disposition counted yet. -/
def DispositionCounts.zero : DispositionCounts := { keep := 0, release := 0, drop := 0, restore := 0 }

/-- The DETACH act: the port goes CLOSING, and the others are told. -/
theorem State.detachAct_eq (s : State) (n : Port) (tag : Tag) : s.detachAct n tag =
    State.postNotice (s.closePort n s (s.detached n) (s.link n) (.detach (some tag) .zero)) .portDetached n none := by
  have hports : (s.ports.set n { s.port n with requestQueue := (s.port n).requestQueue.tail }).set n
      ({ s.port n with requestQueue := (s.port n).requestQueue.tail } : PortControl).detach = s.ports.set n
      ({ s.port n with requestQueue := (s.port n).requestQueue.tail } : PortControl).detach := PerPort.set_set _ _ _ _
  have hlinks : s.links.set n (s.link n) = s.links := PerPort.set_get_self s.links n
  have hreplies : PerPort.mapPorts (fun p c => { c with replyQueue := c.replyQueue ++ if p = n then
        (s.waits.filter (fun w => decide (w.port = n))).map (fun w => waitReply w .cancelled none none) else [] })
      (s.ports.set n ({ s.port n with requestQueue := (s.port n).requestQueue.tail } : PortControl).detach) =
      s.ports.set n (s.detached n) := by
    refine PerPort.eq_of_get fun p => ?_
    rw [PerPort.get_mapPorts, PerPort.get_set, PerPort.get_set]
    by_cases hp : p = n
    · simp only [hp, if_pos]; rfl
    · simp only [hp, if_neg, not_false_eq_true, List.append_nil]
  unfold State.detachAct
  dsimp only
  rw [State.dequeue_port_self]
  refine congrArg (State.postNotice · .portDetached n none) ?_
  simp only [State.closePort, State.postReplies, State.dropWaitsOf, State.setPort, State.dequeue, hports, hlinks, hreplies]
  rfl

theorem State.Laws.detachAct (h : s.Laws) {tag : Tag} (hn : s.nextRequest n = some ⟨tag, .detach⟩)
    (hatt : s.portState n = .attached) : (s.detachAct n tag).Laws := by
  obtain ⟨hidle, ⟨rest, hq⟩, hline, -⟩ := h.sound.head_request hn
  have hst := h.sound.stopped_of_idle hidle
  have hfits := h.sessions.fits n
  have hrest := hfits.queue.detach hatt hq
  have htail : (s.port n).requestQueue.tail = rest := by rw [hq]; rfl
  have hna : (s.executor n).abandoned ≠ true := by
    rw [(h.executors.shaped n).eq_idle hidle]
    simp
  have hclosed : (s.closePort n s (s.detached n) (s.link n) (.detach (some tag) .zero)).Sound := by
    have hevents : eventsFit (s.detached n) := eventsFit_of_nil rfl (Nat.zero_le _)
    refine h.sound.closePort (c := s.detached n) hst hatt rfl ⟨?_, fun hd => ?_, fun m hm => ?_, fun _ => ⟨rfl, rfl⟩, ?_, ?_,
      hfits.sessionRange⟩ hevents (h.queues.links n) (fun ha => absurd ha hna)
    · show false = !(s.link n).lineHigh
      rw [hline]; rfl
    · cases hd
    · cases hm
    · show ∀ rq ∈ (s.port n).requestQueue.tail, rq.op = .status
      rw [htail]; exact hrest
    · exact fun hb => absurd (hline.symm.trans hb) (by simp)
  have hout : (s.closePort n s (s.detached n) (s.link n) (.detach (some tag) .zero)).OutstandingLaw := by
    refine State.outstandingLaw_iff.2 fun p => ?_
    have hold := State.outstandingLaw_iff.1 h.outstanding p
    have hport := State.closePort_port (s := s) (n := n) (a := s) (c := s.detached n) (l := s.link n)
      (.detach (some tag) .zero) p
    by_cases hp : p = n
    · subst hp
      rw [if_pos rfl] at hport
      refine hold.congr (by rw [hport]; rfl) (List.perm_iff_count.2 fun a => ?_)
      have hsweeps : sweepTags s.sweeps p = [] := sweepTags_of_forall_ne fun r hr hrn => by
        have := (h.sessions.closingSwept p).2 ⟨r, hr, hrn⟩
        simp [hatt] at this
      have hparked : ((s.waits.filter (fun w => decide (w.port = p))).map
          (fun w => waitReply w .cancelled none none)).map Reply.tag = waitTags s.waits p := by
        rw [List.map_map]; rfl
      rw [h.sound.closePort_ownPlaces hst hatt, State.count_outstandingPlaces, hsweeps,
        (h.executors.shaped p).eq_idle hidle]
      simp only [State.detached, List.tail_cons, List.map_append, hparked, State.queueTags, hq, List.map_cons, List.count_append,
        List.count_cons, SweepRecord.owedTag, Option.toList_some, Executor.tags_idle, List.count_nil, State.replyTags]
      omega
    · rw [if_neg hp] at hport
      exact hold.congr (by rw [hport]) (by rw [hst.closePort_places hp])
  rw [State.detachAct_eq]
  exact h.of_sound (hclosed.postEvent _ _) (hout.postEvent _ _) (State.hasCycle_congr rfl rfl) rfl rfl rfl

theorem execDetach_keeps (h : s.Laws) : EndsInLaws (execDetach n s) := by
  refine endsInLaws_next ?_
  split
  · next rq hn =>
    obtain ⟨tag, op⟩ := rq
    split
    · next hd =>
      obtain ⟨hop, hatt⟩ := hd
      dsimp only at hop
      subst hop
      exact h.detachAct hn hatt
    · exact h
  · exact h

/-! ## FORCE_DETACH (R169) -/

/-- What a loss of port p leaves of the outstanding requests of another port: all of them (R130). -/
theorem State.Sound.startLoss_places (h : s.Sound) (hatt : s.portState p = .attached) {reason : LossReason}
    (hr : reason ≠ .linkReset) : (s.startLoss p reason).Sound ∧ (s.startLoss p reason).OutstandingAt p ∧
      ∀ q, q ≠ p → ((s.startLoss p reason).port q).tags = (s.port q).tags ∧
        (s.startLoss p reason).outstandingPlaces q = s.outstandingPlaces q := by
  have hst := h.stopped_of_abandon hatt
  have hfits := h.sessions.fits p
  have hline := h.lineHigh_of_attached hatt
  rw [hline] at hfits
  have hlow : decide (reason = .linkReset) = !(s.link p).lineHigh := by
    rw [hline]
    simpa using hr
  have hclosed := h.closePort hst hatt (c := (s.port p).lose reason) (l := { s.link p with ackBuffer := [] })
    (kind := .loss reason) rfl (portFits_lose hfits hlow) (eventsFit_of_nil rfl (Nat.zero_le _))
    ((h.queues.links p).congr (Nat.zero_le _)) (fun _ => ⟨reason, rfl⟩)
  have hnotice : (State.postNotice (s.closePort p (s.abandon p) ((s.port p).lose reason) { s.link p with ackBuffer := [] }
      (.loss reason)) .portLost p (some reason)).Sound := hclosed.postEvent _ _
  have heq : s.startLoss p reason = _ := State.setLink_self s p ▸ State.startLoss_eq s p (s.link p) reason
  have hports := State.closePort_port (s := s) (n := p) (a := s.abandon p) (c := (s.port p).lose reason)
    (l := { s.link p with ackBuffer := [] }) (.loss reason)
  rw [heq]
  refine ⟨hnotice.arbitrate_sound, ?_, fun q hq => ?_⟩
  · have hown : (s.closePort p (s.abandon p) ((s.port p).lose reason) { s.link p with ackBuffer := [] }
        (.loss reason)).OutstandingAt p := by
      refine ⟨?_, ?_, ?_⟩ <;> rw [hports, if_pos rfl]
      · exact Nat.zero_le _
      · exact List.nodup_nil
      · rw [h.closePort_ownPlaces hst hatt]
        exact List.Perm.refl _
    refine hown.congr ?_ ?_
    · rw [State.arbitrate_port, State.postNotice, State.postEvent_tags]
    · rw [hnotice.arbitrate_places, State.postNotice, State.postEvent_places]
  · rw [State.arbitrate_port, hnotice.arbitrate_places, State.postNotice, State.postEvent_tags, State.postEvent_places,
      hports, if_neg hq]
    exact ⟨rfl, hst.closePort_places hq⟩

/-- A loss of port p leaves the line of every port, the cycle in progress and a due entry. -/
theorem State.startLoss_frame (s : State) (p : Port) (reason : LossReason) :
    (∀ q, ((s.startLoss p reason).link q).lineHigh = (s.link q).lineHigh) ∧
      (s.startLoss p reason).clearDue = s.clearDue ∧
      (s.inProgress ≠ none → (s.startLoss p reason).inProgress = s.inProgress) ∧
      ((s.startLoss p reason).device = .ready → (s.startLoss p reason).inProgress = none →
        ∀ r, (s.startLoss p reason).hasCycle r = false) := by
  have heq : s.startLoss p reason = _ := State.setLink_self s p ▸ State.startLoss_eq s p (s.link p) reason
  rw [heq]
  refine ⟨fun q => ?_, ?_, fun hb => ?_, fun hd hp => State.arbitrate_serves hd hp⟩
  · rw [State.arbitrate_link]
    show ((s.closePort p (s.abandon p) ((s.port p).lose reason) { s.link p with ackBuffer := [] }
      (.loss reason)).link q).lineHigh = _
    rw [State.closePort_link]
    split
    · next hq => rw [hq]
    · rfl
  · rw [State.arbitrate_clearDue]; rfl
  · exact State.arbitrate_inProgress hb

theorem State.Laws.forceAct (h : s.Laws) (hn : s.nextRequest n = some rq) (hne : rq.op ≠ .detach) (p : Port) :
    (s.forceAct n rq p).Laws := by
  obtain ⟨-, -, hline, -⟩ := h.sound.head_request hn
  have hdeq := h.sound.dequeue hn hne
  have hold := State.outstandingLaw_iff.1 h.outstanding
  have htaken : ∀ q, q ≠ n → (s.dequeue n).OutstandingAt q := fun q hq =>
    (hold q).congr (State.dequeue_tags s n q) (by simpa [hq] using (State.dequeue_places hn q).symm)
  unfold State.forceAct
  split
  · next hatt =>
    have hatt : (s.dequeue n).portState p = .attached := (State.dequeue_portState s n p).trans hatt
    dsimp only
    split
    · next hpn =>
      subst hpn
      rw [← State.setLink_self (s.dequeue p) p]
      refine hdeq.startLoss hatt htaken (h.queues.links p) ?_ h.arbiter.clearWaits
      rw [show ((s.dequeue p).link p).lineHigh = true from hline]
      rfl
    · next hpn =>
      obtain ⟨hsound, hown, hother⟩ := hdeq.startLoss_places hatt (reason := .forced) (by simp)
      obtain ⟨hlines, hclear, hbusy, hserves⟩ := State.startLoss_frame (s.dequeue n) p .forced
      refine (hsound.postReply ((hlines n).trans hline) _).laws (State.outstandingLaw_iff.2 fun q => ?_)
        (fun hd hp r => ?_) (fun hc => ?_)
      · by_cases hqn : q = n
        · subst hqn
          obtain ⟨htags, hplaces⟩ := hother q (Ne.symm hpn)
          refine (hold q).congr ?_ ?_
          · rw [State.postReply_tags, htags, State.dequeue_tags]
          · rw [State.postReply_places, hplaces]
            simpa [bareReply] using (State.dequeue_places hn q).symm
        · have hat : ((s.dequeue n).startLoss p .forced).OutstandingAt q := by
            by_cases hqp : q = p
            · rw [hqp]; exact hown
            · obtain ⟨htags, hplaces⟩ := hother q hqp
              exact (htaken q hqn).congr htags (by rw [hplaces])
          exact hat.congr (State.postReply_tags n q _) (by rw [State.postReply_places, if_neg hqn, List.append_nil])
      · rw [State.postReply_hasCycle]; exact hserves hd hp r
      · have hp := h.arbiter.clearWaits (hclear.symm.trans hc)
        rw [State.postReply_inProgress, hbusy hp]
        exact hp
  all_goals exact h.answer hn hne rfl

theorem execForceDetach_keeps (h : s.Laws) : EndsInLaws (execForceDetach n s) := by
  refine endsInLaws_next ?_
  split
  · next rq hn =>
    split
    · next code ho =>
      have hne : rq.op ≠ .detach := by simp [ho]
      refine h.examine hn hne fun _ => h.ifMaintenance hn hne ?_
      split
      · exact h.forceAct hn hne _
      · exact h
    · exact h
  · exact h

end Sys2Proof.Machine
end

