-- ==== Sys2Proof/Proofs/ResetCommands.lean ====
section
/-! SUPPORT. The part held in device reset and leaving it keeps the laws (R32), and the laws hold at reset (O46). -/

namespace Sys2Proof.Machine

variable {s : State} {p : Port}

/-! ## The part held in device reset -/

theorem State.hold_port (s : State) (p : Port) : s.hold.port p = .reset (s.link p).lineHigh :=
  PerPort.get_mapPorts _ _ p

theorem State.hold_link (s : State) (p : Port) : s.hold.link p = .reset (s.link p).lineHigh :=
  PerPort.get_mapPorts _ _ p

@[simp] theorem State.hold_executor (s : State) (p : Port) : s.hold.executor p = .idle := PerPort.get_same _ p

theorem State.hold_sweeps (s : State) : s.hold.sweeps = [] := rfl

/-- After device reset a port is in OPEN or DOWN, by its line (R121). -/
theorem State.hold_portState (s : State) (p : Port) :
    s.hold.portState p = if (s.link p).lineHigh then .opened else .down := by
  unfold State.portState
  rw [State.hold_port]
  rfl

theorem State.hold_portState_cases (s : State) (p : Port) : s.hold.portState p = .opened ∨ s.hold.portState p = .down := by
  rw [State.hold_portState]
  split
  · exact .inl rfl
  · exact .inr rfl

theorem portFits_reset (b : Bool) : portFits (PortControl.reset b) b where
  line := by cases b <;> rfl
  detachPending := nofun
  leaseTimer := nofun
  eventsOnlyAttached := fun _ => ⟨rfl, rfl⟩
  queue := by cases b <;> simp [queueFits, PortControl.reset]
  needsLine := fun _ => ⟨rfl, rfl, rfl⟩
  sessionRange := Nat.zero_le _

theorem State.hold_outstanding (s : State) : s.hold.OutstandingLaw :=
  State.outstandingLaw_iff.2 fun p => by
    have hplaces : s.hold.outstandingPlaces p = [] := by
      rw [State.outstandingPlaces_eq, State.hold_executor]
      simp only [State.queueTags, State.replyTags, State.hold_port]
      rfl
    refine ⟨?_, ?_, ?_⟩ <;> rw [State.hold_port]
    · exact Nat.zero_le _
    · exact List.nodup_nil
    · rw [hplaces]
      exact List.Perm.refl _

/-- Device reset puts every block at its reset state: what the laws still ask is of the tables, which stand (R32). -/
theorem State.TableLaw.hold (h : s.TableLaw) (hacyclic : ∀ k, ∃ m, s.follow m k = none) : s.hold.Laws where
  arbiter := {
    servesInReady := fun _ => rfl
    grantsPending := nofun
    grantedLast := nofun
    grantsAtOnce := nofun
    clearWaits := nofun
    heldInInit := fun _ => rfl }
  executors := {
    shaped := fun p => by rw [State.hold_executor]; rfl
    examined := fun p rq hc => by rw [State.hold_executor] at hc; cases hc
    inRange := fun p => by rw [State.hold_executor]; exact Nat.zero_lt_succ _
    hopsInRange := fun p => by rw [State.hold_executor]; exact Nat.zero_le _
    abandonedRuns := fun p ha => by rw [State.hold_executor] at ha; cases ha }
  tables := ⟨h.entriesWf, h.rowsWf, h.entriesInRange, h.rowsInRange, h.targetsInRange, Nat.zero_lt_succ _, Nat.zero_lt_succ _⟩
  directory := ⟨nofun, fun _ hpos => absurd hpos (Nat.lt_irrefl 0)⟩
  sessions := {
    fits := fun p => by rw [State.hold_port, State.hold_link]; exact portFits_reset _
    closingSwept := fun p => by rw [State.hold_sweeps]; rcases s.hold_portState_cases p with hp | hp <;> simp [hp]
    sweptOnce := List.nodup_nil
    executingAttached := fun p hs => by rw [State.hold_executor] at hs; exact absurd rfl hs
    abandonedLost := fun p ha => by rw [State.hold_executor] at ha; cases ha
    heldEmpty := fun _ => ⟨rfl, rfl, fun p => ⟨by rw [State.hold_port]; rfl, by
      rcases s.hold_portState_cases p with hp | hp <;> simp [hp]⟩⟩ }
  sweeps := ⟨nofun, fun _ => rfl, fun p _ => PerPort.get_same _ p⟩
  waits := ⟨nofun, nofun, Nat.zero_le _, fun _ => rfl⟩
  token := State.tokenLaw_of_free rfl (fun p => by rw [State.hold_executor]; rfl)
    (fun p => by rw [State.hold_executor]; exact nofun)
  chains := State.chainLaw_iff.2 ⟨by simpa only [State.follow_congr (s := s) (t := s.hold) rfl] using hacyclic,
    fun p => by rw [State.hold_executor]; exact State.chainFits_of_not_linking rfl⟩
  queues := {
    events := fun p => by rw [State.hold_port]; exact eventsFit_of_nil rfl (Nat.zero_le _)
    links := fun p => by rw [State.hold_link]; exact linkFits_reset _
    noBitsWhileHeld := fun _ p => by rw [State.hold_link]; rfl }
  outstanding := s.hold_outstanding

theorem execDeviceReset_keeps (h : s.Laws) : EndsInLaws (execDeviceReset s) :=
  endsInLaws_next (h.tables.hold h.chains.acyclic)

/-! ## Leaving reset -/

/-- A port held in reset is in OPEN or DOWN by its line already (R121). -/
theorem State.Sound.portState_of_held (h : s.Sound) (hheld : s.held = true) (p : Port) :
    (if (s.link p).lineHigh then PortState.opened else .down) = s.portState p := by
  obtain ⟨hsweeps, -, hports⟩ := h.sessions.heldEmpty hheld
  have hline := (h.sessions.fits p).line
  have hclosing : s.portState p ≠ .closing := fun hp => by
    have := (h.sessions.closingSwept p).1 hp
    simp [hsweeps] at this
  have hatt := (hports p).2
  unfold State.portState at hclosing hatt ⊢
  cases hp : (s.port p).portState with
  | down => rw [hp] at hline; simp [hline]
  | opened => rw [hp] at hline; simp [hline]
  | attached => exact absurd hp hatt
  | closing => exact absurd hp hclosing

theorem State.Sound.leaveReset_eq (h : s.Sound) (hheld : s.held = true) (strap : BitVec 3) :
    s.leaveReset strap = { s with held := false, maint := strap, passPos := 0 } := by
  unfold State.leaveReset
  congr 1
  refine PerPort.eq_of_get fun p => ?_
  rw [PerPort.get_mapPorts, h.portState_of_held hheld p]
  rfl

theorem execResetNHigh_keeps (h : s.Laws) (strap : BitVec 3) : EndsInLaws (execResetNHigh strap s) := by
  refine endsInLaws_next ?_
  split
  · next hheld =>
    have hinit := h.arbiter.heldInInit hheld
    rw [h.sound.leaveReset_eq hheld]
    refine h.of_sound ⟨h.arbiter.servesInReady, h.arbiter.grantsPending, h.arbiter.grantedLast, nofun,
      h.executors.congr, ?_, ⟨fun hd => ?_, fun _ hpos => absurd hpos (Nat.lt_irrefl 0)⟩, ?_, h.sweeps.congr,
      h.waits.congr, h.token.congr, h.chains.congr, ⟨h.queues.events, h.queues.links, nofun⟩⟩ h.outstanding.congr
      (fun r => rfl)
    · exact ⟨h.tables.entriesWf, h.tables.rowsWf, h.tables.entriesInRange, h.tables.rowsInRange, h.tables.targetsInRange,
        Nat.zero_lt_succ _, h.tables.sweepInRange⟩
    · exact absurd (hinit.symm.trans hd) (by simp)
    · exact ⟨h.sessions.fits, h.sessions.closingSwept, h.sessions.sweptOnce, h.sessions.executingAttached,
        h.sessions.abandonedLost, nofun⟩
  · exact h

/-! ## The part right after reset -/

theorem State.reset_entry (k : Slot) : State.reset.entry k = .default := rfl

theorem State.reset_tables : State.reset.TableLaw where
  entriesWf := rfl
  rowsWf := rfl
  entriesInRange := fun r hr => absurd hr List.not_mem_nil
  rowsInRange := fun r hr => absurd hr List.not_mem_nil
  targetsInRange := fun k t hk => by rw [State.reset_entry] at hk; cases hk
  passInRange := Nat.zero_lt_succ _
  sweepInRange := Nat.zero_lt_succ _

/-- The laws hold right after reset, whatever commands wait. -/
theorem State.reset_laws (cs : List Instr) : ({ State.reset with pending := cs } : State).Laws :=
  State.TableLaw.hold (s := { State.reset with pending := cs }) (State.reset_tables.congr rfl rfl rfl rfl)
    fun _ => ⟨1, rfl⟩

end Sys2Proof.Machine

open Sys2Proof Sys2Proof.Machine

/-- Settles O46: the part right after reset is a part held in device reset, its tables empty. -/
theorem lawsHoldAtReset : Obligations.LawsHoldAtReset := State.reset_laws []

end

