-- ==== Sys2Proof/Proofs/PassEnds.lean ====
section
/-! SUPPORT. The end of a sweep pass (R135, R137, R139), the Sweeper's tests ahead of an entry to CLEARING (R134), and the
entry itself (R36), which ends a step in the laws. -/

namespace Sys2Proof.Machine

variable {s t : State} {n p : Port} {r : SweepRecord} {rest : List SweepRecord}

/-! ## A port leaves CLOSING -/

/-- The controller of a swept port after its pass: in OPEN or DOWN (R137). -/
def State.leftClosing (s : State) (p : Port) : PortControl :=
  { s.port p with portState := s.stateAfterClosing p, linkDown := false }

/-- The head record r is removed and its port leaves CLOSING; its reply and the notice are still to be posted. -/
def State.unlisted (s : State) (r : SweepRecord) (rest : List SweepRecord) : State :=
  { s.setPort r.port (s.leftClosing r.port) with sweeps := rest, sweepPos := 0, sweepVisit := false }

/-- The head record's pass is over (R137, R139). -/
def State.passOver (s : State) (st : Status) (r : SweepRecord) (rest : List SweepRecord) : State :=
  { s.closeRecord st r with sweeps := rest, sweepPos := 0, sweepVisit := false }

theorem State.endPass_eq (hr : s.sweeps = r :: rest) : s.endPass = s.passOver .ok r rest := by
  unfold State.endPass
  rw [hr]
  rfl

theorem State.passOver_eq (st : Status) : s.passOver st r rest =
    State.postNotice (match r.detachReply st with
      | some reply => (s.unlisted r rest).postReply r.port reply
      | none => s.unlisted r rest) .sweepDone r.port r.reason := by
  unfold State.passOver State.closeRecord
  cases r.detachReply st <;> rfl

/-- The end of a pass touches the controllers and the sweep list alone. -/
theorem State.passOver_frame (st : Status) : s.passOver st r rest = { s with
    ports := (s.passOver st r rest).ports, sweeps := rest, sweepPos := 0, sweepVisit := false } := by
  rw [State.passOver_eq]
  cases r.detachReply st <;> rfl

theorem State.stateAfterClosing_cases (s : State) (p : Port) :
    s.stateAfterClosing p = .down ∨ s.stateAfterClosing p = .opened := by
  unfold State.stateAfterClosing
  split
  · exact .inl rfl
  · exact .inr rfl

/-- The controller of a port that leaves CLOSING fits its new state. -/
theorem State.Sound.leftClosing_fits (h : s.Sound) (hp : s.portState p = .closing) :
    portFits (s.leftClosing p) (s.link p).lineHigh := by
  have hfits := h.sessions.fits p
  have hline := hfits.line
  have hp : (s.port p).portState = .closing := hp
  rw [hp] at hline
  have hstate : s.stateAfterClosing p = if (s.link p).lineHigh then .opened else .down := by
    unfold State.stateAfterClosing
    rw [hline]
    cases (s.link p).lineHigh <;> rfl
  refine ⟨?_, fun hd => absurd (hfits.detachPending hd) (by simp [hp]),
    fun m hm => absurd (hfits.leaseTimer m hm).1 (by simp [hp]), fun _ => hfits.eventsOnlyAttached (by simp [hp]), ?_,
    hfits.needsLine, hfits.sessionRange⟩
  · show match s.stateAfterClosing p with
      | .down => (s.link p).lineHigh = false
      | .opened | .attached => (s.link p).lineHigh = true
      | .closing => false = !(s.link p).lineHigh
    rw [hstate]
    cases (s.link p).lineHigh <;> rfl
  · have hq := hfits.queue
    unfold queueFits at hq ⊢
    rw [hp] at hq
    show match s.stateAfterClosing p with
      | .down => _ | .opened => _ | .closing => _ | .attached => _
    rw [hstate]
    cases hl : (s.link p).lineHigh with
    | false => exact (hfits.needsLine hl).1
    | true => exact fun rq hrq => .inr (hq rq hrq)

theorem State.unlisted_port (p : Port) :
    (s.unlisted r rest).port p = if p = r.port then s.leftClosing r.port else s.port p :=
  PerPort.get_set s.ports r.port p _

theorem State.unlisted_portState (p : Port) :
    (s.unlisted r rest).portState p = if p = r.port then s.stateAfterClosing r.port else s.portState p := by
  unfold State.portState
  rw [State.unlisted_port]
  split <;> rfl

/-- The port of a listed record is CLOSING, and no other record is of that port (R133). -/
theorem State.Sound.head_closing (h : s.Sound) (hr : s.sweeps = r :: rest) :
    s.portState r.port = .closing ∧ (∀ x ∈ rest, x.port ≠ r.port) ∧ (rest.map SweepRecord.port).Nodup := by
  have honce := h.sessions.sweptOnce
  rw [hr, List.map_cons, List.nodup_cons] at honce
  exact ⟨(h.sessions.closingSwept _).2 ⟨r, by rw [hr]; exact List.mem_cons_self, rfl⟩,
    fun x hx hp => honce.1 (List.mem_map.2 ⟨x, hx, hp⟩), honce.2⟩

/-- A record whose port owns and watches nothing, and whose lost executor has stopped, is removed. -/
theorem State.Sound.unlisted (h : s.Sound) (hr : s.sweeps = r :: rest)
    (ha : (s.executor r.port).abandoned = false) (hz : s.tallies.get r.port = { owned := 0, watch := 0 })
    (hp : s.inProgress ≠ some .sweeper) : (s.unlisted r rest).Sound := by
  obtain ⟨hclosing, hother, honce⟩ := h.head_closing hr
  have hstate := State.unlisted_portState (s := s) (r := r) (rest := rest)
  have hleft := s.stateAfterClosing_cases r.port
  have hheld : s.held = false := by
    by_contra hd
    have := (h.sessions.heldEmpty (by simpa using hd)).1
    rw [hr] at this
    cases this
  have hkeep : ∀ q, s.portState q = .attached → (s.unlisted r rest).portState q = .attached := fun q hq => by
    rw [hstate, if_neg]
    · exact hq
    · rintro rfl
      simp [hclosing] at hq
  refine ⟨h.servesInReady, fun x hx => ?_, h.grantedLast, h.heldInInit, h.executors.congr rfl rfl, ?_,
    h.directory.congr rfl rfl rfl rfl rfl rfl, ?_, ?_, ?_, h.token.congr rfl rfl, h.chains.congr rfl rfl, ?_⟩
  · cases x with
    | sweeper => exact absurd hx hp
    | executor q => exact h.grantsPending (.executor q) hx
  · exact ⟨h.tables.entriesWf, h.tables.rowsWf, h.tables.entriesInRange, h.tables.rowsInRange, h.tables.targetsInRange,
      h.tables.passInRange, Nat.zero_lt_succ _⟩
  · refine ⟨fun q => ?_, fun q => ?_, honce, fun q hs hq => hkeep q (h.sessions.executingAttached q hs hq),
      fun q hq => ?_, fun hd => absurd (hheld.symm.trans hd) (by simp)⟩
    · rw [State.unlisted_port]
      split
      · next hq => rw [hq]; exact h.leftClosing_fits hclosing
      · exact h.sessions.fits q
    · rw [hstate]
      show _ ↔ ∃ x ∈ rest, x.port = q
      split
      · next hq =>
        have hne : s.stateAfterClosing r.port ≠ .closing := by rcases hleft with hl | hl <;> simp [hl]
        exact iff_of_false hne fun ⟨x, hx, hxq⟩ => hother x hx (hxq.trans hq)
      · next hq =>
        rw [h.sessions.closingSwept q, hr]
        simp [Ne.symm hq]
    · obtain ⟨x, hx, hxq, hloss⟩ := h.sessions.abandonedLost q hq
      rw [hr, List.mem_cons] at hx
      rcases hx with rfl | hx
      · rw [show (s.unlisted x rest).executor q = s.executor q from rfl, ← hxq, ha] at hq
        cases hq
      · exact ⟨x, hx, hxq, hloss⟩
  · refine ⟨fun _ hv => (by cases hv), fun _ => rfl, fun q hq => ?_⟩
    rw [hstate] at hq
    split at hq
    · next hqr => rw [hqr]; exact hz
    · exact h.sweeps.closedOwnsNothing q hq
  · exact ⟨h.waits.terminalEmpty, fun w hw => hkeep _ (h.waits.portAttached w hw), h.waits.places, h.waits.onlyInReady⟩
  · refine ⟨fun q => ?_, h.queues.links, h.queues.noBitsWhileHeld⟩
    rw [State.unlisted_port]
    split
    · exact (h.queues.events r.port).congr
    · exact h.queues.events q

/-- The reply that a record owes carries the tag that it owes (R133, R137). -/
theorem SweepRecord.detachReply_tag (r : SweepRecord) (st : Status) :
    (r.detachReply st).map Reply.tag = r.owedTag := by
  obtain ⟨q, kind⟩ := r
  rcases kind with ⟨_ | tag, c⟩ | x <;> rfl

/-- A port that is owed a reply has its line high (R122, R132). -/
theorem State.Sound.lineHigh_of_owed (h : s.Sound) (ho : s.OutstandingLaw) {tag : Tag} (hr : r ∈ s.sweeps)
    (howed : r.owedTag = some tag) : (s.link r.port).lineHigh = true := by
  by_contra hlow
  have htags := ((h.sessions.fits r.port).needsLine (by simpa using hlow)).2.2
  have hplaces := ho.onePlaceEach r.port
  rw [htags] at hplaces
  have hmem : tag ∈ s.outstandingPlaces r.port := by
    rw [State.outstandingPlaces_eq]
    have : tag ∈ sweepTags s.sweeps r.port :=
      List.mem_filterMap.2 ⟨r, List.mem_filter.2 ⟨hr, by simp⟩, howed⟩
    simp [this]
  rw [hplaces.symm.eq_nil] at hmem
  cases hmem

/-- A pass that is over leaves the laws between acts, and the outstanding requests in their places (R135, R137). -/
theorem State.Sound.passOver (h : s.Sound) (ho : s.OutstandingLaw) (hr : s.sweeps = r :: rest)
    (ha : (s.executor r.port).abandoned = false) (hz : s.tallies.get r.port = { owned := 0, watch := 0 })
    (hp : s.inProgress ≠ some .sweeper) (st : Status) :
    (s.passOver st r rest).Sound ∧ (s.passOver st r rest).OutstandingLaw := by
  have hun := h.unlisted hr ha hz hp
  have hport := State.unlisted_port (s := s) (r := r) (rest := rest)
  have htags : ∀ q, ((s.unlisted r rest).port q).tags = (s.port q).tags := fun q => by
    rw [hport]
    split
    · next hq => rw [hq]; rfl
    · rfl
  have hqueue : ∀ q, (s.unlisted r rest).queueTags q = s.queueTags q := fun q => by
    unfold State.queueTags
    rw [hport]
    split
    · next hq => rw [hq]; rfl
    · rfl
  have hreply : ∀ q, (s.unlisted r rest).replyTags q = s.replyTags q := fun q => by
    unfold State.replyTags
    rw [hport]
    split
    · next hq => rw [hq]; rfl
    · rfl
  have hsweeps : ∀ q, sweepTags s.sweeps q = (if r.port = q then r.owedTag.toList else []) ++ sweepTags rest q :=
    fun q => by rw [hr, sweepTags_cons]
  have htag := r.detachReply_tag st
  rw [State.passOver_eq]
  cases hd : r.detachReply st with
  | none =>
    rw [hd] at htag
    refine ⟨hun.postEvent _ _, State.OutstandingLaw.postEvent (ho.of_count htags fun q a => ?_) _ _⟩
    rw [hqueue, hreply, hsweeps, ← htag]
    show _ + (s.executor q).tags.count a + (waitTags s.waits q).count a + (sweepTags rest q).count a + _ = _
    simp
  | some reply =>
    rw [hd] at htag
    have hline := h.lineHigh_of_owed ho (r := r) (by rw [hr]; exact List.mem_cons_self) htag.symm
    refine ⟨(hun.postReply hline reply).postEvent _ _, State.OutstandingLaw.postEvent (ho.of_count (fun q => ?_) fun q a => ?_) _ _⟩
    · rw [State.postReply_tags, htags]
    · rw [State.postReply_queueTags, State.postReply_replyTags, hqueue, hreply, hsweeps, ← htag]
      show _ + (s.executor q).tags.count a + (waitTags s.waits q).count a + (sweepTags rest q).count a + _ = _
      by_cases hq : q = r.port
      · simp only [hq, if_pos, List.count_append, Option.map_some, Option.toList_some]
        omega
      · simp [hq, Ne.symm hq]

/-! ## The records removed at the start of a clearing pass (R139) -/

theorem State.closeRecord_sweepFields (st : Status) (x : List SweepRecord) (k : Slot) (b : Bool) :
    State.closeRecord { s with sweeps := x, sweepPos := k, sweepVisit := b } st r =
      { s.closeRecord st r with sweeps := x, sweepPos := k, sweepVisit := b } := by
  unfold State.closeRecord
  cases r.detachReply st <;> rfl

/-- Records all removed, head first: nothing listed, no pass. -/
def State.removeRecords (s : State) (x : List SweepRecord) : State :=
  { x.foldl (fun s r => s.closeRecord .cancelled r) s with sweeps := [], sweepPos := 0, sweepVisit := false }

theorem State.removeRecords_cons (x : List SweepRecord) :
    s.removeRecords (r :: x) = (s.passOver .cancelled r rest).removeRecords x := by
  have hfold : ∀ (x y : List SweepRecord) (k : Slot) (b : Bool) (u : State),
      State.removeRecords { u with sweeps := y, sweepPos := k, sweepVisit := b } x = u.removeRecords x := by
    intro x
    induction x with
    | nil => exact fun _ _ _ _ => rfl
    | cons r x ih =>
      intro y k b u
      show State.removeRecords (State.closeRecord _ _ _) x = (u.closeRecord .cancelled r).removeRecords x
      rw [State.closeRecord_sweepFields, ih]
  show (s.closeRecord .cancelled r).removeRecords x = _
  exact (hfold x rest 0 false _).symm

/-- The Sweeper at its start: no visit, at position 0. -/
theorem State.Sound.atSweepStart (h : s.Sound) (hp : s.inProgress ≠ some .sweeper) :
    ({ s with sweepPos := 0, sweepVisit := false } : State).Sound := by
  refine ⟨h.servesInReady, fun x hx => ?_, h.grantedLast, h.heldInInit, h.executors.congr,
    ⟨h.tables.entriesWf, h.tables.rowsWf, h.tables.entriesInRange, h.tables.rowsInRange, h.tables.targetsInRange,
      h.tables.passInRange, Nat.zero_lt_succ _⟩, h.directory.congr, h.sessions.congr,
    ⟨fun _ hv => (by cases hv), fun _ => rfl, h.sweeps.closedOwnsNothing⟩, h.waits.congr, h.token.congr, h.chains.congr,
    h.queues.congr⟩
  cases x with
  | sweeper => exact absurd hx hp
  | executor q => exact h.grantsPending (.executor q) hx

/-- With every tally 0 and no executor abandoned, all records may be removed. -/
theorem State.Sound.removeRecords (x : List SweepRecord) : ∀ {s : State}, s.Sound → s.OutstandingLaw → s.sweeps = x →
    (∀ p, (s.executor p).abandoned = false) → (∀ p, s.tallies.get p = { owned := 0, watch := 0 }) →
    s.inProgress ≠ some .sweeper → (s.removeRecords x).Sound ∧ (s.removeRecords x).OutstandingLaw ∧
      s.removeRecords x = { s with ports := (s.removeRecords x).ports, sweeps := [], sweepPos := 0, sweepVisit := false } := by
  induction x with
  | nil =>
    intro s h ho hx _ _ hp
    have hs : s.removeRecords [] = { s with sweepPos := 0, sweepVisit := false } := by
      rw [State.ext_iff]
      simp [State.removeRecords, hx]
    rw [hs]
    exact ⟨h.atSweepStart hp, ho.congr, by rw [hx]⟩
  | cons r x ih =>
    intro s h ho hx ha hz hp
    obtain ⟨hsound, hout⟩ := h.passOver ho hx (ha _) (hz _) hp .cancelled
    have hframe := State.passOver_frame (s := s) (r := r) (rest := x) .cancelled
    rw [State.removeRecords_cons (rest := x)]
    generalize s.passOver .cancelled r x = u at hsound hout hframe
    generalize u.ports = ports at hframe
    subst hframe
    exact ih hsound hout rfl ha hz hp

end Sys2Proof.Machine
end

