-- ==== Sys2Proof/Proofs/EntryToClearing.lean ====
section
/-! SUPPORT. The Sweeper's tests (R134, R135), entry to CLEARING (R36), and what follows the completion of a cycle, which
ends a step in the laws (R25, R27, R29). -/

namespace Sys2Proof.Machine

variable {s t : State} {n p : Port} {r : SweepRecord} {rest : List SweepRecord} {e : Executor}

/-- No cycle is in progress in READY, and a due entry to CLEARING and the arbiter's turn are still to come. -/
structure State.Settled (s : State) : Prop where
  sound : s.Sound
  outstanding : s.OutstandingLaw
  ready : s.device = .ready
  free : s.inProgress = none

/-! ## The Sweeper's test -/

/-- The executor of the head record's port has stopped where its pass may start (R131, R134). -/
theorem State.Sound.stopped_of_mayStart (h : s.Sound) (hr : s.sweeps = r :: rest) (hstart : s.sweepMayStart r = true) :
    (s.executor r.port).abandoned = false := by
  cases hk : r.kind with
  | loss x => exact State.sweepMayStart_loss hstart ⟨x, hk⟩
  | detach tag c =>
    by_contra ha
    obtain ⟨q, hq, hqp, x, hx⟩ := h.sessions.abandonedLost r.port (by simpa using ha)
    rw [hr, List.mem_cons] at hq
    rcases hq with rfl | hq
    · rw [hk] at hx
      cases hx
    · exact (h.head_closing hr).2.1 q hq hqp

/-- The executor of a record whose pass may start is IDLE (R138). -/
theorem State.Sound.idle_of_mayStart (h : s.Sound) (hr : s.sweeps = r :: rest) (hstart : s.sweepMayStart r = true) :
    (s.executor r.port).state = .idle :=
  h.idle_of_not_attached (by rw [(h.head_closing hr).1]; simp) (h.stopped_of_mayStart hr hstart)

/-- The end of the head record's pass keeps what is settled. -/
theorem State.Settled.endPass (h : s.Settled) (hr : s.sweeps = r :: rest)
    (ha : (s.executor r.port).abandoned = false) (hz : s.tallies.get r.port = { owned := 0, watch := 0 }) :
    s.endPass.Settled := by
  obtain ⟨hsound, hout⟩ := h.sound.passOver h.outstanding hr ha hz (by simp [h.free]) .ok
  rw [State.endPass_eq hr]
  refine ⟨hsound, hout, ?_, ?_⟩ <;> rw [State.passOver_frame]
  · exact h.ready
  · exact h.free

theorem State.Settled.freeIndex (h : s.Settled) (i : Nat) : ({ s with freeIndex := i } : State).Settled :=
  ⟨h.sound.congr rfl, h.outstanding.congr, h.ready, h.free⟩

/-- The tests that come ahead of an entry keep what is settled. -/
theorem State.Settled.testsAhead (m : Nat) : ∀ {s : State}, s.Settled → (s.testsAhead m).Settled := by
  induction m with
  | zero => exact fun h => h
  | succ m ih =>
    intro s h
    unfold State.testsAhead
    split
    · exact h
    · next r rest hr =>
      split
      · next htest =>
        obtain ⟨-, -, hstart, hzero⟩ := htest
        exact ih ((h.freeIndex _).endPass hr (h.sound.stopped_of_mayStart hr hstart) ((State.countsZero_iff s _).1 hzero))
      · exact h

/-- The Sweeper's test touches the controllers and its own state alone. -/
theorem State.sweepTest_frame (s : State) : s.sweepTest = { s with
    ports := s.sweepTest.ports, sweeps := s.sweepTest.sweeps, sweepPos := s.sweepTest.sweepPos
    sweepVisit := s.sweepTest.sweepVisit } := by
  cases hr : s.sweeps with
  | nil =>
    have hs : s.sweepTest = s := by unfold State.sweepTest; rw [hr]
    rw [hs]
  | cons r rest =>
    rw [State.sweepTest_cons hr]
    split
    · rw [State.endPass_eq hr]
      conv_lhs => rw [State.passOver_frame]
      rw [State.passOver_frame]
    · rfl

/-- The Sweeper's test at a position below which the head record's port owns and watches nothing (R135). -/
theorem State.Sound.sweepTest (h : s.Sound) (ho : s.OutstandingLaw) (hready : s.device = .ready)
    (hp : s.inProgress ≠ some .sweeper) (hr : s.sweeps = r :: rest) (hidle : (s.executor r.port).state = .idle)
    (hbelow : ∀ k, k < s.sweepPos → (s.entry k).watch.get r.port = false
      ∧ ((s.entry k).owner = some r.port → (s.entry k).orphaned = true)) :
    s.sweepTest.Sound ∧ s.sweepTest.OutstandingLaw := by
  have ha : (s.executor r.port).abandoned = false := by rw [(h.executors.shaped _).eq_idle hidle]; rfl
  rw [State.sweepTest_cons hr]
  split
  · next hz =>
    rw [State.endPass_eq hr]
    exact h.passOver ho hr ha hz hp .ok
  · refine ⟨⟨h.servesInReady, fun x hx => ?_, h.grantedLast, h.heldInInit, h.executors.congr, h.tables.congr,
      h.directory.congr, h.sessions.congr, ⟨fun _ _ => ⟨r, rest, hr, hidle, hbelow⟩, fun hd => absurd hready hd,
      h.sweeps.closedOwnsNothing⟩, h.waits.congr, h.token.congr, h.chains.congr, h.queues.congr⟩, ho.congr⟩
    cases x with
    | sweeper => rfl
    | executor q => exact h.grantsPending (.executor q) hx

theorem State.Settled.sweepTest (h : s.Settled) (hr : s.sweeps = r :: rest) (hidle : (s.executor r.port).state = .idle)
    (hbelow : ∀ k, k < s.sweepPos → (s.entry k).watch.get r.port = false
      ∧ ((s.entry k).owner = some r.port → (s.entry k).orphaned = true)) : s.sweepTest.Settled := by
  obtain ⟨hsound, hout⟩ := h.sound.sweepTest h.outstanding h.ready (by simp [h.free]) hr hidle hbelow
  refine ⟨hsound, hout, ?_, ?_⟩ <;> rw [State.sweepTest_frame]
  · exact h.ready
  · exact h.free

/-! ## Entry to CLEARING -/

theorem Executor.onClearDirectory_iff : e.onClearDirectory = true ↔ ∃ tag, e.current = some ⟨tag, .clearDirectory⟩ := by
  unfold Executor.onClearDirectory
  cases hc : e.current with
  | none => simp
  | some rq => obtain ⟨tag, op⟩ := rq; simp

/-- A CLEAR_DIRECTORY executes with no store cycle and no link token (R39, R170). -/
theorem Executor.shaped.onClearDirectory (h : e.shaped) (hc : e.onClearDirectory = true) :
    (e.state = .running .clearing ∨ e.state = .running .awaitPass) ∧ e.hasCycle = false ∧ e.linking = false := by
  obtain ⟨tag, hcur⟩ := Executor.onClearDirectory_iff.1 hc
  have hstate : e.state = .running .clearing ∨ e.state = .running .awaitPass := by
    cases hs : e.state with
    | idle => rw [h.eq_idle hs] at hcur; cases hcur
    | tokenWait =>
      obtain ⟨tag', k, t, hl⟩ := Executor.onLink_iff.1 (h.waiting hs).1
      simp [hcur] at hl
    | running w =>
      obtain ⟨rq, hrq, hfit⟩ := h.running hs
      obtain rfl : (⟨tag, .clearDirectory⟩ : Request) = rq := Option.some.inj (hcur.symm.trans hrq)
      cases w <;> simp [Work.fits] at hfit ⊢
  refine ⟨hstate, ?_, ?_⟩
  · rcases hstate with hs | hs <;> simp [Executor.hasCycle, hs, Work.needsCycle]
  · rcases hstate with hs | hs <;> simp [Executor.linking, hs]

/-- The CANCELLED replies that entry to CLEARING posts to port p (R36, R95). -/
def State.clearingReplies (s : State) (p : Port) : List Reply :=
  inFreeOrder (Config.parkedCancelledFirst s.freeIndex p) (stoppedReplies (s.port p) (s.executor p))
    ((s.waits.filter (fun w => decide (w.port = p))).map (fun w => waitReply w .cancelled none none))

/-- A controller whose events are flushed. -/
def PortControl.eventless (c : PortControl) : PortControl := { c with eventQueue := [] }

/-- Every ATTACHED port has its events flushed and DIRECTORY_CLEARED appended (R153). -/
def State.toldCleared (s : State) : State :=
  let told (c : PortControl) := if c.portState = .attached then c.eventless.push directoryClearedEvent else c
  { s with ports := s.ports.mapPorts (fun _ c => told c) }

/-- Every executor but those on a CLEAR_DIRECTORY has stopped, and the token is FREE (R36, R52). -/
def State.executorsStopped (s : State) : State :=
  { s with
    execs := s.execs.mapPorts (fun _ e => if e.onClearDirectory then e else .idle)
    serial := { token := .free, queue := [] } }

theorem State.enterClearing_eq : s.enterClearing =
    { (s.postReplies s.clearingReplies).toldCleared.executorsStopped with
      device := .clearing, passPos := 0, clearDue := false, sweepVisit := false, waits := []
      freeIndex := s.freeIndex + 1 } := by
  have hports : s.enterClearing.ports = (s.postReplies s.clearingReplies).toldCleared.ports := by
    refine PerPort.eq_of_get fun p => ?_
    simp only [State.toldCleared, State.postReplies, PerPort.get_mapPorts]
    exact State.enterClearing_port s p
  rw [State.ext_iff]
  simp only [hports]
  exact ⟨rfl, rfl, rfl, rfl, rfl, rfl, rfl, rfl, rfl, rfl, rfl, rfl, rfl, rfl, rfl, rfl, rfl, rfl, rfl, rfl, rfl, rfl⟩

theorem State.clearingReplies_tags (s : State) (p : Port) : ((s.clearingReplies p).map Reply.tag).Perm
    ((stoppedReplies (s.port p) (s.executor p)).map Reply.tag ++ waitTags s.waits p) := by
  have hparked : ((s.waits.filter (fun w => decide (w.port = p))).map
      (fun w => waitReply w .cancelled none none)).map Reply.tag = waitTags s.waits p := by
    rw [List.map_map]; rfl
  rw [← hparked, ← List.map_append]
  unfold State.clearingReplies
  rcases inFreeOrder_cases (Config.parkedCancelledFirst s.freeIndex p) (stoppedReplies (s.port p) (s.executor p))
    ((s.waits.filter (fun w => decide (w.port = p))).map (fun w => waitReply w .cancelled none none)) with hx | hx <;> rw [hx]
  exact List.perm_append_comm.map _

/-- Replies are posted to ATTACHED ports alone. -/
theorem State.Sound.clearingReplies_nil (h : s.Sound) (hatt : s.portState p ≠ .attached) : s.clearingReplies p = [] := by
  have hperm := s.clearingReplies_tags p
  have hstopped : stoppedReplies (s.port p) (s.executor p) = [] := if_neg fun hc => hatt hc.1
  rw [hstopped, h.waitTags_of_not_attached hatt] at hperm
  exact List.map_eq_nil_iff.1 hperm.eq_nil

theorem State.toldCleared_port (p : Port) : s.toldCleared.port p =
    if s.portState p = .attached then (s.port p).eventless.push directoryClearedEvent else s.port p :=
  PerPort.get_mapPorts _ _ p

theorem State.Sound.toldCleared (h : s.Sound) : s.toldCleared.Sound := by
  refine h.withPorts rfl (fun p => ?_) (fun p => ?_) (fun p => ?_) (fun hd p => ?_)
  · unfold State.portState
    rw [State.toldCleared_port]
    split
    · rw [PortControl.push_portState]; rfl
    · rfl
  all_goals
    rw [State.toldCleared_port]
    split
  · next hatt =>
    have hfits := h.sessions.fits p
    refine portFits.push (c := (s.port p).eventless) ⟨hfits.line, hfits.detachPending, hfits.leaseTimer, fun hne => absurd hatt hne,
      hfits.queue.congr, hfits.needsLine, hfits.sessionRange⟩ _ hatt
  · exact h.sessions.fits p
  · exact (eventsFit_of_nil (c := (s.port p).eventless) rfl (h.queues.events p).creditsSaturate).push _
  · exact h.queues.events p
  · rw [PortControl.push_requestQueue]
    exact h.requestQueue_of_held hd p
  · exact h.requestQueue_of_held hd p

theorem State.executorsStopped_executor (p : Port) : s.executorsStopped.executor p =
    if (s.executor p).onClearDirectory then s.executor p else .idle := PerPort.get_mapPorts _ _ p

theorem State.Sound.executorsStopped (h : s.Sound) (hp : s.inProgress = none) : s.executorsStopped.Sound := by
  refine h.withExecs rfl (fun p => ?_) (State.tokenLaw_of_free rfl (fun p => ?_) (fun p => ?_)) <;>
    rw [State.executorsStopped_executor] <;> split
  · exact h.execFits p
  · exact State.execFits_idle (by simp [hp])
  · next hc => exact ((h.executors.shaped p).onClearDirectory hc).2.2
  · rfl
  · next hc => rcases ((h.executors.shaped p).onClearDirectory hc).1 with hs | hs <;> simp [hs]
  · simp

/-- An executor on a CLEAR_DIRECTORY is not abandoned: it has no cycle (R36, R131). -/
theorem State.Sound.clearing_not_abandoned (h : s.Sound) (hc : (s.executor p).onClearDirectory = true) :
    (s.executor p).abandoned = false := by
  by_contra ha
  have hcycle := (h.executors.abandonedRuns p (by simpa using ha)).1
  rw [((h.executors.shaped p).onClearDirectory hc).2.1] at hcycle
  cases hcycle

/-- An executor stopped at entry to CLEARING is answered where a reply is still owed (R36). -/
theorem State.Sound.stoppedReplies_tags (h : s.Sound) (p : Port) (hna : (s.executor p).abandoned = true →
      s.portState p ≠ .attached) : (stoppedReplies (s.port p) (s.executor p)).map Reply.tag
    ++ (s.executorsStopped.executor p).tags = (s.executor p).tags := by
  rw [State.executorsStopped_executor]
  unfold stoppedReplies
  cases hc : (s.executor p).onClearDirectory with
  | true => simp
  | false =>
    by_cases hatt : s.portState p = .attached
    · have hatt' : (s.port p).portState = .attached := hatt
      have hnot : (s.executor p).abandoned = false := Bool.eq_false_iff.2 fun ha => hna ha hatt
      cases hcur : (s.executor p).current <;> simp [hatt', hcur, Executor.tags, hnot, bareReply]
    · have hatt' : (s.port p).portState ≠ .attached := hatt
      simp [hatt', h.tags_of_not_attached hatt]

/-- An ATTACHED port's request has not been abandoned (R131, R133). -/
theorem State.Sound.abandoned_not_attached (h : s.Sound) (ha : (s.executor p).abandoned = true) :
    s.portState p ≠ .attached := by
  obtain ⟨r, hr, hrp, -⟩ := h.sessions.abandonedLost p ha
  rw [(h.sessions.closingSwept p).2 ⟨r, hr, hrp⟩]
  simp

theorem State.Settled.enterClearing_sound (h : s.Settled) : s.enterClearing.Sound := by
  have hreplies : (s.postReplies s.clearingReplies).Sound := h.sound.postReplies fun p hlow =>
    h.sound.clearingReplies_nil fun hatt => by rw [h.sound.lineHigh_of_attached hatt] at hlow; cases hlow
  have hstopped := hreplies.toldCleared.executorsStopped h.free
  have hready : (s.postReplies s.clearingReplies).toldCleared.executorsStopped.device = .ready := h.ready
  have hfree : (s.postReplies s.clearingReplies).toldCleared.executorsStopped.inProgress = none := h.free
  have hna : ∀ p, ((s.postReplies s.clearingReplies).toldCleared.executorsStopped.executor p).abandoned = false := by
    intro p
    rw [State.executorsStopped_executor]
    split
    · next hc => exact hreplies.toldCleared.clearing_not_abandoned hc
    · rfl
  rw [State.enterClearing_eq]
  generalize (s.postReplies s.clearingReplies).toldCleared.executorsStopped = u at hstopped hready hfree hna
  have hheld : u.held ≠ true := fun hd => by simp [hstopped.heldInInit hd] at hready
  exact {
    servesInReady := fun _ => hfree
    grantsPending := fun r hr => by rw [show u.inProgress = some r from hr] at hfree; cases hfree
    grantedLast := fun r hr => by rw [show u.inProgress = some r from hr] at hfree; cases hfree
    heldInInit := fun hd => absurd hd hheld
    executors := ⟨hstopped.executors.shaped, hstopped.executors.examined, hstopped.executors.inRange,
      hstopped.executors.hopsInRange, fun p hp => absurd ((hna p).symm.trans hp) (by simp)⟩
    tables := ⟨hstopped.tables.entriesWf, hstopped.tables.rowsWf, hstopped.tables.entriesInRange,
      hstopped.tables.rowsInRange, hstopped.tables.targetsInRange, Nat.zero_lt_succ _, hstopped.tables.sweepInRange⟩
    directory := ⟨nofun, fun _ hpos => absurd hpos (Nat.lt_irrefl 0)⟩
    sessions := ⟨hstopped.sessions.fits, hstopped.sessions.closingSwept, hstopped.sessions.sweptOnce,
      hstopped.sessions.executingAttached, hstopped.sessions.abandonedLost, fun hd => absurd hd hheld⟩
    sweeps := ⟨nofun, fun _ => rfl, hstopped.sweeps.closedOwnsNothing⟩
    waits := ⟨nofun, nofun, Nat.zero_le _, fun _ => rfl⟩
    token := hstopped.token.congr
    chains := hstopped.chains.congr
    queues := hstopped.queues.congr }

theorem State.Settled.enterClearing_outstanding (h : s.Settled) : s.enterClearing.OutstandingLaw := by
  have hport : ∀ p, (((s.postReplies s.clearingReplies).toldCleared.port p).tags = (s.port p).tags ∧
      (s.postReplies s.clearingReplies).toldCleared.queueTags p = s.queueTags p) ∧
      (s.postReplies s.clearingReplies).toldCleared.replyTags p =
        s.replyTags p ++ (s.clearingReplies p).map Reply.tag := by
    intro p
    unfold State.queueTags State.replyTags
    rw [State.toldCleared_port, State.postReplies_port]
    split <;> simp [PortControl.eventless]
  rw [State.enterClearing_eq]
  refine h.outstanding.of_count (fun p => (hport p).1.1) (fun p a => ?_)
  have hstopped := congrArg (List.count a) (h.sound.stoppedReplies_tags p fun ha => h.sound.abandoned_not_attached ha)
  have hreplies := (s.clearingReplies_tags p).count_eq a
  show ((s.postReplies s.clearingReplies).toldCleared.queueTags p).count a + (s.executorsStopped.executor p).tags.count a +
    0 + (sweepTags s.sweeps p).count a + ((s.postReplies s.clearingReplies).toldCleared.replyTags p).count a = _
  rw [(hport p).1.2, (hport p).2]
  rw [List.count_append] at hstopped hreplies ⊢
  omega

/-- Entry to CLEARING ends a step in the laws (R36). -/
theorem State.Settled.enterClearing (h : s.Settled) : s.enterClearing.Laws :=
  h.enterClearing_sound.laws h.enterClearing_outstanding nofun nofun

/-! ## After the completion of a cycle -/

/-- A due entry to CLEARING, or the arbiter's turn, ends a step in the laws (R25, R36). -/
theorem State.Settled.afterCompletion (h : s.Settled) : s.afterCompletion.Laws := by
  cases hc : s.clearDue with
  | true =>
    rw [State.afterCompletion_of_due hc]
    exact (State.Settled.testsAhead _ h).enterClearing
  | false =>
    unfold State.afterCompletion
    rw [hc]
    exact h.sound.arbitrate h.outstanding fun hd => by rw [hc] at hd; cases hd

end Sys2Proof.Machine
end

