-- ==== Sys2Proof/Proofs/DirectoryWrites.lean ====
section
/-! SUPPORT. A write of one entry record with the counts that follow it (R12 to R15), the allocation and the retirement of a
slot (R16, R97, R101), and the laws they keep. -/

namespace Sys2Proof.Machine

/-! ## The number of records of a sort -/

namespace Table

variable {α : Type} {d : Nat → α} {f : α → Bool} {t : List (Nat × α)} {k : Nat} {a : α}

/-- The number of listed records that f picks. -/
def count (f : α → Bool) (t : List (Nat × α)) : Nat := t.countP (fun r => f r.2)

theorem count_cons (j : Nat) (b : α) : count f ((j, b) :: t) = count f t + (f b).toNat := by
  unfold count
  rw [List.countP_cons]
  cases f b <;> rfl

/-- A slot below the first listed one reads its default. -/
theorem get_of_lt {j : Nat} {b : α} (h : ((j, b) :: t).Pairwise (fun r q => r.1 < q.1)) (hk : k < j) : get d k t = d k :=
  get_of_not_mem d fun r hr => by
    have : j < r.1 := (List.pairwise_cons.1 h).1 r hr
    omega

theorem count_insert (hf : ∀ k, f (d k) = false) (h : t.Pairwise (fun r q => r.1 < q.1)) :
    count f (insert k a t) + (f (get d k t)).toNat = count f t + (f a).toNat := by
  induction t with
  | nil => simp [insert, count_cons, hf]
  | cons r t ih =>
    obtain ⟨j, b⟩ := r
    have ih := ih (List.pairwise_cons.1 h).2
    simp only [insert, get]
    rcases Nat.lt_trichotomy k j with hk | hk | hk
    · rw [if_pos hk, if_neg (by omega), get_of_lt h hk, hf, count_cons]
      rfl
    · rw [if_neg (by omega), if_pos hk.symm, if_pos hk.symm, count_cons, count_cons]
      omega
    · rw [if_neg (by omega), if_neg (by omega), if_neg (by omega), count_cons, count_cons]
      omega

theorem count_erase (hf : ∀ k, f (d k) = false) (h : t.Pairwise (fun r q => r.1 < q.1)) :
    count f (erase k t) + (f (get d k t)).toNat = count f t := by
  induction t with
  | nil => simp [erase, count, hf]
  | cons r t ih =>
    obtain ⟨j, b⟩ := r
    have ih' := ih (List.pairwise_cons.1 h).2
    by_cases hj : j = k
    · subst hj
      have hd : get d j t = d j := get_of_not_mem d fun r hr => by
        have : j < r.1 := (List.pairwise_cons.1 h).1 r hr
        omega
      rw [hd, hf] at ih'
      have he : erase j ((j, b) :: t) = erase j t := by simp [erase]
      rw [he, count_cons]
      simp only [get, if_pos, Bool.toNat_false, Nat.add_zero] at ih' ⊢
      rw [ih']
    · have he : erase k ((j, b) :: t) = (j, b) :: erase k t := by simp [erase, hj]
      rw [he, count_cons, count_cons]
      simp only [get, hj, if_false]
      omega

/-- A write of slot k changes the number of records that f picks by the record written and the one it replaces. -/
theorem count_set [DecidableEq α] (hf : ∀ k, f (d k) = false) (h : wf d t = true) :
    count f (set d k a t) + (f (get d k t)).toNat = count f t + (f a).toNat := by
  have hp := ((wf_iff d t).1 h).1
  unfold set
  split
  · next ha => rw [count_erase hf hp, ha, hf]; rfl
  · exact count_insert hf hp

end Table

variable {s t u : State} {n p : Port} {k : Slot} {e : Entry}

/-- Port p owns the entry, which is not orphaned (R14). -/
def Entry.ownedBy (e : Entry) (p : Port) : Bool := decide (e.owner = some p) && !e.orphaned

/-- The entry forwards to slot j (R12). -/
def Entry.forwardsTo (e : Entry) (j : Slot) : Bool := decide (e.content = .forward j)

theorem Entry.forwardsTo_iff {j : Slot} : e.forwardsTo j = true ↔ e.content = .forward j := by simp [Entry.forwardsTo]

theorem Entry.ownedBy_iff : e.ownedBy p = true ↔ e.owner = some p ∧ e.orphaned = false := by simp [Entry.ownedBy]

theorem State.forwardsTo_eq (j : Slot) : s.forwardsTo j = Table.count (fun e => e.forwardsTo j) s.entries :=
  List.countP_eq_length_filter.symm

theorem State.ownedBy_eq (p : Port) : s.ownedBy p = Table.count (fun e => e.ownedBy p) s.entries :=
  List.countP_eq_length_filter.symm

theorem State.watchedBy_eq (p : Port) : s.watchedBy p = Table.count (fun e => e.watch.get p) s.entries :=
  List.countP_eq_length_filter.symm

/-! ## Chains with fewer forwards (R59, R60) -/

/-- Every forward of t is one of s. -/
def State.forwardsIn (t s : State) : Prop := ∀ j v, (t.entry j).content = .forward v → (s.entry j).content = .forward v

theorem State.forwardsIn.follow (h : t.forwardsIn s) (m : Nat) (j x : Slot) (hx : t.follow m j = some x) :
    s.follow m j = some x := by
  induction m generalizing j with
  | zero => exact hx
  | succ m ih =>
    simp only [State.follow] at hx ⊢
    split at hx
    · next v hv => rw [h j v hv]; exact ih v hx
    · cases hx
    · cases hx

/-- A chain that reaches m forwards reaches every number below. -/
theorem State.follow_prefix {m i : Nat} {j x : Slot} (hx : s.follow m j = some x) (hi : i ≤ m) :
    ∃ y, s.follow i j = some y := by
  induction i generalizing m j with
  | zero => exact ⟨j, rfl⟩
  | succ i ih =>
    obtain ⟨m, rfl⟩ : ∃ l, m = l + 1 := ⟨m - 1, by omega⟩
    simp only [State.follow] at hx ⊢
    split at hx
    · next v hv => exact ih hx (by omega)
    · cases hx
    · cases hx

/-- With fewer forwards what a check walk has found stays true (R59). -/
theorem State.forwardsIn.chainFits (h : t.forwardsIn s) {x : Executor} (hx : s.chainFits x) : t.chainFits x where
  checked := fun tag named target hc hs i hi => by
    obtain ⟨j, hj, hreach⟩ := hx.checked tag named target hc hs i (h.follow i target named hi)
    obtain ⟨y, hy⟩ := State.follow_prefix hi hj
    refine ⟨j, hj, ?_⟩
    rw [hy, ← h.follow j target y hy, hreach]
  committing := fun tag named target hc hs i hi =>
    hx.committing tag named target hc hs i (h.follow i target named hi)

/-- With fewer forwards no chain returns on itself that did not before (R60). -/
theorem State.forwardsIn.acyclic (h : t.forwardsIn s) (hs : ∀ j, ∃ m, s.follow m j = none) (j : Slot) :
    ∃ m, t.follow m j = none := by
  obtain ⟨m, hm⟩ := hs j
  refine ⟨m, ?_⟩
  cases ht : t.follow m j with
  | none => rfl
  | some x => rw [h.follow m j x ht] at hm; cases hm

theorem State.forwardsIn.chainLaw (h : t.forwardsIn s) (hs : s.ChainLaw) (hx : t.execs = s.execs) : t.ChainLaw := by
  obtain ⟨hacyclic, hfits⟩ := State.chainLaw_iff.1 hs
  refine State.chainLaw_iff.2 ⟨h.acyclic hacyclic, fun p => ?_⟩
  rw [State.executor_congr hx]
  exact h.chainFits (hfits p)

theorem State.forwardsIn_setEntry (hen : t.entries = (s.setEntry k e).entries)
    (h : ∀ v, e.content = .forward v → (s.entry k).content = .forward v) : t.forwardsIn s := fun j v hv => by
  rw [State.entry_congr hen, State.entry_setEntry] at hv
  split at hv
  · next hj => rw [hj]; exact h v hv
  · exact hv

/-! ## A write of one entry record -/

/-- In t the entry of slot k reads e, all others as in s, and the inbound counts and the tallies have followed. -/
structure State.Rewrote (s : State) (k : Slot) (e : Entry) (t : State) : Prop where
  frame : t = { s with entries := t.entries, rows := t.rows, tallies := t.tallies }
  entries : t.entries = (s.setEntry k e).entries
  rowsWf : Table.wf Row.default t.rows = true
  rowsInRange : ∀ r ∈ t.rows, r.1 < Config.slots
  allocated : ∀ j, t.allocated j = s.allocated j
  inbound : ∀ j, t.inbound j + ((s.entry k).forwardsTo j).toNat = s.inbound j + (e.forwardsTo j).toNat
  owned : ∀ p, (t.tallies.get p).owned + ((s.entry k).ownedBy p).toNat = (s.tallies.get p).owned + (e.ownedBy p).toNat
  watch : ∀ p, (t.tallies.get p).watch + ((s.entry k).watch.get p).toNat = (s.tallies.get p).watch + (e.watch.get p).toNat

theorem State.Rewrote.entry (h : s.Rewrote k e t) (j : Slot) : t.entry j = if j = k then e else s.entry j := by
  rw [State.entry_congr h.entries, State.entry_setEntry]

/-- The directory's laws after a write of an allocated entry (R12 to R16). -/
theorem State.Rewrote.directoryLaws (h : s.Rewrote k e t) (hd : s.DirectoryLaws)
    (hwf : Table.wf (fun _ => Entry.default) s.entries = true) (hk : s.allocated k = true)
    (htarget : ∀ v, e.content = .forward v → s.allocated v = true) (howner : e.owner = none → e.orphaned = false) :
    t.DirectoryLaws := by
  have hcount : ∀ f : Entry → Bool, f .default = false →
      Table.count f t.entries + (f (s.entry k)).toNat = Table.count f s.entries + (f e).toNat := fun f hf => by
    rw [h.entries]
    exact Table.count_set (fun _ => hf) hwf
  have hwatch : ∀ p, Entry.default.watch.get p = false := fun p => PerPort.get_same false p
  have hfree : t.freeList = s.freeList := by rw [h.frame]
  refine ⟨fun j => ?_, fun j v hv => ?_, fun p => ?_, fun p => ?_, hfree ▸ hd.freeOnce, fun j => ?_, fun j hj => ?_,
    fun j hj ha => ?_⟩
  · have h1 := h.inbound j
    have h2 := hcount (fun e => e.forwardsTo j) rfl
    have h3 := hd.inboundCounts j
    rw [State.forwardsTo_eq] at h3 ⊢
    omega
  · rw [h.allocated]
    rw [h.entry] at hv
    split at hv
    · exact htarget v hv
    · exact hd.targetsAllocated j v hv
  · have h1 := h.owned p
    have h2 := hcount (fun e => e.ownedBy p) rfl
    have h3 := hd.ownedCounts p
    rw [State.ownedBy_eq] at h3 ⊢
    omega
  · have h1 := h.watch p
    have h2 := hcount (fun e => e.watch.get p) (hwatch p)
    have h3 := hd.watchCounts p
    rw [State.watchedBy_eq] at h3 ⊢
    omega
  · rw [hfree, h.allocated]
    exact hd.freeUnallocated j
  · rw [h.entry] at hj ⊢
    split
    · next hjk => rw [if_pos hjk] at hj; exact howner hj
    · next hjk => rw [if_neg hjk] at hj; exact hd.unownedNotOrphaned j hj
  · rw [h.allocated] at ha
    rw [h.entry, if_neg]
    · exact hd.unallocatedDefault j hj ha
    · rintro rfl
      rw [hk] at ha
      cases ha

/-- What the laws ask of a write of slot k. -/
structure State.MayWrite (s : State) (k : Slot) (e : Entry) : Prop where
  ready : s.device = .ready
  inRange : k < Config.slots
  allocated : s.allocated k = true
  target : ∀ v, e.content = .forward v → v < Config.slots ∧ s.allocated v = true
  owner : e.owner = none → e.orphaned = false
  /-- A port whose executor is IDLE gains neither a watch nor an entry. -/
  gains : ∀ p, (s.executor p).state = .idle → (e.watch.get p = true → (s.entry k).watch.get p = true) ∧
    (e.ownedBy p = true → (s.entry k).ownedBy p = true)
  /-- A parked take's terminal stays EMPTY. -/
  parked : ∀ w ∈ s.waits, w.terminal = k → e.content = .empty

theorem State.Rewrote.tableLaw (h : s.Rewrote k e t) (hs : s.TableLaw) (hk : k < Config.slots)
    (htarget : ∀ v, e.content = .forward v → v < Config.slots) : t.TableLaw where
  entriesWf := by rw [h.entries]; exact Table.wf_set _ k e hs.entriesWf
  rowsWf := h.rowsWf
  entriesInRange := fun r hr => by
    rw [h.entries] at hr
    rcases Table.mem_set (fun _ => Entry.default) (t := s.entries) hr with rfl | hr
    · exact hk
    · exact hs.entriesInRange r hr
  rowsInRange := h.rowsInRange
  targetsInRange := fun j v hv => by
    rw [h.entry] at hv
    split at hv
    · exact htarget v hv
    · exact hs.targetsInRange j v hv
  passInRange := by rw [h.frame]; exact hs.passInRange
  sweepInRange := by rw [h.frame]; exact hs.sweepInRange

/-- A write keeps the laws of sweeps: no port that executes nothing gains an entry or a watch. -/
theorem State.Rewrote.sweepLaw (h : s.Rewrote k e t) (hs : s.Sound) (hmay : s.MayWrite k e) : t.SweepLaw := by
  have hframe := h.frame
  refine ⟨fun hd hv => ?_, by rw [hframe]; exact hs.sweeps.onlyInReady, fun p hp => ?_⟩
  · obtain ⟨r, rest, hr, hidle, hbelow⟩ := hs.sweeps.runningPass (by rw [hframe] at hd; exact hd) (by rw [hframe] at hv; exact hv)
    refine ⟨r, rest, by rw [hframe]; exact hr, by rw [hframe]; exact hidle, fun j hj => ?_⟩
    obtain ⟨hw, ho⟩ := hbelow j (by rw [hframe] at hj; exact hj)
    obtain ⟨hgw, hgo⟩ := hmay.gains r.port hidle
    rw [h.entry]
    split
    · next hjk =>
      rw [hjk] at hw ho
      refine ⟨Bool.eq_false_iff.2 fun hx => by simp [hgw hx] at hw, fun hx => ?_⟩
      by_contra hnot
      obtain ⟨h1, h2⟩ := Entry.ownedBy_iff.1 (hgo (Entry.ownedBy_iff.2 ⟨hx, by simpa using hnot⟩))
      rw [ho h1] at h2
      cases h2
    · exact ⟨hw, ho⟩
  · have hp' : s.portState p = .opened ∨ s.portState p = .down := by rw [hframe] at hp; exact hp
    have hzero := hs.sweeps.closedOwnsNothing p hp'
    have hidle : (s.executor p).state = .idle := by
      by_contra hbusy
      cases ha : (s.executor p).abandoned with
      | false =>
        have := hs.sessions.executingAttached p hbusy ha
        rcases hp' with hx | hx <;> simp [hx] at this
      | true =>
        obtain ⟨r, hr, hrp, -⟩ := hs.sessions.abandonedLost p ha
        have := (hs.sessions.closingSwept p).2 ⟨r, hr, hrp⟩
        rcases hp' with hx | hx <;> simp [hx] at this
    obtain ⟨hgw, hgo⟩ := hmay.gains p hidle
    have ho := h.owned p
    have hw := h.watch p
    rw [hzero] at ho hw
    have hle : ∀ {x y : Bool}, (x = true → y = true) → x.toNat ≤ y.toNat := by decide
    have h1 := hle hgw
    have h2 := hle hgo
    rw [Tally.ext_iff]
    dsimp only at ho hw ⊢
    omega

/-- A write that the laws allow keeps the laws between acts. -/
theorem State.Rewrote.sound (h : s.Rewrote k e t) (hs : s.Sound) (hmay : s.MayWrite k e) (hchain : t.ChainLaw) :
    t.Sound := by
  have htables := h.tableLaw hs.tables hmay.inRange fun v hv => (hmay.target v hv).1
  have hlaws := h.directoryLaws (hs.directory.inReady hmay.ready) hs.tables.entriesWf hmay.allocated
    (fun v hv => (hmay.target v hv).2) hmay.owner
  have hsweeps := h.sweepLaw hs hmay
  have hallocated := h.allocated
  have hentry := h.entry
  have hframe := h.frame
  generalize t.entries = x at hframe
  generalize t.rows = y at hframe
  generalize t.tallies = z at hframe
  subst hframe
  refine ⟨hs.servesInReady, hs.grantsPending, hs.grantedLast, hs.heldInInit, hs.executors.congr, htables,
    ⟨fun _ => hlaws, fun hd => absurd hmay.ready hd⟩, hs.sessions.congr, hsweeps, ?_, hs.token.congr, hchain, hs.queues.congr⟩
  refine ⟨fun w hw => ?_, hs.waits.portAttached, hs.waits.places, hs.waits.onlyInReady⟩
  obtain ⟨ha, hc⟩ := hs.waits.terminalEmpty w hw
  rw [hallocated, hentry]
  refine ⟨ha, ?_⟩
  split
  · next hk => exact hmay.parked w hw hk
  · exact hc

/-- A write touches nothing where an outstanding request stands. -/
theorem State.Rewrote.outstanding (h : s.Rewrote k e t) (ho : s.OutstandingLaw) : t.OutstandingLaw := by
  rw [h.frame]
  exact ho.congr

/-! ## How the counts follow a write -/

namespace Table

variable {α : Type} {d : Nat → α} {f : α → Bool} {t : List (Nat × α)} {k : Nat}

theorem count_pos [DecidableEq α] (hf : ∀ k, f (d k) = false) (h : wf d t = true) (hk : f (get d k t) = true) :
    1 ≤ count f t := by
  have hcount := count_set (k := k) (a := d k) hf h
  rw [hk, hf] at hcount
  simp only [Bool.toNat_true, Bool.toNat_false] at hcount
  omega

end Table

/-- A forward is counted at its target (R12). -/
theorem State.DirectoryLaws.inbound_pos (h : s.DirectoryLaws) (ht : s.TableLaw) {j : Slot}
    (hj : (s.entry k).content = .forward j) : 1 ≤ s.inbound j := by
  rw [h.inboundCounts, State.forwardsTo_eq]
  exact Table.count_pos (d := fun _ => Entry.default) (k := k) (fun _ => rfl) ht.entriesWf (Entry.forwardsTo_iff.2 hj)

/-- An entry is counted at its owner (R14). -/
theorem State.DirectoryLaws.owned_pos (h : s.DirectoryLaws) (ht : s.TableLaw) (hp : (s.entry k).ownedBy p = true) :
    1 ≤ (s.tallies.get p).owned := by
  rw [h.ownedCounts, State.ownedBy_eq]
  exact Table.count_pos (d := fun _ => Entry.default) (k := k) (fun _ => rfl) ht.entriesWf hp

/-- A watch is counted at its port (R15). -/
theorem State.DirectoryLaws.watch_pos (h : s.DirectoryLaws) (ht : s.TableLaw) (hp : (s.entry k).watch.get p = true) :
    1 ≤ (s.tallies.get p).watch := by
  rw [h.watchCounts, State.watchedBy_eq]
  exact Table.count_pos (d := fun _ => Entry.default) (f := fun e => e.watch.get p) (k := k)
    (fun _ => PerPort.get_same false p) ht.entriesWf hp

/-- The tallies have followed a write of slot k. -/
structure State.TalliesFollow (s : State) (k : Slot) (e : Entry) (t : State) : Prop where
  owned : ∀ p, (t.tallies.get p).owned + ((s.entry k).ownedBy p).toNat = (s.tallies.get p).owned + (e.ownedBy p).toNat
  watch : ∀ p, (t.tallies.get p).watch + ((s.entry k).watch.get p).toNat = (s.tallies.get p).watch + (e.watch.get p).toNat

/-- A write that leaves owner and watch set leaves the tallies. -/
theorem State.talliesFollow_same (ht : t.tallies = s.tallies) (howner : ∀ p, e.ownedBy p = (s.entry k).ownedBy p)
    (hwatch : e.watch = (s.entry k).watch) : s.TalliesFollow k e t :=
  ⟨fun p => by rw [ht, howner], fun p => by rw [ht, hwatch]⟩

theorem Entry.ownedBy_congr {e' : Entry} (ho : e'.owner = e.owner) (hf : e'.orphaned = e.orphaned) (p : Port) :
    e'.ownedBy p = e.ownedBy p := by unfold Entry.ownedBy; rw [ho, hf]

/-- A write that leaves the entry's forward, if any, leaves the rows. -/
theorem State.rewrote_of_sameRows (hs : s.TableLaw)
    (hframe : t = { s with entries := t.entries, rows := t.rows, tallies := t.tallies })
    (hen : t.entries = (s.setEntry k e).entries) (hrows : t.rows = s.rows)
    (hf : ∀ j, e.forwardsTo j = (s.entry k).forwardsTo j) (ht : s.TalliesFollow k e t) : s.Rewrote k e t where
  frame := hframe
  entries := hen
  rowsWf := hrows ▸ hs.rowsWf
  rowsInRange := hrows ▸ hs.rowsInRange
  allocated := State.allocated_congr hrows
  inbound := fun j => by rw [State.inbound_eq, State.inbound_eq, State.row_congr hrows, hf]
  owned := ht.owned
  watch := ht.watch

/-- Rows written in the range of the directory keep their canonical form. -/
theorem State.rows_setRow (hs : s.TableLaw) {r : Row} (hk : k < Config.slots) :
    Table.wf Row.default (s.setRow k r).rows = true ∧ ∀ x ∈ (s.setRow k r).rows, x.1 < Config.slots := by
  refine ⟨Table.wf_set _ k r hs.rowsWf, fun x hx => ?_⟩
  rcases Table.mem_set Row.default (t := s.rows) hx with rfl | hx
  · exact hk
  · exact hs.rowsInRange x hx

theorem State.rows_dropForward (hs : s.TableLaw) {c : Content} (hc : ∀ j, c = .forward j → j < Config.slots) :
    Table.wf Row.default (s.dropForward c).rows = true ∧ ∀ x ∈ (s.dropForward c).rows, x.1 < Config.slots := by
  cases c with
  | empty => exact ⟨hs.rowsWf, hs.rowsInRange⟩
  | value v => exact ⟨hs.rowsWf, hs.rowsInRange⟩
  | forward j => exact State.rows_setRow hs (hc j rfl)

theorem State.dropForward_inbound (c : Content) (j : Slot) :
    (s.dropForward c).inbound j = s.inbound j - (decide (c = .forward j)).toNat := by
  rw [State.inbound_eq, State.dropForward_row, State.inbound_eq]
  by_cases h : c = .forward j <;> simp [h]

theorem State.dropForward_allocated (c : Content) (j : Slot) : (s.dropForward c).allocated j = s.allocated j := by
  rw [State.allocated_eq, State.dropForward_row, State.allocated_eq]

theorem State.inbound_congr (hrows : t.rows = u.rows) (j : Slot) : t.inbound j = u.inbound j := by
  rw [State.inbound_eq, State.inbound_eq, State.row_congr hrows]

/-- A write that puts no forward takes the old one, if any, off its target's count (R12). -/
theorem State.rewrote_of_dropped (hs : s.TableLaw) (hd : s.DirectoryLaws)
    (hframe : t = { s with entries := t.entries, rows := t.rows, tallies := t.tallies })
    (hen : t.entries = (s.setEntry k e).entries) (hrows : t.rows = (s.dropForward (s.entry k).content).rows)
    (hf : ∀ j, e.content ≠ .forward j) (ht : s.TalliesFollow k e t) : s.Rewrote k e t where
  frame := hframe
  entries := hen
  rowsWf := by rw [hrows]; exact (State.rows_dropForward hs (hs.targetsInRange k)).1
  rowsInRange := by rw [hrows]; exact (State.rows_dropForward hs (hs.targetsInRange k)).2
  allocated := fun j => by rw [State.allocated_congr hrows, State.dropForward_allocated]
  inbound := fun j => by
    have hnew : e.forwardsTo j = false := decide_eq_false (hf j)
    rw [State.inbound_congr hrows, State.dropForward_inbound, hnew]
    show _ - (decide ((s.entry k).content = .forward j)).toNat + (decide ((s.entry k).content = .forward j)).toNat = _
    by_cases h : (s.entry k).content = .forward j
    · have := hd.inbound_pos hs h
      simp only [h, decide_true, Bool.toNat_true, Bool.toNat_false]
      omega
    · simp [h]
  owned := ht.owned
  watch := ht.watch

/-- A write that links takes the old forward, if any, off its target's count and adds its own (R12, R57). -/
theorem State.rewrote_of_linked (hs : s.TableLaw) (hd : s.DirectoryLaws) {v : Slot} (hv : v < Config.slots)
    (hframe : t = { s with entries := t.entries, rows := t.rows, tallies := t.tallies })
    (hen : t.entries = (s.setEntry k e).entries)
    (hrows : t.rows = ((s.dropForward (s.entry k).content).raiseInbound v).rows)
    (he : e.content = .forward v) (ht : s.TalliesFollow k e t) : s.Rewrote k e t := by
  have hdrop := State.rows_dropForward hs (hs.targetsInRange k)
  have hrow : ∀ j, t.row j = ((s.dropForward (s.entry k).content).raiseInbound v).row j := State.row_congr hrows
  have htables : (s.dropForward (s.entry k).content).TableLaw :=
    ⟨by rw [State.dropForward_entries]; exact hs.entriesWf, hdrop.1, by rw [State.dropForward_entries]; exact hs.entriesInRange,
      hdrop.2, by simpa using hs.targetsInRange, by simpa using hs.passInRange, by simpa using hs.sweepInRange⟩
  refine ⟨hframe, hen, by rw [hrows]; exact (State.rows_setRow htables hv).1,
    by rw [hrows]; exact (State.rows_setRow htables hv).2, fun j => ?_, fun j => ?_, ht.owned, ht.watch⟩
  · rw [State.allocated_eq, hrow, State.row_raiseInbound, ← State.dropForward_allocated (s.entry k).content j,
      State.allocated_eq]
    split
    · next hj => rw [hj]
    · rfl
  · have hdropped := State.dropForward_inbound (s := s) (s.entry k).content j
    have hold : (s.dropForward (s.entry k).content).inbound j + ((s.entry k).forwardsTo j).toNat = s.inbound j := by
      rw [hdropped]
      show _ - (decide ((s.entry k).content = .forward j)).toNat + (decide ((s.entry k).content = .forward j)).toNat = _
      by_cases h : (s.entry k).content = .forward j
      · have := hd.inbound_pos hs h
        simp only [h, decide_true, Bool.toNat_true]
        omega
      · simp [h]
    have hnew : (t.inbound j) = (s.dropForward (s.entry k).content).inbound j + (e.forwardsTo j).toNat := by
      rw [State.inbound_eq, hrow, State.row_raiseInbound, State.inbound_eq, Entry.forwardsTo, he]
      by_cases hj : j = v
      · simp [hj]
      · simp [hj, Ne.symm hj]
    omega

/-- What the laws ask of a write that leaves the entry's owner and its watch set. -/
theorem State.Sound.mayWrite (h : s.Sound) (hready : s.device = .ready) (hk : k < Config.slots)
    (ha : s.allocated k = true) (howner : e.owner = (s.entry k).owner) (horphaned : e.orphaned = (s.entry k).orphaned)
    (hwatch : e.watch = (s.entry k).watch) (htarget : ∀ v, e.content = .forward v → v < Config.slots ∧ s.allocated v = true)
    (hparked : ∀ w ∈ s.waits, w.terminal = k → e.content = .empty) : s.MayWrite k e where
  ready := hready
  inRange := hk
  allocated := ha
  target := htarget
  owner := fun ho => by
    rw [horphaned]
    exact (h.directory.inReady hready).unownedNotOrphaned k (howner ▸ ho)
  gains := fun p _ => ⟨fun hx => hwatch ▸ hx, fun hx => by rwa [← Entry.ownedBy_congr howner horphaned]⟩
  parked := hparked

/-- The target of a standing forward is an allocated slot of the directory (R1, R4). -/
theorem State.Sound.target (h : s.Sound) (hready : s.device = .ready) (v : Slot)
    (hv : (s.entry k).content = .forward v) : v < Config.slots ∧ s.allocated v = true :=
  ⟨h.tables.targetsInRange k v hv, (h.directory.inReady hready).targetsAllocated k v hv⟩

end Sys2Proof.Machine
end

