-- ==== Sys2Proof/Proofs/PassCommands.lean ====
section
/-! SUPPORT. PASS_CYCLE and CLEAR_DIRECTORY keep the laws (R33 to R38, R139, R170). -/

namespace Sys2Proof.Machine

variable {s t u v : State} {n p : Port} {k : Slot} {rq : Request}

/-! ## A completed pass leaves an empty directory (R18, R19, R33) -/

/-- A table in its canonical form that reads every slot's default lists nothing. -/
theorem Table.eq_nil_of_defaults {α : Type} [DecidableEq α] {d : Nat → α} {t : List (Nat × α)} (h : Table.wf d t = true)
    (hd : ∀ r ∈ t, Table.get d r.1 t = d r.1) : t = [] :=
  List.eq_nil_iff_forall_not_mem.2 fun r hr =>
    ((Table.wf_iff d t).1 h).2 r hr ((Table.get_of_mem d h hr).symm.trans (hd r hr))

/-- A directory at its defaults satisfies its laws (R12 to R16). -/
theorem State.directoryLaws_of_defaults (hen : s.entries = []) (hro : s.rows = [])
    (hta : ∀ p, s.tallies.get p = { owned := 0, watch := 0 })
    (hfr : s.freeList = List.range' Config.fixedSlots (Config.slots - Config.fixedSlots)) :
    s.DirectoryLaws := by
  have hentry : ∀ j, s.entry j = .default := fun j => by simp only [State.entry, hen, Table.get_nil]
  have hrow : ∀ j, s.row j = .default j := fun j => by simp only [State.row, hro, Table.get_nil]
  have hall : ∀ j, s.allocated j = decide (j < 256) := fun j => by
    rw [State.allocated_eq, hrow]
    exact Bool.or_self _
  refine ⟨fun j => ?_, fun j x hx => ?_, fun p => ?_, fun p => ?_, hfr ▸ List.nodup_range', fun j => ?_, fun j _ => ?_,
    fun j _ _ => ?_⟩
  · rw [State.inbound_eq, hrow, State.forwardsTo, hen]; rfl
  · rw [hentry] at hx; cases hx
  · rw [hta, State.ownedBy, hen]; rfl
  · rw [hta, State.watchedBy, hen]; rfl
  · rw [hfr, hall, List.mem_range'_1, decide_eq_false_iff_not]
    show 256 ≤ j ∧ j < 4096 ↔ 256 ≤ j ∧ j < 4096 ∧ ¬ j < 256
    exact ⟨fun ⟨h1, h2⟩ => ⟨h1, h2, Nat.not_lt.2 h1⟩, fun ⟨h1, h2, _⟩ => ⟨h1, h2⟩⟩
  · rw [hentry]; rfl
  · rw [hentry]

/-- The last cycle of a pass leaves the directory in its laws. -/
theorem State.MidPass.directoryLaws (h : ({ v with passPos := Config.slots } : State).MidPass)
    (ht : ({ v with passPos := 0 } : State).TableLaw) : v.DirectoryLaws :=
  State.directoryLaws_of_defaults
    (Table.eq_nil_of_defaults ht.entriesWf fun r hr => h.entriesWritten r.1 (ht.entriesInRange r hr))
    (Table.eq_nil_of_defaults ht.rowsWf fun r hr => h.rowsWritten r.1 (ht.rowsInRange r hr)) h.talliesZero h.freeSoFar

/-! ## The pass's writes (R33) -/

theorem State.passWrite_tables (h : s.TableLaw) (hk : k < Config.slots) :
    Table.wf (fun _ => Entry.default) (s.passWrite k).entries = true ∧
    Table.wf Row.default (s.passWrite k).rows = true ∧
    (∀ r ∈ (s.passWrite k).entries, r.1 < Config.slots) ∧ ∀ r ∈ (s.passWrite k).rows, r.1 < Config.slots := by
  have hen : (s.passWrite k).entries = Table.set (fun _ => Entry.default) k Entry.default s.entries := by
    unfold State.passWrite; split <;> split <;> rfl
  have hro : (s.passWrite k).rows = Table.set Row.default k (Row.default k) s.rows := by
    unfold State.passWrite; split <;> split <;> rfl
  rw [hen, hro]
  refine ⟨Table.wf_set _ k _ h.entriesWf, Table.wf_set _ k _ h.rowsWf, fun r hr => ?_, fun r hr => ?_⟩
  · rcases Table.mem_set (fun _ => Entry.default) (t := s.entries) hr with rfl | hr
    · exact hk
    · exact h.entriesInRange r hr
  · rcases Table.mem_set Row.default (t := s.rows) hr with rfl | hr
    · exact hk
    · exact h.rowsInRange r hr

theorem State.passWrite_tally (k : Slot) (p : Port) :
    (s.passWrite k).tallies.get p = if k = 0 then { owned := 0, watch := 0 } else s.tallies.get p := by
  rw [(State.passWrite_wrote s k).tallies]
  split
  · exact PerPort.get_same _ p
  · rfl

/-- After its cycle on slot k the pass has written every slot up to k (R33, R34). -/
theorem State.DirectoryLaw.passWrite (h : s.DirectoryLaw) (hd : s.device ≠ .ready) :
    ({ s.passWrite s.passPos with passPos := s.passPos + 1 } : State).MidPass := by
  have hold : s.passPos ≠ 0 → s.MidPass := fun hpos => h.inPass hd (Nat.pos_of_ne_zero hpos)
  have hbelow : ∀ {j : Slot}, j < s.passPos + 1 → j ≠ s.passPos → j < s.passPos := fun hj hne =>
    lt_of_le_of_ne (Nat.le_of_lt_succ hj) hne
  refine ⟨fun j hj => ?_, fun j hj => ?_, fun p => ?_, ?_⟩
  · show (s.passWrite s.passPos).entry j = _
    rw [State.entry_passWrite]
    split
    · rfl
    · next hjk => exact (hold (Nat.ne_zero_of_lt (hbelow hj hjk))).entriesWritten j (hbelow hj hjk)
  · show (s.passWrite s.passPos).row j = _
    rw [State.row_passWrite]
    split
    · next hjk => rw [hjk]
    · next hjk => exact (hold (Nat.ne_zero_of_lt (hbelow hj hjk))).rowsWritten j (hbelow hj hjk)
  · show (s.passWrite s.passPos).tallies.get p = _
    rw [State.passWrite_tally]
    split
    · rfl
    · next hpos => exact (hold hpos).talliesZero p
  · show (s.passWrite s.passPos).freeList = List.range' 256 (s.passPos + 1 - 256)
    have hlist : (if s.passPos = 0 then [] else s.freeList) = List.range' 256 (s.passPos - 256) := by
      split
      · next hpos => rw [hpos]; rfl
      · next hpos => exact (hold hpos).freeSoFar
    rw [(State.passWrite_wrote s s.passPos).freeList, hlist]
    split
    · next hge =>
      rw [Nat.succ_sub hge, List.range'_concat, Nat.one_mul, Nat.add_sub_cancel' hge]
    · next hlt =>
      have hlt := Nat.lt_of_not_le hlt
      rw [Nat.sub_eq_zero_of_le hlt, Nat.sub_eq_zero_of_le (Nat.le_of_lt hlt)]
      rfl

/-- The pass's writes forward nowhere. -/
theorem State.passWrite_forwardsIn (k : Slot) : (s.passWrite k).forwardsIn s := fun j x hx => by
  rw [State.entry_passWrite] at hx
  split at hx
  · cases hx
  · exact hx

/-- A pass under way, seen apart from what it has written: the laws between acts but the directory's. -/
theorem State.Sound.passWrite (h : s.Sound) (hd : s.device ≠ .ready) :
    ({ s.passWrite s.passPos with passPos := 0 } : State).Sound := by
  obtain ⟨hewf, hrwf, heran, hrran⟩ := State.passWrite_tables h.tables h.tables.passInRange
  have hforwards := State.passWrite_forwardsIn (s := s) s.passPos
  have htally := State.passWrite_tally (s := s) s.passPos
  have hframe := State.passWrite_frame s s.passPos
  generalize s.passWrite s.passPos = w at hewf hrwf heran hrran hforwards htally hframe
  have hchains : ({ w with passPos := 0 } : State).ChainLaw :=
    State.forwardsIn.chainLaw (t := { w with passPos := 0 }) hforwards h.chains (by rw [hframe])
  have htargets : ∀ j x, (w.entry j).content = .forward x → x < Config.slots := fun j x hx =>
    h.tables.targetsInRange j x (hforwards j x hx)
  generalize w.entries = xe at hframe
  generalize w.rows = xr at hframe
  generalize w.tallies = xt at hframe
  generalize w.freeList = xf at hframe
  subst hframe
  have hwaits := h.waits.onlyInReady hd
  refine ⟨h.servesInReady, h.grantsPending, h.grantedLast, h.heldInInit, h.executors.congr,
    ⟨hewf, hrwf, heran, hrran, htargets, Nat.zero_lt_succ _, h.tables.sweepInRange⟩,
    ⟨fun hr => absurd hr hd, fun _ hpos => absurd hpos (Nat.lt_irrefl 0)⟩, h.sessions.congr,
    ⟨fun hr => absurd hr hd, h.sweeps.onlyInReady, fun p hp => ?_⟩,
    ⟨fun w hw => ?_, h.waits.portAttached, h.waits.places, h.waits.onlyInReady⟩, h.token.congr, hchains, h.queues.congr⟩
  · rw [show State.tallies _ = xt from rfl, htally]
    split
    · rfl
    · exact h.sweeps.closedOwnsNothing p hp
  · have hw : w ∈ s.waits := hw
    rw [hwaits] at hw
    cases hw

/-- The pass goes on to slot k, what it has written so far being at its defaults. -/
theorem State.Sound.passGoesOn (h : ({ v with passPos := 0 } : State).Sound) (hd : v.device ≠ .ready)
    (hm : ({ v with passPos := k } : State).MidPass) (hk : k < Config.slots) : ({ v with passPos := k } : State).Sound :=
  ⟨h.servesInReady, h.grantsPending, h.grantedLast, h.heldInInit, h.executors.congr,
    ⟨h.tables.entriesWf, h.tables.rowsWf, h.tables.entriesInRange, h.tables.rowsInRange, h.tables.targetsInRange, hk,
      h.tables.sweepInRange⟩, ⟨fun hr => absurd hr hd, fun _ _ => hm⟩, h.sessions.congr, h.sweeps.congr, h.waits.congr,
    h.token.congr, h.chains.congr, h.queues.congr⟩

/-! ## The completion of a pass (R35, R36, R38) -/

/-- The completed pass leaves the device READY, no cycle in progress. -/
theorem State.Sound.passDone (h : ({ v with passPos := 0 } : State).Sound) (ho : v.OutstandingLaw)
    (hd : v.device ≠ .ready) (hheld : v.held = false)
    (hm : ({ v with passPos := Config.slots } : State).MidPass) :
    ({ v with device := .ready, passPos := 0 } : State).Settled := by
  have hlaws : v.DirectoryLaws := hm.directoryLaws h.tables
  have hvisit : v.sweepVisit = false := h.sweeps.onlyInReady hd
  have hprog : v.inProgress = none := h.servesInReady hd
  exact ⟨⟨fun hx => absurd rfl hx, h.grantsPending, h.grantedLast,
    fun hx => absurd (hheld.symm.trans hx) (by simp),
    ⟨h.executors.shaped, h.executors.examined, h.executors.inRange, h.executors.hopsInRange,
      fun p hp => ⟨(h.executors.abandonedRuns p hp).1, by simp⟩⟩,
    h.tables.congr, ⟨fun _ => hlaws.congr, fun hx => absurd rfl hx⟩, h.sessions.congr,
    ⟨fun _ hv => absurd (hvisit.symm.trans hv) (by simp), fun hx => absurd rfl hx,
      h.sweeps.closedOwnsNothing⟩,
    ⟨h.waits.terminalEmpty, h.waits.portAttached, h.waits.places, fun hx => absurd rfl hx⟩, h.token.congr, h.chains.congr,
    h.queues.congr⟩, ho.congr, rfl, hprog⟩

theorem Executor.awaitsPassEnd_iff {e : Executor} : e.awaitsPassEnd = true ↔ e.state = .running .clearing := by
  simp [Executor.awaitsPassEnd]

theorem Executor.awaitsEntry_iff {e : Executor} : e.awaitsEntry = true ↔ e.state = .running .awaitPass := by
  simp [Executor.awaitsEntry]

/-- An executor that awaits a pass is on a CLEAR_DIRECTORY that no loss has abandoned, and has no cycle. -/
theorem State.Sound.awaiting (h : s.Sound) {w : Work} (hw : w = .clearing ∨ w = .awaitPass)
    (hs : (s.executor p).state = .running w) : (s.executor p).abandoned = false ∧ (s.executor p).hasCycle = false ∧
      (s.executor p).linking = false ∧ s.portState p = .attached := by
  have hcycle : (s.executor p).hasCycle = false := by
    rcases hw with rfl | rfl <;> simp [Executor.hasCycle, hs, Work.needsCycle]
  have hna : (s.executor p).abandoned = false := by
    by_contra ha
    rw [(h.executors.abandonedRuns p (by simpa using ha)).1] at hcycle
    cases hcycle
  refine ⟨hna, hcycle, ?_, h.sessions.executingAttached p (by simp [hs]) hna⟩
  rcases hw with rfl | rfl <;> simp [Executor.linking, hs]

/-- The reply to the CLEAR_DIRECTORY that caused the pass (R38). -/
def State.clearedReplies (s : State) (p : Port) : List Reply :=
  if (s.executor p).awaitsPassEnd then ((s.executor p).current.map (fun rq => bareReply rq .ok)).toList else []

/-- The executor that awaited the end of the pass goes IDLE (R38). -/
def State.clearersIdle (s : State) : State :=
  { s with execs := s.execs.mapPorts (fun _ e => if e.awaitsPassEnd then .idle else e) }

theorem State.clearersIdle_executor (p : Port) :
    s.clearersIdle.executor p = if (s.executor p).awaitsPassEnd then .idle else s.executor p := PerPort.get_mapPorts _ _ p

theorem State.Sound.clearersIdle (h : s.Sound) : s.clearersIdle.Sound := by
  have hawait : ∀ p, (s.executor p).awaitsPassEnd = true → (s.executor p).hasCycle = false ∧
      (s.executor p).linking = false ∧ (s.executor p).state = .running .clearing := fun p hp => by
    have hs := Executor.awaitsPassEnd_iff.1 hp
    obtain ⟨-, hcycle, hlink, -⟩ := h.awaiting (.inl rfl) hs
    exact ⟨hcycle, hlink, hs⟩
  refine h.withExecs rfl (fun p => ?_) (h.token.withExecs rfl (fun p => ?_) (fun p hl => ?_) (fun p => ?_)) <;>
    rw [State.clearersIdle_executor] <;> split
  · next hp =>
    refine State.execFits_idle fun hg => ?_
    have hcycle : (s.executor p).hasCycle = true := h.grantsPending _ hg
    rw [(hawait p hp).1] at hcycle
    cases hcycle
  · exact h.execFits p
  · next hp => rw [(hawait p hp).2.1]; rfl
  · rfl
  · next hp => rw [(hawait p hp).2.1] at hl; cases hl
  · rfl
  · next hp => rw [(hawait p hp).2.2]; simp
  · rfl

theorem State.answerClear_eq : s.answerClear = (s.postReplies s.clearedReplies).clearersIdle := rfl

theorem State.Settled.answerClear (h : s.Settled) : s.answerClear.Settled := by
  have hreplies : (s.postReplies s.clearedReplies).Sound := h.sound.postReplies fun p hlow => by
    refine if_neg fun hp => ?_
    obtain ⟨-, -, -, hatt⟩ := h.sound.awaiting (.inl rfl) (Executor.awaitsPassEnd_iff.1 hp)
    rw [h.sound.lineHigh_of_attached hatt] at hlow
    cases hlow
  rw [State.answerClear_eq]
  refine ⟨hreplies.clearersIdle, h.outstanding.of_count (fun p => ?_) (fun p a => ?_), h.ready, h.free⟩
  · show ((s.postReplies s.clearedReplies).port p).tags = _
    rw [State.postReplies_port]
  · have hmoved : ((s.clearedReplies p).map Reply.tag) ++ (s.clearersIdle.executor p).tags = (s.executor p).tags := by
      rw [State.clearersIdle_executor]
      unfold State.clearedReplies
      split
      · next hp =>
        obtain ⟨hna, -, -, -⟩ := h.sound.awaiting (.inl rfl) (Executor.awaitsPassEnd_iff.1 hp)
        cases hc : (s.executor p).current <;> simp [Executor.tags, hna, hc, bareReply]
      · rfl
    have hcount := congrArg (List.count a) hmoved
    show ((s.postReplies s.clearedReplies).queueTags p).count a + (s.clearersIdle.executor p).tags.count a +
      (waitTags s.waits p).count a + (sweepTags s.sweeps p).count a +
      ((s.postReplies s.clearedReplies).replyTags p).count a = _
    rw [State.postReplies_queueTags, State.postReplies_replyTags]
    rw [List.count_append] at hcount ⊢
    omega

theorem Work.fits_clearing {op : RequestOp} (h : Work.awaitPass.fits op = true) : Work.clearing.fits op = true := by
  cases op <;> simp [Work.fits] at h ⊢

/-- A CLEAR_DIRECTORY that waited for the pass causes the next entry (R36). -/
theorem State.Settled.promoteClear (h : s.Settled) : s.promoteClear.Settled := by
  have hex : ∀ p, s.promoteClear.executor p =
      if (s.executor p).awaitsEntry then { s.executor p with state := .running .clearing } else s.executor p :=
    fun p => PerPort.get_mapPorts _ _ p
  have hawait : ∀ p, (s.executor p).awaitsEntry = true → (s.executor p).abandoned = false ∧
      (s.executor p).linking = false ∧ (s.executor p).state = .running .awaitPass ∧ s.portState p = .attached :=
    fun p hp => by
      have hs := Executor.awaitsEntry_iff.1 hp
      obtain ⟨hna, -, hlink, hatt⟩ := h.sound.awaiting (.inr rfl) hs
      exact ⟨hna, hlink, hs, hatt⟩
  refine ⟨h.sound.withExecs rfl (fun p => ?_) (h.sound.token.withExecs rfl (fun p => ?_) (fun p hl => ?_) (fun p => ?_)),
    h.outstanding.of_count (fun _ => rfl) (fun p a => ?_), h.ready, h.free⟩ <;> rw [hex] <;> split
  · next hp =>
    obtain ⟨hna, hlink, hs, hatt⟩ := hawait p hp
    have hfit := h.sound.execFits p
    obtain ⟨rq, hc, hw⟩ := hfit.shaped.running hs
    exact ⟨⟨rq, hc, Work.fits_clearing hw⟩, hfit.examined, hfit.inRange, hfit.hopsInRange,
      fun ha => absurd (hna.symm.trans ha) (by simp), fun hg => absurd (h.free.symm.trans hg) (by simp), fun _ _ => hatt,
      fun ha => absurd (hna.symm.trans ha) (by simp), fun _ => .inl hatt, State.chainFits_of_not_linking rfl⟩
  · exact h.sound.execFits p
  · next hp => rw [(hawait p hp).2.1]; rfl
  · rfl
  · rfl
  · rfl
  · next hp => rw [(hawait p hp).2.2.1]; simp
  · rfl
  · rfl
  · rfl

/-- The completion of a pass ends a step in the laws. -/
theorem State.Settled.passComplete (h : ({ v with device := .ready, passPos := 0 } : State).Settled)
    (hc : v.clearDue = false) : v.passComplete.Laws := by
  have hanswer := h.answerClear
  unfold State.passComplete
  dsimp only
  generalize hu : State.answerClear { v with device := .ready, passPos := 0 } = u at hanswer
  have hdue : u.clearDue = false := by rw [← hu]; exact hc
  split
  · exact (State.Settled.testsAhead _ hanswer.promoteClear).enterClearing
  · exact hanswer.sound.arbitrate hanswer.outstanding fun hx => by rw [hdue] at hx; cases hx

/-! ## PASS_CYCLE (R33, R139) -/

/-- The part after the pass's cycle on its slot, its position apart (R33, R139). -/
def State.passCycled (s : State) : State :=
  if s.passPos = 0 ∧ s.device = .clearing then (s.passWrite s.passPos).removeSweeps else s.passWrite s.passPos

/-- The clearing pass's first cycle removes every sweep record; a pass's cycle touches no more than the directory, else. -/
theorem State.Laws.passCycled (h : s.Laws) (hd : s.device ≠ .ready) :
    ({ s.passCycled with passPos := 0 } : State).Sound ∧ s.passCycled.OutstandingLaw ∧
      ({ s.passCycled with passPos := s.passPos + 1 } : State).MidPass ∧ s.passCycled.device = s.device ∧
      s.passCycled.held = s.held ∧ s.passCycled.clearDue = s.clearDue := by
  have hsound := h.sound.passWrite hd
  have hmid := h.directory.passWrite hd
  have htally := State.passWrite_tally (s := s) s.passPos
  have hframe := State.passWrite_frame s s.passPos
  unfold State.passCycled
  generalize s.passWrite s.passPos = w at hsound hmid htally hframe
  generalize w.entries = xe at hframe
  generalize w.rows = xr at hframe
  generalize w.tallies = xt at hframe
  generalize w.freeList = xf at hframe
  have hout : w.OutstandingLaw := by subst hframe; exact h.outstanding.congr
  split
  · next hfirst =>
    obtain ⟨hzero, hclearing⟩ := hfirst
    have hw : ({ w with passPos := 0 } : State) = w := by subst hframe; rw [← hzero]
    rw [hw] at hsound
    have hprog : w.inProgress ≠ some .sweeper := by
      subst hframe
      rw [show State.inProgress _ = s.inProgress from rfl, h.arbiter.servesInReady hd]
      simp
    have hna : ∀ p, (w.executor p).abandoned = false := fun p => by
      by_contra ha
      exact (hsound.executors.abandonedRuns p (by simpa using ha)).2 (by rw [hframe]; exact hclearing)
    obtain ⟨hsound', hout', hframe'⟩ := hsound.removeRecords w.sweeps hout rfl hna
      (fun p => by rw [htally, if_pos hzero]) hprog
    have hrem : w.removeSweeps = w.removeRecords w.sweeps := rfl
    rw [hrem]
    generalize w.removeRecords w.sweeps = u at hsound' hout' hframe'
    generalize u.ports = xp at hframe'
    subst hframe'
    have hpos : w.passPos = 0 := by rw [hframe]; exact hzero
    refine ⟨?_, hout', hmid.congr, by subst hframe; rfl, by subst hframe; rfl, by subst hframe; rfl⟩
    rw [hpos] at hsound'
    exact hsound'
  · exact ⟨hsound, hout, hmid, by subst hframe; rfl, by subst hframe; rfl, by subst hframe; rfl⟩

theorem execPassCycle_keeps (h : s.Laws) : EndsInLaws (execPassCycle s) := by
  refine endsInLaws_next ?_
  split
  · next hpass =>
    obtain ⟨hheld, hd⟩ := hpass
    obtain ⟨hsound, hout, hmid, hdevice, hheld', hclear⟩ := h.passCycled hd
    have hd' : s.passCycled.device ≠ .ready := hdevice ▸ hd
    have hdue : s.passCycled.clearDue = false := by
      rw [hclear]
      by_contra hx
      exact h.arbiter.clearWaits (by simpa using hx) (h.arbiter.servesInReady hd)
    dsimp only
    split
    · next hmore =>
      show ({ s.passCycled with passPos := s.passPos + 1 } : State).Laws
      exact (hsound.passGoesOn hd' hmid hmore).laws hout.congr (fun hr => absurd hr hd')
        (fun hx => by rw [show s.passCycled.clearDue = true from hx] at hdue; cases hdue)
    · next hlast =>
      show s.passCycled.passComplete.Laws
      have hpos : s.passPos + 1 = Config.slots := Nat.le_antisymm h.tables.passInRange (Nat.le_of_not_lt hlast)
      rw [hpos] at hmid
      exact (hsound.passDone hout hd' (hheld'.trans hheld) hmid).passComplete hdue
  · exact h

/-! ## CLEAR_DIRECTORY (R36, R170) -/

/-- An executor goes RUNNING on its CLEAR_DIRECTORY. -/
theorem State.Laws.beginClear (h : s.Laws) {tag : Tag} (hn : s.nextRequest n = some ⟨tag, .clearDirectory⟩) {w : Work}
    (hw : w = .clearing ∨ w = .awaitPass) : (s.beginClear n ⟨tag, .clearDirectory⟩ w).Sound ∧
      (s.beginClear n ⟨tag, .clearDirectory⟩ w).OutstandingLaw := by
  obtain ⟨hidle, -, -, -⟩ := h.sound.head_request hn
  have hatt := h.sound.request_attached hn (by simp) (by simp [RequestOp.code])
  refine ⟨(h.sound.dequeue hn (by simp)).run (n := n) hidle ((State.dequeue_portState s n n).trans hatt) rfl
    (Nat.zero_lt_succ _) ?_ ?_, h.taken hn rfl rfl⟩ <;> rcases hw with rfl | rfl <;> rfl

theorem State.Laws.clearDirectory (h : s.Laws) {tag : Tag} (hn : s.nextRequest n = some ⟨tag, .clearDirectory⟩) :
    (if s.device = .ready then
      if s.inProgress = none then (s.beginClear n ⟨tag, .clearDirectory⟩ .clearing).enterClearing
      else { s.beginClear n ⟨tag, .clearDirectory⟩ .clearing with clearDue := true }
    else s.beginClear n ⟨tag, .clearDirectory⟩ .awaitPass).Laws := by
  split
  · next hready =>
    obtain ⟨hsound, hout⟩ := h.beginClear hn (.inl rfl)
    split
    · next hfree => exact State.Settled.enterClearing ⟨hsound, hout, hready, hfree⟩
    · next hbusy =>
      refine State.Sound.laws ⟨hsound.servesInReady, hsound.grantsPending, hsound.grantedLast, hsound.heldInInit,
        hsound.executors.congr, hsound.tables.congr, hsound.directory.congr, hsound.sessions.congr, hsound.sweeps.congr,
        hsound.waits.congr, hsound.token.congr, hsound.chains.congr, hsound.queues.congr⟩ hout.congr
        (fun _ hx => absurd hx hbusy) (fun _ => hbusy)
  · obtain ⟨hsound, hout⟩ := h.beginClear hn (.inr rfl)
    obtain ⟨hidle, -, -, -⟩ := h.sound.head_request hn
    refine h.of_sound hsound hout (State.hasCycle_setExecutor (s := s.dequeue n) ?_) rfl rfl rfl
    show false = (s.executor n).hasCycle
    simp [Executor.hasCycle, hidle]

theorem execClearDirectory_keeps (h : s.Laws) : EndsInLaws (execClearDirectory n s) := by
  refine endsInLaws_next ?_
  split
  · next rq hn =>
    obtain ⟨tag, op⟩ := rq
    split
    · next hop =>
      dsimp only at hop
      subst hop
      exact h.ifMaintenance hn (by simp) (h.clearDirectory hn)
    · exact h
  · exact h

end Sys2Proof.Machine
end

