-- ==== Sys2Proof/Proofs/Completions.lean ====
section
/-! SUPPORT. The completion of a cycle of an executor: its request ends, goes on, or parks, and the step ends in the laws
(R25 to R27, R84, R131). -/

namespace Sys2Proof.Machine

variable {s t u : State} {n p : Port} {k : Slot} {rq : Request} {w : Work} {r : Reply}

/-- The executor of port n completes a cycle: its cycle is in progress, for the request rq. -/
structure State.Cycling (s : State) (n : Port) (rq : Request) : Prop where
  sound : s.Sound
  outstanding : s.OutstandingLaw
  granted : s.inProgress = some (.executor n)
  current : (s.executor n).current = some rq

/-- The cycle in progress is complete. -/
theorem State.Sound.cycleDone (h : s.Sound) : ({ s with inProgress := none } : State).Sound :=
  ⟨fun _ => rfl, fun _ hr => (by cases hr), fun _ hr => (by cases hr), h.heldInInit, h.executors.congr, h.tables.congr,
    h.directory.congr, h.sessions.congr, h.sweeps.congr, h.waits.congr, h.token.congr, h.chains.congr, h.queues.congr⟩

theorem State.Cycling.running (h : s.Cycling n rq) :
    ∃ w, (s.executor n).state = .running w ∧ w.needsCycle = true ∧ w.fits rq.op = true := by
  obtain ⟨w, hw, hneeds⟩ := Executor.hasCycle_iff.1 (h.sound.grantsPending _ h.granted)
  obtain ⟨rq', hc, hfit⟩ := (h.sound.executors.shaped n).running hw
  obtain rfl : rq = rq' := Option.some.inj (h.current.symm.trans hc)
  exact ⟨w, hw, hneeds, hfit⟩

theorem State.Cycling.ready (h : s.Cycling n rq) : s.device = .ready := by
  by_contra hd
  have := h.sound.servesInReady hd
  rw [h.granted] at this
  cases this

/-- A request that ends with the completion of its cycle leaves its tag to the place that t gives it. -/
theorem State.Sound.endSettled (ht : t.Sound) (hu : u.OutstandingLaw) (hw : (t.executor n).state = .running w)
    (hready : t.device = .ready) (hp : t.inProgress = none) (htags : ∀ p, (t.port p).tags = (u.port p).tags)
    (hcount : ∀ p a, (t.queueTags p).count a + (if p = n then 0 else (t.executor p).tags.count a)
        + (waitTags t.waits p).count a + (sweepTags t.sweeps p).count a + (t.replyTags p).count a
      = (u.queueTags p).count a + (u.executor p).tags.count a + (waitTags u.waits p).count a
        + (sweepTags u.sweeps p).count a + (u.replyTags p).count a) : (t.endRequest n).Settled where
  sound := ht.endRequest hw (by rw [hp]; simp)
  outstanding := ht.endRequest_outstanding hw hu htags hcount
  ready := by rw [State.endRequest_device, hready]
  free := by rw [State.endRequest_inProgress, hp]

/-- An abandoned request stops at its completion, and no reply is owed (R131). -/
theorem State.Cycling.abandonedSettled (h : s.Cycling n rq) (ha : (s.executor n).abandoned = true) :
    (State.endRequest { s with inProgress := none } n).Settled := by
  obtain ⟨w, hw, -, -⟩ := h.running
  refine h.sound.cycleDone.endSettled h.outstanding hw h.ready rfl (fun _ => rfl) (fun p a => ?_)
  split
  · next hp =>
    have hnone : (s.executor p).tags.count a = 0 := by rw [hp, Executor.tags_of_abandoned ha]; rfl
    show _ + 0 + _ + _ + _ = _ + (s.executor p).tags.count a + _ + _ + _
    rw [hnone]
    rfl
  · rfl

/-- The executor whose request no loss has abandoned is of an ATTACHED port. -/
theorem State.Cycling.attached (h : s.Cycling n rq) (ha : (s.executor n).abandoned = false) : s.portState n = .attached := by
  obtain ⟨w, hw, -, -⟩ := h.running
  exact h.sound.sessions.executingAttached n (by simp [hw]) ha

/-- A completion whatever of an abandoned request. -/
theorem State.Cycling.abandoned (h : s.Cycling n rq) (ha : (s.executor n).abandoned = true) (o : CycleEnd) :
    (s.complete n o).Laws := by
  rw [State.complete_abandoned s n o ha]
  exact (h.abandonedSettled ha).afterCompletion

/-- A request that ends with its reply (R25). -/
theorem State.Cycling.finish (h : s.Cycling n rq) (hr : r.tag = rq.tag) : (s.complete n (.finish r)).Laws := by
  cases ha : (s.executor n).abandoned with
  | true => exact h.abandoned ha _
  | false =>
    obtain ⟨w, hw, -, -⟩ := h.running
    have hline := h.sound.lineHigh_of_attached (h.attached ha)
    rw [State.complete_finish s n r ha]
    refine ((h.sound.cycleDone.postReply (n := n) hline r).endSettled (n := n) (w := w) h.outstanding hw h.ready rfl
      (fun p => ?_) (fun p a => ?_)).afterCompletion
    · rw [State.postReply_tags]
      rfl
    · rw [State.postReply_queueTags, State.postReply_replyTags, List.count_append, hr]
      show (s.queueTags p).count a + (if p = n then 0 else (s.executor p).tags.count a) + (waitTags s.waits p).count a +
        (sweepTags s.sweeps p).count a + ((s.replyTags p).count a + _) = _
      split
      · next hp => rw [hp, Executor.tags_of_current ha h.current]; omega
      · simp

theorem State.complete_goOn (w : Work) (k : Slot) (hops : Nat) (ha : (s.executor n).abandoned = false) :
    s.complete n (.goOn w k hops) = (State.setExecutor { s with inProgress := none } n
      { s.executor n with state := .running w, walkPos := k, hops := hops }).afterCompletion :=
  congrArg State.afterCompletion (if_neg (c := (s.executor n).abandoned = true) (by simp [ha]))

theorem State.complete_endSilent (ha : (s.executor n).abandoned = false) :
    s.complete n .endSilent = (State.endRequest { s with inProgress := none } n).afterCompletion :=
  congrArg State.afterCompletion (if_neg (c := (s.executor n).abandoned = true) (by simp [ha]))

/-- A request that goes on to another cycle (R25). -/
theorem State.Cycling.goOn (h : s.Cycling n rq) {hops : Nat} (hfit : w.fits rq.op = true)
    (hk : k < Config.slots) (hh : hops ≤ Config.hopLimit)
    (hlink : Executor.linking { s.executor n with state := .running w, walkPos := k, hops := hops }
      = (s.executor n).linking)
    (hchain : s.chainFits { s.executor n with state := .running w, walkPos := k, hops := hops }) :
    (s.complete n (.goOn w k hops)).Laws := by
  cases ha : (s.executor n).abandoned with
  | true => exact h.abandoned ha _
  | false =>
    obtain ⟨w', hw', -, -⟩ := h.running
    have hatt := h.attached ha
    rw [State.complete_goOn w k hops ha]
    have hex : ∀ p, (State.setExecutor { s with inProgress := none } n
        { s.executor n with state := .running w, walkPos := k, hops := hops }).executor p =
        if p = n then { s.executor n with state := .running w, walkPos := k, hops := hops } else s.executor p :=
      fun p => PerPort.get_set s.execs n p _
    have hdone := h.sound.cycleDone
    refine State.Settled.afterCompletion ⟨hdone.withExecs rfl (fun p => ?_) (hdone.token.withExecs rfl (fun p => ?_)
      (fun p _ => ?_) (fun p => ?_)), h.outstanding.of_count (fun _ => rfl) (fun p a => ?_), h.ready, rfl⟩
    · rw [show State.executor _ p = _ from hex p]
      split
      · next hp =>
        rw [hp]
        exact {
          shaped := ⟨rq, h.current, hfit⟩
          examined := h.sound.executors.examined n
          inRange := hk
          hopsInRange := hh
          abandonedRuns := fun hx => absurd (ha.symm.trans hx) (by simp)
          granted := nofun
          attached := fun _ _ => hatt
          lost := fun hx => absurd (ha.symm.trans hx) (by simp)
          stillBusy := fun _ => .inl hatt
          chain := hchain.congr rfl }
      · exact hdone.execFits p
    · rw [show State.executor _ p = _ from hex p]
      split
      · next hp => rw [hp]; exact hlink
      · rfl
    · rw [show State.executor _ p = _ from hex p]
      split
      · next hp => rw [hp]; rfl
      · rfl
    · rw [show State.executor _ p = _ from hex p]
      split
      · next hp =>
        rw [hp]
        show ExecutorState.running w = .tokenWait ↔ (s.executor n).state = .tokenWait
        rw [hw']
        simp
      · rfl
    · rw [show State.executor _ p = _ from hex p]
      show (s.queueTags p).count a + _ + (waitTags s.waits p).count a + (sweepTags s.sweeps p).count a +
        (s.replyTags p).count a = _
      split
      · next hp => rw [hp]; rfl
      · rfl

/-- What a request of an ATTACHED port completes its cycle in, given by the state s before it. -/
theorem State.Cycling.of_frame (h : s.Cycling n rq) (hu : u.Sound) (ho : u.OutstandingLaw)
    (hx : u.execs = s.execs := by rfl) (hp : u.inProgress = s.inProgress := by rfl) : u.Cycling n rq :=
  ⟨hu, ho, hp.trans h.granted, by rw [State.executor_congr hx]; exact h.current⟩

theorem State.Laws.cycling (h : s.Laws) (hc : s.cycleOf n w = some rq) :
    s.Cycling n rq ∧ (s.executor n).state = .running w ∧ w.fits rq.op = true := by
  obtain ⟨hp, hs, hcur⟩ := (State.cycleOf_eq_some s n w rq).1 hc
  refine ⟨⟨h.sound, h.outstanding, hp, hcur⟩, hs, ?_⟩
  obtain ⟨rq', hcur', hfit⟩ := (h.executors.shaped n).running hs
  obtain rfl : rq = rq' := Option.some.inj (hcur.symm.trans hcur')
  exact hfit

/-- A posting of an entry event between the write and the completion. -/
theorem State.Cycling.postEntryEvent (h : s.Cycling n rq) (watchers : PerPort Bool) (kind : EventKind) (j : Slot)
    (v : Version) (value : Option Value) (cause : Cause) :
    (s.postEntryEvent watchers kind j v value cause).Cycling n rq :=
  h.of_frame (h.sound.postEvent _ _) (h.outstanding.postEvent _ _)

/-- A write of one entry before the completion. -/
theorem State.Cycling.rewrote {e : Entry} (h : s.Cycling n rq) (ht : s.Rewrote k e t) (hmay : s.MayWrite k e)
    (hforward : ∀ v, e.content = .forward v → (s.entry k).content = .forward v) : t.Cycling n rq := by
  have hchain : t.ChainLaw := (State.forwardsIn_setEntry ht.entries hforward).chainLaw h.sound.chains (by rw [ht.frame])
  exact h.of_frame (ht.sound h.sound hmay hchain) (ht.outstanding h.outstanding) (by rw [ht.frame]) (by rw [ht.frame])

/-- The refusals of a cycle end its request with a reply that carries its tag. -/
theorem State.Cycling.refuse (h : s.Cycling n rq) (st : Status) : (s.refuse n rq st).Laws := h.finish rfl

/-- The allocation test of a single cycle (R2, R11). -/
theorem State.Cycling.ifAllocated (h : s.Cycling n rq) (hproceed : s.allocated k = true → t.Laws) :
    (s.ifAllocated n rq k t).Laws := by
  unfold State.ifAllocated
  split
  · next ha => exact hproceed ha
  · exact h.refuse _

end Sys2Proof.Machine
end

