-- ==== Sys2Proof/Proofs/WalkCycles.lean ====
section
/-! SUPPORT. The cycles of walks keep the laws: WALK_HOP, READ_TERMINAL, PUT_TERMINAL, TAKE_TERMINAL (R41 to R45, R64 to R75,
R84 to R88). -/

namespace Sys2Proof.Machine

variable {s t u : State} {n p : Port} {k : Slot} {rq : Request} {e : Entry} {w : WaitRecord}

/-! ## WALK_HOP and READ_TERMINAL -/

/-- A walk goes on to the next slot of its chain (R41). -/
theorem State.Cycling.walkOn (h : s.Cycling n rq) (hw : (s.executor n).state = .running .walk)
    (hfit : Work.walk.fits rq.op = true) {v : Slot} (hv : (s.entry (s.executor n).walkPos).content = .forward v)
    (hh : (s.executor n).hops < Config.hopLimit) : (s.complete n (.goOn .walk v ((s.executor n).hops + 1))).Laws :=
  h.goOn hfit (h.sound.tables.targetsInRange _ v hv) hh (by simp [Executor.linking, hw])
    (State.chainFits_of_not_linking rfl)

theorem execWalkHop_keeps (h : s.Laws) : EndsInLaws (execWalkHop n s) := by
  refine endsInLaws_next ?_
  split
  · next rq hc =>
    obtain ⟨hcy, hw, hfit⟩ := h.cycling hc
    dsimp only
    split
    · exact hcy.finish rfl
    · split
      · next v hv =>
        split
        · next hh => exact hcy.walkOn hw hfit hv hh
        · exact hcy.finish rfl
      all_goals exact h
  · exact h

theorem State.atTerminal_cases (h : s.atTerminal n = some rq) : s.cycleOf n .walk = some rq ∧
    s.allocated (s.executor n).walkPos = true ∧ ∀ v, (s.entry (s.executor n).walkPos).content ≠ .forward v := by
  unfold State.atTerminal at h
  split at h
  · next hc =>
    refine ⟨h, hc.1, fun v hv => ?_⟩
    rw [hv] at hc
    exact absurd hc.2 (by simp [Content.isForward])
  · cases h

theorem execReadTerminal_keeps (h : s.Laws) : EndsInLaws (execReadTerminal n s) := by
  refine endsInLaws_next ?_
  split
  · next rq hc =>
    obtain ⟨hcy, -, -⟩ := h.cycling (State.atTerminal_cases hc).1
    split
    · exact hcy.finish rfl
    · exact h
  · exact h

/-! ## Writes of content that make and drop no forward -/

/-- A write of a content that makes no forward to an entry that holds none, its owner and watch set standing. -/
theorem State.Cycling.store (h : s.Cycling n rq) (hk : k < Config.slots) (ha : s.allocated k = true)
    (hold : ∀ v, (s.entry k).content ≠ .forward v) (hnew : ∀ v, e.content ≠ .forward v)
    (hparked : ∀ w ∈ s.waits, w.terminal = k → e.content = .empty) (howner : e.owner = (s.entry k).owner := by rfl)
    (horphaned : e.orphaned = (s.entry k).orphaned := by rfl) (hwatch : e.watch = (s.entry k).watch := by rfl) :
    (s.setEntry k e).Cycling n rq := by
  have hrow : ∀ j, e.forwardsTo j = (s.entry k).forwardsTo j := fun j =>
    (decide_eq_false (hnew j)).trans (decide_eq_false (hold j)).symm
  exact h.rewrote (State.rewrote_of_sameRows h.sound.tables rfl rfl rfl hrow
      (State.talliesFollow_same rfl (Entry.ownedBy_congr howner horphaned) hwatch))
    (h.sound.mayWrite h.ready hk ha howner horphaned hwatch (fun v hv => absurd hv (hnew v)) hparked)
    (fun v hv => absurd hv (hnew v))

/-- The oldest record on a slot, taken out of the Wait Table. -/
theorem State.oldestWait_split (hw : s.oldestWait k = some w) : ∃ before after, s.waits = before ++ w :: after ∧
    (s.removeOldestWait k).waits = before ++ after := by
  obtain ⟨hk, before, after, hsplit, hbefore⟩ := List.find?_eq_some_iff_append.1 hw
  refine ⟨before, after, hsplit, ?_⟩
  show s.waits.eraseP (fun w => decide (w.terminal = k)) = _
  rw [hsplit, List.eraseP_append_right _ (fun x hx => by simpa using hbefore x hx), List.eraseP_cons, hk, cond_true]

/-- The oldest record on an EMPTY terminal leaves the Wait Table with the value (R87, R88). -/
theorem State.Sound.handTo (h : s.Sound) (ho : s.OutstandingLaw) (hw : s.oldestWait k = some w) (v : Value)
    (ver : Version) : (s.handTo k w v ver).Sound ∧ (s.handTo k w v ver).OutstandingLaw := by
  obtain ⟨before, after, hsplit, hrest⟩ := State.oldestWait_split hw
  have hmem : w ∈ s.waits := by rw [hsplit]; simp
  have hline := h.lineHigh_of_attached (h.waits.portAttached w hmem)
  have hout : ({ s with waits := before ++ after } : State).Sound := by
    refine h.withWaits (fun x hx => ⟨x, ?_, rfl, rfl⟩) ?_
    · rw [hsplit]
      rcases List.mem_append.1 hx with hx | hx <;> simp [hx]
    · rw [hsplit]; simp
  rw [← hrest] at hout
  refine ⟨State.Sound.postReply (s := s.removeOldestWait k) hout hline _,
    ho.of_count (fun p => State.postReply_tags _ _ _) fun p a => ?_⟩
  unfold State.handTo
  rw [State.postReply_queueTags, State.postReply_replyTags]
  show (s.queueTags p).count a + (s.executor p).tags.count a + (waitTags (s.removeOldestWait k).waits p).count a +
    (sweepTags s.sweeps p).count a + (s.replyTags p ++ _).count a = _
  rw [hrest, hsplit]
  by_cases hp : p = w.port
  · simp only [hp, if_pos, waitTags_append, waitTags_cons, List.count_append, waitReply]
    omega
  · simp [hp, Ne.symm hp, waitTags_cons]

theorem State.Cycling.handTo (h : s.Cycling n rq) (hw : s.oldestWait k = some w) (v : Value) (ver : Version) :
    (s.handTo k w v ver).Cycling n rq := by
  obtain ⟨hsound, hout⟩ := h.sound.handTo h.outstanding hw v ver
  exact h.of_frame hsound hout

/-! ## PUT_TERMINAL -/

/-- The walk position of a terminal cycle is an allocated slot of the directory that forwards nowhere, EMPTY if a take is
parked there. -/
theorem State.Cycling.parked_empty (h : s.Cycling n rq) {x : Content} (hx : (s.entry k).content = .empty → x = .empty) :
    ∀ w ∈ s.waits, w.terminal = k → x = .empty := fun w hw hwk => hx (hwk ▸ (h.sound.waits.terminalEmpty w hw).2)

theorem State.Cycling.putHandoff (h : s.Cycling n rq) (ha : s.allocated (s.executor n).walkPos = true)
    (hc : (s.entry (s.executor n).walkPos).content = .empty) (hw : s.oldestWait (s.executor n).walkPos = some w)
    (v : Value) : (s.putHandoff n rq w v).Laws := by
  have hold : ∀ x, (s.entry (s.executor n).walkPos).content ≠ .forward x := by simp [hc]
  have hstore := h.store (e := { s.entry (s.executor n).walkPos with version := (s.entry (s.executor n).walkPos).version + 1 })
    (h.sound.executors.inRange n) ha hold hold (h.parked_empty id)
  exact ((hstore.handTo (w := w) hw v _).postEntryEvent _ _ _ _ _ _).finish rfl

theorem State.Cycling.putStore (h : s.Cycling n rq) (ha : s.allocated (s.executor n).walkPos = true)
    (hold : ∀ x, (s.entry (s.executor n).walkPos).content ≠ .forward x)
    (hfree : (s.entry (s.executor n).walkPos).content = .empty → s.oldestWait (s.executor n).walkPos = none)
    (v : Value) : (s.putStore n rq v).Laws := by
  have hparked : ∀ w ∈ s.waits, w.terminal = (s.executor n).walkPos → Content.value v = .empty := fun w hw hwk => by
    have hnone := hfree (hwk ▸ (h.sound.waits.terminalEmpty w hw).2)
    exact absurd hwk (by simpa using List.find?_eq_none.1 hnone w hw)
  have hstore := h.store (e := { s.entry (s.executor n).walkPos with
      content := .value v, version := (s.entry (s.executor n).walkPos).version + 1 })
    (h.sound.executors.inRange n) ha hold (by simp) hparked
  exact (hstore.postEntryEvent _ _ _ _ _ _).finish rfl

theorem execPutTerminal_keeps (h : s.Laws) : EndsInLaws (execPutTerminal n s) := by
  refine endsInLaws_next ?_
  split
  · next rq hc =>
    obtain ⟨hcycle, ha, hold⟩ := State.atTerminal_cases hc
    obtain ⟨hcy, -, -⟩ := h.cycling hcycle
    split
    · next v _ =>
      dsimp only
      split
      · exact hcy.finish rfl
      · exact h
      · split
        · exact hcy.finish rfl
        · split
          · next w hempty hwait => exact hcy.putHandoff ha hempty hwait v
          · next hne =>
            refine hcy.putStore ha hold (fun hempty => ?_) v
            by_contra hsome
            obtain ⟨w, hw⟩ := Option.ne_none_iff_exists'.1 hsome
            exact hne w hempty hw
    · exact h
  · exact h

/-! ## TAKE_TERMINAL -/

/-- A take that parks (R84): its record joins the Wait Table. -/
theorem State.Cycling.park (h : s.Cycling n rq) (hk : s.allocated w.terminal = true)
    (hc : (s.entry w.terminal).content = .empty) (hatt : s.portState w.port = .attached)
    (hroom : s.waits.length < Config.waitPlaces) : ({ s with waits := s.waits ++ [w] } : State).Sound := by
  have hs := h.sound
  have hready := h.ready
  refine ⟨hs.servesInReady, hs.grantsPending, hs.grantedLast, hs.heldInInit, hs.executors.congr, hs.tables.congr,
    hs.directory.congr, ⟨hs.sessions.fits, hs.sessions.closingSwept, hs.sessions.sweptOnce, hs.sessions.executingAttached,
    hs.sessions.abandonedLost, fun hd => ?_⟩, hs.sweeps.congr, ⟨fun x hx => ?_, fun x hx => ?_, ?_, fun hd => ?_⟩,
    hs.token.congr, hs.chains.congr, hs.queues.congr⟩
  · exact absurd (hready.symm.trans (hs.heldInInit hd)) (by simp)
  · rcases List.mem_append.1 hx with hx | hx
    · exact hs.waits.terminalEmpty x hx
    · rw [List.mem_singleton.1 hx]; exact ⟨hk, hc⟩
  · rcases List.mem_append.1 hx with hx | hx
    · exact hs.waits.portAttached x hx
    · rw [List.mem_singleton.1 hx]; exact hatt
  · simpa using hroom
  · exact absurd hready hd

theorem State.Cycling.takeWait (h : s.Cycling n rq) (ha : s.allocated (s.executor n).walkPos = true)
    (hc : (s.entry (s.executor n).walkPos).content = .empty) (named : Slot) (wait : Nat) :
    (s.takeWait n rq named wait).Laws := by
  unfold State.takeWait
  dsimp only
  split
  · next hatt =>
    refine h.abandoned ?_ _
    by_contra hna
    exact hatt (h.attached (by simpa using hna))
  · next hatt =>
    have hatt : s.portState n = .attached := not_not.1 hatt
    split
    · next hroom =>
      have hna : (s.executor n).abandoned = false := Bool.eq_false_iff.2 fun hx => h.sound.abandoned_not_attached hx hatt
      obtain ⟨w, hw, -, -⟩ := h.running
      have hpark := (h.park (w := ⟨n, rq.tag, named, (s.executor n).walkPos, (s.executor n).hops, waitStart wait⟩) ha hc hatt
        hroom).cycleDone
      rw [State.complete_endSilent (s := { s with waits := s.waits ++ [_] }) hna]
      refine (hpark.endSettled (n := n) (w := w) h.outstanding hw h.ready rfl (fun _ => rfl) (fun p a => ?_)).afterCompletion
      show (s.queueTags p).count a + (if p = n then 0 else (s.executor p).tags.count a) + (waitTags (s.waits ++ [_]) p).count a +
        (sweepTags s.sweeps p).count a + (s.replyTags p).count a = _
      rw [waitTags_append, waitTags_singleton, List.count_append]
      by_cases hp : p = n
      · rw [hp, Executor.tags_of_current hna h.current]
        simp only [if_pos]
        omega
      · simp [hp, Ne.symm hp]
    · exact h.finish rfl

theorem State.Cycling.takeValue (h : s.Cycling n rq) (ha : s.allocated (s.executor n).walkPos = true)
    (hold : ∀ x, (s.entry (s.executor n).walkPos).content ≠ .forward x) (v : Value) : (s.takeValue n rq v).Laws := by
  have hstore := h.store (e := { s.entry (s.executor n).walkPos with
      content := .empty, version := (s.entry (s.executor n).walkPos).version + 1 })
    (h.sound.executors.inRange n) ha hold (by simp) (fun _ _ _ => rfl)
  exact (hstore.postEntryEvent _ _ _ _ _ _).finish rfl

theorem execTakeTerminal_keeps (h : s.Laws) : EndsInLaws (execTakeTerminal n s) := by
  refine endsInLaws_next ?_
  split
  · next rq hc =>
    obtain ⟨hcycle, ha, hold⟩ := State.atTerminal_cases hc
    obtain ⟨hcy, -, -⟩ := h.cycling hcycle
    split
    · next named wait ho =>
      dsimp only
      split
      · exact hcy.finish rfl
      · split
        · next v hv => exact hcy.takeValue ha hold v
        · next hempty =>
          split
          · exact hcy.finish rfl
          · exact hcy.takeWait ha hempty named wait
        · next v hv => exact absurd hv (hold v)
    · exact h
  · exact h

end Sys2Proof.Machine
end

