-- ==== Sys2Proof/Proofs/LinkCycles.lean ====
section
/-! SUPPORT. The cycles of LINK keep the laws: CHECK_WALK_CYCLE and COMMIT_CYCLE (R53 to R60). -/

namespace Sys2Proof.Machine

variable {s t u : State} {n p : Port} {k named target : Slot} {rq : Request} {tag : Tag}

/-! ## Chains, one forward on -/

theorem State.follow_succ {j : Nat} {x v : Slot} (hx : s.follow j k = some x) (hv : (s.entry x).content = .forward v) :
    s.follow (j + 1) k = some v := by
  induction j generalizing k with
  | zero =>
    obtain rfl : k = x := Option.some.inj hx
    simp only [State.follow, hv]
  | succ j ih =>
    rw [State.follow] at hx ⊢
    split at hx
    · exact ih hx
    · cases hx
    · cases hx

theorem State.follow_succ_none {j : Nat} {x : Slot} (hx : s.follow j k = some x)
    (hv : ∀ v, (s.entry x).content ≠ .forward v) : s.follow (j + 1) k = none := by
  induction j generalizing k with
  | zero =>
    obtain rfl : k = x := Option.some.inj hx
    rw [State.follow]
    split
    · next v hc => exact absurd hc (hv v)
    · rfl
    · rfl
  | succ j ih =>
    rw [State.follow] at hx ⊢
    split at hx
    · exact ih hx
    · cases hx
    · cases hx

/-! ## CHECK_WALK_CYCLE -/

/-- The check walk goes one forward on: what it has found holds of the next position (R59). -/
theorem State.Cycling.checkOn (h : s.Cycling n ⟨tag, .link named target⟩)
    (hw : (s.executor n).state = .running .checkWalk) (hne : (s.executor n).walkPos ≠ named) {v : Slot}
    (hv : (s.entry (s.executor n).walkPos).content = .forward v) (hh : (s.executor n).hops < Config.checkHopLimit) :
    (s.complete n (.goOn .checkWalk v ((s.executor n).hops + 1))).Laws := by
  refine h.goOn rfl (h.sound.tables.targetsInRange _ v hv) ?_ (by simp [Executor.linking, hw]) ⟨?_, nofun⟩
  · exact le_trans hh (by decide)
  · intro tag' named' target' hc _ i hi
    obtain ⟨-, rfl, rfl⟩ : tag = tag' ∧ named = named' ∧ target = target' := by
      have := h.current.symm.trans hc
      simpa using this
    obtain ⟨j, hj, hreach⟩ := h.sound.chains.checked n tag named target h.current hw i hi
    have hlt : j ≠ i := by
      rintro rfl
      exact hne (Option.some.inj (hreach.symm.trans hi))
    exact ⟨j + 1, by omega, State.follow_succ hreach hv⟩

/-- The check walk has come to the end of its chain: the named slot is not on it (R59). -/
theorem State.Cycling.checkEnds (h : s.Cycling n ⟨tag, .link named target⟩)
    (hw : (s.executor n).state = .running .checkWalk) (hne : (s.executor n).walkPos ≠ named)
    (hv : ∀ v, (s.entry (s.executor n).walkPos).content ≠ .forward v) :
    (s.complete n (.goOn .commit (s.executor n).walkPos (s.executor n).hops)).Laws := by
  refine h.goOn rfl (h.sound.executors.inRange n) (h.sound.executors.hopsInRange n) (by simp [Executor.linking, hw])
    ⟨nofun, ?_⟩
  intro tag' named' target' hc _ i hi
  obtain ⟨-, rfl, rfl⟩ : tag = tag' ∧ named = named' ∧ target = target' := by
    have := h.current.symm.trans hc
    simpa using this
  obtain ⟨j, hj, hreach⟩ := h.sound.chains.checked n tag named target h.current hw i hi
  have hlt : j ≠ i := by
    rintro rfl
    exact hne (Option.some.inj (hreach.symm.trans hi))
  obtain ⟨y, hy⟩ := State.follow_prefix hi (show j + 1 ≤ i by omega)
  rw [State.follow_succ_none hreach hv] at hy
  cases hy

theorem execCheckWalkCycle_keeps (h : s.Laws) : EndsInLaws (execCheckWalkCycle n s) := by
  refine endsInLaws_next ?_
  split
  · next rq hc =>
    obtain ⟨hcy, hw, -⟩ := h.cycling hc
    obtain ⟨tag, op⟩ := rq
    split
    · next named target ho =>
      dsimp only at ho
      subst ho
      dsimp only
      split
      · exact hcy.finish rfl
      · split
        · exact hcy.finish rfl
        · next hne =>
          split
          · next v hv =>
            split
            · next hh => exact hcy.checkOn hw hne hv hh
            · exact hcy.finish rfl
          all_goals
            next hv => exact hcy.checkEnds hw hne (by simp [hv])
    · exact h
  · exact h

/-! ## COMMIT_CYCLE -/

/-- In t the named entry forwards to the target, every other content is as in s, and in s no chain leads from the target to
the named slot (R57, R59). -/
structure State.Linked (s : State) (named target : Slot) (t : State) : Prop where
  other : ∀ j, j ≠ named → (t.entry j).content = (s.entry j).content
  forward : (t.entry named).content = .forward target
  unreached : ∀ i, s.follow i target ≠ some named

/-- The chain from the target is as before the commit. -/
theorem State.Linked.follow (h : s.Linked named target t) (i : Nat) : t.follow i target = s.follow i target := by
  have hchain : ∀ i k, (∀ m, s.follow m k ≠ some named) → t.follow i k = s.follow i k := by
    intro i
    induction i with
    | zero => exact fun _ _ => rfl
    | succ i ih =>
      intro k hk
      have hkn : k ≠ named := fun he => hk 0 (by rw [he]; rfl)
      rw [State.follow, State.follow, h.other k hkn]
      split
      · next v hv =>
        refine ih v fun m hm => hk (m + 1) ?_
        rw [State.follow, hv]
        exact hm
      · rfl
      · rfl
  exact hchain i target h.unreached

/-- A commit closes no chain on itself (R60). -/
theorem State.Linked.acyclic (h : s.Linked named target t) (hs : ∀ k, ∃ m, s.follow m k = none) (k : Slot) :
    ∃ m, t.follow m k = none := by
  obtain ⟨m, hm⟩ := hs k
  induction m generalizing k with
  | zero => cases hm
  | succ m ih =>
    by_cases hk : k = named
    · obtain ⟨i, hi⟩ := hs target
      refine ⟨i + 1, ?_⟩
      rw [State.follow, hk, h.forward]
      exact (h.follow i).trans hi
    · rw [State.follow] at hm
      split at hm
      · next v hv =>
        obtain ⟨i, hi⟩ := ih v hm
        refine ⟨i + 1, ?_⟩
        rw [State.follow, h.other k hk, hv]
        exact hi
      all_goals
        next hv =>
          refine ⟨1, ?_⟩
          rw [State.follow, h.other k hk, hv]

/-- A commit keeps the law of the chains: the executor that commits is the only one with a check walk to keep true. -/
theorem State.Cycling.linkedChains (h : s.Cycling n ⟨tag, .link named target⟩)
    (hw : (s.executor n).state = .running .commit) (hl : s.Linked named target t) (hx : t.execs = s.execs) :
    t.ChainLaw := by
  refine State.chainLaw_iff.2 ⟨hl.acyclic h.sound.chains.acyclic, fun p => ?_⟩
  rw [State.executor_congr hx]
  by_cases hp : p = n
  · rw [hp]
    refine ⟨fun _ _ _ _ hs => absurd (hw.symm.trans hs) (by simp), fun tag' named' target' hc _ i => ?_⟩
    obtain ⟨-, rfl, rfl⟩ : tag = tag' ∧ named = named' ∧ target = target' := by
      have := h.current.symm.trans hc
      simpa using this
    rw [hl.follow]
    exact hl.unreached i
  · refine State.chainFits_of_not_linking (Bool.eq_false_iff.2 fun hlink => hp ?_)
    exact h.sound.token.onlyLinker hlink (Executor.linking_iff.2 (.inr hw))

/-- The Wait Table may lose its records on a slot before the completion, each answered (R91, R92). -/
theorem State.Cycling.endWaitsOn (h : s.Cycling n rq) (k : Slot) (st : Status) (c : Option Content) (v : Option Version) :
    (s.endWaitsOn k st c v).Cycling n rq := by
  rw [State.endWaitsOn_eq]
  exact h.of_frame (h.sound.endWaits _ _ _ _) (h.outstanding.endWaits _ _ _ _)

theorem State.endWaitsOn_waits (k : Slot) (st : Status) (c : Option Content) (v : Option Version) :
    ∀ w ∈ (s.endWaitsOn k st c v).waits, w.terminal ≠ k := fun w hw => by
  have hw : w ∈ s.waits.filter (fun w => decide (w.terminal ≠ k)) := hw
  simpa using (List.mem_filter.1 hw).2

/-- The entry of a slot that becomes a forward (R57). -/
def Entry.linked (e : Entry) (target : Slot) : Entry := { e with content := .forward target, version := e.version + 1 }

/-- Records leave the Wait Table whatever the directory holds. -/
theorem State.endWaitsOn_directory {x : State}
    (hx : x = { s with entries := x.entries, rows := x.rows, tallies := x.tallies }) (k : Slot) (st : Status)
    (c : Option Content) (v : Option Version) : x.endWaitsOn k st c v =
      { s.endWaitsOn k st c v with entries := x.entries, rows := x.rows, tallies := x.tallies } := by
  rw [hx]
  rfl

/-- The write of a commit, its counts, and the end of the waits on the named slot (R57, R91). -/
def State.linkEntry (s : State) (named target : Slot) (st : Status) (c : Option Content) (v : Option Version) : State :=
  (((s.setEntry named ((s.entry named).linked target)).dropForward (s.entry named).content).raiseInbound target).endWaitsOn
    named st c v

theorem State.Cycling.linkEntry (h : s.Cycling n ⟨tag, .link named target⟩)
    (hw : (s.executor n).state = .running .commit) (hnamed : s.allocated named = true)
    (htarget : s.allocated target = true) (st : Status) (c : Option Content) (v : Option Version) :
    (s.linkEntry named target st c v).Cycling n ⟨tag, .link named target⟩ := by
  have hok : slotOk named = true ∧ slotOk target = true := by
    simpa [RequestOp.operandsOk] using h.sound.executors.examined n _ h.current
  simp only [slotOk, decide_eq_true_eq] at hok
  have hu := h.endWaitsOn named st c v
  have hwaits := s.endWaitsOn_waits named st c v
  have hframe := State.endWaitsOn_directory (s := s)
    (x := ((s.setEntry named ((s.entry named).linked target)).dropForward (s.entry named).content).raiseInbound target)
    (by cases (s.entry named).content <;> rfl) named st c v
  have hrows : (s.linkEntry named target st c v).rows =
      (((s.endWaitsOn named st c v).dropForward (s.entry named).content).raiseInbound target).rows := by
    unfold State.linkEntry
    cases (s.entry named).content <;> rfl
  have hentries : (s.linkEntry named target st c v).entries =
      ((s.endWaitsOn named st c v).setEntry named ((s.entry named).linked target)).entries := by
    unfold State.linkEntry
    cases (s.entry named).content <;> rfl
  have htallies : (s.linkEntry named target st c v).tallies = (s.endWaitsOn named st c v).tallies := by
    unfold State.linkEntry
    cases (s.entry named).content <;> rfl
  have hentry : ∀ j, (s.endWaitsOn named st c v).entry j = s.entry j := fun _ => rfl
  have hall : ∀ j, (s.endWaitsOn named st c v).allocated j = s.allocated j := fun _ => rfl
  have hexecs : (s.endWaitsOn named st c v).execs = s.execs := rfl
  have hframe : s.linkEntry named target st c v = { s.endWaitsOn named st c v with
      entries := (s.linkEntry named target st c v).entries, rows := (s.linkEntry named target st c v).rows
      tallies := (s.linkEntry named target st c v).tallies } := hframe
  rw [← hentry named] at hrows hentries
  rw [← hall] at hnamed htarget
  rw [← State.executor_congr hexecs] at hw
  generalize s.linkEntry named target st c v = t at hframe hrows hentries htallies
  generalize s.endWaitsOn named st c v = u at hu hwaits hframe hrows hentries htallies hnamed htarget hw
  have hre : u.Rewrote named ((u.entry named).linked target) t :=
    State.rewrote_of_linked hu.sound.tables (hu.sound.directory.inReady hu.ready) hok.2 hframe hentries hrows rfl
      (State.talliesFollow_same htallies (Entry.ownedBy_congr rfl rfl) rfl)
  have hmay : u.MayWrite named ((u.entry named).linked target) :=
    hu.sound.mayWrite hu.ready hok.1 hnamed rfl rfl rfl (fun x hx => by cases hx; exact ⟨hok.2, htarget⟩)
      (fun w hwm hwn => absurd hwn (hwaits w hwm))
  have hlinked : u.Linked named target t := {
    other := fun j hj => by rw [hre.entry, if_neg hj]
    forward := by rw [hre.entry, if_pos rfl]; rfl
    unreached := hu.sound.chains.committing n tag named target hu.current hw }
  have hexecs' : t.execs = u.execs := by rw [hframe]
  exact hu.of_frame (hre.sound hu.sound hmay (hu.linkedChains hw hlinked hexecs')) (hre.outstanding hu.outstanding)
    hexecs' (by rw [hframe])

theorem State.Cycling.commitLink (h : s.Cycling n ⟨tag, .link named target⟩)
    (hw : (s.executor n).state = .running .commit) (hnamed : s.allocated named = true)
    (htarget : s.allocated target = true) : (s.commitLink n ⟨tag, .link named target⟩ named target).Laws :=
  ((h.linkEntry hw hnamed htarget .relinked (some (.forward target))
    (some ((s.entry named).version + 1))).postEntryEvent _ _ _ _ _ _).finish rfl

theorem execCommitCycle_keeps (h : s.Laws) : EndsInLaws (execCommitCycle n s) := by
  refine endsInLaws_next ?_
  split
  · next rq hc =>
    obtain ⟨hcy, hw, -⟩ := h.cycling hc
    obtain ⟨tag, op⟩ := rq
    split
    · next named target ho =>
      dsimp only at ho
      subst ho
      dsimp only
      split
      · exact hcy.finish rfl
      · next hnamed =>
        split
        · exact hcy.finish rfl
        · split
          · exact hcy.finish rfl
          · split
            · exact hcy.finish rfl
            · next htarget => exact hcy.commitLink hw (by simpa using hnamed) (by simpa using htarget)
    · exact h
  · exact h

end Sys2Proof.Machine
end

