-- ==== Sys2Proof/Proofs/SingleCycles.lean ====
section
/-! SUPPORT. The single cycles on a named entry keep the laws: CLEAR, CHECKPOINT, WATCH, UNWATCH, CLAIM, RELEASE, ADOPT,
SET_ACCESS, INSPECT, BREAK_WAIT (R77 to R79, R92, R109 to R112, R141, R142, R168). -/

namespace Sys2Proof.Machine

variable {s t u : State} {n p : Port} {k : Slot} {rq : Request} {e : Entry} {a : Access}

/-- The slot that an examined request names is one of the directory's (R1, R161). -/
theorem State.Cycling.named_inRange (h : s.Cycling n rq) (hk : rq.op.operandsOk = true → k < Config.slots) :
    k < Config.slots := hk (h.sound.executors.examined n rq h.current)

theorem slotOk_iff : slotOk k = true ↔ k < Config.slots := by simp [slotOk]

/-! ## Writes that leave the content -/

/-- What the laws ask of a write that leaves the content, and by which no port but the requester gains. -/
theorem State.Cycling.mayWrite (h : s.Cycling n rq) (hk : k < Config.slots) (ha : s.allocated k = true)
    (hcontent : e.content = (s.entry k).content) (howner : e.owner = none → e.orphaned = false)
    (hgain : ∀ p, p ≠ n → (e.watch.get p = true → (s.entry k).watch.get p = true) ∧
      (e.ownedBy p = true → (s.entry k).ownedBy p = true)) : s.MayWrite k e where
  ready := h.ready
  inRange := hk
  allocated := ha
  target := fun v hv => h.sound.target h.ready v (hcontent ▸ hv)
  owner := howner
  gains := fun p hp => hgain p fun hpn => by
    obtain ⟨w, hw, -, -⟩ := h.running
    rw [hpn, hw] at hp
    cases hp
  parked := fun w hw hwk => by
    rw [hcontent, ← hwk]
    exact (h.sound.waits.terminalEmpty w hw).2

theorem Entry.forwardsTo_congr {e' : Entry} (h : e'.content = e.content) (j : Slot) :
    e'.forwardsTo j = e.forwardsTo j := by unfold Entry.forwardsTo; rw [h]

/-- A write that leaves the content, with the tallies that follow it. -/
theorem State.Cycling.keepContent (h : s.Cycling n rq) (hmay : s.MayWrite k e)
    (hcontent : e.content = (s.entry k).content) (hfollow : s.TalliesFollow k e t)
    (hframe : t = { s.setEntry k e with tallies := t.tallies } := by rfl) : t.Cycling n rq := by
  have hentries : t.entries = (s.setEntry k e).entries := by rw [hframe]
  have hrows : t.rows = s.rows := by rw [hframe]; rfl
  refine h.rewrote (State.rewrote_of_sameRows h.sound.tables ?_ hentries hrows (Entry.forwardsTo_congr hcontent) hfollow)
    hmay (fun v hv => hcontent ▸ hv)
  rw [hentries, hrows]
  exact hframe

/-- A write of the saved field or the access terms alone. -/
theorem State.Cycling.annotate (h : s.Cycling n rq) (hk : k < Config.slots) (ha : s.allocated k = true)
    (hcontent : e.content = (s.entry k).content := by rfl) (howner : e.owner = (s.entry k).owner := by rfl)
    (horphaned : e.orphaned = (s.entry k).orphaned := by rfl) (hwatch : e.watch = (s.entry k).watch := by rfl) :
    (s.setEntry k e).Cycling n rq :=
  h.keepContent (h.mayWrite hk ha hcontent
      (fun ho => by
        rw [horphaned]
        exact (h.sound.directory.inReady h.ready).unownedNotOrphaned k (howner ▸ ho))
      (fun p _ => ⟨fun hx => hwatch ▸ hx, fun hx => by rwa [← Entry.ownedBy_congr howner horphaned]⟩))
    hcontent (State.talliesFollow_same rfl (Entry.ownedBy_congr howner horphaned) hwatch)

/-! ## CLEAR and CHECKPOINT -/

theorem State.Cycling.clearEntry (h : s.Cycling n rq) (hk : k < Config.slots) (ha : s.allocated k = true) :
    (s.clearEntry n rq k).Laws := by
  unfold State.clearEntry
  dsimp only
  split
  · exact h.finish rfl
  · have hre : s.Rewrote k { s.entry k with content := .empty, version := (s.entry k).version + 1 }
        ((s.setEntry k { s.entry k with content := .empty, version := (s.entry k).version + 1 }).dropForward
          (s.entry k).content) := by
      refine State.rewrote_of_dropped h.sound.tables (h.sound.directory.inReady h.ready) ?_ ?_ ?_ (by simp)
        (State.talliesFollow_same ?_ (Entry.ownedBy_congr rfl rfl) rfl) <;> cases (s.entry k).content <;> rfl
    have hmay : s.MayWrite k { s.entry k with content := .empty, version := (s.entry k).version + 1 } :=
      h.sound.mayWrite h.ready hk ha rfl rfl rfl (by simp) (fun _ _ _ => rfl)
    exact ((h.rewrote hre hmay (by simp)).postEntryEvent _ _ _ _ _ _).finish rfl

theorem execClearCycle_keeps (h : s.Laws) : EndsInLaws (execClearCycle n s) := by
  refine endsInLaws_next ?_
  split
  · next rq hc =>
    obtain ⟨hcy, -, -⟩ := h.cycling hc
    split
    · next k ho =>
      refine hcy.ifAllocated fun ha => ?_
      split
      · exact hcy.refuse _
      · exact hcy.clearEntry (hcy.named_inRange (by simp [ho, RequestOp.operandsOk, slotOk])) ha
    · exact h
  · exact h

theorem State.Cycling.checkpointEntry (h : s.Cycling n rq) (hk : k < Config.slots) (ha : s.allocated k = true) :
    (s.checkpointEntry n rq k).Laws := by
  unfold State.checkpointEntry
  dsimp only
  split
  · exact h.finish rfl
  · exact (h.annotate (e := { s.entry k with saved := .empty }) hk ha).finish rfl
  · next v _ => exact (h.annotate (e := { s.entry k with saved := .value v }) hk ha).finish rfl

theorem execCheckpointCycle_keeps (h : s.Laws) : EndsInLaws (execCheckpointCycle n s) := by
  refine endsInLaws_next ?_
  split
  · next rq hc =>
    obtain ⟨hcy, -, -⟩ := h.cycling hc
    split
    · next k ho =>
      refine hcy.ifAllocated fun ha => ?_
      split
      · exact hcy.refuse _
      · exact hcy.checkpointEntry (hcy.named_inRange (by simp [ho, RequestOp.operandsOk, slotOk])) ha
    · exact h
  · exact h

/-! ## WATCH and UNWATCH -/

/-- The watch set of the entry of slot k with port n's watch set to b. -/
def Entry.withWatch (e : Entry) (n : Port) (b : Bool) : Entry := { e with watch := e.watch.set n b }

theorem Entry.withWatch_get (e : Entry) (n p : Port) (b : Bool) :
    (e.withWatch n b).watch.get p = if p = n then b else e.watch.get p := PerPort.get_set e.watch n p b

/-- A write of the requester's own watch. -/
theorem State.Cycling.withWatch (h : s.Cycling n rq) (hk : k < Config.slots) (ha : s.allocated k = true) (b : Bool)
    (hfollow : s.TalliesFollow k ((s.entry k).withWatch n b) t)
    (hframe : t = { s.setEntry k ((s.entry k).withWatch n b) with tallies := t.tallies } := by rfl) : t.Cycling n rq := by
  refine h.keepContent (e := (s.entry k).withWatch n b) (h.mayWrite hk ha rfl
    ((h.sound.directory.inReady h.ready).unownedNotOrphaned k) fun p hp => ⟨fun hx => ?_, id⟩) rfl hfollow hframe
  rwa [Entry.withWatch_get, if_neg hp] at hx

theorem State.talliesFollow_raiseWatch (h : (s.entry k).watch.get n = false) :
    s.TalliesFollow k ((s.entry k).withWatch n true) ((s.setEntry k ((s.entry k).withWatch n true)).raiseWatch n) := by
  have htally : ∀ p, ((s.setEntry k ((s.entry k).withWatch n true)).raiseWatch n).tallies.get p =
      if p = n then { s.tallies.get n with watch := (s.tallies.get n).watch + 1 } else s.tallies.get p :=
    fun p => PerPort.get_set s.tallies n p _
  refine ⟨fun p => ?_, fun p => ?_⟩
  · rw [htally]
    by_cases hp : p = n
    · rw [if_pos hp, hp]; rfl
    · rw [if_neg hp]; rfl
  · rw [htally, Entry.withWatch_get]
    by_cases hp : p = n
    · simp [hp, h]
    · simp [hp]

theorem State.talliesFollow_lowerWatch (hs : s.TableLaw) (hd : s.DirectoryLaws)
    (h : (s.entry k).watch.get n = true) :
    s.TalliesFollow k ((s.entry k).withWatch n false) ((s.setEntry k ((s.entry k).withWatch n false)).lowerWatch n) := by
  have htally : ∀ p, ((s.setEntry k ((s.entry k).withWatch n false)).lowerWatch n).tallies.get p =
      if p = n then { s.tallies.get n with watch := (s.tallies.get n).watch - 1 } else s.tallies.get p :=
    fun p => PerPort.get_set s.tallies n p _
  refine ⟨fun p => ?_, fun p => ?_⟩
  · rw [htally]
    by_cases hp : p = n
    · rw [if_pos hp, hp]; rfl
    · rw [if_neg hp]; rfl
  · rw [htally, Entry.withWatch_get]
    by_cases hp : p = n
    · have hpos := hd.watch_pos hs h
      simp only [hp, if_pos, h, Bool.toNat_true, Bool.toNat_false]
      omega
    · simp [hp]

theorem execWatchCycle_keeps (h : s.Laws) : EndsInLaws (execWatchCycle n s) := by
  refine endsInLaws_next ?_
  split
  · next rq hc =>
    obtain ⟨hcy, -, -⟩ := h.cycling hc
    split
    · next k ho =>
      refine hcy.ifAllocated fun ha => ?_
      have hk : k < Config.slots := hcy.named_inRange (by simp [ho, RequestOp.operandsOk, slotOk])
      dsimp only
      split
      · exact hcy.finish rfl
      · next hw =>
        exact (hcy.withWatch hk ha true (State.talliesFollow_raiseWatch (by simpa using hw))).finish rfl
    · exact h
  · exact h

theorem execUnwatchCycle_keeps (h : s.Laws) : EndsInLaws (execUnwatchCycle n s) := by
  refine endsInLaws_next ?_
  split
  · next rq hc =>
    obtain ⟨hcy, -, -⟩ := h.cycling hc
    split
    · next k ho =>
      refine hcy.ifAllocated fun ha => ?_
      have hk : k < Config.slots := hcy.named_inRange (by simp [ho, RequestOp.operandsOk, slotOk])
      dsimp only
      split
      · next hw =>
        exact (hcy.withWatch hk ha false (State.talliesFollow_lowerWatch hcy.sound.tables
          (hcy.sound.directory.inReady hcy.ready) hw)).finish rfl
      · exact hcy.finish rfl
    · exact h
  · exact h

/-! ## CLAIM, ADOPT, RELEASE and SET_ACCESS -/

/-- The entry owned by port n under the terms given. -/
def Entry.ownedUnder (e : Entry) (n : Port) (a : Access) : Entry := { e with owner := some n, orphaned := false, access := a }

theorem Entry.ownedUnder_ownedBy (e : Entry) (n p : Port) (a : Access) :
    (e.ownedUnder n a).ownedBy p = decide (p = n) := by
  simp [Entry.ownedUnder, Entry.ownedBy, eq_comm]

theorem State.talliesFollow_raiseOwned (h : ∀ p, (s.entry k).ownedBy p = false) (a : Access) :
    s.TalliesFollow k ((s.entry k).ownedUnder n a) ((s.setEntry k ((s.entry k).ownedUnder n a)).raiseOwned n) := by
  have htally : ∀ p, ((s.setEntry k ((s.entry k).ownedUnder n a)).raiseOwned n).tallies.get p =
      if p = n then { s.tallies.get n with owned := (s.tallies.get n).owned + 1 } else s.tallies.get p :=
    fun p => PerPort.get_set s.tallies n p _
  refine ⟨fun p => ?_, fun p => ?_⟩
  · rw [htally, Entry.ownedUnder_ownedBy, h]
    by_cases hp : p = n <;> simp [hp]
  · rw [htally]
    by_cases hp : p = n
    · rw [if_pos hp, hp]; rfl
    · rw [if_neg hp]; rfl

/-- An entry that no port owned becomes the requester's (R109, R111). -/
theorem State.Cycling.own (h : s.Cycling n rq) (hk : k < Config.slots) (ha : s.allocated k = true)
    (hfree : ∀ p, (s.entry k).ownedBy p = false) (a : Access) : (s.own n k a).Cycling n rq := by
  have hmay : s.MayWrite k ((s.entry k).ownedUnder n a) :=
    h.mayWrite hk ha rfl (fun ho => by cases ho) fun p hp => ⟨id, fun hx => by
      rw [Entry.ownedUnder_ownedBy] at hx
      exact absurd (of_decide_eq_true hx) hp⟩
  exact (h.keepContent (t := (s.setEntry k ((s.entry k).ownedUnder n a)).raiseOwned n) hmay rfl
    (State.talliesFollow_raiseOwned hfree a)).postEntryEvent _ _ _ _ _ _

theorem claimRefusal_none {stateOf : Port → PortState} (h : claimRefusal stateOf e = none) (p : Port) :
    e.ownedBy p = false := by
  unfold claimRefusal at h
  split at h
  · next ho => simp [Entry.ownedBy, ho]
  · split at h
    · cases h
    · split at h <;> cases h

theorem adoptRefusal_none {stateOf : Port → PortState} (h : adoptRefusal stateOf e = none) (p : Port) :
    e.ownedBy p = false := by
  unfold adoptRefusal at h
  split at h
  · cases h
  · split at h
    · next ho => simp [Entry.ownedBy, ho]
    · split at h <;> cases h

theorem ownerOnlyRefusal_none {stateOf : Port → PortState} (h : ownerOnlyRefusal stateOf n e = none) :
    e.ownedBy n = true := by
  unfold ownerOnlyRefusal at h
  split at h
  · cases h
  · next q hq =>
    split at h
    · cases h
    · next ho =>
      split at h
      · next hqn => simp [Entry.ownedBy, hq, ho, hqn]
      · cases h

theorem execClaimCycle_keeps (h : s.Laws) : EndsInLaws (execClaimCycle n s) := by
  refine endsInLaws_next ?_
  split
  · next rq hc =>
    obtain ⟨hcy, -, -⟩ := h.cycling hc
    split
    · next k d pf tf ho =>
      refine hcy.ifAllocated fun ha => ?_
      have hk : k < Config.slots := hcy.named_inRange (by simp +contextual [ho, RequestOp.operandsOk, slotOk])
      split
      · exact hcy.finish rfl
      · next a hfree _ => exact (hcy.own hk ha (claimRefusal_none hfree) a).finish rfl
      · exact h
    · exact h
  · exact h

theorem execAdoptCycle_keeps (h : s.Laws) : EndsInLaws (execAdoptCycle n s) := by
  refine endsInLaws_next ?_
  split
  · next rq hc =>
    obtain ⟨hcy, -, -⟩ := h.cycling hc
    split
    · next k d pf tf ho =>
      refine hcy.ifAllocated fun ha => ?_
      have hk : k < Config.slots := hcy.named_inRange (by simp +contextual [ho, RequestOp.operandsOk, slotOk])
      split
      · exact hcy.finish rfl
      · next a hfree _ => exact (hcy.own hk ha (adoptRefusal_none hfree) a).finish rfl
      · exact h
    · exact h
  · exact h

/-- The entry owned by no port. -/
def Entry.unowned (e : Entry) : Entry := { e with owner := none, orphaned := false }

theorem Entry.unowned_ownedBy (e : Entry) (p : Port) : e.unowned.ownedBy p = false := by simp [Entry.unowned, Entry.ownedBy]

/-- An entry that leaves its owner takes one off the owner's count (R14). -/
theorem State.talliesFollow_lowerOwned (hs : s.TableLaw) (hd : s.DirectoryLaws) (h : (s.entry k).ownedBy n = true)
    (htally : t.tallies = (s.lowerOwned n).tallies) (hnew : ∀ p, e.ownedBy p = false)
    (hwatch : e.watch = (s.entry k).watch) : s.TalliesFollow k e t := by
  have htally : ∀ p, t.tallies.get p =
      if p = n then { s.tallies.get n with owned := (s.tallies.get n).owned - 1 } else s.tallies.get p := fun p => by
    rw [htally]; exact State.lowerOwned_tally s n p
  have hother : ∀ p, p ≠ n → (s.entry k).ownedBy p = false := fun p hp => by
    obtain ⟨ho, hf⟩ := Entry.ownedBy_iff.1 h
    simp [Entry.ownedBy, ho, Ne.symm hp]
  have hpos := hd.owned_pos hs h
  refine ⟨fun p => ?_, fun p => ?_⟩
  · rw [htally, hnew]
    by_cases hp : p = n
    · simp only [hp, if_pos, h, Bool.toNat_true, Bool.toNat_false]
      omega
    · simp [hp, hother p hp]
  · rw [htally, hwatch]
    by_cases hp : p = n
    · rw [if_pos hp, hp]
    · rw [if_neg hp]

theorem State.Cycling.release (h : s.Cycling n rq) (hk : k < Config.slots) (ha : s.allocated k = true)
    (hown : (s.entry k).ownedBy n = true) : ((s.setEntry k (s.entry k).unowned).lowerOwned n).Cycling n rq :=
  h.keepContent (e := (s.entry k).unowned)
    (h.mayWrite hk ha rfl (fun _ => rfl) fun p _ => ⟨id, fun hx => by rw [Entry.unowned_ownedBy] at hx; cases hx⟩) rfl
    (State.talliesFollow_lowerOwned h.sound.tables (h.sound.directory.inReady h.ready) hown rfl
      (Entry.unowned_ownedBy _) rfl)

theorem execReleaseCycle_keeps (h : s.Laws) : EndsInLaws (execReleaseCycle n s) := by
  refine endsInLaws_next ?_
  split
  · next rq hc =>
    obtain ⟨hcy, -, -⟩ := h.cycling hc
    split
    · next k ho =>
      refine hcy.ifAllocated fun ha => ?_
      have hk : k < Config.slots := hcy.named_inRange (by simp [ho, RequestOp.operandsOk, slotOk])
      split
      · exact hcy.refuse _
      · next hown => exact ((hcy.release hk ha (ownerOnlyRefusal_none hown)).postEntryEvent _ _ _ _ _ _).finish rfl
    · exact h
  · exact h

theorem execSetAccessCycle_keeps (h : s.Laws) : EndsInLaws (execSetAccessCycle n s) := by
  refine endsInLaws_next ?_
  split
  · next rq hc =>
    obtain ⟨hcy, -, -⟩ := h.cycling hc
    split
    · next k d pf tf ho =>
      refine hcy.ifAllocated fun ha => ?_
      have hk : k < Config.slots := hcy.named_inRange (by simp +contextual [ho, RequestOp.operandsOk, slotOk])
      split
      · exact hcy.refuse _
      · next a _ _ => exact (hcy.annotate (e := { s.entry k with access := a }) hk ha).finish rfl
      · exact h
    · exact h
  · exact h

/-! ## INSPECT and BREAK_WAIT -/

theorem execInspectCycle_keeps (h : s.Laws) : EndsInLaws (execInspectCycle n s) := by
  refine endsInLaws_next ?_
  split
  · next rq hc =>
    obtain ⟨hcy, -, -⟩ := h.cycling hc
    split
    · exact hcy.ifAllocated fun _ => hcy.finish rfl
    · exact h
  · exact h

theorem execBreakWaitCycle_keeps (h : s.Laws) : EndsInLaws (execBreakWaitCycle n s) := by
  refine endsInLaws_next ?_
  split
  · next rq hc =>
    obtain ⟨hcy, -, -⟩ := h.cycling hc
    split
    · next k _ => exact hcy.ifAllocated fun _ => (hcy.endWaitsOn k _ _ _).finish rfl
    · exact h
  · exact h

end Sys2Proof.Machine
end

