-- ==== Sys2Proof/Proofs/PoolCycles.lean ====
section
/-! SUPPORT. ALLOC_CYCLE and RETIRE_CYCLE keep the laws: a slot leaves the free list and comes back to it (R16, R96 to
R102). -/

namespace Sys2Proof.Machine

variable {s t u : State} {n p : Port} {k : Slot} {rq : Request} {e : Entry} {rest : List Slot}

/-! ## A slot's allocation -/

/-- The head of the free list is allocated (R97). -/
def State.allocate (s : State) (k : Slot) (rest : List Slot) : State :=
  State.setRow { s with freeList := rest } k { s.row k with allocated := true }

/-- Slot k is unallocated, at the tail of the free list (R101). -/
def State.free (s : State) (k : Slot) : State :=
  { s.setRow k { s.row k with allocated := false } with freeList := s.freeList ++ [k] }

/-- A slot whose row alone has been written, at slot k with its inbound count standing. -/
theorem State.setRow_inbound (b : Bool) (j : Slot) :
    (s.setRow k { s.row k with allocated := b }).inbound j = s.inbound j := by
  rw [State.inbound_eq, State.row_setRow, State.inbound_eq]
  split
  · next hj => rw [hj]
  · rfl

theorem State.setRow_allocated (hk : Config.fixedSlots ≤ k) (b : Bool) (j : Slot) :
    (s.setRow k { s.row k with allocated := b }).allocated j = if j = k then b else s.allocated j := by
  rw [State.allocated_eq, State.row_setRow, State.allocated_eq]
  split
  · next hj => rw [hj, decide_eq_false (Nat.not_lt.2 hk), Bool.false_or]
  · rfl

/-- The laws of the directory when a slot leaves the free list. -/
theorem State.DirectoryLaws.allocate (h : s.DirectoryLaws) (hlist : s.freeList = k :: rest) :
    (s.allocate k rest).DirectoryLaws := by
  obtain ⟨hpool, -, hun⟩ := (h.freeUnallocated k).1 (by rw [hlist]; exact List.mem_cons_self)
  have hall : ∀ j, (s.allocate k rest).allocated j = if j = k then true else s.allocated j :=
    State.setRow_allocated (s := s) hpool true
  have hin : ∀ j, (s.allocate k rest).inbound j = s.inbound j := State.setRow_inbound (s := s) true
  have honce := h.freeOnce
  rw [hlist, List.nodup_cons] at honce
  refine ⟨fun j => (hin j).trans (h.inboundCounts j), fun j v hv => ?_, h.ownedCounts, h.watchCounts, honce.2, fun j => ?_,
    h.unownedNotOrphaned, fun j hj ha => ?_⟩
  · rw [hall]
    split
    · rfl
    · exact h.targetsAllocated j v hv
  · have hmem := h.freeUnallocated j
    rw [hlist, List.mem_cons] at hmem
    rw [hall]
    show j ∈ rest ↔ _
    split
    · next hjk => simp [hjk, honce.1]
    · next hjk => rw [← hmem]; simp [hjk]
  · rw [hall] at ha
    split at ha
    · cases ha
    · exact h.unallocatedDefault j hj ha

/-- The laws of the directory when a slot at its defaults, to which nothing forwards, comes back to the free list. -/
theorem State.DirectoryLaws.free (h : s.DirectoryLaws) (ht : s.TableLaw) (hpool : Config.fixedSlots ≤ k)
    (hk : k < Config.slots) (ha : s.allocated k = true)
    (he : s.entry k = { Entry.default with version := (s.entry k).version }) (hin : s.inbound k = 0) :
    (s.free k).DirectoryLaws := by
  have hall : ∀ j, (s.free k).allocated j = if j = k then false else s.allocated j :=
    State.setRow_allocated (s := s) hpool false
  have hinb : ∀ j, (s.free k).inbound j = s.inbound j := State.setRow_inbound (s := s) false
  have hnotin : k ∉ s.freeList := fun hmem => by
    have := ((h.freeUnallocated k).1 hmem).2.2
    rw [ha] at this
    cases this
  refine ⟨fun j => (hinb j).trans (h.inboundCounts j), fun j v hv => ?_, h.ownedCounts, h.watchCounts, ?_, fun j => ?_,
    h.unownedNotOrphaned, fun j hj hun => ?_⟩
  · have hv : (s.entry j).content = .forward v := hv
    rw [hall, if_neg]
    · exact h.targetsAllocated j v hv
    · rintro rfl
      have := h.inbound_pos ht hv
      omega
  · exact List.nodup_append_comm.1 (by simpa using ⟨hnotin, h.freeOnce⟩)
  · rw [hall]
    show j ∈ s.freeList ++ [k] ↔ _
    rw [List.mem_append, List.mem_singleton, h.freeUnallocated]
    split
    · next hjk => simp [hjk, hpool, hk]
    · next hjk => simp [hjk]
  · rw [hall] at hun
    split at hun
    · next hjk => rw [hjk]; exact he
    · exact h.unallocatedDefault j hj hun

/-- A state in which rows and the free list alone have changed. -/
theorem State.Sound.withRows (h : s.Sound) (hready : s.device = .ready)
    (hframe : t = { s with rows := t.rows, freeList := t.freeList }) (hwf : Table.wf Row.default t.rows = true)
    (hrange : ∀ r ∈ t.rows, r.1 < Config.slots) (hlaws : t.DirectoryLaws)
    (hwaits : ∀ w ∈ s.waits, t.allocated w.terminal = true) : t.Sound := by
  have hall : ∀ j, t.allocated j = t.allocated j := fun _ => rfl
  generalize ht : t.rows = x at hframe hwf hrange
  generalize t.freeList = y at hframe
  subst hframe
  exact ⟨h.servesInReady, h.grantsPending, h.grantedLast, h.heldInInit, h.executors.congr,
    ⟨h.tables.entriesWf, hwf, h.tables.entriesInRange, hrange, h.tables.targetsInRange, h.tables.passInRange,
      h.tables.sweepInRange⟩, ⟨fun _ => hlaws, fun hd => absurd hready hd⟩, h.sessions.congr, h.sweeps.congr,
    ⟨fun w hw => ⟨hwaits w hw, (h.waits.terminalEmpty w hw).2⟩, h.waits.portAttached, h.waits.places,
      h.waits.onlyInReady⟩, h.token.congr, h.chains.congr, h.queues.congr⟩

theorem State.Sound.allocate (h : s.Sound) (hready : s.device = .ready) (hlist : s.freeList = k :: rest) :
    (s.allocate k rest).Sound := by
  have hd := h.directory.inReady hready
  obtain ⟨hpool, hk, hun⟩ := (hd.freeUnallocated k).1 (by rw [hlist]; exact List.mem_cons_self)
  obtain ⟨hwf, hrange⟩ := State.rows_setRow h.tables (r := { s.row k with allocated := true }) hk
  refine h.withRows hready rfl hwf hrange (hd.allocate hlist) fun w hw => ?_
  have hall := State.setRow_allocated (s := s) hpool true w.terminal
  rw [show (s.allocate k rest).allocated w.terminal = _ from hall]
  split
  · rfl
  · exact (h.waits.terminalEmpty w hw).1

theorem State.Sound.free (h : s.Sound) (hready : s.device = .ready) (hpool : Config.fixedSlots ≤ k)
    (hk : k < Config.slots) (ha : s.allocated k = true)
    (he : s.entry k = { Entry.default with version := (s.entry k).version }) (hin : s.inbound k = 0)
    (hwaits : ∀ w ∈ s.waits, w.terminal ≠ k) : (s.free k).Sound := by
  obtain ⟨hwf, hrange⟩ := State.rows_setRow h.tables (r := { s.row k with allocated := false }) hk
  refine h.withRows hready rfl hwf hrange ((h.directory.inReady hready).free h.tables hpool hk ha he hin) fun w hw => ?_
  have hall := State.setRow_allocated (s := s) hpool false w.terminal
  rw [show (s.free k).allocated w.terminal = _ from hall, if_neg (hwaits w hw)]
  exact (h.waits.terminalEmpty w hw).1

/-! ## ALLOC (R97, R98) -/

theorem State.Cycling.allocHead (h : s.Cycling n rq) (hlist : s.freeList = k :: rest) (a : Access) :
    (s.allocHead n rq k rest a).Laws := by
  have hd := h.sound.directory.inReady h.ready
  obtain ⟨hpool, hk, hun⟩ := (hd.freeUnallocated k).1 (by rw [hlist]; exact List.mem_cons_self)
  have hcy : (s.allocate k rest).Cycling n rq := h.of_frame (h.sound.allocate h.ready hlist)
    (h.outstanding.congr rfl rfl rfl rfl)
  have hall : (s.allocate k rest).allocated k = true :=
    (State.setRow_allocated (s := s) hpool true k).trans (if_pos rfl)
  have hfree : ∀ p, (s.entry k).ownedBy p = false := fun p => by
    rw [hd.unallocatedDefault k hk hun]
    rfl
  have hmay : (s.allocate k rest).MayWrite k (((s.allocate k rest).entry k).ownedUnder n a) :=
    hcy.mayWrite hk hall rfl (fun ho => by cases ho) fun p hp => ⟨id, fun hx => by
      rw [Entry.ownedUnder_ownedBy] at hx
      exact absurd (of_decide_eq_true hx) hp⟩
  exact (hcy.keepContent (t := ((s.allocate k rest).setEntry k ((s.entry k).ownedUnder n a)).raiseOwned n) hmay rfl
    (State.talliesFollow_raiseOwned (s := s.allocate k rest) hfree a)).finish rfl

theorem execAllocCycle_keeps (h : s.Laws) : EndsInLaws (execAllocCycle n s) := by
  refine endsInLaws_next ?_
  split
  · next rq hc =>
    obtain ⟨hcy, -, -⟩ := h.cycling hc
    split
    · split
      · next a k rest _ hlist => exact hcy.allocHead hlist a
      · exact hcy.refuse _
      · exact h
    · exact h
  · exact h

/-! ## RETIRE (R100 to R102) -/

/-- The entry of a slot that retires: at its defaults but for the version (R101). -/
def Entry.retired (v : Version) : Entry := { Entry.default with version := v }

theorem Entry.retired_ownedBy (v : Version) (p : Port) : (Entry.retired v).ownedBy p = false := rfl

theorem Entry.retired_watch (v : Version) (p : Port) : (Entry.retired v).watch.get p = false := PerPort.get_same false p

/-- An entry that loses its owner and every watch takes each off its count (R14, R15, R101). -/
theorem State.talliesFollow_retired (hs : s.TableLaw) (hd : s.DirectoryLaws) {v : Version} {m : Port}
    (howned : ∀ p, (u.tallies.get p) = if p = m ∧ (s.entry k).ownedBy m = true then
      { s.tallies.get p with owned := (s.tallies.get p).owned - 1 } else s.tallies.get p)
    (hother : ∀ p, p ≠ m → (s.entry k).ownedBy p = false)
    (htally : ∀ p, t.tallies.get p = if (s.entry k).watch.get p then
      { u.tallies.get p with watch := (u.tallies.get p).watch - 1 } else u.tallies.get p) :
    s.TalliesFollow k (.retired v) t := by
  refine ⟨fun p => ?_, fun p => ?_⟩
  · have hsame : (t.tallies.get p).owned = (u.tallies.get p).owned := by rw [htally]; split <;> rfl
    rw [hsame, Entry.retired_ownedBy, howned]
    by_cases hp : p = m
    · cases ho : (s.entry k).ownedBy m with
      | false => simp [hp, ho]
      | true =>
        have hpos := hd.owned_pos hs ho
        simp only [hp, ho, and_self, if_pos, Bool.toNat_true, Bool.toNat_false]
        omega
    · simp [hp, hother p hp]
  · have hsame : (u.tallies.get p).watch = (s.tallies.get p).watch := by rw [howned]; split <;> rfl
    rw [htally, Entry.retired_watch]
    cases hw : (s.entry k).watch.get p with
    | false => simpa using hsame
    | true =>
      have hpos := hd.watch_pos hs hw
      simp only [if_pos, hsame, Bool.toNat_true, Bool.toNat_false]
      omega

theorem modifyRefusal_none {stateOf : Port → PortState} (h : modifyRefusal stateOf n e = none) :
    e.owner = none ∨ (e.owner = some n ∧ e.orphaned = false) := by
  unfold modifyRefusal at h
  split at h
  · next ho => exact .inl ho
  · next q hq =>
    split at h
    · cases h
    · next ho =>
      split at h
      · next hqn => exact .inr ⟨hqn ▸ hq, by simpa using ho⟩
      · cases h

/-- No take is parked on a slot on which none is counted (R82). -/
theorem State.waits_of_waitsOn (h : s.waitsOn k = 0) : ∀ w ∈ s.waits, w.terminal ≠ k := fun w hw hwk => by
  have hnil := List.eq_nil_of_length_eq_zero h
  simpa [hwk] using List.filter_eq_nil_iff.1 hnil w hw

/-- A slot whose entry has been put at its defaults comes back to the free list (R101). -/
theorem State.Rewrote.free_sound {v : Version} (hre : s.Rewrote k (.retired v) t) (ht : t.Sound)
    (hready : s.device = .ready) (hpool : Config.fixedSlots ≤ k) (hk : k < Config.slots) (ha : s.allocated k = true)
    (hin : t.inbound k = 0) (hwaits : s.waitsOn k = 0) : (t.free k).Sound := by
  have hentry : t.entry k = .retired v := by rw [hre.entry, if_pos rfl]
  refine ht.free (by rw [hre.frame]; exact hready) hpool hk ((hre.allocated k).trans ha) (by rw [hentry]; rfl) hin ?_
  rw [hre.frame]
  exact State.waits_of_waitsOn hwaits

/-- An entry's write at its retirement, its slot still allocated. -/
def State.retiring (s : State) (n : Port) (k : Slot) (v : Version) : State :=
  ((if (s.entry k).owner = some n then s.lowerOwned n else s).setEntry k (.retired v)).lowerWatchers (s.entry k).watch

theorem State.Cycling.retiring (h : s.Cycling n rq) (hk : k < Config.slots) (ha : s.allocated k = true)
    (hempty : (s.entry k).content = .empty)
    (howner : (s.entry k).owner = none ∨ ((s.entry k).owner = some n ∧ (s.entry k).orphaned = false)) (v : Version) :
    (s.retiring n k v).Cycling n rq ∧ s.Rewrote k (.retired v) (s.retiring n k v) := by
  have hown : (s.entry k).owner = some n ↔ (s.entry k).ownedBy n = true := by
    rw [Entry.ownedBy_iff]
    rcases howner with ho | ⟨ho, hf⟩ <;> simp [ho]
    exact hf
  have hother : ∀ p, p ≠ n → (s.entry k).ownedBy p = false := fun p hp => by
    rcases howner with ho | ⟨ho, hf⟩ <;> simp [Entry.ownedBy, ho]
    exact fun hnp => absurd hnp.symm hp
  have hfollow : s.TalliesFollow k (.retired v) (s.retiring n k v) := by
    refine State.talliesFollow_retired (u := if (s.entry k).owner = some n then s.lowerOwned n else s) (m := n)
      h.sound.tables (h.sound.directory.inReady h.ready) (fun p => ?_) hother (fun p => ?_)
    · split
      · next ho => rw [State.lowerOwned_tally]; by_cases hp : p = n <;> simp [hp, hown.1 ho]
      · next ho => rw [if_neg fun hp => ho (hown.2 hp.2)]
    · exact State.lowerWatchers_tally _ _ p
  have hre : s.Rewrote k (.retired v) (s.retiring n k v) := by
    refine State.rewrote_of_sameRows h.sound.tables ?_ ?_ ?_ (fun j => ?_) hfollow
    · unfold State.retiring; split <;> rfl
    · unfold State.retiring; split <;> rfl
    · unfold State.retiring; split <;> rfl
    · exact Entry.forwardsTo_congr (e := s.entry k) (e' := .retired v) (by rw [hempty]; rfl) j
  have hmay : s.MayWrite k (.retired v) := by
    refine ⟨h.ready, hk, ha, nofun, fun _ => rfl, fun p _ => ⟨fun hx => ?_, fun hx => ?_⟩, fun _ _ _ => rfl⟩
    · rw [Entry.retired_watch] at hx; cases hx
    · rw [Entry.retired_ownedBy] at hx; cases hx
  exact ⟨h.rewrote hre hmay (fun x hx => by cases hx), hre⟩

/-- A slot at its defaults, allocated, to which nothing forwards and on which nothing waits, is retired. -/
theorem State.Cycling.retireSlot (h : s.Cycling n rq) (hpool : Config.fixedSlots ≤ k) (hk : k < Config.slots)
    (ha : s.allocated k = true) (hempty : (s.entry k).content = .empty)
    (howner : (s.entry k).owner = none ∨ ((s.entry k).owner = some n ∧ (s.entry k).orphaned = false))
    (hin : s.inbound k = 0) (hwaits : s.waitsOn k = 0) : (s.retireEntry n rq k).Laws := by
  obtain ⟨hcy, hre⟩ := h.retiring hk ha hempty howner ((s.entry k).version + 1)
  have hinb : (s.retiring n k ((s.entry k).version + 1)).inbound k = 0 := by
    have hcount := hre.inbound k
    have hnone : (s.entry k).forwardsTo k = false := by simp [Entry.forwardsTo, hempty]
    have hnew : (Entry.retired ((s.entry k).version + 1)).forwardsTo k = false := rfl
    rw [hin, hnone, hnew] at hcount
    simpa using hcount
  have hfree := hre.free_sound hcy.sound h.ready hpool hk ha hinb hwaits
  have hdone : ((s.retiring n k ((s.entry k).version + 1)).free k).Cycling n rq :=
    hcy.of_frame hfree (hcy.outstanding.congr rfl rfl rfl rfl)
  exact (hdone.postEntryEvent _ _ _ _ _ _).finish rfl

theorem execRetireCycle_keeps (h : s.Laws) : EndsInLaws (execRetireCycle n s) := by
  refine endsInLaws_next ?_
  split
  · next rq hc =>
    obtain ⟨hcy, -, -⟩ := h.cycling hc
    split
    · next k ho =>
      split
      · exact hcy.refuse _
      · next hpool =>
        refine hcy.ifAllocated fun ha => ?_
        have hk : k < Config.slots := hcy.named_inRange (by simp [ho, RequestOp.operandsOk, slotOk])
        split
        · exact hcy.refuse _
        · next howner =>
          dsimp only
          split
          · exact hcy.finish rfl
          · next hempty =>
            split
            · exact hcy.finish rfl
            · next hin =>
              split
              · exact hcy.finish rfl
              · next hwaits =>
                exact hcy.retireSlot (Nat.le_of_not_lt hpool) hk ha (not_not.1 hempty) (modifyRefusal_none howner)
                  (not_not.1 hin) (not_not.1 hwaits)
    · exact h
  · exact h

end Sys2Proof.Machine
end

