-- ==== Sys2Proof/Proofs/SweepCommands.lean ====
section
/-! SUPPORT. SWEEP_PASS_START and SWEEP_VISIT keep the laws (R115 to R119, R134 to R137). -/

namespace Sys2Proof.Machine

variable {s t u : State} {p : Port} {k : Slot} {r : SweepRecord} {rest : List SweepRecord} {e : Entry} {w : WaitRecord}

/-! ## SWEEP_PASS_START (R134, R135) -/

theorem execSweepPassStart_keeps (h : s.Laws) : EndsInLaws (execSweepPassStart s) := by
  refine endsInLaws_next ?_
  split
  · next r rest hr =>
    split
    · next hstart =>
      obtain ⟨hready, hvisit, hmay⟩ := hstart
      have hp : s.inProgress ≠ some .sweeper := fun hg => by
        have hv : s.sweepVisit = true := h.arbiter.grantsPending _ hg
        rw [hvisit] at hv
        cases hv
      have hat : ({ s with sweepPos := 0 } : State).Sound := by
        have hstart := h.sound.atSweepStart hp
        rwa [← hvisit] at hstart
      obtain ⟨hsound, hout⟩ := hat.sweepTest h.outstanding.congr hready hp (r := r) (rest := rest) hr
        (h.sound.idle_of_mayStart hr hmay) (fun j hj => absurd hj (Nat.not_lt_zero j))
      refine hsound.arbitrate hout ?_
      rw [State.sweepTest_frame]
      exact h.arbiter.clearWaits
    · exact h
  · exact h

/-! ## A visit's writes (R136) -/

/-- The granted visit of record r's pass stands on slot k. -/
structure State.Sweeping (s : State) (r : SweepRecord) (rest : List SweepRecord) (k : Slot) : Prop where
  sound : s.Sound
  outstanding : s.OutstandingLaw
  granted : s.inProgress = some .sweeper
  listed : s.sweeps = r :: rest
  position : s.sweepPos = k

theorem State.Sweeping.ready (h : s.Sweeping r rest k) : s.device = .ready := by
  by_contra hd
  have := h.sound.servesInReady hd
  rw [h.granted] at this
  cases this

theorem State.Sweeping.inRange (h : s.Sweeping r rest k) : k < Config.slots := h.position ▸ h.sound.tables.sweepInRange

/-- What the pass has found below its position, and the executor of its port (R131, R135). -/
theorem State.Sweeping.pass (h : s.Sweeping r rest k) : (s.executor r.port).state = .idle ∧
    ∀ j, j < k → (s.entry j).watch.get r.port = false ∧ ((s.entry j).owner = some r.port → (s.entry j).orphaned = true) := by
  obtain ⟨x, y, hlist, hidle, hbelow⟩ := h.sound.sweeps.runningPass h.ready (h.sound.grantsPending _ h.granted)
  obtain ⟨rfl, rfl⟩ : r = x ∧ rest = y := by simpa [h.listed] using hlist
  exact ⟨hidle, h.position ▸ hbelow⟩

theorem State.Sweeping.of_frame (h : s.Sweeping r rest k) (hu : u.Sound) (ho : u.OutstandingLaw)
    (hp : u.inProgress = s.inProgress := by rfl) (hw : u.sweeps = s.sweeps := by rfl)
    (hk : u.sweepPos = s.sweepPos := by rfl) : u.Sweeping r rest k :=
  ⟨hu, ho, hp.trans h.granted, hw.trans h.listed, hk.trans h.position⟩

theorem State.Sweeping.postEntryEvent (h : s.Sweeping r rest k) (watchers : PerPort Bool) (kind : EventKind) (j : Slot)
    (v : Version) (value : Option Value) (cause : Cause) :
    (s.postEntryEvent watchers kind j v value cause).Sweeping r rest k :=
  h.of_frame (h.sound.postEvent _ _) (h.outstanding.postEvent _ _)

/-- What the laws ask of a visit's write: no port gains, and a parked take's terminal stays EMPTY. -/
theorem State.Sweeping.mayWrite (h : s.Sweeping r rest k) (ha : s.allocated k = true)
    (hforward : ∀ v, e.content = .forward v → (s.entry k).content = .forward v) (howner : e.owner = none → e.orphaned = false)
    (hwatch : ∀ p, e.watch.get p = true → (s.entry k).watch.get p = true)
    (hown : ∀ p, e.ownedBy p = true → (s.entry k).ownedBy p = true)
    (hparked : ∀ w ∈ s.waits, w.terminal = k → e.content = .empty) : s.MayWrite k e where
  ready := h.ready
  inRange := h.inRange
  allocated := ha
  target := fun v hv => h.sound.target h.ready v (hforward v hv)
  owner := howner
  gains := fun p _ => ⟨hwatch p, hown p⟩
  parked := hparked

theorem State.Sweeping.rewrote (h : s.Sweeping r rest k) (ht : s.Rewrote k e t) (hmay : s.MayWrite k e)
    (hforward : ∀ v, e.content = .forward v → (s.entry k).content = .forward v) : t.Sweeping r rest k := by
  have hchain : t.ChainLaw := (State.forwardsIn_setEntry ht.entries hforward).chainLaw h.sound.chains (by rw [ht.frame])
  exact h.of_frame (ht.sound h.sound hmay hchain) (ht.outstanding h.outstanding) (by rw [ht.frame]) (by rw [ht.frame])
    (by rw [ht.frame])

/-- The slot's entry is no longer the swept port's: neither watched by it, nor owned by it and not orphaned (R135). -/
def Entry.leftBy (e : Entry) (p : Port) : Prop := e.watch.get p = false ∧ (e.owner = some p → e.orphaned = true)

/-- A visit has been made: the pass's port has left the entry of slot k. -/
structure State.Swept (s : State) (r : SweepRecord) (rest : List SweepRecord) (k : Slot) : Prop where
  sweeping : s.Sweeping r rest k
  left : (s.entry k).leftBy r.port

theorem State.Swept.postEntryEvent (h : s.Swept r rest k) (watchers : PerPort Bool) (kind : EventKind) (j : Slot)
    (v : Version) (value : Option Value) (cause : Cause) :
    (s.postEntryEvent watchers kind j v value cause).Swept r rest k := ⟨h.sweeping.postEntryEvent _ _ _ _ _ _, h.left⟩

/-! ## The swept port's watch is removed -/

/-- The part after the swept port's watch has been removed (R136). -/
def State.unwatched (s : State) (p : Port) (k : Slot) : State :=
  if (s.entry k).watch.get p then
    (s.setEntry k { s.entry k with watch := (s.entry k).watch.set p false }).lowerWatch p
  else s

theorem State.Sweeping.unwatched (h : s.Sweeping r rest k) (ha : s.allocated k = true) :
    (s.unwatched r.port k).Sweeping r rest k ∧ (s.unwatched r.port k).entry k = (s.entry k).withWatch r.port false ∧
      (s.unwatched r.port k).allocated k = true := by
  have hd := h.sound.directory.inReady h.ready
  unfold State.unwatched
  split
  · next hw =>
    have hre : s.Rewrote k ((s.entry k).withWatch r.port false)
        ((s.setEntry k ((s.entry k).withWatch r.port false)).lowerWatch r.port) :=
      State.rewrote_of_sameRows h.sound.tables rfl rfl rfl (Entry.forwardsTo_congr rfl)
        (State.talliesFollow_lowerWatch h.sound.tables hd hw)
    have hmay : s.MayWrite k ((s.entry k).withWatch r.port false) := by
      refine h.mayWrite ha (fun v hv => hv) (hd.unownedNotOrphaned k) (fun p hp => ?_) (fun p hp => hp) fun w hw hwk => ?_
      · rw [Entry.withWatch_get] at hp
        split at hp
        · cases hp
        · exact hp
      · exact hwk ▸ (h.sound.waits.terminalEmpty w hw).2
    exact ⟨h.rewrote hre hmay fun v hv => hv, (hre.entry k).trans (if_pos rfl),
      (hre.allocated k).trans ha⟩
  · next hw =>
    refine ⟨h, ?_, ha⟩
    have hsame : (s.entry k).watch.set r.port false = (s.entry k).watch := by
      rw [← Bool.eq_false_iff.2 hw, PerPort.set_get_self]
    unfold Entry.withWatch
    rw [hsame]

/-! ## The dispositions (R115 to R119) -/

section Dispositions

/-- Record r's port owns the entry of slot k, which it does not watch any more. -/
structure State.Disposing (s : State) (r : SweepRecord) (rest : List SweepRecord) (k : Slot) : Prop where
  sweeping : s.Sweeping r rest k
  allocated : s.allocated k = true
  owned : (s.entry k).ownedBy r.port = true
  unwatched : (s.entry k).watch.get r.port = false

/-- A write by which the swept port's entry is owned by none, its watch set standing. -/
theorem State.Disposing.swept (h : s.Disposing r rest k) (ht : s.Rewrote k e t)
    (hforward : ∀ v, e.content = .forward v → (s.entry k).content = .forward v) (howner : e.owner = none → e.orphaned = false)
    (hwatch : ∀ p, e.watch.get p = true → (s.entry k).watch.get p = true) (hown : ∀ p, e.ownedBy p = false)
    (hparked : ∀ w ∈ s.waits, w.terminal = k → e.content = .empty) : t.Swept r rest k := by
  have hmay := h.sweeping.mayWrite h.allocated hforward howner hwatch (fun p hp => by rw [hown] at hp; cases hp) hparked
  refine ⟨h.sweeping.rewrote ht hmay hforward, ?_⟩
  rw [ht.entry, if_pos rfl]
  refine ⟨Bool.eq_false_iff.2 fun hx => ?_, fun ho => ?_⟩
  · have := hwatch _ hx
    rw [h.unwatched] at this
    cases this
  · by_contra hf
    have := hown r.port
    rw [Entry.ownedBy_iff.2 ⟨ho, by simpa using hf⟩] at this
    cases this

theorem State.Disposing.parked (h : s.Disposing r rest k) (w : WaitRecord) (hw : w ∈ s.waits) (hwk : w.terminal = k) :
    (s.entry k).content = .empty := hwk ▸ (h.sweeping.sound.waits.terminalEmpty w hw).2

/-- The owned count follows a write by which the swept port loses its entry (R14). -/
theorem State.Disposing.follow (h : s.Disposing r rest k) (htally : t.tallies = (s.lowerOwned r.port).tallies)
    (hnew : ∀ p, e.ownedBy p = false) (hwatch : e.watch = (s.entry k).watch) : s.TalliesFollow k e t :=
  State.talliesFollow_lowerOwned h.sweeping.sound.tables (h.sweeping.sound.directory.inReady h.sweeping.ready) h.owned
    htally hnew hwatch

/-- A write that leaves the content: the entry is kept orphaned, or is owned by none. -/
theorem State.Disposing.keepContent (h : s.Disposing r rest k) (hcontent : e.content = (s.entry k).content)
    (howner : e.owner = none → e.orphaned = false) (hown : ∀ p, e.ownedBy p = false)
    (hwatch : e.watch = (s.entry k).watch) : ((s.lowerOwned r.port).setEntry k e).Swept r rest k :=
  h.swept (State.rewrote_of_sameRows h.sweeping.sound.tables rfl rfl rfl (Entry.forwardsTo_congr hcontent)
      (h.follow rfl hown hwatch))
    (fun _ hv => hcontent ▸ hv) howner (fun _ hp => hwatch ▸ hp) hown (fun w hw hwk => hcontent.trans (h.parked w hw hwk))

/-- A write that puts a content which is no forward: the entry is owned by none. -/
theorem State.Disposing.putContent (h : s.Disposing r rest k) (hnew : ∀ v, e.content ≠ .forward v)
    (howner : e.owner = none → e.orphaned = false) (hown : ∀ p, e.ownedBy p = false)
    (hwatch : e.watch = (s.entry k).watch) (hparked : ∀ w ∈ s.waits, w.terminal = k → e.content = .empty)
    (hframe : t = { s with entries := t.entries, rows := t.rows, tallies := t.tallies })
    (hentries : t.entries = (s.setEntry k e).entries) (hrows : t.rows = (s.dropForward (s.entry k).content).rows)
    (htally : t.tallies = (s.lowerOwned r.port).tallies) : t.Swept r rest k :=
  h.swept (State.rewrote_of_dropped h.sweeping.sound.tables (h.sweeping.sound.directory.inReady h.sweeping.ready) hframe
      hentries hrows hnew (h.follow htally hown hwatch))
    (fun v hv => absurd hv (hnew v)) howner (fun _ hp => hwatch ▸ hp) hown hparked

theorem State.Disposing.applyKeep (h : s.Disposing r rest k) : ((s.lowerOwned r.port).applyKeep k (s.entry k)).Swept r rest k := by
  have hsome : (s.entry k).owner = some r.port := (Entry.ownedBy_iff.1 h.owned).1
  exact (h.keepContent (e := { s.entry k with orphaned := true }) rfl (fun ho => by
      have ho : (s.entry k).owner = none := ho
      rw [hsome] at ho
      cases ho) (fun p => by simp [Entry.ownedBy]) rfl).postEntryEvent _ _ _ _ _ _

theorem State.Disposing.applyRelease (h : s.Disposing r rest k) :
    ((s.lowerOwned r.port).applyRelease k (s.entry k)).Swept r rest k :=
  (h.keepContent (e := (s.entry k).unowned) rfl (fun _ => rfl) (Entry.unowned_ownedBy _) rfl).postEntryEvent _ _ _ _ _ _

/-! ### DROP -/

/-- The write of a retirement under DROP, its slot still allocated. -/
def State.dropRetiring (s : State) (p : Port) (k : Slot) (v : Version) : State :=
  (((s.lowerOwned p).dropForward (s.entry k).content).setEntry k (.retired v)).lowerWatchers (s.entry k).watch

theorem State.Disposing.dropRetired (h : s.Disposing r rest k) (hpool : Config.fixedSlots ≤ k)
    (hin : ((s.lowerOwned r.port).dropForward (s.entry k).content).inbound k = 0) (hwaits : s.waitsOn k = 0)
    (v : Version) : ((s.dropRetiring r.port k v).free k).Swept r rest k := by
  have hs := h.sweeping.sound
  have hother : ∀ p, p ≠ r.port → (s.entry k).ownedBy p = false := fun p hp => by
    simp [Entry.ownedBy, (Entry.ownedBy_iff.1 h.owned).1, Ne.symm hp]
  have hfollow : s.TalliesFollow k (.retired v) (s.dropRetiring r.port k v) := by
    refine State.talliesFollow_retired (u := s.lowerOwned r.port) (m := r.port) hs.tables (hs.directory.inReady h.sweeping.ready)
      (fun p => ?_) hother (fun p => ?_)
    · rw [State.lowerOwned_tally, h.owned]
      by_cases hp : p = r.port <;> simp [hp]
    · refine (State.lowerWatchers_tally _ _ p).trans ?_
      rw [show State.tallies (State.setEntry _ k (.retired v)) =
        ((s.lowerOwned r.port).dropForward (s.entry k).content).tallies from rfl, State.dropForward_tallies]
  have hre : s.Rewrote k (.retired v) (s.dropRetiring r.port k v) := by
    refine State.rewrote_of_dropped hs.tables (hs.directory.inReady h.sweeping.ready) ?_ ?_ ?_ (fun j hj => by cases hj) hfollow
      <;> unfold State.dropRetiring <;> cases (s.entry k).content <;> rfl
  have hswept := h.swept hre (fun x hx => by cases hx) (fun _ => rfl)
    (fun p hp => by rw [Entry.retired_watch] at hp; cases hp) (Entry.retired_ownedBy v) (fun _ _ _ => rfl)
  have hinb : (s.dropRetiring r.port k v).inbound k = 0 :=
    (State.inbound_congr (u := (s.lowerOwned r.port).dropForward (s.entry k).content) rfl k).trans hin
  have hfree := hre.free_sound hswept.sweeping.sound h.sweeping.ready hpool h.sweeping.inRange h.allocated hinb hwaits
  exact ⟨hswept.sweeping.of_frame hfree (hswept.sweeping.outstanding.congr rfl rfl rfl rfl), hswept.left⟩

/-- The entry that DROP leaves where its slot does not retire (R118). -/
def Entry.dropped (e : Entry) (v : Version) : Entry :=
  { e with content := .empty, version := v, owner := none, orphaned := false, saved := .absent }

theorem State.Disposing.applyDrop (h : s.Disposing r rest k) :
    ((s.lowerOwned r.port).applyDrop k (s.entry k)).Swept r rest k := by
  unfold State.applyDrop
  dsimp only
  split
  · next hretire =>
    obtain ⟨hpool, hin, hwaits⟩ := hretire
    rw [State.dropForward_waitsOn] at hwaits
    exact (h.dropRetired hpool hin hwaits _).postEntryEvent _ _ _ _ _ _
  · refine (h.putContent (e := (s.entry k).dropped
      (if (s.entry k).content = .empty then (s.entry k).version else (s.entry k).version + 1)) (fun v hv => by cases hv)
      (fun _ => rfl) (fun _ => rfl) rfl (fun _ _ _ => rfl) ?_ ?_ ?_ ?_).postEntryEvent _ _ _ _ _ _
    all_goals cases (s.entry k).content <;> rfl

/-! ### RESTORE -/

/-- The entry that RESTORE leaves, its content and version apart (R119). -/
def Entry.restored (e : Entry) (c : Content) (v : Version) : Entry :=
  { e with content := c, version := v, owner := none, orphaned := false, saved := .absent }

/-- A restored content that is no forward. -/
theorem State.Disposing.restoreContent (h : s.Disposing r rest k) {c : Content} (hc : ∀ v, c ≠ .forward v)
    (hparked : ∀ w ∈ s.waits, w.terminal = k → c = .empty) (ver : Version) :
    (((s.lowerOwned r.port).setEntry k ((s.entry k).restored c ver)).dropForward (s.entry k).content).Swept r rest k := by
  refine h.putContent (e := (s.entry k).restored c ver) hc (fun _ => rfl) (fun _ => rfl) rfl hparked ?_ ?_ ?_ ?_
  all_goals cases (s.entry k).content <;> rfl

/-- A restored value handed to the oldest record on an EMPTY entry (R119, R87). -/
theorem State.Disposing.restoreHands (h : s.Disposing r rest k) (hempty : (s.entry k).content = .empty)
    (hw : s.oldestWait k = some w) (v : Value) (ver : Version) :
    (((s.lowerOwned r.port).setEntry k ((s.entry k).restored .empty ver)).handTo k w v ver).Swept r rest k := by
  have hswept := h.keepContent (e := (s.entry k).restored .empty ver) hempty.symm (fun _ => rfl) (fun _ => rfl) rfl
  obtain ⟨hsound, hout⟩ := hswept.sweeping.sound.handTo hswept.sweeping.outstanding (k := k) (w := w) hw v ver
  exact ⟨hswept.sweeping.of_frame hsound hout, hswept.left⟩

theorem State.Disposing.applyRestore (h : s.Disposing r rest k) :
    ((s.lowerOwned r.port).applyRestore k (s.entry k)).Swept r rest k := by
  have hsame := (h.keepContent (e := (s.entry k).restored (s.entry k).content (s.entry k).version) rfl (fun _ => rfl)
    (fun _ => rfl) rfl).postEntryEvent (s.entry k).watch .ownerChanged k (s.entry k).version none .device
  unfold State.applyRestore
  dsimp only
  split
  · exact hsame
  · split
    · exact hsame
    · exact (h.restoreContent (c := .empty) (by simp) (fun _ _ _ => rfl) _).postEntryEvent _ _ _ _ _ _
  · next v _ =>
    split
    · next w hempty hw =>
      have hands := (h.restoreHands hempty hw v ((s.entry k).version + 1)).postEntryEvent (s.entry k).watch .valueHanded k
        ((s.entry k).version + 1) (some v) .device
      unfold Entry.restored at hands
      rw [← hempty] at hands
      exact hands
    · next hnone =>
      split
      · exact hsame
      · refine (h.restoreContent (c := .value v) (by simp) (fun w hw hwk => ?_) _).postEntryEvent _ _ _ _ _ _
        have hempty := h.parked w hw hwk
        cases hold : s.oldestWait k with
        | some x => exact absurd hold (hnone x hempty)
        | none => exact absurd hwk (by simpa using List.find?_eq_none.1 hold w hw)

theorem State.Disposing.applyDisposition (h : s.Disposing r rest k) :
    (s.applyDisposition r.port k (s.entry k)).Swept r rest k := by
  unfold State.applyDisposition
  dsimp only
  split
  · exact h.applyKeep
  · exact h.applyRelease
  · exact h.applyDrop
  · exact h.applyRestore

end Dispositions

/-! ## The visit and what follows it -/

theorem SweepRecord.count_port (r : SweepRecord) (d : Disposition) : (r.count d).port = r.port := by
  unfold SweepRecord.count
  split <;> rfl

theorem SweepRecord.count_owedTag (r : SweepRecord) (d : Disposition) : (r.count d).owedTag = r.owedTag := by
  obtain ⟨q, kind⟩ := r
  cases kind <;> rfl

/-- The head record counts a disposition. -/
theorem State.Sound.recount (h : s.Sound) (hr : s.sweeps = r :: rest) (d : Disposition) :
    ({ s with sweeps := r.count d :: rest } : State).Sound := by
  have hloss : (∃ x, r.kind = .loss x) → ∃ x, (r.count d).kind = .loss x := by
    rintro ⟨x, hx⟩
    exact ⟨x, by unfold SweepRecord.count; rw [hx]; exact hx⟩
  refine ⟨h.servesInReady, h.grantsPending, h.grantedLast, h.heldInInit, h.executors.congr, h.tables.congr,
    h.directory.congr, ?_, ?_, h.waits.congr, h.token.congr, h.chains.congr, h.queues.congr⟩
  · refine ⟨h.sessions.fits, fun p => ?_, ?_, h.sessions.executingAttached, fun p ha => ?_, fun hd => ?_⟩
    · refine (h.sessions.closingSwept p).trans ?_
      simp [hr, SweepRecord.count_port]
    · have honce := h.sessions.sweptOnce
      rw [hr] at honce
      simpa [SweepRecord.count_port] using honce
    · obtain ⟨x, hx, hxp, hxl⟩ := h.sessions.abandonedLost p ha
      rw [hr, List.mem_cons] at hx
      rcases hx with rfl | hx
      · exact ⟨_, List.mem_cons_self, (x.count_port d).trans hxp, hloss hxl⟩
      · exact ⟨x, List.mem_cons_of_mem _ hx, hxp, hxl⟩
    · have := (h.sessions.heldEmpty hd).1
      rw [hr] at this
      cases this
  · refine ⟨fun hd hv => ?_, h.sweeps.onlyInReady, h.sweeps.closedOwnsNothing⟩
    obtain ⟨x, y, hlist, hrest⟩ := h.sweeps.runningPass hd hv
    obtain ⟨rfl, rfl⟩ : r = x ∧ rest = y := by simpa [hr] using hlist
    exact ⟨_, _, rfl, by rw [SweepRecord.count_port]; exact hrest⟩

theorem State.Swept.countDisposition (h : s.Swept r rest k) (d : Disposition) :
    (s.countDisposition d).Swept (r.count d) rest k := by
  have hlist := h.sweeping.listed
  unfold State.countDisposition
  rw [hlist]
  refine ⟨⟨h.sweeping.sound.recount hlist d, h.sweeping.outstanding.of_count (fun _ => rfl) fun p a => ?_,
    h.sweeping.granted, rfl, h.sweeping.position⟩, by rw [SweepRecord.count_port]; exact h.left⟩
  rw [hlist, sweepTags_cons, sweepTags_cons, SweepRecord.count_owedTag, SweepRecord.count_port]
  rfl

/-- The visit of slot k leaves the swept port neither a watch nor an entry there (R136). -/
theorem State.Sweeping.visit (h : s.Sweeping r rest k) : ∃ x, x.port = r.port ∧ (s.visit r.port k).Swept x rest k := by
  unfold State.visit
  split
  · next hun =>
    refine ⟨r, rfl, h, ?_⟩
    rw [(h.sound.directory.inReady h.ready).unallocatedDefault k h.inRange hun]
    exact ⟨PerPort.get_same false _, fun ho => by cases ho⟩
  · next ha =>
    have ha : s.allocated k = true := by simpa using ha
    obtain ⟨hsw, hentry, hall⟩ := h.unwatched ha
    have hwatch : ((s.unwatched r.port k).entry k).watch.get r.port = false := by
      rw [hentry, Entry.withWatch_get, if_pos rfl]
    dsimp only
    split
    · next hown =>
      have hdis : (s.unwatched r.port k).Disposing r rest k :=
        ⟨hsw, hall, by rw [hentry]; exact Entry.ownedBy_iff.2 hown, hwatch⟩
      have hdone := hdis.applyDisposition
      rw [hentry] at hdone
      exact ⟨_, r.count_port _, hdone.countDisposition (s.entry k).access.disposition⟩
    · next hnot =>
      refine ⟨r, rfl, hsw, hwatch, fun ho => ?_⟩
      have ho : ((s.unwatched r.port k).entry k).owner = some r.port := ho
      show ((s.unwatched r.port k).entry k).orphaned = true
      rw [hentry] at ho ⊢
      by_contra hf
      exact hnot ⟨ho, (Bool.not_eq_true _).mp hf⟩

/-- A port that owns and watches no slot of the directory has both counts 0 (R14, R15). -/
theorem State.Sound.countsZero_of_left (h : s.Sound) (hready : s.device = .ready) {p : Port}
    (hleft : ∀ j, j < Config.slots → (s.entry j).leftBy p) : s.tallies.get p = { owned := 0, watch := 0 } := by
  have hd := h.directory.inReady hready
  have hnone : ∀ f : Entry → Bool, (∀ j, j < Config.slots → f (s.entry j) = false) → Table.count f s.entries = 0 :=
    fun f hf => List.countP_eq_zero.2 fun x hx => by
      have hget := Table.get_of_mem (fun _ => Entry.default) h.tables.entriesWf hx
      have := hf x.1 (h.tables.entriesInRange x hx)
      rw [State.entry, hget] at this
      simp [this]
  rw [Tally.ext_iff, hd.ownedCounts, hd.watchCounts, State.ownedBy_eq, State.watchedBy_eq]
  refine ⟨hnone _ fun j hj => Bool.eq_false_iff.2 fun hx => ?_, hnone _ fun j hj => (hleft j hj).1⟩
  obtain ⟨ho, hf⟩ := Entry.ownedBy_iff.1 hx
  rw [(hleft j hj).2 ho] at hf
  cases hf

/-- The visit is complete, and the position has risen. -/
def State.visitDone (s : State) (k : Slot) : State :=
  { s with inProgress := none, sweepVisit := false, sweepPos := (k + 1) % Config.slots }

theorem State.Sweeping.visitDone (h : s.Sweeping r rest k) : (s.visitDone k).Settled := by
  have hs := h.sound
  refine ⟨⟨fun _ => rfl, nofun, nofun, hs.heldInInit, hs.executors.congr rfl rfl, ?_, hs.directory.congr rfl rfl rfl rfl rfl rfl,
    hs.sessions.congr rfl (fun _ => rfl) rfl rfl rfl rfl, ⟨fun _ hv => (by cases hv), fun _ => rfl, hs.sweeps.closedOwnsNothing⟩,
    hs.waits.congr rfl rfl rfl rfl, hs.token.congr rfl rfl, hs.chains.congr rfl rfl, hs.queues.congr rfl rfl rfl⟩,
    h.outstanding.congr rfl rfl rfl rfl, h.ready, rfl⟩
  exact ⟨hs.tables.entriesWf, hs.tables.rowsWf, hs.tables.entriesInRange, hs.tables.rowsInRange, hs.tables.targetsInRange,
    hs.tables.passInRange, Nat.mod_lt _ (Nat.zero_lt_succ _)⟩

/-- The Sweeper goes on after a visit: to its next test, or, behind slot 4095, to the end of the pass (R135, R137). -/
theorem State.Swept.goesOn (h : s.Swept r rest k) :
    (if k + 1 < Config.slots then (s.visitDone k).sweepTest else (s.visitDone k).endPass).Settled := by
  obtain ⟨hidle, hbelow⟩ := h.sweeping.pass
  have hdone := h.sweeping.visitDone
  have hupto : ∀ j, j < k + 1 → (s.entry j).leftBy r.port := fun j hj => by
    rcases Nat.lt_succ_iff_lt_or_eq.1 hj with hjk | hjk
    · exact hbelow j hjk
    · exact hjk ▸ h.left
  split
  · next hmore =>
    refine hdone.sweepTest (r := r) (rest := rest) h.sweeping.listed hidle fun j hj => hupto j ?_
    have hj : j < (k + 1) % Config.slots := hj
    rwa [Nat.mod_eq_of_lt hmore] at hj
  · next hlast =>
    refine hdone.endPass (r := r) (rest := rest) h.sweeping.listed ?_ ?_
    · show (s.executor r.port).abandoned = false
      rw [(h.sweeping.sound.executors.shaped _).eq_idle hidle]
      rfl
    · exact h.sweeping.sound.countsZero_of_left h.sweeping.ready fun j hj =>
      hupto j (lt_of_lt_of_le hj (Nat.le_of_not_lt hlast))

theorem State.Swept.afterVisit (h : s.Swept r rest k) : (s.afterVisit k).Laws := by
  unfold State.afterVisit
  dsimp only
  split
  · exact h.sweeping.visitDone.afterCompletion
  · have hnext := h.goesOn
    refine State.Settled.afterCompletion ?_
    split
    · exact hnext.freeIndex _
    · exact hnext

theorem execSweepVisit_keeps (h : s.Laws) : EndsInLaws (execSweepVisit s) := by
  refine endsInLaws_next ?_
  split
  · next r rest hr =>
    split
    · next hg =>
      obtain ⟨x, hx, hswept⟩ := State.Sweeping.visit (s := s) ⟨h.sound, h.outstanding, hg, hr, rfl⟩
      exact hswept.afterVisit
    · exact h
  · exact h

end Sys2Proof.Machine
end

