-- ==== Sys2Proof/Proofs/LawsKept.lean ====
section
/-! SUPPORT. Every command keeps the laws, and with it every step and every run. -/

namespace Sys2Proof.Machine

variable {s : State}

/-- From a state in the laws every command goes on, to a state in the laws. -/
theorem exec_keeps (h : s.Laws) : ∀ c : Instr, EndsInLaws (exec c s)
  | .deviceReset => execDeviceReset_keeps h
  | .resetNHigh strap => execResetNHigh_keeps h strap
  | .passCycle => execPassCycle_keeps h
  | .portResetLow _ => execPortResetLow_keeps h
  | .portResetHigh _ => execPortResetHigh_keeps h
  | .tick => execTick_keeps h
  | .waitExpiry => execWaitExpiry_keeps h
  | .leaseExpiry _ => execLeaseExpiry_keeps h
  | .truncatedFrame _ => execTruncatedFrame_keeps h
  | .lengthError _ _ => execLengthError_keeps h
  | .frameComplete _ _ => execFrameComplete_keeps h
  | .ackFrame _ => execAckFrame_keeps h
  | .replyFrame _ => execReplyFrame_keeps h
  | .eventFrame _ => execEventFrame_keeps h
  | .attach _ => execAttach_keeps h
  | .detach _ => execDetach_keeps h
  | .status _ => execStatus_keeps h
  | .credit _ => execCredit_keeps h
  | .setEvents _ => execSetEvents_keeps h
  | .read n => exec_beginning_keeps (n := n) h (by simp)
  | .put n => exec_beginning_keeps (n := n) h (by simp)
  | .take n => exec_beginning_keeps (n := n) h (by simp)
  | .link _ => execLink_keeps h
  | .clear n => exec_beginning_keeps (n := n) h (by simp)
  | .checkpoint n => exec_beginning_keeps (n := n) h (by simp)
  | .watch n => exec_beginning_keeps (n := n) h (by simp)
  | .unwatch n => exec_beginning_keeps (n := n) h (by simp)
  | .alloc n => exec_beginning_keeps (n := n) h (by simp)
  | .retire n => exec_beginning_keeps (n := n) h (by simp)
  | .claim n => exec_beginning_keeps (n := n) h (by simp)
  | .release n => exec_beginning_keeps (n := n) h (by simp)
  | .adopt n => exec_beginning_keeps (n := n) h (by simp)
  | .setAccess n => exec_beginning_keeps (n := n) h (by simp)
  | .inspect n => exec_maintenance_keeps (n := n) h (by simp)
  | .breakWait n => exec_maintenance_keeps (n := n) h (by simp)
  | .forceDetach _ => execForceDetach_keeps h
  | .clearDirectory _ => execClearDirectory_keeps h
  | .walkHop _ => execWalkHop_keeps h
  | .readTerminal _ => execReadTerminal_keeps h
  | .putTerminal _ => execPutTerminal_keeps h
  | .takeTerminal _ => execTakeTerminal_keeps h
  | .checkWalkCycle _ => execCheckWalkCycle_keeps h
  | .commitCycle _ => execCommitCycle_keeps h
  | .clearCycle _ => execClearCycle_keeps h
  | .checkpointCycle _ => execCheckpointCycle_keeps h
  | .watchCycle _ => execWatchCycle_keeps h
  | .unwatchCycle _ => execUnwatchCycle_keeps h
  | .allocCycle _ => execAllocCycle_keeps h
  | .retireCycle _ => execRetireCycle_keeps h
  | .claimCycle _ => execClaimCycle_keeps h
  | .releaseCycle _ => execReleaseCycle_keeps h
  | .adoptCycle _ => execAdoptCycle_keeps h
  | .setAccessCycle _ => execSetAccessCycle_keeps h
  | .inspectCycle _ => execInspectCycle_keeps h
  | .breakWaitCycle _ => execBreakWaitCycle_keeps h
  | .sweepPassStart => execSweepPassStart_keeps h
  | .sweepVisit => execSweepVisit_keeps h
  | .syncByteFound _ => execSyncByteFound_keeps h
  | .frameByteReceived _ _ => execFrameByteReceived_keeps h
  | .frameSent _ => execFrameSent_keeps h

/-- No law depends on the commands that wait in the queue. -/
theorem State.Laws.withPending (h : s.Laws) (cs : List Instr) : ({ s with pending := cs } : State).Laws :=
  h.of_sound (h.sound.congr rfl) h.outstanding.congr (fun _ => rfl)

theorem step_keeps (h : s.Laws) : EndsInLaws (step s) := by
  unfold step
  split
  · exact endsInLaws_next h
  · next c rest _ => exact exec_keeps (h.withPending rest) c

/-- A run from a state in the laws goes on, by induction on its length. -/
theorem safeRun_of_laws {s : State} (h : s.Laws) (k : Nat) : SafeRun k s := by
  induction k generalizing s with
  | zero => exact h
  | succ k ih =>
    obtain ⟨t, hst, ht⟩ := step_keeps h
    exact ⟨t, hst, ih ht⟩

end Sys2Proof.Machine

open Sys2Proof Sys2Proof.Machine

/-- Settles O57: a step has one outcome, and that outcome is in the laws. -/
theorem allLawsAreKept : Obligations.AllLawsAreKept := by
  unfold Obligations.AllLawsAreKept
  intro s t h hst
  obtain ⟨u, hu, hlaws⟩ := step_keeps h
  cases hst.symm.trans hu
  exact hlaws

/-- Settles O48: the laws of the tables and of the directory are two of the laws that a step keeps. -/
theorem directoryLawsAreKept : Obligations.DirectoryLawsAreKept := fun s t h hst =>
  have ht := allLawsAreKept s t h hst
  ⟨ht.tables, ht.directory⟩

/-- Settles O58: the part right after reset is in the laws, and from there every run goes on. -/
theorem runsFromResetAreSafe : Obligations.RunsFromResetAreSafe := fun cs k =>
  safeRun_of_laws (State.reset_laws cs) k

end

