-- ==== Sys2Proof/Proofs/Resets.lean ====
section
/-! SUPPORT. Device reset and leaving it (R32), entry to CLEARING by a completion or a CLEAR_DIRECTORY (R25, R36, R170), and
what a step keeps of the arbiter's and the executors' laws. -/

namespace Sys2Proof.Machine

variable {s : State} {p : Port}

/-! ## Device reset (R32) -/

/-- While the part is held in reset it drives every PnDO low (R155). -/
theorem State.pinOut_of_held (h : s.held = true) : s.pinOut p = .low := by simp [State.pinOut, h]

theorem State.leaveReset_port (strap : BitVec 3) : (s.leaveReset strap).port p =
    { s.port p with portState := if (s.link p).lineHigh then .opened else .down } := PerPort.get_mapPorts _ _ p

end Sys2Proof.Machine

open Sys2Proof Sys2Proof.Machine

/-- Settles O5: both acts are equations over the fields they write, each port and link read off its map. -/
theorem resetHoldsAndReleasesThePart : Obligations.ResetHoldsAndReleasesThePart :=
  ⟨fun s => ⟨s.hold, rfl, rfl, fun p => ⟨s.hold_port p, s.hold_link p, State.pinOut_of_held rfl⟩⟩,
    fun s strap h => ⟨s.leaveReset strap, congrArg _ (if_pos h), rfl, fun _ => State.leaveReset_port strap⟩⟩

/-- Settles O9: without a due entry a completion ends with the arbiter's turn; with one, the tests made ahead of it end the
passes of the first records, and then the entry is made. -/
theorem completionThenEntryThenGrant : Obligations.CompletionThenEntryThenGrant := by
  intro s _
  constructor
  · intro hdue
    simp [State.afterCompletion, hdue]
  · intro hdue
    obtain ⟨ended, hended⟩ := State.testsAhead_ended s.sweeps.length s
    refine ⟨ended, _, hended, ?_⟩
    rw [State.afterCompletion_of_due hdue]
    exact State.enterClearing_enters _

/-- Settles O23: the three branches of the command, the taken request being the same executor record in each. -/
theorem clearDirectoryEntersClearing : Obligations.ClearDirectoryEntersClearing := by
  intro s n tag hn hm taken htaken
  have hbegin : ∀ w, s.beginClear n ⟨tag, .clearDirectory⟩ w = taken w := fun w => (htaken w).symm
  simp only [exec_clearDirectory, execClearDirectory, hn, if_true, State.ifMaintenance, hm, hbegin]
  refine ⟨fun hd hp => ?_, fun hd hp => ?_, fun hd => ?_⟩
  · rw [if_pos hd, if_pos hp]
    exact ⟨_, rfl, State.enterClearing_enters _⟩
  · rw [if_pos hd, if_neg hp]
  · rw [if_neg hd]

/-- Settles O47: the laws of the arbiter and of the executors are two of the laws that a step keeps. -/
theorem arbiterAndExecutorLawsAreKept : Obligations.ArbiterAndExecutorLawsAreKept := fun s t h hst =>
  have ht := allLawsAreKept s t h hst
  ⟨ht.arbiter, ht.executors⟩
end

