-- ==== Sys2Proof/Proofs/FirstCycles.lean ====
section
/-! SUPPORT. What an executor begins with when it takes a request that needs store cycles (R26, R39, R40, R48, R49). -/

namespace Sys2Proof.Machine

variable {s : State} {n : Port} {rq : Request}

/-- Operands that pass their examination let the request proceed (R161). -/
theorem State.examine_of_ok {u : State} (h : rq.op.operandsOk = true) : s.examine n rq u = u := if_pos h

/-- The maintenance port's request proceeds (R167). -/
theorem State.ifMaintenance_of_role {u : State} (h : s.isMaintenance n = true) : s.ifMaintenance n rq u = u := if_pos h

theorem State.begin_eq (w : Work) (k : Slot) : s.begin n rq w k =
    ((s.requestTaken n).setExecutor n
      { state := .running w, current := some rq, walkPos := k, hops := 0, abandoned := false }).arbitrate := rfl

/-- The command of a request that presents a cycle at once examines its operands, and for a maintenance request its port's
role, and begins (R26, R40, R161, R167). -/
theorem exec_firstCycle {tag : Tag} {op : RequestOp} {w : Work} {k : Slot} (hn : s.nextRequest n = some ⟨tag, op⟩)
    (hc : op.firstCycle = some (w, k)) : exec (op.command n) s = .next (s.examine n ⟨tag, op⟩
      (if op.maintenance then s.ifMaintenance n ⟨tag, op⟩ (s.begin n ⟨tag, op⟩ w k) else s.begin n ⟨tag, op⟩ w k)) := by
  cases op
  all_goals
    simp only [RequestOp.firstCycle, reduceCtorEq, Option.some.injEq, Prod.mk.injEq] at hc
  all_goals
    obtain ⟨rfl, rfl⟩ := hc
    refine congrArg Host.Outcome.next ?_
    rw [hn]
    rfl

theorem requestPresentsItsFirstCycle : Claims.RequestPresentsItsFirstCycle := by
  intro s n tag op w k hn hc hok hrole
  rw [exec_firstCycle hn hc, State.examine_of_ok hok]
  split
  · next hm => rw [State.ifMaintenance_of_role (hrole hm), State.begin_eq]
  · rw [State.begin_eq]

theorem linkRequestsTheToken : Claims.LinkRequestsTheToken := by
  intro s n tag k target hn hk ht
  have hok : RequestOp.operandsOk (.link k target) = true := by
    rw [RequestOp.operandsOk, Bool.and_eq_true, slotOk_iff, slotOk_iff]
    exact ⟨Nat.lt_succ_of_le hk, Nat.lt_succ_of_le ht⟩
  have hexec : exec (.link n) s = .next (s.requestToken n ⟨tag, .link k target⟩ target) := by
    refine congrArg Host.Outcome.next ?_
    rw [hn]
    exact State.examine_of_ok hok
  have hserial : (s.dequeue n).serial = s.serial := rfl
  constructor
  · intro hfree
    rw [hexec, State.requestToken, hserial, hfree]
    rfl
  · intro hbusy
    rw [hexec, State.requestToken, hserial]
    cases htoken : s.serial.token with
    | free => exact absurd htoken hbusy
    | held p => rfl
    | recalled => rfl

end Sys2Proof.Machine

open Sys2Proof Sys2Proof.Machine

/-- Settles O25: a request with a first cycle presents it; a LINK asks for the token first. -/
theorem requestsBeginTheirWork : Obligations.RequestsBeginTheirWork :=
  ⟨requestPresentsItsFirstCycle, linkRequestsTheToken⟩
end

