-- ==== Sys2Proof/Proofs/PassCycles.lean ====
section
/-! SUPPORT. What the cycles of a pass write, and what the last of them brings (R33, R35, R36, R38, R139). -/

namespace Sys2Proof.Machine

variable {s t u v : State} {n p : Port} {k : Slot}

/-! ## The end of a pass -/

/-- The part with its pass complete and the CLEAR_DIRECTORY that caused it answered (R35, R38). -/
def State.passAnswered (v : State) : State := State.answerClear { v with device := .ready, passPos := 0 }

theorem State.passAnswered_executor (v : State) (p : Port) : v.passAnswered.executor p =
    if (v.executor p).awaitsPassEnd then .idle else v.executor p := PerPort.get_mapPorts _ v.execs p

theorem State.passAnswered_port (v : State) (p : Port) : v.passAnswered.port p =
    { v.port p with replyQueue := (v.port p).replyQueue ++ v.clearedReplies p } := PerPort.get_mapPorts _ v.ports p

theorem State.passAnswered_frame (v : State) : v.passAnswered = { v with
    device := .ready, passPos := 0, ports := v.passAnswered.ports, execs := v.passAnswered.execs } := rfl

theorem State.promoteClear_executor (s : State) (p : Port) : s.promoteClear.executor p =
    if (s.executor p).awaitsEntry then { s.executor p with state := .running .clearing } else s.executor p :=
  PerPort.get_mapPorts _ s.execs p

/-- The executor of the CLEAR_DIRECTORY that caused the pass goes IDLE, and its port is answered OK (R38). -/
theorem State.passAnswered_of_clearing (h : (v.executor p).state = .running .clearing) :
    v.passAnswered.executor p = .idle ∧ ∀ rq, (v.executor p).current = some rq → v.passAnswered.port p =
      { v.port p with replyQueue := (v.port p).replyQueue ++ [bareReply rq .ok] } := by
  have hawait := Executor.awaitsPassEnd_iff.2 h
  constructor
  · rw [State.passAnswered_executor, if_pos hawait]
  · intro rq hrq
    rw [State.passAnswered_port, State.clearedReplies, if_pos hawait, hrq]
    rfl

/-- No other executor stops with the pass, and no other port is answered. -/
theorem State.passAnswered_of_not_clearing (h : (v.executor p).state ≠ .running .clearing) :
    v.passAnswered.executor p = v.executor p ∧ v.passAnswered.port p = v.port p := by
  have hawait : ¬ (v.executor p).awaitsPassEnd = true := fun ha => h (Executor.awaitsPassEnd_iff.1 ha)
  rw [State.passAnswered_executor, State.passAnswered_port, State.clearedReplies, if_neg hawait, if_neg hawait,
    List.append_nil]
  exact ⟨rfl, rfl⟩

/-- The end of the pass leaves a CLEAR_DIRECTORY waiting exactly where one waited. -/
theorem State.passAnswered_awaitsEntry (v : State) (p : Port) :
    (v.passAnswered.executor p).awaitsEntry = (v.executor p).awaitsEntry := by
  by_cases h : (v.executor p).state = .running .clearing
  · rw [(State.passAnswered_of_clearing h).1]
    simp [Executor.awaitsEntry, h]
  · rw [(State.passAnswered_of_not_clearing h).1]

theorem State.any_awaitsEntry_iff (v : State) :
    Port.all.any (fun p => (v.passAnswered.executor p).awaitsEntry) = true ↔
      ∃ p, (v.executor p).state = .running .awaitPass := by
  simp only [List.any_eq_true, State.passAnswered_awaitsEntry, Executor.awaitsEntry_iff, Port.mem_all, true_and]

/-- With no CLEAR_DIRECTORY waiting, a pass ends with the arbiter's turn (R35). -/
theorem State.passComplete_of_none (h : ∀ p, (v.executor p).state ≠ .running .awaitPass) :
    v.passComplete = v.passAnswered.arbitrate :=
  if_neg fun hany => by
    obtain ⟨p, hp⟩ := v.any_awaitsEntry_iff.1 hany
    exact h p hp

/-- A waiting CLEAR_DIRECTORY causes a new entry at the end of the pass (R36). -/
theorem State.passComplete_of_waiting (h : ∃ p, (v.executor p).state = .running .awaitPass) :
    v.passComplete = (v.passAnswered.promoteClear.testsAhead v.sweeps.length).enterClearing :=
  if_pos (v.any_awaitsEntry_iff.2 h)

/-! ## A cycle of a pass -/

/-- The part after the pass's cycle at its position. -/
def State.passStep (s : State) : State :=
  if s.passPos + 1 < Config.slots then { s.passCycled with passPos := s.passPos + 1 } else s.passCycled.passComplete

theorem exec_passCycle_eq (hheld : s.held = false) (hd : s.device ≠ .ready) : exec .passCycle s = .next s.passStep :=
  congrArg _ (if_pos ⟨hheld, hd⟩)

/-- But for slot 0 of a clearing pass, a cycle only writes its slot. -/
theorem State.passCycled_of_writes (h : s.passPos = 0 → s.device = .init) : s.passCycled = s.passWrite s.passPos :=
  if_neg fun ⟨hz, hc⟩ => by rw [h hz] at hc; cases hc

theorem PassWrote.congr (h : PassWrote k s t) (hen : u.entries = t.entries := by rfl) (hro : u.rows = t.rows := by rfl)
    (hta : u.tallies = t.tallies := by rfl) (hfr : u.freeList = t.freeList := by rfl) : PassWrote k s u where
  entries := fun j => (State.entry_congr hen j).trans (h.entries j)
  rows := fun j => (State.row_congr hro j).trans (h.rows j)
  tallies := hta.trans h.tallies
  freeList := hfr.trans h.freeList

theorem passCycleWritesItsSlot : Claims.PassCycleWritesItsSlot := by
  intro s hheld hd hk hinit
  have hstep : s.passStep = { s.passWrite s.passPos with passPos := s.passPos + 1 } := by
    rw [State.passStep, State.passCycled_of_writes hinit]
    exact if_pos hk
  refine ⟨_, exec_passCycle_eq hheld hd, ?_, ?_⟩ <;> rw [hstep]
  · exact (s.passWrite_wrote s.passPos).congr
  · rw [State.passWrite_frame]

/-- The last cycle of a pass writes slot 4095 and completes the pass. -/
theorem exec_passCycle_last (hheld : s.held = false) (hd : s.device ≠ .ready) (hpos : s.passPos = 4095) :
    exec .passCycle s = .next (s.passWrite 4095).passComplete := by
  rw [exec_passCycle_eq hheld hd, State.passStep, if_neg (by rw [hpos]; decide),
    State.passCycled_of_writes (fun hz => by rw [hpos] at hz; cases hz), hpos]

theorem State.passWrite_executor (s : State) (k : Slot) (p : Port) : (s.passWrite k).executor p = s.executor p := by
  rw [State.passWrite_frame]; rfl

theorem State.passWrite_port (s : State) (k : Slot) (p : Port) : (s.passWrite k).port p = s.port p := by
  rw [State.passWrite_frame]; rfl

/-- The frame of a pass's last cycle, up to what follows its completion. -/
theorem State.lastCycle_frame (s : State) : (s.passWrite 4095).passAnswered = { s with
    device := .ready, passPos := 0, entries := (s.passWrite 4095).entries, rows := (s.passWrite 4095).rows
    freeList := (s.passWrite 4095).freeList, ports := (s.passWrite 4095).passAnswered.ports
    execs := (s.passWrite 4095).passAnswered.execs } := by
  have htallies : (s.passWrite 4095).tallies = s.tallies := (s.passWrite_wrote 4095).tallies
  have hframe := s.passWrite_frame 4095
  rw [htallies] at hframe
  generalize s.passWrite 4095 = w at hframe ⊢
  generalize w.entries = entries at hframe ⊢
  generalize w.rows = rows at hframe ⊢
  generalize w.freeList = freeList at hframe ⊢
  subst hframe
  rfl

theorem State.lastCycle_of_clearing (h : (s.executor p).state = .running .clearing) :
    (s.passWrite 4095).passAnswered.executor p = .idle ∧ ∀ rq, (s.executor p).current = some rq →
      (s.passWrite 4095).passAnswered.port p =
        { s.port p with replyQueue := (s.port p).replyQueue ++ [bareReply rq .ok] } := by
  rw [← State.passWrite_executor s 4095] at h ⊢
  rw [← State.passWrite_port s 4095]
  exact State.passAnswered_of_clearing h

theorem State.lastCycle_of_not_clearing (h : (s.executor p).state ≠ .running .clearing) :
    (s.passWrite 4095).passAnswered.executor p = s.executor p ∧
      (s.passWrite 4095).passAnswered.port p = s.port p := by
  rw [← State.passWrite_executor s 4095] at h ⊢
  rw [← State.passWrite_port s 4095]
  exact State.passAnswered_of_not_clearing h

theorem lastPassCycleEndsThePass : Claims.LastPassCycleEndsThePass := by
  intro s hheld hd hpos hnone
  refine ⟨(s.passWrite 4095).passAnswered, ?_, (s.passWrite_wrote 4095).congr, s.lastCycle_frame,
    fun p => ⟨State.lastCycle_of_clearing, State.lastCycle_of_not_clearing⟩⟩
  rw [exec_passCycle_last hheld hd hpos, State.passComplete_of_none]
  exact fun p => by rw [State.passWrite_executor]; exact hnone p

theorem waitingClearEntersAgain : Claims.WaitingClearEntersAgain := by
  intro s hheld hd hpos hwait _
  have hwait' : ∃ p, ((s.passWrite 4095).executor p).state = .running .awaitPass := by
    simpa only [State.passWrite_executor] using hwait
  obtain ⟨ended, hended⟩ :=
    State.testsAhead_ended (s.passWrite 4095).sweeps.length (s.passWrite 4095).passAnswered.promoteClear
  refine ⟨(s.passWrite 4095).passAnswered.promoteClear, _, _, ended, ?_, (s.passWrite_wrote 4095).congr, hended,
    State.enterClearing_enters _, ?_, fun p => ⟨fun hp => ?_, fun hp => ?_, fun hc hw => ?_⟩⟩
  · rw [exec_passCycle_last hheld hd hpos, State.passComplete_of_waiting hwait']
  · exact congrArg State.promoteClear s.lastCycle_frame
  · obtain ⟨hidle, hreply⟩ := State.lastCycle_of_clearing hp
    exact ⟨by rw [State.promoteClear_executor, hidle]; rfl, hreply⟩
  · obtain ⟨hexec, hport⟩ := State.lastCycle_of_not_clearing (s := s) (p := p) (by simp [hp])
    exact ⟨hport, by rw [State.promoteClear_executor, hexec, if_pos (Executor.awaitsEntry_iff.2 hp)]⟩
  · obtain ⟨hexec, hport⟩ := State.lastCycle_of_not_clearing hc
    exact ⟨by rw [State.promoteClear_executor, hexec, if_neg fun ha => hw (Executor.awaitsEntry_iff.1 ha)], hport⟩

/-! ## Entry events -/

/-- Every entry event in the queue of d stood in that of c, of the same kind and with the same slot and version. -/
def PortControl.entryEventsFrom (c d : PortControl) : Prop :=
  ∀ r ∈ d.eventQueue, r.event.entry ≠ none →
    ∃ r' ∈ c.eventQueue, r'.event.entry = r.event.entry ∧ r'.event.kind = r.event.kind

variable {c d e : PortControl}

theorem PortControl.entryEventsFrom_of_eq (h : d.eventQueue = c.eventQueue) : c.entryEventsFrom d :=
  fun r hr _ => ⟨r, h ▸ hr, rfl, rfl⟩

theorem PortControl.entryEventsFrom.trans (h : c.entryEventsFrom d) (h' : d.entryEventsFrom e) : c.entryEventsFrom e := by
  intro r hr hentry
  obtain ⟨r', hr', he', hk'⟩ := h' r hr hentry
  obtain ⟨r'', hr'', he'', hk''⟩ := h r' hr' (by rw [he']; exact hentry)
  exact ⟨r'', hr'', he''.trans he', hk''.trans hk'⟩

/-- A notice adds no entry event: it is appended, or counted as lost, or an OVERFLOW takes its place (R148). -/
theorem PortControl.entryEventsFrom_push (c : PortControl) {x : Event} (hx : x.entry = none) :
    c.entryEventsFrom (c.push x) := by
  have happend : ∀ y : Event, y.entry = none → c.entryEventsFrom (c.append y) := by
    intro y hy r hr hentry
    rcases List.mem_append.1 hr with hr | hr
    · exact ⟨r, hr, rfl, rfl⟩
    · rw [List.mem_singleton.1 hr] at hentry
      exact absurd hy hentry
  unfold PortControl.push
  split
  · exact happend x hx
  · split
    · intro r hr _
      rcases List.mem_append.1 hr with hr | hr
      · exact ⟨r, List.dropLast_subset _ hr, rfl, rfl⟩
      · obtain ⟨last, hlast, rfl⟩ := Option.map_eq_some_iff.1 (Option.mem_toList.1 hr)
        exact ⟨last, List.mem_of_getLast? hlast, rfl, rfl⟩
    · exact happend overflowEvent rfl

/-- What all that comes with a pass beside its writes leaves: the directory as it stands, and no entry event in a queue
that did not stand there. -/
structure State.LeavesDirectory (s t : State) : Prop where
  entries : t.entries = s.entries
  rows : t.rows = s.rows
  tallies : t.tallies = s.tallies
  freeList : t.freeList = s.freeList
  events : ∀ p, (s.port p).entryEventsFrom (t.port p)

theorem State.LeavesDirectory.trans (h : s.LeavesDirectory t) (h' : t.LeavesDirectory u) : s.LeavesDirectory u where
  entries := h'.entries.trans h.entries
  rows := h'.rows.trans h.rows
  tallies := h'.tallies.trans h.tallies
  freeList := h'.freeList.trans h.freeList
  events := fun p => (h.events p).trans (h'.events p)

/-- Event queues that stand leave every entry event standing. -/
theorem State.leavesDirectory_of_queues (hq : ∀ p, (t.port p).eventQueue = (s.port p).eventQueue)
    (hen : t.entries = s.entries := by rfl) (hro : t.rows = s.rows := by rfl) (hta : t.tallies = s.tallies := by rfl)
    (hfr : t.freeList = s.freeList := by rfl) : s.LeavesDirectory t :=
  ⟨hen, hro, hta, hfr, fun p => PortControl.entryEventsFrom_of_eq (hq p)⟩

theorem State.LeavesDirectory.refl (s : State) : s.LeavesDirectory s := State.leavesDirectory_of_queues fun _ => rfl

theorem PassWrote.leaves (h : PassWrote k s t) (hl : t.LeavesDirectory u) : PassWrote k s u :=
  h.congr hl.entries hl.rows hl.tallies hl.freeList

theorem State.MidPass.leaves (h : ({ s with passPos := k } : State).MidPass) (hl : s.LeavesDirectory t) :
    ({ t with passPos := k } : State).MidPass :=
  h.congr hl.entries hl.rows hl.tallies hl.freeList

/-! ## What comes with a pass beside its writes -/

/-- A PORTS notice is no entry event (R145). -/
theorem State.leavesDirectory_postNotice (s : State) (x : EventKind) (n : Port) (r : Option LossReason) :
    s.LeavesDirectory (s.postNotice x n r) := by
  refine ⟨rfl, rfl, rfl, rfl, fun p => ?_⟩
  rw [State.postNotice, State.postEvent_port]
  split
  · exact PortControl.entryEventsFrom_push _ rfl
  · exact PortControl.entryEventsFrom_of_eq rfl

theorem State.leavesDirectory_postReplies (s : State) (f : Port → List Reply) : s.LeavesDirectory (s.postReplies f) :=
  State.leavesDirectory_of_queues fun p => by rw [State.postReplies_port]

/-- A port leaves CLOSING with its reply and a notice (R137, R139). -/
theorem State.leavesDirectory_closeRecord (s : State) (st : Status) (r : SweepRecord) :
    s.LeavesDirectory (s.closeRecord st r) := by
  have hport : s.LeavesDirectory (s.setPort r.port { s.port r.port with
      portState := s.stateAfterClosing r.port, linkDown := false }) :=
    State.leavesDirectory_of_queues fun p => by
      rw [State.port_setPort]
      split
      · next hp => rw [hp]
      · rfl
  unfold State.closeRecord
  dsimp only
  split
  · rw [State.postReply_eq_postReplies]
    exact (hport.trans (State.leavesDirectory_postReplies _ _)).trans (State.leavesDirectory_postNotice _ _ _ _)
  · exact hport.trans (State.leavesDirectory_postNotice _ _ _ _)

theorem State.leavesDirectory_closeRecords (st : Status) (x : List SweepRecord) :
    ∀ s : State, s.LeavesDirectory (x.foldl (fun s r => s.closeRecord st r) s) ∧
      ∃ ports, x.foldl (fun s r => s.closeRecord st r) s = { s with ports := ports } := by
  induction x with
  | nil => exact fun s => ⟨.refl s, s.ports, rfl⟩
  | cons r x ih =>
    intro s
    obtain ⟨hleaves, ports, hframe⟩ := ih (s.closeRecord st r)
    refine ⟨(State.leavesDirectory_closeRecord s st r).trans hleaves, ports, hframe.trans ?_⟩
    rw [State.closeRecord_frame]

/-- The removal of the sweep records at slot 0 of a clearing pass (R139). -/
theorem State.leavesDirectory_removeSweeps (s : State) : s.LeavesDirectory s.removeSweeps := by
  obtain ⟨hen, hro, hta, hfr, hev⟩ := (State.leavesDirectory_closeRecords .cancelled s.sweeps s).1
  exact ⟨hen, hro, hta, hfr, hev⟩

theorem State.removeSweeps_eq (s : State) : ∃ ports, s.removeSweeps = { s with
    ports := ports, sweeps := [], sweepPos := 0, sweepVisit := false } := by
  obtain ⟨ports, hframe⟩ := (State.leavesDirectory_closeRecords .cancelled s.sweeps s).2
  exact ⟨ports, by rw [State.removeSweeps, hframe]⟩

theorem State.leavesDirectory_endPass (s : State) : s.LeavesDirectory s.endPass := by
  unfold State.endPass
  split
  · exact .refl s
  · next r rest _ =>
    obtain ⟨hen, hro, hta, hfr, hev⟩ := State.leavesDirectory_closeRecord s .ok r
    exact ⟨hen, hro, hta, hfr, hev⟩

theorem State.leavesDirectory_testsAhead (m : Nat) : ∀ s : State, s.LeavesDirectory (s.testsAhead m) := by
  induction m with
  | zero => exact fun s => .refl s
  | succ m ih =>
    intro s
    have hindex : s.LeavesDirectory { s with freeIndex := s.freeIndex + 1 } :=
      State.leavesDirectory_of_queues fun _ => rfl
    unfold State.testsAhead
    split
    · exact .refl s
    · split
      · exact (hindex.trans (State.leavesDirectory_endPass _)).trans (ih _)
      · exact .refl s

/-- Entry to CLEARING flushes the event queues of the ATTACHED ports for a DIRECTORY_CLEARED, and leaves the others (R153). -/
theorem State.leavesDirectory_enterClearing (s : State) : s.LeavesDirectory s.enterClearing := by
  refine ⟨rfl, rfl, rfl, rfl, fun p => ?_⟩
  by_cases hatt : s.portState p = .attached
  · intro r hr hentry
    rw [(s.enterClearing_enters.events p hatt).2, List.mem_singleton] at hr
    rw [hr] at hentry
    exact absurd rfl hentry
  · exact PortControl.entryEventsFrom_of_eq (s.enterClearing_enters.others p hatt).1

theorem State.leavesDirectory_arbitrate (s : State) : s.LeavesDirectory s.arbitrate :=
  State.leavesDirectory_of_queues (fun p => by rw [State.arbitrate_port]) (by simp) (by simp) (by simp) (by simp)

theorem State.leavesDirectory_passAnswered (v : State) : v.LeavesDirectory v.passAnswered :=
  State.leavesDirectory_of_queues fun p => by rw [State.passAnswered_port]

/-- The end of a pass (R35, R36, R38). -/
theorem State.leavesDirectory_passComplete (v : State) : v.LeavesDirectory v.passComplete := by
  have hanswer := v.leavesDirectory_passAnswered
  by_cases hwait : ∃ p, (v.executor p).state = .running .awaitPass
  · rw [State.passComplete_of_waiting hwait]
    have hpromote : v.passAnswered.LeavesDirectory v.passAnswered.promoteClear :=
      State.leavesDirectory_of_queues fun _ => rfl
    exact ((hanswer.trans hpromote).trans (State.leavesDirectory_testsAhead _ _)).trans
      (State.leavesDirectory_enterClearing _)
  · rw [State.passComplete_of_none (not_exists.1 hwait)]
    exact hanswer.trans (State.leavesDirectory_arbitrate _)

/-- With no executor on a CLEAR_DIRECTORY the end of a pass changes no port. -/
theorem State.passComplete_ports
    (h : ∀ p, (v.executor p).state ≠ .running .clearing ∧ (v.executor p).state ≠ .running .awaitPass) :
    v.passComplete.ports = v.ports := by
  rw [State.passComplete_of_none fun p => (h p).2, State.arbitrate_ports]
  exact PerPort.eq_of_get fun p => (State.passAnswered_of_not_clearing (h p).1).2

/-- With no CLEAR_DIRECTORY waiting the end of a pass changes no wait record. -/
theorem State.passComplete_waits (h : ∀ p, (v.executor p).state ≠ .running .awaitPass) :
    v.passComplete.waits = v.waits := by
  rw [State.passComplete_of_none h, State.arbitrate_waits]
  rfl

/-! ## The whole pass -/

theorem State.leavesDirectory_passCycled (s : State) : (s.passWrite s.passPos).LeavesDirectory s.passCycled := by
  unfold State.passCycled
  split
  · exact State.leavesDirectory_removeSweeps _
  · exact .refl _

/-- A pass's cycle short of the end touches the directory, the ports and the Sweeper alone. -/
theorem State.passCycled_eq (s : State) : ∃ entries rows tallies freeList ports sweeps pos visit, s.passCycled = { s with
    entries := entries, rows := rows, tallies := tallies, freeList := freeList, ports := ports, sweeps := sweeps
    sweepPos := pos, sweepVisit := visit } := by
  unfold State.passCycled
  split
  · obtain ⟨ports, hremove⟩ := (s.passWrite s.passPos).removeSweeps_eq
    rw [hremove, State.passWrite_frame]
    exact ⟨_, _, _, _, _, _, _, _, rfl⟩
  · rw [State.passWrite_frame]
    exact ⟨_, _, _, _, _, _, _, _, rfl⟩

theorem State.passCycled_held (s : State) : s.passCycled.held = s.held := by
  obtain ⟨_, _, _, _, _, _, _, _, h⟩ := s.passCycled_eq
  rw [h]

theorem State.passCycled_device (s : State) : s.passCycled.device = s.device := by
  obtain ⟨_, _, _, _, _, _, _, _, h⟩ := s.passCycled_eq
  rw [h]

theorem State.passCycled_waits (s : State) : s.passCycled.waits = s.waits := by
  obtain ⟨_, _, _, _, _, _, _, _, h⟩ := s.passCycled_eq
  rw [h]

theorem State.passCycled_executor (s : State) (p : Port) : s.passCycled.executor p = s.executor p := by
  obtain ⟨_, _, _, _, _, _, _, _, h⟩ := s.passCycled_eq
  rw [h]
  rfl

/-- Only the removal of the sweep records changes a port ahead of the end of a pass (R139). -/
theorem State.passCycled_ports (h : 0 < s.passPos ∨ s.device = .init ∨ s.sweeps = []) :
    s.passCycled.ports = s.ports := by
  have hwrite := s.passWrite_frame s.passPos
  unfold State.passCycled
  split
  · next hfirst =>
    have hnone : (s.passWrite s.passPos).sweeps = [] := by
      rw [hwrite]
      rcases h with h | h | h
      · exact absurd hfirst.1 (Nat.ne_of_gt h)
      · rw [h] at hfirst; cases hfirst.2
      · exact h
    rw [State.removeSweeps, hnone, hwrite]
    rfl
  · rw [hwrite]

/-- The pass stands before its cycle on slot k. -/
structure State.Passing (s : State) (k : Slot) : Prop where
  held : s.held = false
  device : s.device ≠ .ready
  position : s.passPos = k
  directory : s.DirectoryLaw

/-- A pass that has yet to begin has written nothing. -/
theorem State.passing_of_start (hheld : s.held = false) (hd : s.device ≠ .ready) (hpos : s.passPos = 0) : s.Passing 0 :=
  ⟨hheld, hd, hpos, fun hr => absurd hr hd, fun _ hp => absurd hpos (Nat.ne_of_gt hp)⟩

/-- The cycle on slot k leaves every slot up to k at its defaults (R33). -/
theorem State.Passing.cycled (h : s.Passing k) : ({ s.passCycled with passPos := k + 1 } : State).MidPass := by
  obtain ⟨-, hd, rfl, hdirectory⟩ := h
  exact (hdirectory.passWrite hd).leaves s.leavesDirectory_passCycled

theorem State.Passing.passStep_of_lt (h : s.Passing k) (hk : k + 1 < Config.slots) :
    s.passStep = { s.passCycled with passPos := k + 1 } := by
  rw [State.passStep, h.position]
  exact if_pos hk

theorem State.Passing.passStep_of_last (h : s.Passing k) (hk : k + 1 = Config.slots) :
    s.passStep = s.passCycled.passComplete := by
  rw [State.passStep, h.position]
  exact if_neg (Nat.not_lt.2 (Nat.le_of_eq hk.symm))

theorem State.Passing.next (h : s.Passing k) (hk : k + 1 < Config.slots) : s.passStep.Passing (k + 1) := by
  have hmid := h.cycled
  have hd : s.passCycled.device ≠ .ready := s.passCycled_device ▸ h.device
  rw [h.passStep_of_lt hk]
  exact ⟨s.passCycled_held.trans h.held, hd, rfl, fun hr => absurd hr hd, fun _ _ => hmid⟩

theorem State.leavesDirectory_passStep (s : State) : s.passCycled.LeavesDirectory s.passStep := by
  rw [State.passStep]
  split
  · exact State.leavesDirectory_of_queues fun _ => rfl
  · exact State.leavesDirectory_passComplete _

/-- What the pass's cycle on slot k does to the directory, and what it leaves (R33). -/
theorem State.Passing.wrote (h : s.Passing k) :
    PassWrote k s s.passStep ∧ ∀ p, (s.port p).entryEventsFrom (s.passStep.port p) := by
  have hleaves := s.leavesDirectory_passCycled.trans s.leavesDirectory_passStep
  rw [h.position] at hleaves
  refine ⟨(s.passWrite_wrote k).leaves hleaves, fun p => ?_⟩
  rw [← State.passWrite_port s k p]
  exact hleaves.events p

theorem State.Passing.ports (h : s.Passing k) (hk : k + 1 ≤ Config.slots)
    (hsweeps : 0 < k ∨ s.device = .init ∨ s.sweeps = [])
    (hclear : k < 4095 ∨ ∀ p, (s.executor p).state ≠ .running .clearing ∧ (s.executor p).state ≠ .running .awaitPass) :
    s.passStep.ports = s.ports := by
  have hcycled : s.passCycled.ports = s.ports := State.passCycled_ports (by rw [h.position]; exact hsweeps)
  rcases Nat.lt_or_eq_of_le hk with hlt | hlast
  · rw [h.passStep_of_lt hlt]
    exact hcycled
  · have hnone := hclear.resolve_left (by cases hlast; exact Nat.lt_irrefl _)
    rw [h.passStep_of_last hlast, State.passComplete_ports (by simpa only [State.passCycled_executor] using hnone), hcycled]

theorem State.Passing.waits (h : s.Passing k) (hk : k + 1 ≤ Config.slots)
    (hclear : k < 4095 ∨ ∀ p, (s.executor p).state ≠ .running .awaitPass) : s.passStep.waits = s.waits := by
  rcases Nat.lt_or_eq_of_le hk with hlt | hlast
  · rw [h.passStep_of_lt hlt]
    exact s.passCycled_waits
  · have hnone := hclear.resolve_left (by cases hlast; exact Nat.lt_irrefl _)
    rw [h.passStep_of_last hlast, State.passComplete_waits (by simpa only [State.passCycled_executor] using hnone),
      State.passCycled_waits]

/-- Before its cycle on slot k the pass has made its cycles on the slots below (R33). -/
theorem State.Passing.run (h : s.Passing 0) (hk : k < Config.slots) : (State.passStep^[k] s).Passing k := by
  induction k with
  | zero => exact h
  | succ k ih =>
    rw [Function.iterate_succ_apply']
    exact (ih (Nat.lt_of_succ_lt hk)).next hk

/-- A pass run cycle by cycle, each state named. -/
theorem State.Passing.exists_run (h : s.Passing 0) : ∃ f : Nat → State, f 0 = s ∧
    ∀ k, k < Config.slots → (f k).Passing k ∧ f (k + 1) = (f k).passStep :=
  ⟨fun k => State.passStep^[k] s, rfl, fun _ hk => ⟨h.run hk, Function.iterate_succ_apply' ..⟩⟩

/-- The directory after its last slot has been written (R17 to R19). -/
theorem State.MidPass.completed (h : ({ t with passPos := 4096 } : State).MidPass) :
    t.freeList = List.range' 256 3840 ∧ t.freeList.length = 3840 ∧
      (∀ j, j < 4096 → t.entry j = .default ∧ t.allocated j = decide (j < 256) ∧ t.inbound j = 0) ∧
      ∀ p, t.tallies.get p = { owned := 0, watch := 0 } := by
  have hcount : 4096 - Config.fixedSlots = 3840 := rfl
  have hfree : t.freeList = List.range' 256 3840 := hcount ▸ h.freeSoFar
  refine ⟨hfree, by rw [hfree, List.length_range'], fun j hj => ?_, h.talliesZero⟩
  have hrow : t.row j = .default j := h.rowsWritten j hj
  refine ⟨h.entriesWritten j hj, ?_, by rw [State.inbound_eq, hrow]; rfl⟩
  rw [State.allocated_eq, hrow]
  exact Bool.or_self _

/-- A fixed slot is allocated (R1). -/
theorem State.allocated_of_fixed (s : State) {j : Slot} (hj : j < Config.fixedSlots) : s.allocated j = true := by
  rw [State.allocated_eq, decide_eq_true hj, Bool.true_or]

end Sys2Proof.Machine

open Sys2Proof Sys2Proof.Machine

/-- Settles O6: each cycle of the run writes its slot, and what has been written stands until the end. -/
theorem passLeavesTheDefaults : Obligations.PassLeavesTheDefaults := by
  intro s hheld hd hpos
  obtain ⟨f, hzero, hrun⟩ := (State.passing_of_start hheld hd hpos).exists_run
  obtain ⟨hlast, hend⟩ := hrun 4095 (Nat.lt_succ_self _)
  refine ⟨f, hzero, fun k hk => ?_, (hlast.cycled.leaves (hend ▸ (f 4095).leavesDirectory_passStep)).completed⟩
  obtain ⟨hpass, hnext⟩ := hrun k hk
  rw [hnext]
  exact ⟨exec_passCycle_eq hpass.held hpass.device, hpass.position, hpass.wrote.1, hpass.ports hk, hpass.waits hk,
    hpass.wrote.2, fun j hj => State.allocated_of_fixed _ hj⟩

/-- Settles O7: a cycle short of the last, the last one, and the last one before a waiting CLEAR_DIRECTORY. -/
theorem passCyclesActAsGiven : Obligations.PassCyclesActAsGiven :=
  ⟨passCycleWritesItsSlot, lastPassCycleEndsThePass, waitingClearEntersAgain⟩
end

