-- ==== Sys2Proof/Proofs/Rotation.lean ====
section
/-! SUPPORT. The Store Arbiter's rotation: whom a grant goes to, and how near it brings the others (R28 to R30). -/

namespace Sys2Proof.Machine

variable {s : State} {l r x : Requestor}

/-- The place of a requestor in the cyclic order P0, P1, P2, P3, Sweeper (R29). -/
def Requestor.place : Requestor → Nat
  | .executor .p0 => 0
  | .executor .p1 => 1
  | .executor .p2 => 2
  | .executor .p3 => 3
  | .sweeper => 4

theorem Requestor.place_le (r : Requestor) : r.place ≤ 4 := by
  rcases r with (_ | _ | _ | _) | _ <;> decide

/-- How many the rotation serves ahead of r is the distance from the one after l to r, around the five places. -/
theorem ahead_eq (l r : Requestor) : ahead l r = (r.place + 4 - l.place) % 5 := by
  rcases l with (_ | _ | _ | _) | _ <;> rcases r with (_ | _ | _ | _) | _ <;> decide

theorem ahead_le (l r : Requestor) : ahead l r ≤ 4 := by
  rw [ahead_eq]
  exact Nat.le_of_lt_succ (Nat.mod_lt _ (Nat.zero_lt_succ _))

/-- A grant to one that stands ahead of r brings r nearer. -/
theorem ahead_lt_of_granted (h : ahead l x < ahead l r) : ahead x r < ahead l r := by
  have hl := l.place_le
  have hx := x.place_le
  have hr := r.place_le
  simp only [ahead_eq] at h ⊢
  omega

/-- The first of a list with a property stands before every other with it. -/
theorem findIdx_lt_of_find? {f : Requestor → Bool} {order : List Requestor} (hx : order.find? f = some x)
    (hr : f r = true) (hne : x ≠ r) :
    order.findIdx (fun y => decide (y = x)) < order.findIdx (fun y => decide (y = r)) := by
  induction order with
  | nil => cases hx
  | cons y order ih =>
    rw [List.find?_cons] at hx
    rw [List.findIdx_cons, List.findIdx_cons]
    cases hy : f y with
    | true =>
      obtain rfl : y = x := by simpa [hy] using hx
      simp [hne]
    | false =>
      rw [hy] at hx
      have hyx : y ≠ x := fun hyx => by
        have hfx := List.find?_some hx
        rw [← hyx, hy] at hfx
        cases hfx
      have hyr : y ≠ r := fun hyr => by rw [hyr, hr] at hy; cases hy
      simpa [hyx, hyr] using ih hx

/-- In READY, with no cycle in progress and one pending for r, the grant goes to a requestor with a cycle: to r, or to one
that stands ahead of it (R29). -/
theorem State.grant_goes (hd : s.device = .ready) (hp : s.inProgress = none) (hr : s.hasCycle r = true) :
    ∃ x, s.grant = { s with inProgress := some x, lastGranted := x } ∧ s.hasCycle x = true ∧
      (x ≠ r → ahead s.lastGranted x < ahead s.lastGranted r) := by
  cases hfind : (grantOrder s.lastGranted).find? s.hasCycle with
  | none => exact absurd hr (List.find?_eq_none.1 hfind r (mem_grantOrder _ r))
  | some x =>
    refine ⟨x, ?_, List.find?_some hfind, findIdx_lt_of_find? hfind hr⟩
    rw [State.grant, if_pos ⟨hd, hp⟩, hfind]

/-- With no cycle pending nothing is granted. -/
theorem State.grant_of_no_cycle (h : ∀ r, s.hasCycle r = false) : s.grant = s := by
  have hfind : (grantOrder s.lastGranted).find? s.hasCycle = none :=
    List.find?_eq_none.2 fun x _ => by simp [h]
  unfold State.grant
  rw [hfind]
  exact ite_self s

/-- The bound of R30 at a grant: r is granted, or one ahead of it is and r comes nearer. -/
theorem State.grant_serves_or_nears (hd : s.device = .ready) (hp : s.inProgress = none) (hr : s.hasCycle r = true) :
    s.grant.inProgress = some r ∨ ∃ x, s.grant.inProgress = some x ∧ s.grant.lastGranted = x
      ∧ x ≠ r ∧ ahead s.lastGranted x < ahead s.lastGranted r ∧ ahead x r < ahead s.lastGranted r := by
  obtain ⟨x, hgrant, -, hahead⟩ := State.grant_goes hd hp hr
  rw [hgrant]
  by_cases hx : x = r
  · exact .inl (congrArg some hx)
  · exact .inr ⟨x, rfl, rfl, hx, hahead hx, ahead_lt_of_granted (hahead hx)⟩

/-- The same bound at the arbiter's turn, for a cycle that it does not withdraw. -/
theorem State.arbitrate_serves_or_nears (hd : s.device = .ready) (hp : s.inProgress = none)
    (hr : s.arbitrate.hasCycle r = true) :
    s.arbitrate.inProgress = some r ∨ ∃ x, s.arbitrate.inProgress = some x ∧ s.arbitrate.lastGranted = x
      ∧ x ≠ r ∧ ahead s.lastGranted x < ahead s.lastGranted r ∧ ahead x r < ahead s.lastGranted r := by
  rw [State.arbitrate, State.hasCycle_congr (State.grant_execs _) (State.grant_sweepVisit _)] at hr
  have hturn := State.grant_serves_or_nears (by rw [State.takeWithdrawals_device, hd])
    (by rw [State.takeWithdrawals_inProgress, hp]) hr
  rwa [State.takeWithdrawals_lastGranted] at hturn

/-- A port's pending cycle is to be withdrawn where its request is abandoned and its cycle not granted, but in CLEARING. -/
theorem State.withdrawing_iff (s : State) (p : Port) : s.withdrawing p = true ↔ (s.executor p).abandoned = true
    ∧ s.hasCycle (.executor p) = true ∧ s.inProgress ≠ some (.executor p) ∧ s.device ≠ .clearing := by
  simp only [State.withdrawing, State.hasCycle, Bool.and_eq_true, decide_eq_true_eq, and_assoc]

end Sys2Proof.Machine

open Sys2Proof Sys2Proof.Machine

/-- Settles O44: a grant goes to the first in the rotation; were it another than r, that one would have no cycle. -/
theorem grantFollowsTheRotation : Obligations.GrantFollowsTheRotation := by
  intro s
  refine ⟨s.grant_of_busy, State.grant_of_no_cycle, fun r hd hp hr hfirst => ?_, fun h => ?_⟩
  · obtain ⟨x, hgrant, hx, hahead⟩ := State.grant_goes hd hp hr
    obtain rfl : x = r := by
      by_contra hne
      rw [hfirst x (hahead hne)] at hx
      cases hx
    exact hgrant
  · refine s.arbitrate_of_none fun p => Bool.eq_false_iff.2 fun hw => ?_
    obtain ⟨hab, hcycle, hprog, hdev⟩ := (s.withdrawing_iff p).1 hw
    rcases h p with h | h | h | h
    · rw [hab] at h; cases h
    · rw [hcycle] at h; cases h
    · exact hprog h
    · exact hdev h
end

