-- ==== Sys2Proof/Proofs/Withdrawals.lean ====
section
/-! SUPPORT. The withdrawals that the Store Arbiter takes ahead of a grant, all at once (R27, R51, R131). -/

namespace Sys2Proof.Machine

variable {s : State} {n p head : Port} {rest : List Port} {stopped taken : Port → Bool}

/-! ## Requests withdrawn together -/

/-- The executors of the ports named go IDLE. -/
def State.stopAll (s : State) (stopped : Port → Bool) : State :=
  { s with execs := s.execs.mapPorts (fun p e => if stopped p then .idle else e) }

/-- One of the requests stopped is a LINK. -/
def State.stopsLink (s : State) (stopped : Port → Bool) : Bool :=
  Port.all.any (fun p => stopped p && (s.executor p).onLink)

/-- The requests of the ports named stop together: the token of a LINK among them passes on (R51, R131). -/
def State.withdrawn (s : State) (stopped : Port → Bool) : State :=
  if s.stopsLink stopped then (s.stopAll stopped).passToken else s.stopAll stopped

theorem State.stopAll_executor (s : State) (stopped : Port → Bool) (p : Port) :
    (s.stopAll stopped).executor p = if stopped p then .idle else s.executor p := PerPort.get_mapPorts _ s.execs p

theorem State.stopAll_executor_of_not (h : stopped p = false) : (s.stopAll stopped).executor p = s.executor p := by
  rw [State.stopAll_executor, h]; rfl

/-- One more executor goes IDLE. -/
theorem State.stopAll_setExecutor (s : State) (stopped : Port → Bool) (n : Port) :
    (s.stopAll stopped).setExecutor n .idle = s.stopAll (fun p => stopped p || decide (p = n)) := by
  have hexecs : (s.stopAll stopped).execs.set n .idle = (s.stopAll (fun p => stopped p || decide (p = n))).execs := by
    refine PerPort.eq_of_get fun p => ?_
    rw [PerPort.get_set]
    show _ = (s.stopAll (fun p => stopped p || decide (p = n))).executor p
    rw [State.stopAll_executor]
    by_cases hp : p = n
    · simp [hp]
    · simp only [hp, if_false, decide_false, Bool.or_false]
      exact State.stopAll_executor s stopped p
  rw [State.setExecutor, hexecs]
  rfl

theorem State.stopsLink_iff : s.stopsLink stopped = true ↔ ∃ p, stopped p = true ∧ (s.executor p).onLink = true := by
  simp only [State.stopsLink, List.any_eq_true, Bool.and_eq_true, Port.mem_all, true_and]

theorem State.withdrawn_of_no_link (h : s.stopsLink stopped = false) : s.withdrawn stopped = s.stopAll stopped := by
  rw [State.withdrawn, h]; rfl

theorem State.withdrawn_of_link (h : s.stopsLink stopped = true) : s.withdrawn stopped = (s.stopAll stopped).passToken :=
  if_pos h

/-- Withdrawing nothing changes nothing. -/
theorem State.withdrawn_none (s : State) (h : ∀ p, stopped p = false) : s.withdrawn stopped = s := by
  have hlink : s.stopsLink stopped = false := Bool.eq_false_iff.2 fun hl => by
    obtain ⟨p, hp, -⟩ := State.stopsLink_iff.1 hl
    rw [h] at hp
    cases hp
  rw [State.withdrawn_of_no_link hlink, State.stopAll]
  have hexecs : s.execs.mapPorts (fun p e => if stopped p then .idle else e) = s.execs :=
    PerPort.eq_of_get fun p => by rw [PerPort.get_mapPorts, h]; rfl
  rw [hexecs]

theorem State.withdrawn_frame (s : State) (stopped : Port → Bool) : s.withdrawn stopped = { s with
    execs := (s.withdrawn stopped).execs, serial := (s.withdrawn stopped).serial } := by
  rw [State.ext_iff]
  unfold State.withdrawn
  split <;> simp [State.stopAll]

/-! ## The token passes among executors -/

/-- An empty queue frees the token. -/
theorem State.passToken_of_nil (h : s.serial.queue = []) :
    s.passToken = { s with serial := { token := .free, queue := [] } } := by
  unfold State.passToken
  rw [h]

/-- The head waiter becomes the holder. -/
theorem State.passToken_of_cons (h : s.serial.queue = head :: rest) : s.passToken =
    State.setExecutor { s with serial := { token := .held head, queue := rest } } head (s.executor head).resume := by
  unfold State.passToken
  rw [h]

theorem State.passToken_executor (h : s.serial.queue = head :: rest) (q : Port) :
    s.passToken.executor q = if q = head then (s.executor head).resume else s.executor q := by
  rw [State.passToken_of_cons h, State.executor_setExecutor]
  rfl

theorem PerPort.set_comm {α : Type} (f : PerPort α) {n m : Port} (h : n ≠ m) (a b : α) :
    (f.set n a).set m b = (f.set m b).set n a := by
  refine PerPort.eq_of_get fun p => ?_
  simp only [PerPort.get_set]
  split
  · next hp => rw [if_neg (hp ▸ h.symm)]
  · rfl

/-- Another executor than the head waiter's may stop ahead of the passing of the token, or behind it. -/
theorem State.passToken_setExecutor (h : ∀ rest, s.serial.queue ≠ n :: rest) :
    s.passToken.setExecutor n .idle = (s.setExecutor n .idle).passToken := by
  cases hq : s.serial.queue with
  | nil => rw [State.passToken_of_nil hq, State.passToken_of_nil (s := s.setExecutor n .idle) hq]; rfl
  | cons head rest =>
    have hne : head ≠ n := fun hh => h rest (by rw [hq, hh])
    rw [State.passToken_of_cons hq, State.passToken_of_cons (s := s.setExecutor n .idle) hq,
      State.executor_setExecutor_of_ne s _ hne]
    simp only [State.setExecutor]
    rw [PerPort.set_comm _ hne]

/-! ## One withdrawal after another -/

/-- A port whose pending cycle is to be withdrawn has a request that runs. -/
theorem State.running_of_withdrawing (h : s.withdrawing p = true) : ∃ w, (s.executor p).state = .running w := by
  obtain ⟨-, hcycle, -, -⟩ := (s.withdrawing_iff p).1 h
  obtain ⟨w, hw, -⟩ := Executor.hasCycle_iff.1 hcycle
  exact ⟨w, hw⟩

/-- No waiter has a cycle to withdraw. -/
theorem State.TokenLaw.head_not_withdrawing (h : s.TokenLaw) (hq : s.serial.queue = head :: rest) :
    s.withdrawing head = false := by
  refine State.withdrawing_of_no_cycle s ?_
  have hwait : (s.executor head).state = .tokenWait := (h.waitersWait head).1 (by rw [hq]; exact List.mem_cons_self)
  simp [Executor.hasCycle, hwait]

/-- At most one of the cycles to be withdrawn is a LINK's (R49, R51). -/
theorem State.withdrawing_link_unique (hx : s.ExecutorLaw) (ht : s.TokenLaw) {p q : Port} (hp : s.withdrawing p = true)
    (hq : s.withdrawing q = true) (hlp : (s.executor p).onLink = true) (hlq : (s.executor q).onLink = true) : p = q := by
  have hlinking : ∀ {x : Port}, s.withdrawing x = true → (s.executor x).onLink = true →
      (s.executor x).linking = true := fun {x} hw hl => by
    obtain ⟨w, hrun⟩ := State.running_of_withdrawing hw
    rw [← (hx.shaped x).onLink_eq_linking hrun, hl]
  exact ht.onlyLinker (hlinking hp hlp) (hlinking hq hlq)

theorem Executor.resume_abandoned (e : Executor) : e.resume.abandoned = e.abandoned := by
  unfold Executor.resume
  split <;> rfl

/-- A withdrawal takes no part in whether another port's cycle is to be withdrawn. -/
theorem State.withdrawn_withdrawing (hx : s.ExecutorLaw) (ht : s.TokenLaw) (hn : stopped n = false) :
    (s.withdrawn stopped).withdrawing n = s.withdrawing n := by
  have hsame : ∀ u : State, u.executor n = s.executor n → u.inProgress = s.inProgress → u.device = s.device →
      u.withdrawing n = s.withdrawing n := fun u he hp hd => by rw [State.withdrawing, he, hp, hd]; rfl
  cases hlink : s.stopsLink stopped with
  | false =>
    rw [State.withdrawn_of_no_link hlink]
    exact hsame _ (State.stopAll_executor_of_not hn) rfl rfl
  | true =>
    rw [State.withdrawn_of_link hlink]
    cases hq : s.serial.queue with
    | nil =>
      rw [State.passToken_of_nil (s := s.stopAll stopped) hq]
      exact hsame _ (State.stopAll_executor_of_not hn) rfl rfl
    | cons head rest =>
      have hexec := State.passToken_executor (s := s.stopAll stopped) hq n
      by_cases hnh : n = head
      · have hwait : (s.executor head).state = .tokenWait :=
          (ht.waitersWait head).1 (by rw [hq]; exact List.mem_cons_self)
        rw [hnh] at hn hexec ⊢
        rw [ht.head_not_withdrawing hq]
        refine State.withdrawing_of_not_abandoned _ ?_
        rw [hexec, if_pos rfl, State.stopAll_executor_of_not hn, Executor.resume_abandoned]
        exact ((hx.shaped head).waiting hwait).2
      · rw [if_neg hnh, State.stopAll_executor_of_not hn] at hexec
        exact hsame _ hexec (State.passToken_inProgress _) (State.passToken_device _)

/-- One more withdrawal after those of the ports named. -/
theorem State.endRequest_withdrawn (hx : s.ExecutorLaw) (ht : s.TokenLaw)
    (honly : ∀ p, stopped p = true → s.withdrawing p = true) (hn : stopped n = false) (hw : s.withdrawing n = true) :
    (s.withdrawn stopped).endRequest n = s.withdrawn (fun p => stopped p || decide (p = n)) := by
  have hhead : ∀ rest, s.serial.queue ≠ n :: rest := fun rest hq => by
    rw [ht.head_not_withdrawing hq] at hw
    cases hw
  have hexec : (s.stopAll stopped).executor n = s.executor n := State.stopAll_executor_of_not hn
  cases hlink : (s.executor n).onLink with
  | true =>
    have hbefore : s.stopsLink stopped = false := Bool.eq_false_iff.2 fun hl => by
      obtain ⟨p, hp, hlp⟩ := State.stopsLink_iff.1 hl
      rw [State.withdrawing_link_unique hx ht (honly p hp) hw hlp hlink, hn] at hp
      cases hp
    have hafter : s.stopsLink (fun p => stopped p || decide (p = n)) = true :=
      State.stopsLink_iff.2 ⟨n, by simp, hlink⟩
    rw [State.withdrawn_of_no_link hbefore, State.withdrawn_of_link hafter, State.endRequest, hexec, if_pos hlink,
      State.stopAll_setExecutor]
  | false =>
    have hafter : s.stopsLink (fun p => stopped p || decide (p = n)) = s.stopsLink stopped := by
      rw [Bool.eq_iff_iff, State.stopsLink_iff, State.stopsLink_iff]
      refine exists_congr fun p => ?_
      by_cases hp : p = n
      · simp [hp, hlink]
      · simp [hp]
    cases hbefore : s.stopsLink stopped with
    | false =>
      rw [hbefore] at hafter
      rw [State.withdrawn_of_no_link hbefore, State.withdrawn_of_no_link hafter,
        State.endRequest_of_not_link _ n (by rw [hexec, hlink]), State.stopAll_setExecutor]
    | true =>
      rw [hbefore] at hafter
      have hkept : ((s.stopAll stopped).passToken).executor n = s.executor n := by
        cases hq : s.serial.queue with
        | nil => rw [State.passToken_of_nil (s := s.stopAll stopped) hq]; exact hexec
        | cons head rest =>
          rw [State.passToken_executor (s := s.stopAll stopped) hq, if_neg, hexec]
          exact fun hnh => hhead rest (by rw [hq, hnh])
      rw [State.withdrawn_of_link hbefore, State.withdrawn_of_link hafter,
        State.endRequest_of_not_link _ n (by rw [hkept, hlink]),
        State.passToken_setExecutor (s := s.stopAll stopped) hhead, State.stopAll_setExecutor]

theorem State.withdraw_withdrawn (hx : s.ExecutorLaw) (ht : s.TokenLaw)
    (honly : ∀ p, stopped p = true → s.withdrawing p = true) (hn : stopped n = false) :
    (s.withdrawn stopped).withdraw taken n =
      s.withdrawn (fun p => stopped p || (decide (p = n) && (s.withdrawing p && taken p))) := by
  rw [State.withdraw, State.withdrawn_withdrawing hx ht hn]
  split
  · next hw =>
    have hwith : s.withdrawing n = true := (Bool.and_eq_true _ _ ▸ hw).1
    rw [State.endRequest_withdrawn hx ht honly hn hwith]
    congr 1
    funext p
    by_cases hp : p = n
    · simp [hp, hw]
    · simp [hp]
  · next hw =>
    congr 1
    funext p
    by_cases hp : p = n
    · simp [hp, hw]
    · simp [hp]

/-- The withdrawals taken one after another, of the ports of a list, are those requests withdrawn together. -/
theorem State.withdraw_foldl (hx : s.ExecutorLaw) (ht : s.TokenLaw) (ps : List Port) : ∀ stopped : Port → Bool,
    (∀ p, stopped p = true → s.withdrawing p = true) → ps.Nodup → (∀ p ∈ ps, stopped p = false) →
    ps.foldl (State.withdraw taken) (s.withdrawn stopped) =
      s.withdrawn (fun p => stopped p || (decide (p ∈ ps) && (s.withdrawing p && taken p))) := by
  induction ps with
  | nil => intro stopped _ _ _; simp
  | cons n ps ih =>
    intro stopped honly honce hnone
    obtain ⟨hnps, honce⟩ := List.nodup_cons.1 honce
    rw [List.foldl_cons, State.withdraw_withdrawn hx ht honly (hnone n List.mem_cons_self), ih _ _ honce]
    · congr 1
      funext p
      by_cases hp : p = n <;> simp [hp, hnps]
    · intro p hp
      have hne : p ≠ n := fun h => hnps (h ▸ hp)
      simp [hnone p (List.mem_cons_of_mem _ hp), hne]
    · intro p hp
      simp only [Bool.or_eq_true, Bool.and_eq_true, decide_eq_true_eq] at hp
      exact hp.elim (honly p) fun h => h.2.1

theorem Port.all_nodup : Port.all.Nodup := by decide

/-- The requests that the arbiter's turn withdraws. -/
def State.turnStops (s : State) (p : Port) : Bool := s.withdrawing p && Config.withdrawalTaken s.freeIndex p

/-- The arbiter's withdrawals, taken port by port, are one withdrawal of all it takes (log 17). -/
theorem State.takeWithdrawals_withdrawn (hx : s.ExecutorLaw) (ht : s.TokenLaw) :
    ∃ i, s.takeWithdrawals = { s.withdrawn s.turnStops with freeIndex := i } := by
  unfold State.takeWithdrawals
  split
  · have hfold := State.withdraw_foldl hx ht (taken := Config.withdrawalTaken s.freeIndex) Port.all (fun _ => false)
      (fun _ h => nomatch h) Port.all_nodup (fun _ _ => rfl)
    rw [State.withdrawn_none s fun _ => rfl] at hfold
    simp only [Port.mem_all, decide_true, Bool.true_and, Bool.false_or] at hfold
    exact ⟨s.freeIndex + 1, congrArg (fun u : State => { u with freeIndex := s.freeIndex + 1 }) hfold⟩
  · next hany =>
    have hnone : ∀ p, s.turnStops p = false := fun p => by
      rw [State.turnStops, Bool.eq_false_iff.2 fun hw => hany (List.any_eq_true.2 ⟨p, Port.mem_all p, hw⟩), Bool.false_and]
    exact ⟨s.freeIndex, by rw [State.withdrawn_none s hnone]⟩

/-- What requests withdrawn together leave is what the withdrawals are to leave (R27, R51, R131). -/
theorem State.withdrew_withdrawn (ht : s.TokenLaw) (honly : ∀ p, stopped p = true → s.withdrawing p = true) (i : Nat) :
    Withdrew s stopped { s.withdrawn stopped with freeIndex := i } := by
  have hlinked : ∀ p, stopped p = true → (s.executor p).onLink = true →
      s.withdrawn stopped = (s.stopAll stopped).passToken := fun p hp hl =>
    State.withdrawn_of_link (State.stopsLink_iff.2 ⟨p, hp, hl⟩)
  refine ⟨honly, ?rest, fun hno => ?noLink, fun p hp hl hq => ?lastLink, ?nextLink⟩
  case rest => rw [State.withdrawn_frame]
  case noLink =>
    have hlink : s.stopsLink stopped = false := Bool.eq_false_iff.2 fun hl => by
      obtain ⟨p, hp, hlp⟩ := State.stopsLink_iff.1 hl
      rw [hno p hp] at hlp
      cases hlp
    rw [State.withdrawn_of_no_link hlink]
    exact ⟨rfl, s.stopAll_executor stopped⟩
  case lastLink =>
    rw [hlinked p hp hl, State.passToken_of_nil (s := s.stopAll stopped) hq]
    exact ⟨rfl, s.stopAll_executor stopped⟩
  case nextLink =>
    intro p head rest tag named target hp hl hq hcur
    have hhead : stopped head = false := Bool.eq_false_iff.2 fun hs => by
      have hwith := honly head hs
      rw [ht.head_not_withdrawing hq] at hwith
      cases hwith
    have hresume : (s.executor head).resume =
        { s.executor head with state := .running .checkWalk, walkPos := target, hops := 0 } := by
      simp only [Executor.resume, hcur]
    rw [hlinked p hp hl]
    refine ⟨by rw [State.passToken_of_cons (s := s.stopAll stopped) hq]; rfl, fun q => ?_⟩
    show (s.stopAll stopped).passToken.executor q = _
    rw [State.passToken_executor (s := s.stopAll stopped) hq, State.stopAll_executor_of_not hhead, hresume,
      State.stopAll_executor]

end Sys2Proof.Machine

open Sys2Proof Sys2Proof.Machine

/-- Settles O59: the arbiter's turn grants from the part with the withdrawals it takes made together. -/
theorem withdrawalsComeInEitherOrder : Obligations.WithdrawalsComeInEitherOrder := by
  intro s hx ht
  obtain ⟨i, hturn⟩ := State.takeWithdrawals_withdrawn hx ht
  refine ⟨s.withdrawing_iff, s.turnStops, _,
    State.withdrew_withdrawn ht (fun p hp => (Bool.and_eq_true _ _ ▸ hp).1) i, ?_⟩
  rw [State.arbitrate, hturn]
end

