-- ==== Sys2Proof/Proofs/CycleEnds.lean ====
section
/-! SUPPORT. The commands that complete a cycle: one that is due frees the Directory Store and ends with the arbiter's turn
(R25, R29). -/

namespace Sys2Proof.Machine

variable {s t u : State} {n : Port} {k : Slot} {rq : Request} {w : Work} {c : Instr} {tag : Tag}

/-! ## How a cycle ends -/

/-- A cycle is complete in t: no cycle is in progress, nothing has been granted since, and a due entry to CLEARING and the
arbiter's turn come last (R25, R29, R36). -/
def State.EndsCycle (s t : State) : Prop :=
  ∃ x : State, t = x.afterCompletion ∧ x.inProgress = none ∧ x.lastGranted = s.lastGranted ∧ x.device = s.device

/-- The outcome is the completion of a cycle. -/
def State.EndsBy (s : State) (o : Host.Outcome State Fault Refusal) : Prop := ∃ t, o = .next t ∧ s.EndsCycle t

theorem State.endsBy_next (h : s.EndsCycle t) : s.EndsBy (.next t) := ⟨t, rfl, h⟩

@[simp] theorem State.postEntryEvent_lastGranted (s : State) (watchers : PerPort Bool) (kind : EventKind) (k : Slot)
    (v : Version) (value : Option Value) (cause : Cause) :
    (s.postEntryEvent watchers kind k v value cause).lastGranted = s.lastGranted := rfl

@[simp] theorem State.postEntryEvent_device (s : State) (watchers : PerPort Bool) (kind : EventKind) (k : Slot)
    (v : Version) (value : Option Value) (cause : Cause) :
    (s.postEntryEvent watchers kind k v value cause).device = s.device := rfl

/-- A completion that wrote nothing of the arbiter's. -/
theorem State.endsCycle_complete (o : CycleEnd) (hl : u.lastGranted = s.lastGranted := by simp)
    (hd : u.device = s.device := by simp) : s.EndsCycle (u.complete n o) := by
  refine ⟨_, rfl, ?_⟩
  split
  · exact ⟨State.endRequest_inProgress _ n, by rw [State.endRequest_lastGranted]; exact hl,
      by rw [State.endRequest_device]; exact hd⟩
  · cases o with
    | goOn w k hops => exact ⟨rfl, hl, hd⟩
    | finish r =>
      exact ⟨State.endRequest_inProgress _ n, by rw [State.endRequest_lastGranted]; exact hl,
        by rw [State.endRequest_device]; exact hd⟩
    | endSilent =>
      exact ⟨State.endRequest_inProgress _ n, by rw [State.endRequest_lastGranted]; exact hl,
        by rw [State.endRequest_device]; exact hd⟩

theorem State.endsCycle_refuse (st : Status) : s.EndsCycle (s.refuse n rq st) := State.endsCycle_complete _ rfl rfl

theorem State.endsCycle_ifAllocated (h : s.EndsCycle t) : s.EndsCycle (s.ifAllocated n rq k t) := by
  unfold State.ifAllocated
  split
  · exact h
  · exact State.endsCycle_refuse _

/-! ## Walks -/

theorem execWalkHop_ends (hc : s.cycleOf n .walk = some rq) (hhop : s.allocated (s.executor n).walkPos = false ∨
    ∃ t, (s.entry (s.executor n).walkPos).content = .forward t) : s.EndsBy (execWalkHop n s) := by
  refine State.endsBy_next ?_
  simp only [hc]
  split
  · exact State.endsCycle_complete _
  · next ha =>
    obtain ⟨t, ht⟩ := hhop.resolve_left ha
    rw [ht]
    dsimp only
    split
    · exact State.endsCycle_complete _
    · exact State.endsCycle_complete _

theorem execReadTerminal_ends (hc : s.atTerminal n = some ⟨tag, .read k⟩) : s.EndsBy (execReadTerminal n s) := by
  refine State.endsBy_next ?_
  simp only [hc]
  exact State.endsCycle_complete _

theorem execPutTerminal_ends {mode : Byte} {expected : Version} {v : Value}
    (hc : s.atTerminal n = some ⟨tag, .put k mode expected v⟩)
    (hok : RequestOp.operandsOk (.put k mode expected v) = true) : s.EndsBy (execPutTerminal n s) := by
  refine State.endsBy_next ?_
  simp only [hc]
  split
  · exact State.endsCycle_complete _
  · next hmode =>
    rw [RequestOp.operandsOk, hmode, Bool.and_comm] at hok
    cases hok
  · split
    · exact State.endsCycle_complete _
    · split
      · unfold State.putHandoff
        exact State.endsCycle_complete _ rfl rfl
      · unfold State.putStore
        exact State.endsCycle_complete _

theorem execTakeTerminal_ends {wait : Nat} (hc : s.atTerminal n = some ⟨tag, .take k wait⟩) :
    s.EndsBy (execTakeTerminal n s) := by
  have hempty : s.EndsCycle (if wait = 0 then
      s.complete n (.finish { walkReply ⟨tag, .take k wait⟩ (s.executor n) .empty with
        content := some .empty, version := some (s.entry (s.executor n).walkPos).version })
      else s.takeWait n ⟨tag, .take k wait⟩ k wait) := by
    split
    · exact State.endsCycle_complete _
    · unfold State.takeWait
      dsimp only
      split
      · exact State.endsCycle_complete _
      · split
        · exact State.endsCycle_complete _ rfl rfl
        · exact State.endsCycle_complete _
  refine State.endsBy_next ?_
  simp only [hc]
  split
  · exact State.endsCycle_complete _
  · split
    · unfold State.takeValue
      exact State.endsCycle_complete _
    · exact hempty
    · exact hempty

/-! ## LINK -/

theorem execCheckWalkCycle_ends {target : Slot} (hc : s.cycleOf n .checkWalk = some ⟨tag, .link k target⟩) :
    s.EndsBy (execCheckWalkCycle n s) := by
  refine State.endsBy_next ?_
  simp only [hc]
  split
  · exact State.endsCycle_complete _
  · split
    · exact State.endsCycle_complete _
    · split
      · split
        · exact State.endsCycle_complete _
        · exact State.endsCycle_complete _
      · exact State.endsCycle_complete _
      · exact State.endsCycle_complete _

theorem execCommitCycle_ends {target : Slot} (hc : s.cycleOf n .commit = some ⟨tag, .link k target⟩) :
    s.EndsBy (execCommitCycle n s) := by
  refine State.endsBy_next ?_
  simp only [hc]
  split
  · exact State.endsCycle_complete _
  · split
    · exact State.endsCycle_complete _
    · split
      · exact State.endsCycle_complete _
      · split
        · exact State.endsCycle_complete _
        · unfold State.commitLink
          refine State.endsCycle_complete _ ?_ ?_
          · rw [State.postEntryEvent_lastGranted]
            show (State.dropForward _ _).lastGranted = _
            rw [State.dropForward_lastGranted, State.setEntry_lastGranted]
          · rw [State.postEntryEvent_device]
            show (State.dropForward _ _).device = _
            rw [State.dropForward_device, State.setEntry_device]

/-! ## Single cycles -/

theorem execClearCycle_ends (hc : s.cycleOf n .single = some ⟨tag, .clear k⟩) : s.EndsBy (execClearCycle n s) := by
  refine State.endsBy_next ?_
  simp only [hc]
  refine State.endsCycle_ifAllocated ?_
  split
  · exact State.endsCycle_refuse _
  · unfold State.clearEntry
    dsimp only
    split
    · exact State.endsCycle_complete _
    · exact State.endsCycle_complete _

theorem execCheckpointCycle_ends (hc : s.cycleOf n .single = some ⟨tag, .checkpoint k⟩) :
    s.EndsBy (execCheckpointCycle n s) := by
  refine State.endsBy_next ?_
  simp only [hc]
  refine State.endsCycle_ifAllocated ?_
  split
  · exact State.endsCycle_refuse _
  · unfold State.checkpointEntry
    dsimp only
    split
    · exact State.endsCycle_complete _
    · exact State.endsCycle_complete _
    · exact State.endsCycle_complete _

theorem execWatchCycle_ends (hc : s.cycleOf n .single = some ⟨tag, .watch k⟩) : s.EndsBy (execWatchCycle n s) := by
  refine State.endsBy_next ?_
  simp only [hc]
  refine State.endsCycle_ifAllocated ?_
  split
  · exact State.endsCycle_complete _
  · exact State.endsCycle_complete _

theorem execUnwatchCycle_ends (hc : s.cycleOf n .single = some ⟨tag, .unwatch k⟩) : s.EndsBy (execUnwatchCycle n s) := by
  refine State.endsBy_next ?_
  simp only [hc]
  refine State.endsCycle_ifAllocated ?_
  split
  · exact State.endsCycle_complete _
  · exact State.endsCycle_complete _

theorem execAllocCycle_ends {d pf tf : Byte} (hc : s.cycleOf n .single = some ⟨tag, .alloc d pf tf⟩)
    (hok : RequestOp.operandsOk (.alloc d pf tf) = true) : s.EndsBy (execAllocCycle n s) := by
  obtain ⟨a, ha⟩ := Option.isSome_iff_exists.1 hok
  refine State.endsBy_next ?_
  simp only [hc, ha]
  split
  · unfold State.allocHead
    exact State.endsCycle_complete _ rfl rfl
  · exact State.endsCycle_refuse _
  · next h => cases h

theorem execRetireCycle_ends (hc : s.cycleOf n .single = some ⟨tag, .retire k⟩) : s.EndsBy (execRetireCycle n s) := by
  refine State.endsBy_next ?_
  simp only [hc]
  split
  · exact State.endsCycle_refuse _
  · refine State.endsCycle_ifAllocated ?_
    split
    · exact State.endsCycle_refuse _
    · split
      · exact State.endsCycle_complete _
      · split
        · exact State.endsCycle_complete _
        · split
          · exact State.endsCycle_complete _
          · unfold State.retireEntry
            dsimp only
            refine State.endsCycle_complete _ ?_ ?_
            · rw [State.postEntryEvent_lastGranted]
              show State.lastGranted (if _ then _ else _) = _
              split <;> rfl
            · rw [State.postEntryEvent_device]
              show State.device (if _ then _ else _) = _
              split <;> rfl

/-- The terms of a CLAIM, ADOPT or SET_ACCESS whose operands were examined (R161, R165). -/
theorem access_of_operandsOk {d pf tf : Byte} (hok : (slotOk k && (accessOfCodes d pf tf).isSome) = true) :
    ∃ a, accessOfCodes d pf tf = some a :=
  Option.isSome_iff_exists.1 (Bool.and_eq_true _ _ ▸ hok).2

theorem execClaimCycle_ends {d pf tf : Byte} (hc : s.cycleOf n .single = some ⟨tag, .claim k d pf tf⟩)
    (hok : RequestOp.operandsOk (.claim k d pf tf) = true) : s.EndsBy (execClaimCycle n s) := by
  obtain ⟨a, ha⟩ := access_of_operandsOk hok
  refine State.endsBy_next ?_
  simp only [hc, ha]
  refine State.endsCycle_ifAllocated ?_
  split
  · exact State.endsCycle_complete _
  · exact State.endsCycle_complete _ rfl rfl
  · next h => cases h

theorem execReleaseCycle_ends (hc : s.cycleOf n .single = some ⟨tag, .release k⟩) : s.EndsBy (execReleaseCycle n s) := by
  refine State.endsBy_next ?_
  simp only [hc]
  refine State.endsCycle_ifAllocated ?_
  split
  · exact State.endsCycle_refuse _
  · exact State.endsCycle_complete _

theorem execAdoptCycle_ends {d pf tf : Byte} (hc : s.cycleOf n .single = some ⟨tag, .adopt k d pf tf⟩)
    (hok : RequestOp.operandsOk (.adopt k d pf tf) = true) : s.EndsBy (execAdoptCycle n s) := by
  obtain ⟨a, ha⟩ := access_of_operandsOk hok
  refine State.endsBy_next ?_
  simp only [hc, ha]
  refine State.endsCycle_ifAllocated ?_
  split
  · exact State.endsCycle_complete _
  · exact State.endsCycle_complete _ rfl rfl
  · next h => cases h

theorem execSetAccessCycle_ends {d pf tf : Byte} (hc : s.cycleOf n .single = some ⟨tag, .setAccess k d pf tf⟩)
    (hok : RequestOp.operandsOk (.setAccess k d pf tf) = true) : s.EndsBy (execSetAccessCycle n s) := by
  obtain ⟨a, ha⟩ := access_of_operandsOk hok
  refine State.endsBy_next ?_
  simp only [hc, ha]
  refine State.endsCycle_ifAllocated ?_
  split
  · exact State.endsCycle_refuse _
  · exact State.endsCycle_complete _
  · next h => cases h

theorem execInspectCycle_ends (hc : s.cycleOf n .single = some ⟨tag, .inspect k⟩) : s.EndsBy (execInspectCycle n s) := by
  refine State.endsBy_next ?_
  simp only [hc]
  exact State.endsCycle_ifAllocated (State.endsCycle_complete _)

theorem execBreakWaitCycle_ends (hc : s.cycleOf n .single = some ⟨tag, .breakWait k⟩) :
    s.EndsBy (execBreakWaitCycle n s) := by
  refine State.endsBy_next ?_
  simp only [hc]
  exact State.endsCycle_ifAllocated (State.endsCycle_complete _ rfl rfl)

/-! ## The Sweeper's visit -/

/-- The end of a pass touches the ports and the Sweeper alone (R137). -/
theorem State.endPass_frame (s : State) : ∃ ports sweeps pos visit, s.endPass =
    { s with ports := ports, sweeps := sweeps, sweepPos := pos, sweepVisit := visit } := by
  unfold State.endPass
  split
  · exact ⟨s.ports, s.sweeps, s.sweepPos, s.sweepVisit, rfl⟩
  · rw [State.closeRecord_frame]
    exact ⟨_, _, _, _, rfl⟩

/-- What follows a visit completes its cycle, whichever test the Sweeper makes (R135, R137). -/
theorem State.endsCycle_afterVisit (s : State) (k : Slot) : s.EndsCycle (s.afterVisit k) := by
  have hnext : ∃ ports sweeps pos visit,
      (if k + 1 < Config.slots then (s.visitDone k).sweepTest else (s.visitDone k).endPass) =
        { s.visitDone k with ports := ports, sweeps := sweeps, sweepPos := pos, sweepVisit := visit } := by
    split
    · exact ⟨_, _, _, _, State.sweepTest_frame _⟩
    · exact State.endPass_frame _
  obtain ⟨ports, sweeps, pos, visit, hnext⟩ := hnext
  have hafter : s.afterVisit k = if s.clearDue ∧ Config.sweeperTestsFirst s.freeIndex = false then
      (s.visitDone k).afterCompletion
    else (let t := if k + 1 < Config.slots then (s.visitDone k).sweepTest else (s.visitDone k).endPass
      (if s.clearDue then { t with freeIndex := t.freeIndex + 1 } else t).afterCompletion) := rfl
  rw [hafter, hnext]
  split
  · exact ⟨_, rfl, rfl, rfl, rfl⟩
  · refine ⟨_, rfl, ?_⟩
    dsimp only
    split <;> exact ⟨rfl, rfl, rfl⟩
end Sys2Proof.Machine
end

