-- ==== Sys2Proof/Proofs/DueCycles.lean ====
section
/-! SUPPORT. The command of the cycle in progress completes it, and any other cycle command leaves the state as it is
(R21, R27). -/

namespace Sys2Proof.Machine

variable {s t u : State} {n : Port} {k : Slot} {rq : Request} {w : Work} {c : Instr} {tag : Tag}

/-! ## The cycle that is due is completed -/

theorem State.EndsCycle.congr (h : u.EndsCycle t) (hl : u.lastGranted = s.lastGranted) (hd : u.device = s.device) :
    s.EndsCycle t := by
  obtain ⟨x, ht, hp, hlast, hdev⟩ := h
  exact ⟨x, ht, hp, hlast.trans hl, hdev.trans hd⟩

/-- A granted visit is completed by SWEEP_VISIT (R136). -/
theorem execSweepVisit_ends (h : s.Laws) (hp : s.inProgress = some .sweeper) (hne : s.sweeps ≠ []) :
    s.EndsBy (execSweepVisit s) := by
  obtain ⟨r, rest, hr⟩ := List.exists_cons_of_ne_nil hne
  have hsweeping : s.Sweeping r rest s.sweepPos := ⟨h.sound, h.outstanding, hp, hr, rfl⟩
  obtain ⟨x, -, hswept⟩ := hsweeping.visit
  have hvisit : execSweepVisit s = .next ((s.visit r.port s.sweepPos).afterVisit s.sweepPos) := by
    simp only [execSweepVisit, hr, hp, if_true]
  have hlast : (s.visit r.port s.sweepPos).lastGranted = s.lastGranted := by
    rw [h.arbiter.grantedLast _ hp, hswept.sweeping.sound.grantedLast _ hswept.sweeping.granted]
  rw [hvisit]
  exact State.endsBy_next ((State.endsCycle_afterVisit _ _).congr hlast
    (hswept.sweeping.ready.trans hsweeping.ready.symm))

/-- The single cycle of a request is completed by its own command. -/
theorem exec_single_ends {op : RequestOp} (hc : s.cycleOf n .single = some ⟨tag, op⟩) (hok : op.operandsOk = true)
    (hmem : c ∈ dueCycles n .single op) : s.EndsBy (exec c s) := by
  cases op
  all_goals simp only [dueCycles, List.mem_singleton, List.not_mem_nil] at hmem
  all_goals subst hmem
  case clear => exact execClearCycle_ends hc
  case checkpoint => exact execCheckpointCycle_ends hc
  case watch => exact execWatchCycle_ends hc
  case unwatch => exact execUnwatchCycle_ends hc
  case alloc => exact execAllocCycle_ends hc hok
  case retire => exact execRetireCycle_ends hc
  case claim => exact execClaimCycle_ends hc hok
  case release => exact execReleaseCycle_ends hc
  case adopt => exact execAdoptCycle_ends hc hok
  case setAccess => exact execSetAccessCycle_ends hc hok
  case inspect => exact execInspectCycle_ends hc
  case breakWait => exact execBreakWaitCycle_ends hc

/-- A cycle of a walk is completed by WALK_HOP where it is no terminal cycle, and there by its request's command (R41, R42). -/
theorem exec_walk_ends {op : RequestOp} (hc : s.cycleOf n .walk = some ⟨tag, op⟩) (hok : op.operandsOk = true)
    (hmem : c ∈ dueCycles n .walk op) (hhop : c = .walkHop n ↔ (s.allocated (s.executor n).walkPos = false ∨
      ∃ t, (s.entry (s.executor n).walkPos).content = .forward t)) : s.EndsBy (exec c s) := by
  by_cases hwalk : c = .walkHop n
  · rw [hwalk]
    exact execWalkHop_ends hc (hhop.1 hwalk)
  · obtain ⟨hall, hcontent⟩ := not_or.1 fun h => hwalk (hhop.2 h)
    have hat : s.atTerminal n = some ⟨tag, op⟩ :=
      State.atTerminal_eq hc rfl (by simpa using hall) (not_exists.1 hcontent)
    cases op
    all_goals simp only [dueCycles, List.mem_cons, List.not_mem_nil, hwalk, or_false, false_or] at hmem
    all_goals subst hmem
    case read => exact execReadTerminal_ends hat
    case put => exact execPutTerminal_ends hat hok
    case take => exact execTakeTerminal_ends hat

/-- A cycle of a LINK is completed by its own command (R53, R55). -/
theorem exec_link_ends {op : RequestOp} (hw : w = .checkWalk ∨ w = .commit) (hc : s.cycleOf n w = some ⟨tag, op⟩)
    (hmem : c ∈ dueCycles n w op) : s.EndsBy (exec c s) := by
  rcases hw with rfl | rfl
  all_goals
    cases op
    all_goals simp only [dueCycles, List.mem_singleton, List.not_mem_nil] at hmem
    all_goals subst hmem
  · exact execCheckWalkCycle_ends hc
  · exact execCommitCycle_ends hc

/-- The command that completes the cycle in progress does so (R25). -/
theorem exec_of_completes (h : s.Laws) (hc : s.completes c) : s.EndsBy (exec c s) := by
  rcases hc with ⟨hp, hne, rfl⟩ | ⟨n, w, ⟨tag, op⟩, hp, hs, hcur, hmem, hhop⟩
  · exact execSweepVisit_ends h hp hne
  · have hcycle := (s.cycleOf_eq_some n w ⟨tag, op⟩).2 ⟨hp, hs, hcur⟩
    have hok : op.operandsOk = true := h.executors.examined n _ hcur
    cases w with
    | walk => exact exec_walk_ends hcycle hok hmem (hhop rfl)
    | checkWalk => exact exec_link_ends (.inl rfl) hcycle hmem
    | commit => exact exec_link_ends (.inr rfl) hcycle hmem
    | single => exact exec_single_ends hcycle hok hmem
    | clearing => cases op <;> cases hmem
    | awaitPass => cases op <;> cases hmem

/-! ## A cycle that is not due -/

theorem State.completes_of_due (hc : s.cycleOf n w = some rq) (hmem : c ∈ dueCycles n w rq.op)
    (hhop : w = .walk → (c = .walkHop n ↔ (s.allocated (s.executor n).walkPos = false ∨
      ∃ t, (s.entry (s.executor n).walkPos).content = .forward t))) : s.completes c := by
  obtain ⟨hp, hs, hcur⟩ := (s.cycleOf_eq_some n w rq).1 hc
  exact .inr ⟨n, w, rq, hp, hs, hcur, hmem, hhop⟩

theorem mem_dueCycles_walkHop (n : Port) (op : RequestOp) : Instr.walkHop n ∈ dueCycles n .walk op := by
  cases op <;> exact List.mem_cons_self

/-- WALK_HOP where no hop is due changes nothing. -/
theorem execWalkHop_undue (h : ¬ s.completes (.walkHop n)) : execWalkHop n s = .next s := by
  refine congrArg Host.Outcome.next ?_
  split
  · next rq hc =>
    have hhop : ¬ (s.allocated (s.executor n).walkPos = false ∨
        ∃ t, (s.entry (s.executor n).walkPos).content = .forward t) := fun hhop =>
      h (State.completes_of_due hc (mem_dueCycles_walkHop n rq.op) fun _ => iff_of_true rfl hhop)
    obtain ⟨hall, hcontent⟩ := not_or.1 hhop
    dsimp only
    rw [if_neg hall]
    split
    · next t ht => exact absurd ⟨t, ht⟩ hcontent
    · rfl
    · rfl
  · rfl

/-- A walk's terminal command is due where its terminal cycle is in progress (R42). -/
theorem State.completes_of_terminal (hat : s.atTerminal n = some rq) (hmem : c ∈ dueCycles n .walk rq.op)
    (hne : c ≠ .walkHop n) : s.completes c := by
  obtain ⟨hc, hall, hcontent⟩ := State.atTerminal_cases hat
  refine State.completes_of_due hc hmem fun _ => iff_of_false hne ?_
  rintro (hun | ⟨t, ht⟩)
  · rw [hall] at hun
    cases hun
  · exact hcontent t ht

/-- A terminal command where its terminal cycle is not in progress changes nothing. -/
theorem exec_terminal_undue (hmem : c ∈ [Instr.readTerminal n, .putTerminal n, .takeTerminal n])
    (h : ¬ s.completes c) : exec c s = .next s := by
  simp only [List.mem_cons, List.not_mem_nil, or_false] at hmem
  rcases hmem with rfl | rfl | rfl
  all_goals
    refine congrArg Host.Outcome.next ?_
    split
    · next rq hat =>
      split
      · next hop => exact (h (State.completes_of_terminal hat (by rw [hop]; simp [dueCycles]) nofun)).elim
      · rfl
    · rfl

/-- A command of a LINK or of a single cycle, where that cycle is not in progress, changes nothing. -/
theorem exec_cycle_undue (hmem : c ∈ [Instr.checkWalkCycle n, .commitCycle n, .clearCycle n, .checkpointCycle n,
      .watchCycle n, .unwatchCycle n, .allocCycle n, .retireCycle n, .claimCycle n, .releaseCycle n, .adoptCycle n,
      .setAccessCycle n, .inspectCycle n, .breakWaitCycle n])
    (h : ¬ s.completes c) : exec c s = .next s := by
  simp only [List.mem_cons, List.not_mem_nil, or_false] at hmem
  rcases hmem with rfl | rfl | rfl | rfl | rfl | rfl | rfl | rfl | rfl | rfl | rfl | rfl | rfl | rfl
  all_goals
    refine congrArg Host.Outcome.next ?_
    split
    · next rq hc =>
      split
      · next hop => exact (h (State.completes_of_due hc (by rw [hop]; simp [dueCycles]) nofun)).elim
      · rfl
    · rfl

/-- SWEEP_VISIT with no visit in progress changes nothing. -/
theorem execSweepVisit_undue (h : ¬ s.completes .sweepVisit) : execSweepVisit s = .next s := by
  refine congrArg Host.Outcome.next ?_
  split
  · next r rest hr =>
    exact if_neg fun hp => h (.inl ⟨hp, by rw [hr]; exact List.cons_ne_nil r rest, rfl⟩)
  · rfl

end Sys2Proof.Machine
end

