-- ==== Sys2Proof/Proofs/GrantsKept.lean ====
section
/-! SUPPORT. The commands that complete no cycle leave the cycle in progress and last granted as they are (R27, R29): a grant
is made only where no cycle is in progress. -/

namespace Sys2Proof.Machine

variable {s t u : State} {n : Port} {rq : Request} {c : Instr}

/-! ## Acts that grant nothing -/

/-- The cycle in progress and last granted are in t what they were in s. -/
def State.SameGrant (s t : State) : Prop := t.inProgress = s.inProgress ∧ t.lastGranted = s.lastGranted

/-- The outcome leaves the cycle in progress and last granted. -/
def State.KeepsGrant (s : State) (o : Host.Outcome State Fault Refusal) : Prop := ∃ t, o = .next t ∧ s.SameGrant t

theorem State.keepsGrant_next (h : s.SameGrant t) : s.KeepsGrant (.next t) := ⟨t, rfl, h⟩

theorem State.SameGrant.refl (s : State) : s.SameGrant s := ⟨rfl, rfl⟩

/-- With a cycle in progress the arbiter's turn grants nothing (R29). -/
theorem State.SameGrant.arbitrate (h : s.SameGrant u) (hbusy : s.inProgress ≠ none) : s.SameGrant u.arbitrate := by
  obtain ⟨hp, hl⟩ := h
  rw [← hp] at hbusy
  refine ⟨(State.arbitrate_inProgress hbusy).trans hp, ?_⟩
  rw [State.arbitrate, State.grant_of_busy _ (.inr (by rwa [State.takeWithdrawals_inProgress])),
    State.takeWithdrawals_lastGranted, hl]

theorem State.SameGrant.startLoss (h : s.SameGrant u) (hbusy : s.inProgress ≠ none) (n : Port) (reason : LossReason) :
    s.SameGrant (u.startLoss n reason) := by
  obtain ⟨t, ht, hloss⟩ := u.startLoss_started n reason
  have hrest := hloss.rest
  rw [ht]
  refine State.SameGrant.arbitrate ?_ hbusy
  rw [hrest]
  exact h

theorem State.SameGrant.examine (h : s.SameGrant u) : s.SameGrant (s.examine n rq u) := by
  unfold State.examine
  split
  · exact h
  · exact ⟨rfl, rfl⟩

theorem State.SameGrant.ifMaintenance (h : s.SameGrant u) : s.SameGrant (s.ifMaintenance n rq u) := by
  unfold State.ifMaintenance
  split
  · exact h
  · exact ⟨rfl, rfl⟩

theorem State.sameGrant_begin (hbusy : s.inProgress ≠ none) (w : Work) (k : Slot) : s.SameGrant (s.begin n rq w k) :=
  State.SameGrant.arbitrate ⟨rfl, rfl⟩ hbusy

/-! ## Requests -/

theorem exec_beginning_keepsGrant (hbusy : s.inProgress ≠ none)
    (hc : c ∈ [Instr.read n, .put n, .take n, .clear n, .checkpoint n, .watch n, .unwatch n, .alloc n, .retire n,
      .claim n, .release n, .adopt n, .setAccess n]) : s.KeepsGrant (exec c s) := by
  simp only [List.mem_cons, List.not_mem_nil, or_false] at hc
  rcases hc with rfl | rfl | rfl | rfl | rfl | rfl | rfl | rfl | rfl | rfl | rfl | rfl | rfl
  all_goals
    refine State.keepsGrant_next ?_
    split
    · split
      · exact (State.sameGrant_begin hbusy _ _).examine
      · exact .refl s
    · exact .refl s

theorem exec_maintenance_keepsGrant (hbusy : s.inProgress ≠ none) (hc : c ∈ [Instr.inspect n, .breakWait n]) :
    s.KeepsGrant (exec c s) := by
  simp only [List.mem_cons, List.not_mem_nil, or_false] at hc
  rcases hc with rfl | rfl
  all_goals
    refine State.keepsGrant_next ?_
    split
    · split
      · exact (State.sameGrant_begin hbusy _ _).ifMaintenance.examine
      · exact .refl s
    · exact .refl s

theorem execLink_keepsGrant (hbusy : s.inProgress ≠ none) : s.KeepsGrant (execLink n s) := by
  refine State.keepsGrant_next ?_
  split
  · next rq _ =>
    split
    · next target _ =>
      refine State.SameGrant.examine ?_
      unfold State.requestToken
      dsimp only
      split
      · exact State.SameGrant.arbitrate ⟨rfl, rfl⟩ hbusy
      · exact ⟨rfl, rfl⟩
      · exact ⟨rfl, rfl⟩
    · exact .refl s
  · exact .refl s

theorem execAttach_keepsGrant : s.KeepsGrant (execAttach n s) := by
  refine State.keepsGrant_next ?_
  split
  · split
    · refine State.SameGrant.examine ?_
      split
      · exact ⟨rfl, rfl⟩
      · exact ⟨rfl, rfl⟩
      · exact .refl s
    · exact .refl s
  · exact .refl s

theorem execDetach_keepsGrant : s.KeepsGrant (execDetach n s) := by
  refine State.keepsGrant_next ?_
  split
  · split
    · rw [State.detachAct_eq]
      exact ⟨rfl, rfl⟩
    · exact .refl s
  · exact .refl s

theorem execStatus_keepsGrant : s.KeepsGrant (execStatus n s) := by
  refine State.keepsGrant_next ?_
  split
  · split
    · exact ⟨rfl, rfl⟩
    · exact .refl s
  · exact .refl s

theorem execCredit_keepsGrant : s.KeepsGrant (execCredit n s) := by
  refine State.keepsGrant_next ?_
  split
  · split
    · refine State.SameGrant.examine ?_
      exact ⟨rfl, rfl⟩
    · exact .refl s
  · exact .refl s

theorem execSetEvents_keepsGrant : s.KeepsGrant (execSetEvents n s) := by
  refine State.keepsGrant_next ?_
  split
  · split
    · refine State.SameGrant.examine ?_
      split
      · exact ⟨rfl, rfl⟩
      · exact .refl s
    · exact .refl s
  · exact .refl s

theorem State.sameGrant_forceAct (hbusy : s.inProgress ≠ none) (p : Port) : s.SameGrant (s.forceAct n rq p) := by
  have hloss : s.SameGrant ((s.dequeue n).startLoss p .forced) := by
    refine State.SameGrant.startLoss ?_ hbusy p _
    exact ⟨rfl, rfl⟩
  unfold State.forceAct
  split
  · dsimp only
    split
    · exact hloss
    · exact hloss
  · exact ⟨rfl, rfl⟩
  · exact ⟨rfl, rfl⟩
  · exact ⟨rfl, rfl⟩

theorem execForceDetach_keepsGrant (hbusy : s.inProgress ≠ none) : s.KeepsGrant (execForceDetach n s) := by
  refine State.keepsGrant_next ?_
  split
  · split
    · refine State.SameGrant.examine (State.SameGrant.ifMaintenance ?_)
      split
      · exact State.sameGrant_forceAct hbusy _
      · exact .refl s
    · exact .refl s
  · exact .refl s

/-- Behind a cycle in progress a CLEAR_DIRECTORY waits for its completion (R36). -/
theorem execClearDirectory_keepsGrant (hbusy : s.inProgress ≠ none) : s.KeepsGrant (execClearDirectory n s) := by
  refine State.keepsGrant_next ?_
  split
  · split
    · refine State.SameGrant.ifMaintenance ?_
      split
      · exact ⟨rfl, rfl⟩
      · exact ⟨rfl, rfl⟩
    · exact .refl s
  · exact .refl s

/-! ## Lines, time and the passes -/

theorem execResetNHigh_keepsGrant (strap : BitVec 3) : s.KeepsGrant (execResetNHigh strap s) := by
  refine State.keepsGrant_next ?_
  split
  · exact ⟨rfl, rfl⟩
  · exact .refl s

/-- In READY no pass is under way. -/
theorem execPassCycle_keepsGrant (hready : s.device = .ready) : s.KeepsGrant (execPassCycle s) := by
  refine State.keepsGrant_next ?_
  rw [if_neg fun h => h.2 hready]
  exact .refl s

theorem execPortResetLow_keepsGrant (hbusy : s.inProgress ≠ none) : s.KeepsGrant (execPortResetLow n s) := by
  refine State.keepsGrant_next ?_
  split
  · unfold State.lineFalls
    dsimp only
    split
    · exact ⟨rfl, rfl⟩
    · exact ⟨rfl, rfl⟩
    · refine State.SameGrant.startLoss ?_ hbusy n _
      exact ⟨rfl, rfl⟩
    · exact ⟨rfl, rfl⟩
  · exact .refl s

theorem execPortResetHigh_keepsGrant : s.KeepsGrant (execPortResetHigh n s) := by
  refine State.keepsGrant_next ?_
  split
  · exact .refl s
  · unfold State.lineRises
    dsimp only
    split <;> exact ⟨rfl, rfl⟩

theorem execTick_keepsGrant : s.KeepsGrant (execTick s) := by
  refine State.keepsGrant_next ?_
  split
  · exact .refl s
  · dsimp only
    rw [State.tickWaits_frame]
    exact ⟨rfl, rfl⟩

theorem execWaitExpiry_keepsGrant : s.KeepsGrant (execWaitExpiry s) := by
  refine State.keepsGrant_next ?_
  split
  · exact .refl s
  · exact ⟨rfl, rfl⟩

theorem execLeaseExpiry_keepsGrant (hbusy : s.inProgress ≠ none) : s.KeepsGrant (execLeaseExpiry n s) := by
  refine State.keepsGrant_next ?_
  split
  · exact .refl s
  · dsimp only
    split
    · exact ⟨rfl, rfl⟩
    · split
      · exact ⟨rfl, rfl⟩
      · refine State.SameGrant.startLoss ?_ hbusy n _
        exact ⟨rfl, rfl⟩

theorem execSweepPassStart_keepsGrant (hbusy : s.inProgress ≠ none) : s.KeepsGrant (execSweepPassStart s) := by
  refine State.keepsGrant_next ?_
  split
  · split
    · refine State.SameGrant.arbitrate ?_ hbusy
      rw [State.sweepTest_frame]
      exact ⟨rfl, rfl⟩
    · exact .refl s
  · exact .refl s

/-! ## Port links -/

theorem execTruncatedFrame_keepsGrant : s.KeepsGrant (execTruncatedFrame n s) := by
  refine State.keepsGrant_next ?_
  split
  · exact .refl s
  · dsimp only
    split
    · exact ⟨rfl, rfl⟩
    · split <;> exact ⟨rfl, rfl⟩

theorem execLengthError_keepsGrant (b : Byte) : s.KeepsGrant (execLengthError n b s) := by
  refine State.keepsGrant_next ?_
  split
  · exact ⟨rfl, rfl⟩
  · exact .refl s

theorem State.sameGrant_admitFrame (code tagByte : Byte) (operands : List Byte) :
    s.SameGrant (s.admitFrame n code tagByte operands) := by
  unfold State.admitFrame
  dsimp only
  split
  · split <;> exact ⟨rfl, rfl⟩
  · exact ⟨rfl, rfl⟩

theorem execFrameComplete_keepsGrant (b : Byte) : s.KeepsGrant (execFrameComplete n b s) := by
  refine State.keepsGrant_next ?_
  split
  · split
    · unfold State.frameEnds
      split
      · split
        · split
          · exact ⟨rfl, rfl⟩
          · exact State.sameGrant_admitFrame _ _ _
        · exact ⟨rfl, rfl⟩
      · exact ⟨rfl, rfl⟩
    all_goals exact .refl s
  · exact .refl s

theorem execAckFrame_keepsGrant : s.KeepsGrant (execAckFrame n s) := by
  refine State.keepsGrant_next ?_
  split
  · unfold State.sendAck
    split <;> exact ⟨rfl, rfl⟩
  · exact .refl s

theorem execReplyFrame_keepsGrant : s.KeepsGrant (execReplyFrame n s) := by
  refine State.keepsGrant_next ?_
  split
  · unfold State.sendReply
    split <;> exact ⟨rfl, rfl⟩
  · exact .refl s

theorem execEventFrame_keepsGrant : s.KeepsGrant (execEventFrame n s) := by
  refine State.keepsGrant_next ?_
  split
  · unfold State.sendEvent
    split <;> exact ⟨rfl, rfl⟩
  · exact .refl s

theorem execSyncByteFound_keepsGrant : s.KeepsGrant (execSyncByteFound n s) := by
  refine State.keepsGrant_next ?_
  split
  · exact ⟨rfl, rfl⟩
  · exact .refl s

theorem execFrameByteReceived_keepsGrant (b : Byte) : s.KeepsGrant (execFrameByteReceived n b s) := by
  refine State.keepsGrant_next ?_
  split
  · split
    · exact ⟨rfl, rfl⟩
    · exact .refl s
  · exact .refl s

theorem execFrameSent_keepsGrant : s.KeepsGrant (execFrameSent n s) := by
  refine State.keepsGrant_next ?_
  split
  · exact ⟨rfl, rfl⟩
  · exact .refl s

/-! ## Every command that completes no cycle -/

/-- A command that completes no cycle, in READY with a cycle in progress, leaves the grant or holds the part in reset. -/
theorem exec_not_completing (hready : s.device = .ready) (hbusy : s.inProgress ≠ none) (h : ¬ s.completes c) :
    c = .deviceReset ∨ s.KeepsGrant (exec c s) := by
  have hundue : exec c s = .next s → s.KeepsGrant (exec c s) := fun he => he ▸ State.keepsGrant_next (.refl s)
  have hcycle : ∀ n, c ∈ cycleCommands n → s.KeepsGrant (exec c s) := fun n hc => by
    have hsplit : c = .walkHop n ∨ c ∈ [Instr.readTerminal n, .putTerminal n, .takeTerminal n] ∨
        c ∈ [Instr.checkWalkCycle n, .commitCycle n, .clearCycle n, .checkpointCycle n, .watchCycle n, .unwatchCycle n,
          .allocCycle n, .retireCycle n, .claimCycle n, .releaseCycle n, .adoptCycle n, .setAccessCycle n,
          .inspectCycle n, .breakWaitCycle n] := by
      simpa [cycleCommands, or_assoc] using hc
    rcases hsplit with rfl | hc | hc
    · exact hundue (execWalkHop_undue h)
    · exact hundue (exec_terminal_undue hc h)
    · exact hundue (exec_cycle_undue hc h)
  cases c with
  | deviceReset => exact .inl rfl
  | resetNHigh strap => exact .inr (execResetNHigh_keepsGrant strap)
  | passCycle => exact .inr (execPassCycle_keepsGrant hready)
  | portResetLow n => exact .inr (execPortResetLow_keepsGrant hbusy)
  | portResetHigh n => exact .inr execPortResetHigh_keepsGrant
  | tick => exact .inr execTick_keepsGrant
  | waitExpiry => exact .inr execWaitExpiry_keepsGrant
  | leaseExpiry n => exact .inr (execLeaseExpiry_keepsGrant hbusy)
  | truncatedFrame n => exact .inr execTruncatedFrame_keepsGrant
  | lengthError n b => exact .inr (execLengthError_keepsGrant b)
  | frameComplete n b => exact .inr (execFrameComplete_keepsGrant b)
  | ackFrame n => exact .inr execAckFrame_keepsGrant
  | replyFrame n => exact .inr execReplyFrame_keepsGrant
  | eventFrame n => exact .inr execEventFrame_keepsGrant
  | attach n => exact .inr execAttach_keepsGrant
  | detach n => exact .inr execDetach_keepsGrant
  | status n => exact .inr execStatus_keepsGrant
  | credit n => exact .inr execCredit_keepsGrant
  | setEvents n => exact .inr execSetEvents_keepsGrant
  | link n => exact .inr (execLink_keepsGrant hbusy)
  | forceDetach n => exact .inr (execForceDetach_keepsGrant hbusy)
  | clearDirectory n => exact .inr (execClearDirectory_keepsGrant hbusy)
  | sweepPassStart => exact .inr (execSweepPassStart_keepsGrant hbusy)
  | sweepVisit => exact .inr (hundue (execSweepVisit_undue h))
  | syncByteFound n => exact .inr execSyncByteFound_keepsGrant
  | frameByteReceived n b => exact .inr (execFrameByteReceived_keepsGrant b)
  | frameSent n => exact .inr execFrameSent_keepsGrant
  | inspect n | breakWait n => exact .inr (exec_maintenance_keepsGrant (n := n) hbusy (by simp))
  | read n | put n | take n | clear n | checkpoint n | watch n | unwatch n | alloc n | retire n | claim n | release n
  | adopt n | setAccess n => exact .inr (exec_beginning_keepsGrant (n := n) hbusy (by simp))
  | walkHop n | readTerminal n | putTerminal n | takeTerminal n | checkWalkCycle n | commitCycle n | clearCycle n
  | checkpointCycle n | watchCycle n | unwatchCycle n | allocCycle n | retireCycle n | claimCycle n | releaseCycle n
  | adoptCycle n | setAccessCycle n | inspectCycle n | breakWaitCycle n =>
    exact .inr (hcycle n (by simp [cycleCommands]))

/-! ## A step -/

/-- A step that completes a cycle and stays in READY serves a pending requestor or brings it nearer (R30). -/
theorem State.EndsCycle.serves_or_nears {r : Requestor} (h : s.EndsCycle t) (hready : s.device = .ready)
    (hready' : t.device = .ready) (hr : t.hasCycle r = true) :
    t.inProgress = some r ∨ ahead t.lastGranted r < ahead s.lastGranted r := by
  obtain ⟨x, rfl, hp, hl, hd⟩ := h
  have hdue : x.clearDue = false := Bool.eq_false_iff.2 fun hdue => by
    rw [State.afterCompletion_of_due hdue] at hready'
    cases hready'
  have hturn : x.afterCompletion = x.arbitrate := by
    unfold State.afterCompletion
    rw [hdue]
    rfl
  rw [hturn] at hr ⊢
  rcases State.arbitrate_serves_or_nears (hd.trans hready) hp hr with hserved | ⟨y, -, hlast, -, -, hnear⟩
  · exact .inl hserved
  · rw [hl] at hnear
    exact .inr (hlast ▸ hnear)

/-- The bound of R30 over one command, from a state in the laws with r pending behind the cycle in progress. -/
theorem exec_serves_or_nears {r : Requestor} (h : s.Laws) (hst : exec c s = .next t) (hready : s.device = .ready)
    (hready' : t.device = .ready) (hpending : s.hasCycle r = true) (hr : t.hasCycle r = true) :
    t.inProgress = some r ∨ (s.SameGrant t ∧ ¬ s.completes c) ∨ ahead t.lastGranted r < ahead s.lastGranted r := by
  have hbusy : s.inProgress ≠ none := fun hp => by
    rw [h.arbiter.grantsAtOnce hready hp r] at hpending
    cases hpending
  by_cases hc : s.completes c
  · obtain ⟨u, hu, hends⟩ := exec_of_completes h hc
    cases hst.symm.trans hu
    exact (hends.serves_or_nears hready hready' hr).imp_right .inr
  · rcases exec_not_completing hready hbusy hc with rfl | ⟨u, hu, hsame⟩
    · cases hst
      cases hready'
    · cases hst.symm.trans hu
      exact .inr (.inl ⟨hsame, hc⟩)

end Sys2Proof.Machine

open Sys2Proof Sys2Proof.Machine

/-- Settles O45: the bound at a grant, at the arbiter's turn, and over a step by what its command does to the grant. -/
theorem pendingRequestorsAreServed : Obligations.PendingRequestorsAreServed := by
  refine ⟨ahead_le, fun s r => State.grant_serves_or_nears, fun s r => State.arbitrate_serves_or_nears, ?_⟩
  intro s t r h hst hready hready' hpending _ hr
  unfold step at hst
  split at hst
  · next hnil =>
    cases hst
    exact .inr (.inl ⟨rfl, rfl, fun c rest hc => by rw [hnil] at hc; cases hc⟩)
  · next c rest hcons =>
    have hlaws := h.withPending rest
    rcases exec_serves_or_nears hlaws hst hready hready' (by rwa [State.hasCycle_congr rfl rfl]) hr with
      hserved | ⟨⟨hp, hl⟩, hnot⟩ | hnear
    · exact .inl hserved
    · refine .inr (.inl ⟨hp, hl, fun c' rest' hc => ?_⟩)
      rw [hcons] at hc
      cases hc
      exact hnot
    · exact .inr (.inr hnear)
end

