-- ==== Sys2Proof/Proofs/Chains.lean ====
section
/-! SUPPORT. Chains of forwards that end and never return on themselves (R60), and what a step keeps of the link token and of
the chains. -/

namespace Sys2Proof.Machine

variable {s : State} {m : Nat} {k : Slot}

/-- Following m forwards and then i more. -/
theorem State.follow_add (s : State) (m i : Nat) (k : Slot) : s.follow (m + i) k = (s.follow m k).bind (s.follow i) := by
  induction m generalizing k with
  | zero => rw [Nat.zero_add]; rfl
  | succ m ih =>
    rw [Nat.add_right_comm, State.follow, State.follow]
    split
    · exact ih _
    · rfl
    · rfl

/-- A chain that returns on itself does so over and over. -/
theorem State.follow_mul_of_returns (h : s.follow m k = some k) (i : Nat) : s.follow (i * m) k = some k := by
  induction i with
  | zero => rw [Nat.zero_mul]; rfl
  | succ i ih => rw [Nat.succ_mul, State.follow_add, ih, Option.bind_some, h]

/-- A chain that ends reaches an entry that is not FORWARD (R60). -/
theorem State.follow_reaches_end (h : s.follow m k = none) :
    ∃ i j, s.follow i k = some j ∧ ∀ u, (s.entry j).content ≠ .forward u := by
  induction m generalizing k with
  | zero => cases h
  | succ m ih =>
    by_cases hk : ∃ t, (s.entry k).content = .forward t
    · obtain ⟨t, ht⟩ := hk
      simp only [State.follow, ht] at h
      obtain ⟨i, j, hj, hend⟩ := ih h
      exact ⟨i + 1, j, by simpa only [State.follow, ht] using hj, hend⟩
    · exact ⟨0, k, rfl, not_exists.1 hk⟩

/-- A chain that ends does not return on itself: going around as often as it has forwards would pass its end (R60). -/
theorem State.not_returns_of_ends {l : Nat} (h : s.follow l k = none) (hm : 0 < m) : s.follow m k ≠ some k := by
  intro hret
  obtain ⟨y, hy⟩ := State.follow_prefix (State.follow_mul_of_returns hret l) (Nat.le_mul_of_pos_right l hm)
  rw [h] at hy
  cases hy

end Sys2Proof.Machine

open Sys2Proof Sys2Proof.Machine

/-- Settles O53: the laws of the link token are among the laws that a step keeps. -/
theorem tokenLawsAreKept : Obligations.TokenLawsAreKept := fun s t h hst => (allLawsAreKept s t h hst).token

/-- Settles O54: the law of the chains is one of the laws that a step keeps, and by it every chain ends. -/
theorem chainsStayAcyclic : Obligations.ChainsStayAcyclic := by
  intro s t h hst
  have hchains := (allLawsAreKept s t h hst).chains
  refine ⟨hchains, fun k => ?_, fun m k hm => ?_⟩
  · obtain ⟨l, hl⟩ := hchains.acyclic k
    exact State.follow_reaches_end hl
  · obtain ⟨l, hl⟩ := hchains.acyclic k
    exact State.not_returns_of_ends hl hm
end

