-- ==== Sys2Proof/Proofs/WalkEquations.lean ====
section
/-! SUPPORT. What each cycle of a walk, of a READ and of a check walk makes of the state, case by case (R41 to R45, R53, R54,
R64). -/

namespace Sys2Proof.Machine

variable {s : State} {n : Port} {rq : Request} {t named target : Slot} {tag : Tag}

/-! ## The completion of a cycle that leaves no reply (R25, R131) -/

/-- An abandoned request other than a LINK ends silently, whatever its cycle found. -/
theorem State.complete_abandoned_eq (o : CycleEnd) (ha : (s.executor n).abandoned = true)
    (hl : (s.executor n).onLink = false) : s.complete n o = (s.cycleEnded n).afterCompletion := by
  rw [State.complete_abandoned s n o ha]
  exact congrArg State.afterCompletion (State.endRequest_of_not_link _ n hl)

/-- An abandoned LINK ends silently and its token passes on (R51). -/
theorem State.complete_abandoned_link (o : CycleEnd) (ha : (s.executor n).abandoned = true)
    (hl : (s.executor n).onLink = true) : s.complete n o = (s.cycleEnded n).passToken.afterCompletion := by
  rw [State.complete_abandoned s n o ha]
  exact congrArg State.afterCompletion (if_pos hl)

/-- A walk is made for no LINK (R39). -/
theorem Executor.not_onLink_of_walk {e : Executor} (hc : e.current = some rq) (hfit : Work.walk.fits rq.op = true) :
    e.onLink = false :=
  Executor.not_onLink hc fun a b hop => by rw [hop] at hfit; cases hfit

/-! ## WALK_HOP (R41, R43, R44) -/

theorem execWalkHop_unallocated (hc : s.cycleOf n .walk = some rq) (ha : s.allocated (s.executor n).walkPos = false) :
    execWalkHop n s = .next (s.complete n (.finish (walkReply rq (s.executor n) .unallocated))) := by
  simp only [execWalkHop, hc, ha, if_true]

theorem execWalkHop_follows (hc : s.cycleOf n .walk = some rq) (ha : s.allocated (s.executor n).walkPos = true)
    (ht : (s.entry (s.executor n).walkPos).content = .forward t) (hh : (s.executor n).hops < Config.hopLimit) :
    execWalkHop n s = .next (s.complete n (.goOn .walk t ((s.executor n).hops + 1))) := by
  simp only [execWalkHop, hc, ha, ht, hh, if_true, Bool.true_eq_false, if_false]

theorem execWalkHop_deep (hc : s.cycleOf n .walk = some rq) (ha : s.allocated (s.executor n).walkPos = true)
    (ht : (s.entry (s.executor n).walkPos).content = .forward t) (hh : Config.hopLimit ≤ (s.executor n).hops) :
    execWalkHop n s = .next (s.complete n (.finish (walkReply rq (s.executor n) .chainDeep))) := by
  simp only [execWalkHop, hc, ha, ht, Nat.not_lt.2 hh, Bool.true_eq_false, if_false]

theorem walkFollowsForwards : Claims.WalkFollowsForwards := by
  intro s n rq k h hc hfit hk hh ended hended
  subst hk hh
  obtain ⟨-, -, hcur⟩ := (s.cycleOf_eq_some n .walk rq).1 hc
  have hlink := Executor.not_onLink_of_walk hcur hfit
  have hfinish : ∀ st, s.complete n (.finish (walkReply rq (s.executor n) st)) = ended st := fun st =>
    (s.complete_finish_eq n _ hlink).trans (hended st).symm
  refine ⟨fun ha => ?unallocated, fun t ha ht hlt hab => ?follows, fun t ha ht hab => ?abandoned, fun t ha ht hge => ?deep⟩
  case unallocated => rw [exec_walkHop, execWalkHop_unallocated hc ha, hfinish]
  case follows =>
    rw [exec_walkHop, execWalkHop_follows hc ha ht hlt, State.complete_goOn _ _ _ hab]
    rfl
  case abandoned =>
    rw [exec_walkHop]
    rcases Nat.lt_or_ge (s.executor n).hops Config.hopLimit with hlt | hge
    · rw [execWalkHop_follows hc ha ht hlt, State.complete_abandoned_eq _ hab hlink]
    · rw [execWalkHop_deep hc ha ht hge, State.complete_abandoned_eq _ hab hlink]
  case deep => rw [exec_walkHop, execWalkHop_deep hc ha ht hge, hfinish]

/-! ## READ_TERMINAL (R64, R65) -/

theorem readReturnsTheTerminal : Claims.ReadReturnsTheTerminal := by
  intro s n tag named k h hc hk hh ha hcontent
  subst hk hh
  obtain ⟨-, -, hcur⟩ := (s.cycleOf_eq_some n .walk _).1 hc
  have hat := State.atTerminal_eq hc rfl ha hcontent
  have hlink := Executor.not_onLink_of_walk hcur rfl
  simp only [exec_readTerminal, execReadTerminal, hat, State.complete_finish_eq s n _ hlink]
  rfl

/-! ## CHECK_WALK_CYCLE (R53, R54) -/

/-- A LINK's cycle that is not its last: the request goes on, or, abandoned, ends silently and passes the token (R51). -/
theorem State.complete_goOn_link (w : Work) (k : Slot) (h : Nat) (hl : (s.executor n).onLink = true) :
    s.complete n (.goOn w k h) =
      if (s.executor n).abandoned then (s.cycleEnded n).passToken.afterCompletion
      else State.afterCompletion
        { s with
          inProgress := none
          execs := s.execs.set n { s.executor n with state := .running w, walkPos := k, hops := h } } := by
  split
  · next ha => exact State.complete_abandoned_link _ ha hl
  · next ha => exact State.complete_goOn w k h (Bool.eq_false_iff.2 ha)

theorem checkWalkTestsItsChain : Claims.CheckWalkTestsItsChain := by
  intro s n tag named target k h hc hk hh ended hended goesOn hgoesOn
  subst hk hh
  obtain ⟨-, -, hcur⟩ := (s.cycleOf_eq_some n .checkWalk _).1 hc
  have hlink := Executor.onLink_of_link hcur
  have hfinish : ∀ st, s.complete n (.finish (walkReply ⟨tag, .link named target⟩ (s.executor n) st)) = ended st :=
    fun st => (s.complete_finish_link n _ hlink).trans (hended st).symm
  have hgo : ∀ w j i, s.complete n (.goOn w j i) = goesOn w j i := fun w j i =>
    (State.complete_goOn_link w j i hlink).trans (hgoesOn w j i).symm
  simp only [exec_checkWalkCycle, execCheckWalkCycle, hc, hfinish, hgo]
  refine ⟨fun ha => ?unallocated, fun ha hnamed => ?loop, fun ha hne => ?_⟩
  case unallocated => rw [if_pos ha]
  case loop => rw [if_neg (by simp [ha]), if_pos hnamed]
  rw [if_neg (by simp [ha]), if_neg hne]
  refine ⟨fun t ht hlt => ?forward, fun t ht hge => ?deep, fun hend => ?terminal⟩
  case forward => simp only [ht, if_pos (show (s.executor n).hops < Config.checkHopLimit from hlt)]
  case deep => simp only [ht, if_neg (show ¬ (s.executor n).hops < Config.checkHopLimit from Nat.not_lt.2 hge)]
  case terminal =>
    cases hcontent : (s.entry (s.executor n).walkPos).content with
    | forward t => exact absurd hcontent (hend t)
    | empty => rfl
    | value v => rfl

/-! ## The token (R50) -/

/-- A LINK that receives the token begins its check walk on its own target (R50, R53). -/
theorem Executor.resume_of_link {e : Executor} (hc : e.current = some ⟨tag, .link named target⟩) :
    e.resume = { e with state := .running .checkWalk, walkPos := target, hops := 0 } := by
  simp only [Executor.resume, hc]

theorem tokenPassesToTheHead : Claims.TokenPassesToTheHead := by
  intro s
  refine ⟨fun hq => ?_, fun p rest tag named target hq hc => ?_⟩
  · simp only [State.passToken, hq]
  · simp only [State.passToken, hq, Executor.resume_of_link hc]
    rfl

end Sys2Proof.Machine

open Sys2Proof Sys2Proof.Machine

/-- Settles O26: the branches of WALK_HOP, and the terminal cycle of a READ. -/
theorem walkCyclesAct : Obligations.WalkCyclesAct := ⟨walkFollowsForwards, readReturnsTheTerminal⟩

/-- Settles O31: the branches of CHECK_WALK_CYCLE, and the two cases of the queue for the token. -/
theorem checkWalksAndTheToken : Obligations.CheckWalksAndTheToken := ⟨checkWalkTestsItsChain, tokenPassesToTheHead⟩
end

