-- ==== Sys2Proof/Proofs/ReadsAlone.lean ====
section
/-! SUPPORT. A READ alone at work: every grant goes to its executor, so that it follows its chain one hop at a cycle, and its
answer is the only other thing that changes (R29, R40 to R45, R64). -/

namespace Sys2Proof.Machine

variable {s t : State} {n : Port} {rq : Request} {k : Slot} {m : Nat}

/-- In READY, with no entry to CLEARING due, port n's executor walks for rq with its cycle in progress, and no other requestor
has a cycle. -/
structure State.WalksAlone (s : State) (n : Port) (rq : Request) : Prop where
  ready : s.device = .ready
  clearDue : s.clearDue = false
  cycle : s.cycleOf n .walk = some rq
  going : (s.executor n).abandoned = false
  alone : ∀ r, r ≠ .executor n → s.hasCycle r = false
  granted : s.lastGranted = .executor n

/-- The part with the walk of port n at slot k after m hops: everything else as in s. -/
def State.walkAt (s : State) (n : Port) (k : Slot) (m : Nat) : State :=
  s.setExecutor n { s.executor n with walkPos := k, hops := m }

@[simp] theorem State.walkAt_executor (s : State) (n : Port) (k : Slot) (m : Nat) :
    (s.walkAt n k m).executor n = { s.executor n with walkPos := k, hops := m } := State.executor_setExecutor_self s n _

@[simp] theorem State.walkAt_walkPos (s : State) (n : Port) (k : Slot) (m : Nat) :
    ((s.walkAt n k m).executor n).walkPos = k := by rw [State.walkAt_executor]

@[simp] theorem State.walkAt_hops (s : State) (n : Port) (k : Slot) (m : Nat) :
    ((s.walkAt n k m).executor n).hops = m := by rw [State.walkAt_executor]

@[simp] theorem State.walkAt_follow (s : State) (n : Port) (k : Slot) (m i : Nat) (j : Slot) :
    (s.walkAt n k m).follow i j = s.follow i j :=
  State.follow_congr (s := s) (t := s.walkAt n k m) rfl i j

@[simp] theorem State.walkAt_walkAt (s : State) (n : Port) (j k : Slot) (i m : Nat) :
    (s.walkAt n j i).walkAt n k m = s.walkAt n k m := by
  show State.setExecutor (State.setExecutor s n _) n { (s.walkAt n j i).executor n with walkPos := k, hops := m } = _
  rw [State.walkAt_executor]
  simp only [State.walkAt, State.setExecutor, PerPort.set_set]

@[simp] theorem State.walkAt_cycleEnded (s : State) (n : Port) (k : Slot) (m : Nat) :
    (s.walkAt n k m).cycleEnded n = s.cycleEnded n := by
  simp only [State.walkAt, State.cycleEnded, State.setExecutor, PerPort.set_set]

theorem State.walkAt_self (s : State) (n : Port) : s.walkAt n (s.executor n).walkPos (s.executor n).hops = s := by
  show { s with execs := s.execs.set n (s.execs.get n) } = s
  rw [PerPort.set_get_self]

/-- Which requestors have cycles does not depend on where the walk stands. -/
theorem State.walkAt_hasCycle (s : State) (n : Port) (k : Slot) (m : Nat) (r : Requestor) :
    (s.walkAt n k m).hasCycle r = s.hasCycle r := by
  cases r with
  | sweeper => rfl
  | executor p =>
    by_cases hp : p = n
    · subst hp
      show ((s.walkAt p k m).executor p).hasCycle = (s.executor p).hasCycle
      rw [State.walkAt_executor]
      rfl
    · exact congrArg Executor.hasCycle (State.executor_setExecutor_of_ne s _ hp)

/-- The walk stays alone wherever it stands. -/
theorem State.WalksAlone.walkAt (h : s.WalksAlone n rq) (k : Slot) (m : Nat) : (s.walkAt n k m).WalksAlone n rq := by
  obtain ⟨hp, hs, hc⟩ := (s.cycleOf_eq_some n .walk rq).1 h.cycle
  refine ⟨h.ready, h.clearDue, (State.cycleOf_eq_some _ n .walk rq).2 ⟨hp, ?_⟩, ?_, fun r hr => ?_, h.granted⟩
  · rw [State.walkAt_executor]
    exact ⟨hs, hc⟩
  · rw [State.walkAt_executor]
    exact h.going
  · rw [State.walkAt_hasCycle]
    exact h.alone r hr

/-! ## The arbiter serves the one walk (R29) -/

theorem State.afterCompletion_of_not_due (hdue : s.clearDue = false) : s.afterCompletion = s.arbitrate := by
  simp [State.afterCompletion, hdue]

/-- A completion after which no requestor has a cycle grants nothing. -/
theorem State.afterCompletion_of_no_cycle (hdue : s.clearDue = false) (h : ∀ r, s.hasCycle r = false) :
    s.afterCompletion = s := by
  rw [State.afterCompletion_of_not_due hdue,
    State.arbitrate_of_none s fun p => State.withdrawing_of_no_cycle s (h (.executor p)), State.grant_of_no_cycle h]

/-- A completion after which one executor alone has a cycle, of a request not abandoned, grants it that cycle. -/
theorem State.afterCompletion_of_alone (hready : s.device = .ready) (hdue : s.clearDue = false) (hp : s.inProgress = none)
    (hgoing : (s.executor n).abandoned = false) (hn : s.hasCycle (.executor n) = true)
    (halone : ∀ r, r ≠ .executor n → s.hasCycle r = false) :
    s.afterCompletion = { s with inProgress := some (.executor n), lastGranted := .executor n } := by
  have hnone : ∀ p, s.withdrawing p = false := fun p => by
    by_cases hpn : p = n
    · exact State.withdrawing_of_not_abandoned s (hpn ▸ hgoing)
    · exact State.withdrawing_of_no_cycle s (halone (.executor p) fun he => hpn (Requestor.executor.inj he))
  obtain ⟨x, hgrant, hx, -⟩ := State.grant_goes hready hp hn
  obtain rfl : x = .executor n := by
    by_contra hne
    rw [halone x hne] at hx
    cases hx
  rw [State.afterCompletion_of_not_due hdue, State.arbitrate_of_none s hnone, hgrant]

/-- A walk alone at work that goes on takes its next cycle with nothing else changed. -/
theorem State.WalksAlone.complete_goOn (h : s.WalksAlone n rq) (k : Slot) (m : Nat) :
    s.complete n (.goOn .walk k m) = s.walkAt n k m := by
  obtain ⟨hp, hs, -⟩ := (s.cycleOf_eq_some n .walk rq).1 h.cycle
  have hat := h.walkAt k m
  have hn : (s.walkAt n k m).hasCycle (.executor n) = true := by
    rw [State.walkAt_hasCycle]
    exact Executor.hasCycle_iff.2 ⟨_, hs, rfl⟩
  rw [State.complete_goOn _ _ _ h.going, ← hs]
  refine (State.afterCompletion_of_alone (s := { s.walkAt n k m with inProgress := none }) hat.ready hat.clearDue rfl
    hat.going hn hat.alone).trans ?_
  rw [← hp, ← h.granted]
  rfl

/-- A walk alone at work that ends leaves the Store Arbiter with no cycle, and its answer posted. -/
theorem State.WalksAlone.complete_finish (h : s.WalksAlone n rq) (hfit : Work.walk.fits rq.op = true) (r : Reply) :
    s.complete n (.finish r) = (s.cycleEnded n).postReply n r := by
  obtain ⟨-, -, hcur⟩ := (s.cycleOf_eq_some n .walk rq).1 h.cycle
  have hended : s.endedWith n r = (s.cycleEnded n).postReply n r := by
    simp only [State.endedWith, State.replyTo, h.going, Bool.false_eq_true, if_false]
    rfl
  rw [State.complete_finish_eq s n r (Executor.not_onLink_of_walk hcur hfit), hended]
  refine State.afterCompletion_of_no_cycle h.clearDue fun q => ?_
  by_cases hq : q = .executor n
  · subst hq
    exact congrArg Executor.hasCycle (PerPort.get_set_self s.execs n .idle)
  · refine (?_ : _ = s.hasCycle q).trans (h.alone q hq)
    cases q with
    | sweeper => rfl
    | executor p =>
      exact congrArg Executor.hasCycle (PerPort.get_set_of_ne s.execs _ fun hpn => hq (congrArg Requestor.executor hpn))

/-! ## The hops of the walk (R41, R43) -/

/-- One hop of a walk alone at work (R41). -/
theorem State.WalksAlone.hop (h : s.WalksAlone n rq) (ha : s.allocated (s.executor n).walkPos = true)
    (ht : (s.entry (s.executor n).walkPos).content = .forward k) (hh : (s.executor n).hops < Config.hopLimit) :
    exec (.walkHop n) s = .next (s.walkAt n k ((s.executor n).hops + 1)) := by
  rw [exec_walkHop, execWalkHop_follows h.cycle ha ht hh, h.complete_goOn]

/-- Along a chain of m forwards over allocated slots, m hops bring a walk alone at work to the slot it reaches. -/
theorem State.WalksAlone.runs_hops (h : s.WalksAlone n rq) (hm : (s.executor n).hops + m ≤ Config.hopLimit)
    (hk : s.follow m (s.executor n).walkPos = some k)
    (halloc : ∀ i x, i < m → s.follow i (s.executor n).walkPos = some x → s.allocated x = true) {cs : List Instr}
    (hrest : Runs cs (s.walkAt n k ((s.executor n).hops + m)) t) : Runs (List.replicate m (.walkHop n) ++ cs) s t := by
  induction m generalizing s with
  | zero =>
    obtain rfl : (s.executor n).walkPos = k := Option.some.inj hk
    rwa [Nat.add_zero, State.walkAt_self] at hrest
  | succ m ih =>
    rw [State.follow] at hk
    split at hk
    case h_1 j hj =>
      refine ⟨_, h.hop (halloc 0 _ (Nat.succ_pos m) rfl) hj (by omega), ih (h.walkAt j _) ?_ ?_ (fun i x hi hx => ?_) ?_⟩
      · rw [State.walkAt_hops]
        omega
      · rwa [State.walkAt_walkPos, State.walkAt_follow]
      · rw [State.walkAt_walkPos, State.walkAt_follow] at hx
        exact halloc (i + 1) x (Nat.succ_lt_succ hi) (by simpa only [State.follow, hj] using hx)
      · rwa [State.walkAt_walkAt, State.walkAt_hops, Nat.add_right_comm]
    all_goals cases hk

end Sys2Proof.Machine

open Sys2Proof Sys2Proof.Machine

/-- Settles O27: the hops bring the READ to the end of its chain, and there its terminal cycle, or after eight forwards one
hop more, answers it. -/
theorem readReachesTheEndOfItsChain : Obligations.ReadReachesTheEndOfItsChain := by
  intro s n tag named k m hready hdue hc hpos hhops hgoing halone hlast hfollow halloc answered hanswered
  have h : s.WalksAlone n ⟨tag, .read named⟩ := ⟨hready, hdue, hc, hgoing, halone, hlast⟩
  have hat := h.walkAt k m
  have hend : s.allocated k = true := halloc m k (Nat.le_refl m) hfollow
  have hruns : ∀ {cs t}, m ≤ 8 → Runs cs (s.walkAt n k m) t → Runs (List.replicate m (.walkHop n) ++ cs) s t :=
    fun hm hrest => h.runs_hops (by rw [hhops, Nat.zero_add]; exact hm) (by rw [hpos]; exact hfollow)
      (fun i x hi hx => halloc i x (Nat.le_of_lt hi) (by rwa [hpos] at hx)) (by rwa [hhops, Nat.zero_add])
  have hanswer : ∀ st c v, (s.walkAt n k m).complete n (.finish
      { walkReply ⟨tag, .read named⟩ ((s.walkAt n k m).executor n) st with content := c, version := v })
      = answered k st c v := fun st c v => by
    rw [hat.complete_finish rfl, hanswered, State.walkAt_cycleEnded, State.walkAt_executor]
    rfl
  have hpos' := s.walkAt_walkPos n k m
  constructor
  · intro hm hcontent
    refine hruns hm ⟨_, ?_, rfl⟩
    have hterm := State.atTerminal_eq hat.cycle hpos' hend hcontent
    simp only [exec_readTerminal, execReadTerminal, hterm, hanswer, hpos']
    rfl
  · rintro rfl ⟨t, ht⟩
    refine hruns (cs := [.walkHop n]) (Nat.le_refl 8) ⟨_, ?_, rfl⟩
    rw [exec_walkHop, execWalkHop_deep hat.cycle (by rwa [hpos']) (by rwa [hpos']) (State.walkAt_hops s n k 8).ge]
    exact congrArg _ (hanswer .chainDeep none none)
end

