-- ==== Sys2Proof/Proofs/TerminalEquations.lean ====
section
/-! SUPPORT. What the terminal cycle of a PUT and of a TAKE makes of the state, case by case (R22, R62, R66 to R75, R84, R85,
R87). -/

namespace Sys2Proof.Machine

variable {s : State} {n : Port} {tag : Tag} {named k : Slot} {mode : Byte} {x : Version} {v : Value} {wait : Nat}
  {m : PutMode} {st : Status} {rq : Request} {w : WaitRecord} {before after : List WaitRecord}

/-- The executor of a cycle whose request is not a LINK is on no LINK. -/
theorem State.not_onLink_of_cycleOf {w : Work} (hc : s.cycleOf n w = some rq) (hl : ∀ a b, rq.op ≠ .link a b) :
    (s.executor n).onLink = false := by
  obtain ⟨-, -, hcur⟩ := (s.cycleOf_eq_some n w rq).1 hc
  exact Executor.not_onLink hcur hl

/-- What an entry event does to the ports depends on the ports alone. -/
theorem State.postEntryEvent_ports_congr {p : State} (hp : p.ports = s.ports) (watchers : PerPort Bool)
    (kind : EventKind) (k : Slot) (ver : Version) (value : Option Value) (cause : Cause) :
    (p.postEntryEvent watchers kind k ver value cause).ports = (s.postEntryEvent watchers kind k ver value cause).ports := by
  simp only [State.postEntryEvent, State.postEvent, hp]

/-- A cycle that writes one entry, posts an event of it and answers its request changes nothing else; p is a state with
the same ports and executor. -/
theorem State.entryWrite_completes (p : State) (hx : p.executor n = s.executor n) (hp : p.ports = s.ports)
    (hl : (s.executor n).onLink = false) (k : Slot) (e : Entry) (watchers : PerPort Bool) (kind : EventKind)
    (ver : Version) (value : Option Value) (r : Reply) :
    ∃ t : State,
      ((s.setEntry k e).postEntryEvent watchers kind k ver value (.port n)).complete n (.finish r) = t.afterCompletion ∧
      t = { s.cycleEnded n with
        entries := t.entries
        ports := ((p.postEntryEvent watchers kind k ver value (.port n)).replyTo n r).ports } ∧
      ∀ j, t.entry j = if j = k then e else s.entry j :=
  ⟨_, State.complete_finish_eq _ n r hl,
    State.endedWith_eq (p.postEntryEvent _ _ _ _ _ _) hx.symm
      (State.postEntryEvent_ports_congr (s := p) hp.symm _ _ _ _ _ _) rfl,
    fun j => s.entry_setEntry j k e⟩

/-! ## The mode of a PUT (R66, R69, R70) -/

/-- The mode test passes on the entry e: the PUT stores always, or on an EMPTY entry, or on the version it expects. -/
def ModePasses (mode : Byte) (x : Version) (e : Entry) : Prop :=
  mode = 0x00#8 ∨ (mode = 0x01#8 ∧ e.content = .empty) ∨ (mode = 0x02#8 ∧ e.version = x)

theorem ModePasses.modeRefusal_none {e : Entry} (h : ModePasses mode x e) :
    ∃ m, modeOfCode mode = some m ∧ modeRefusal m x e = none := by
  rcases h with rfl | ⟨rfl, hempty⟩ | ⟨rfl, hver⟩
  · exact ⟨.always, rfl, rfl⟩
  · exact ⟨.ifEmpty, rfl, if_pos hempty⟩
  · exact ⟨.ifVersion, rfl, if_pos hver⟩

/-! ## The oldest wait record of a slot (R82, R87) -/

theorem State.oldestWait_of_split (hsplit : s.waits = before ++ w :: after) (hw : w.terminal = k)
    (hbefore : ∀ r ∈ before, r.terminal ≠ k) : s.oldestWait k = some w :=
  List.find?_eq_some_iff_append.2 ⟨decide_eq_true hw, before, after, hsplit, fun r hr => by simpa using hbefore r hr⟩

theorem State.oldestWait_eq_none (h : ∀ w ∈ s.waits, w.terminal ≠ k) : s.oldestWait k = none :=
  List.find?_eq_none.2 fun w hw => by simpa using h w hw

/-- Handing a value to the oldest record on a slot removes that record alone and answers it (R87). -/
theorem State.handTo_of_split (hsplit : s.waits = before ++ w :: after) (hw : w.terminal = k)
    (hbefore : ∀ r ∈ before, r.terminal ≠ k) (v : Value) (ver : Version) :
    s.handTo k w v ver = State.postReply { s with waits := before ++ after } w.port
      { waitReply w .ok (some (.value v)) (some ver) with terminal := some (k, w.hops) } := by
  have hrest : s.waits.eraseP (fun r => decide (r.terminal = k)) = before ++ after := by
    rw [hsplit, List.eraseP_append_right _ (fun r hr => by simpa using hbefore r hr), List.eraseP_cons, decide_eq_true hw,
      cond_true]
  simp only [State.handTo, State.removeOldestWait, hrest, waitReply, hw]

/-! ## PUT_TERMINAL (R62, R66 to R72) -/

section Put

variable (hat : s.atTerminal n = some ⟨tag, .put named mode x v⟩)
include hat

theorem execPutTerminal_notPermitted
    (hf : s.flagFails n (s.executor n).walkPos (s.entry (s.executor n).walkPos).access.putOpen st) :
    execPutTerminal n s =
      .next (s.complete n (.finish (walkReply ⟨tag, .put named mode x v⟩ (s.executor n) st))) := by
  simp only [execPutTerminal, hat, State.terminalRefusal_fails hf]

variable (hp : s.flagPasses n (s.executor n).walkPos (s.entry (s.executor n).walkPos).access.putOpen)
include hp

theorem execPutTerminal_modeRefused (hm : modeOfCode mode = some m)
    (hr : modeRefusal m x (s.entry (s.executor n).walkPos) = some st) :
    execPutTerminal n s =
      .next (s.complete n (.finish { walkReply ⟨tag, .put named mode x v⟩ (s.executor n) st with
        content := some (s.entry (s.executor n).walkPos).content
        version := some (s.entry (s.executor n).walkPos).version })) := by
  simp only [execPutTerminal, hat, State.terminalRefusal_passes hp, hm, hr]

variable (hm : ModePasses mode x (s.entry (s.executor n).walkPos))
include hm

theorem execPutTerminal_stores
    (hfree : (s.entry (s.executor n).walkPos).content = .empty → s.oldestWait (s.executor n).walkPos = none) :
    execPutTerminal n s = .next (s.putStore n ⟨tag, .put named mode x v⟩ v) := by
  obtain ⟨m, hm, hr⟩ := hm.modeRefusal_none
  simp only [execPutTerminal, hat, State.terminalRefusal_passes hp, hm, hr]
  split
  · next w hempty hw => rw [hfree hempty] at hw; cases hw
  · rfl

theorem execPutTerminal_handsOff (hempty : (s.entry (s.executor n).walkPos).content = .empty)
    (hw : s.oldestWait (s.executor n).walkPos = some w) :
    execPutTerminal n s = .next (s.putHandoff n ⟨tag, .put named mode x v⟩ w v) := by
  obtain ⟨m, hm, hr⟩ := hm.modeRefusal_none
  simp only [execPutTerminal, hat, State.terminalRefusal_passes hp, hm, hr, hempty, hw]

end Put

theorem putStoresItsValue : Claims.PutStoresItsValue := by
  intro s n tag named k h mode x v hc hk hh ha hpass hcontent hmode hfree
  subst hk hh
  have hat := State.atTerminal_eq hc rfl ha hcontent
  have hlink := State.not_onLink_of_cycleOf hc fun _ _ => RequestOp.noConfusion
  rw [exec_putTerminal, execPutTerminal_stores hat hpass hmode fun he => State.oldestWait_eq_none (hfree he)]
  obtain ⟨t, hdone, hframe, hentry⟩ := State.entryWrite_completes s rfl rfl hlink _ _ _ _ _ _ _
  exact ⟨t, congrArg Host.Outcome.next hdone, hframe, hentry⟩

theorem putHandsOffToTheOldestWait : Claims.PutHandsOffToTheOldestWait := by
  intro s n tag named k h mode x v before after w hc hk hh ha hpass hempty hmode hsplit hw hbefore
  subst hk hh
  have hat := State.atTerminal_eq hc rfl ha (by simp [hempty])
  have hlink := State.not_onLink_of_cycleOf hc fun _ _ => RequestOp.noConfusion
  have hm : ModePasses mode x (s.entry (s.executor n).walkPos) :=
    hmode.imp_right (Or.imp_left fun h1 => ⟨h1, hempty⟩)
  rw [exec_putTerminal, execPutTerminal_handsOff hat hpass hm hempty (State.oldestWait_of_split hsplit hw hbefore)]
  unfold State.putHandoff
  dsimp only
  rw [State.handTo_of_split (s := s.setEntry _ _) hsplit hw hbefore]
  obtain ⟨t, hdone, hframe, hentry⟩ := State.entryWrite_completes
    (s := State.postReply { s with waits := before ++ after } w.port _) (s.postReply w.port _) rfl rfl hlink _ _ _ _ _ _ _
  exact ⟨t, congrArg Host.Outcome.next hdone, hframe, hentry⟩

/-! ## TAKE_TERMINAL (R73 to R75, R84, R85) -/

section Take

variable (hat : s.atTerminal n = some ⟨tag, .take named wait⟩)
include hat

theorem execTakeTerminal_notPermitted
    (hf : s.flagFails n (s.executor n).walkPos (s.entry (s.executor n).walkPos).access.takeOpen st) :
    execTakeTerminal n s = .next (s.complete n (.finish (walkReply ⟨tag, .take named wait⟩ (s.executor n) st))) := by
  simp only [execTakeTerminal, hat, State.terminalRefusal_fails hf]

variable (hp : s.flagPasses n (s.executor n).walkPos (s.entry (s.executor n).walkPos).access.takeOpen)
include hp

theorem execTakeTerminal_empties (hv : (s.entry (s.executor n).walkPos).content = .value v) :
    execTakeTerminal n s = .next (s.takeValue n ⟨tag, .take named wait⟩ v) := by
  simp only [execTakeTerminal, hat, State.terminalRefusal_passes hp, hv]

theorem execTakeTerminal_waits (hempty : (s.entry (s.executor n).walkPos).content = .empty) (hwait : 0 < wait) :
    execTakeTerminal n s = .next (s.takeWait n ⟨tag, .take named wait⟩ named wait) := by
  simp only [execTakeTerminal, hat, State.terminalRefusal_passes hp, hempty, if_neg hwait.ne']

end Take

theorem execTakeTerminal_answersEmpty (hat : s.atTerminal n = some ⟨tag, .take named 0⟩)
    (hp : s.flagPasses n (s.executor n).walkPos (s.entry (s.executor n).walkPos).access.takeOpen)
    (hempty : (s.entry (s.executor n).walkPos).content = .empty) :
    execTakeTerminal n s =
      .next (s.complete n (.finish { walkReply ⟨tag, .take named 0⟩ (s.executor n) .empty with
        content := some .empty, version := some (s.entry (s.executor n).walkPos).version })) := by
  simp only [execTakeTerminal, hat, State.terminalRefusal_passes hp, hempty, if_true]

theorem takeEmptiesAValue : Claims.TakeEmptiesAValue := by
  intro s n tag named k h wait v hc hk hh ha hpass hv
  subst hk hh
  have hat := State.atTerminal_eq hc rfl ha (by simp [hv])
  have hlink := State.not_onLink_of_cycleOf hc fun _ _ => RequestOp.noConfusion
  rw [exec_takeTerminal, execTakeTerminal_empties hat hpass hv]
  obtain ⟨t, hdone, hframe, hentry⟩ := State.entryWrite_completes s rfl rfl hlink _ _ _ _ _ _ _
  exact ⟨t, congrArg Host.Outcome.next hdone, hframe, hentry⟩

theorem takeOnEmptyWaits : Claims.TakeOnEmptyWaits := by
  intro s n tag named k h wait hc hk hh ha hpass hempty ended hended
  subst hk hh
  have hat := State.atTerminal_eq hc rfl ha (by simp [hempty])
  have hlink := State.not_onLink_of_cycleOf hc fun _ _ => RequestOp.noConfusion
  rw [exec_takeTerminal]
  refine ⟨fun h0 => ?noWait, fun hpos hport => ?lost, fun hpos hport hfull => ?waitFull, fun hpos hport hroom => ?parks⟩
  case noWait =>
    subst h0
    rw [execTakeTerminal_answersEmpty hat hpass hempty, State.complete_finish_eq s n _ hlink, hended]
    rfl
  case lost =>
    rw [execTakeTerminal_waits hat hpass hempty hpos, State.takeWait, if_pos hport, State.complete_endSilent_eq s n hlink]
  case waitFull =>
    rw [execTakeTerminal_waits hat hpass hempty hpos, State.takeWait, if_neg (not_not.2 hport),
      if_neg (Nat.not_lt.2 hfull : ¬ s.waits.length < Config.waitPlaces), State.complete_finish_eq s n _ hlink, hended]
    rfl
  case parks =>
    rw [execTakeTerminal_waits hat hpass hempty hpos, State.takeWait, if_neg (not_not.2 hport),
      if_pos (show s.waits.length < Config.waitPlaces from hroom),
      State.complete_endSilent_eq { s with waits := s.waits ++ [_] } n hlink]
    rfl

end Sys2Proof.Machine

open Sys2Proof Sys2Proof.Machine

/-- Settles O28: a store where the terminal has no taker, and a handoff to the first of them. -/
theorem putsStoreOrHandOff : Obligations.PutsStoreOrHandOff := ⟨putStoresItsValue, putHandsOffToTheOldestWait⟩

/-- Settles O29: the permission test first, then the mode test of a PUT, each refusal ending the cycle with its reply. -/
theorem putAndTakeRefusals : Obligations.PutAndTakeRefusals := by
  intro s n tag named k h hk hh ha hcontent ended hended
  subst hk hh
  refine ⟨fun mode x v hc _ => ?put, fun wait hc st hf => ?take⟩
  case take =>
    have hat := State.atTerminal_eq hc rfl ha hcontent
    have hlink := State.not_onLink_of_cycleOf hc fun _ _ => RequestOp.noConfusion
    rw [exec_takeTerminal, execTakeTerminal_notPermitted hat hf, State.complete_finish_eq s n _ hlink, hended]
    rfl
  case put =>
    have hat := State.atTerminal_eq hc rfl ha hcontent
    have hlink := State.not_onLink_of_cycleOf hc fun _ _ => RequestOp.noConfusion
    rw [exec_putTerminal]
    refine ⟨fun st hf => ?permission, fun hpass => ⟨fun hmode hne => ?notEmpty, fun hmode hne => ?mismatch⟩⟩
    case permission =>
      rw [execPutTerminal_notPermitted hat hf, State.complete_finish_eq s n _ hlink, hended]
      rfl
    case notEmpty =>
      subst hmode
      rw [execPutTerminal_modeRefused hat hpass (m := .ifEmpty) rfl (if_neg hne), State.complete_finish_eq s n _ hlink,
        hended]
      rfl
    case mismatch =>
      subst hmode
      rw [execPutTerminal_modeRefused hat hpass (m := .ifVersion) rfl (if_neg hne), State.complete_finish_eq s n _ hlink,
        hended]
      rfl

/-- Settles O30: a VALUE is taken, and on an EMPTY terminal the wait time, the port state and the room in the Wait Table
decide. -/
theorem takesEmptyOrWait : Obligations.TakesEmptyOrWait := ⟨takeEmptiesAValue, takeOnEmptyWaits⟩
end

