-- ==== Sys2Proof/Proofs/ClearAndCheckpoint.lean ====
section
/-! SUPPORT. What CLEAR_CYCLE and CHECKPOINT_CYCLE make of an entry that the requester may modify (R12, R77 to R79). -/

namespace Sys2Proof.Machine

variable {s : State} {n : Port} {tag : Tag} {k : Slot}

/-! ## CLEAR_CYCLE (R12, R77, R78) -/

theorem execClearCycle_permitted (hc : s.cycleOf n .single = some ⟨tag, .clear k⟩) (ha : s.allocated k = true)
    (hm : s.modifyPasses n k) : execClearCycle n s = .next (s.clearEntry n ⟨tag, .clear k⟩ k) := by
  simp only [execClearCycle, hc, State.ifAllocated_of_allocated _ ha, State.modifyRefusal_passes hm]

/-- A cycle that writes one entry, drops the forward of a content, posts an event and answers its request changes nothing
else. -/
theorem State.entryWrite_dropForward_completes (hl : (s.executor n).onLink = false) (k : Slot) (e : Entry) (c : Content)
    (watchers : PerPort Bool) (kind : EventKind) (ver : Version) (value : Option Value) (r : Reply) :
    ∃ t : State,
      (((s.setEntry k e).dropForward c).postEntryEvent watchers kind k ver value (.port n)).complete n (.finish r)
        = t.afterCompletion ∧
      t = { s.cycleEnded n with
        entries := t.entries, rows := t.rows
        ports := ((s.postEntryEvent watchers kind k ver value (.port n)).replyTo n r).ports } ∧
      (∀ j, t.entry j = if j = k then e else s.entry j) ∧
      ∀ j, t.row j = { s.row j with inbound := (s.row j).inbound - if c = Content.forward j then 1 else 0 } := by
  have hrow := (s.setEntry k e).dropForward_row c
  obtain ⟨rows, hdrop⟩ : ∃ rows, (s.setEntry k e).dropForward c = { s.setEntry k e with rows := rows } :=
    ⟨_, State.dropForward_frame _ c⟩
  rw [hdrop] at hrow ⊢
  exact ⟨_, State.complete_finish_eq _ n r hl, State.endedWith_eq (s.postEntryEvent _ _ _ _ _ _) rfl rfl rfl,
    fun j => s.entry_setEntry j k e, hrow⟩

theorem clearEmptiesItsEntry : Claims.ClearEmptiesItsEntry := by
  intro s n tag k hc ha hpass reply hreply
  have hlink := State.not_onLink_of_cycleOf hc fun _ _ => RequestOp.noConfusion
  rw [exec_clearCycle, execClearCycle_permitted hc ha hpass]
  refine ⟨fun hempty => ?empty, fun hcontent => ?content⟩
  case empty =>
    simp only [State.clearEntry, hempty, if_true, State.complete_finish_eq s n _ hlink, hreply]
    rfl
  case content =>
    rw [State.clearEntry, if_neg hcontent, hreply]
    obtain ⟨t, hdone, hframe, hentry, hrow⟩ := State.entryWrite_dropForward_completes hlink _ _ _ _ _ _ _ _
    exact ⟨t, congrArg Host.Outcome.next hdone, hframe, hentry, hrow⟩

/-! ## CHECKPOINT_CYCLE (R79) -/

theorem execCheckpointCycle_permitted (hc : s.cycleOf n .single = some ⟨tag, .checkpoint k⟩)
    (ha : s.allocated k = true) (hm : s.modifyPasses n k) :
    execCheckpointCycle n s = .next (s.checkpointEntry n ⟨tag, .checkpoint k⟩ k) := by
  simp only [execCheckpointCycle, hc, State.ifAllocated_of_allocated _ ha, State.modifyRefusal_passes hm]

/-- A cycle that writes one entry, posts no event and answers its request changes nothing else. -/
theorem State.silentWrite_completes (hl : (s.executor n).onLink = false) (k : Slot) (e : Entry) (r : Reply) :
    ∃ t : State, (s.setEntry k e).complete n (.finish r) = t.afterCompletion ∧
      t = { s.cycleEnded n with entries := t.entries, ports := (s.replyTo n r).ports } ∧
      ∀ j, t.entry j = if j = k then e else s.entry j :=
  ⟨_, State.complete_finish_eq _ n r hl, State.endedWith_eq s rfl rfl rfl, fun j => s.entry_setEntry j k e⟩

theorem checkpointSavesTheContent : Claims.CheckpointSavesTheContent := by
  intro s n tag k hc ha hpass
  have hlink := State.not_onLink_of_cycleOf hc fun _ _ => RequestOp.noConfusion
  rw [exec_checkpointCycle, execCheckpointCycle_permitted hc ha hpass, State.checkpointEntry]
  cases hcontent : (s.entry k).content with
  | forward u =>
    refine ⟨_, congrArg Host.Outcome.next (State.complete_finish_eq s n _ hlink), rfl, fun j => ?_⟩
    split
    · next hj => exact congrArg s.entry hj
    · rfl
  | empty | value =>
    obtain ⟨t, hdone, hframe, hentry⟩ := State.silentWrite_completes hlink _ _ _
    refine ⟨t, congrArg Host.Outcome.next hdone, hframe, fun j => ?_⟩
    simpa only [hcontent] using hentry j

end Sys2Proof.Machine

open Sys2Proof Sys2Proof.Machine

/-- Settles O34: CLEAR by what stands in the entry, and CHECKPOINT by the kind of its content. -/
theorem clearAndCheckpointAct : Obligations.ClearAndCheckpointAct := ⟨clearEmptiesItsEntry, checkpointSavesTheContent⟩
end

