-- ==== Sys2Proof/Proofs/WaitTable.lean ====
section
/-! SUPPORT. The Wait Table takes a delivered tick, and what a step keeps of its records (R83, R89, R160). -/

namespace Sys2Proof.Machine

variable {s : State} {p : Port}

/-! ## A delivered tick (R89, R127) -/

/-- A tick brings a remaining time to 0 just where one more tick ends the wait. -/
theorem WaitRecord.tick_expired (w : WaitRecord) : w.tick.expired = w.endsNow := by
  unfold WaitRecord.expired WaitRecord.tick WaitRecord.endsNow
  cases w.remaining with
  | none => rfl
  | some m =>
    have hzero : m - 1 = 0 ↔ m ≤ 1 := by omega
    simp [hzero]

/-- The records that a tick leaves are those that it does not end, lowered. -/
theorem State.takeWaitTick_waits : s.takeWaitTick.waits = (s.waits.filter (fun w => !w.endsNow)).map WaitRecord.tick := by
  simp only [State.takeWaitTick, State.postReplies_waits, List.filter_map, Function.comp_def, WaitRecord.tick_expired]

/-- The records that a tick ends are answered TIMEOUT in arrival order; a reply names no remaining time. -/
theorem State.takeWaitTick_port : s.takeWaitTick.port p = { s.port p with
    replyQueue := (s.port p).replyQueue ++ (s.waits.filter (fun w => decide (w.port = p) && w.endsNow)).map
      (fun w => waitReply w .timeout none none) } := by
  have hends : (fun w => WaitRecord.expired w && decide (w.port = p)) ∘ WaitRecord.tick =
      fun w => decide (w.port = p) && w.endsNow :=
    funext fun w => (congrArg (· && decide (w.port = p)) w.tick_expired).trans (Bool.and_comm _ _)
  simp only [State.takeWaitTick, State.postReplies_port, List.filter_map, List.map_map, hends]
  rfl

theorem execWaitExpiry_takes (hdue : 0 < s.waitDue) :
    execWaitExpiry s = .next { s with waitDue := s.waitDue - 1 }.takeWaitTick :=
  congrArg Host.Outcome.next (if_neg hdue.ne')

theorem expiredWaitsAreAnsweredTimeout : Claims.ExpiredWaitsAreAnsweredTimeout := by
  intro s hdue
  exact ⟨_, execWaitExpiry_takes hdue, rfl, State.takeWaitTick_waits, fun p => State.takeWaitTick_port⟩

theorem leaseTakesADeliveredTick : Claims.LeaseTakesADeliveredTick := by
  intro s n m hdue htimer hm
  simp only [exec_leaseExpiry, execLeaseExpiry, if_neg hdue.ne', htimer, if_pos (show 1 < m from hm)]

/-! ## The tags of parked takes (R83, R160) -/

/-- A parked take is one of its port's outstanding requests. -/
theorem State.waitTags_sublist (s : State) (p : Port) : (waitTags s.waits p).Sublist (s.outstandingPlaces p) := by
  rw [State.outstandingPlaces_eq]
  exact (List.sublist_append_right _ _).trans
    ((List.sublist_append_left _ (sweepTags s.sweeps p)).trans (List.sublist_append_left _ (s.replyTags p)))

/-- No two parked takes of a port carry the same tag, as no two of its outstanding requests do. -/
theorem State.OutstandingLaw.waitTags_nodup (h : s.OutstandingLaw) (p : Port) : (waitTags s.waits p).Nodup :=
  (s.waitTags_sublist p).nodup ((h.onePlaceEach p).nodup (h.tagsDiffer p))

end Sys2Proof.Machine

open Sys2Proof Sys2Proof.Machine

/-- Settles O13: the Wait Table's tick, and a lease timer's that stands above 1. -/
theorem deliveredTicksAreTaken : Obligations.DeliveredTicksAreTaken :=
  ⟨expiredWaitsAreAnsweredTimeout, leaseTakesADeliveredTick⟩

/-- Settles O52: the law of the Wait Table is one of the laws that a step keeps, and the tags differ by the law of the
outstanding requests. -/
theorem waitLawsAreKept : Obligations.WaitLawsAreKept := fun s t h hst =>
  have ht := allLawsAreKept s t h hst
  ⟨ht.waits, ht.outstanding.waitTags_nodup⟩
end

