-- ==== Sys2Proof/Proofs/Commits.lean ====
section
/-! SUPPORT. What COMMIT_CYCLE makes of the state, test by test (R12, R55 to R58, R91). -/

namespace Sys2Proof.Machine

variable {s : State} {n : Port} {tag : Tag} {named target : Slot} {st : Status}
  {c : Option Content} {v : Option Version}

/-! ## The writes of a commit (R12, R57, R91) -/

/-- A commit writes the directory beside ending the waits on its entry. -/
theorem State.linkEntry_frame : s.linkEntry named target st c v = { s.endWaitsOn named st c v with
    entries := (s.linkEntry named target st c v).entries, rows := (s.linkEntry named target st c v).rows } := by
  unfold State.linkEntry
  rw [State.dropForward_frame]
  rfl

theorem State.linkEntry_entry (j : Slot) :
    (s.linkEntry named target st c v).entry j = if j = named then (s.entry named).linked target else s.entry j := by
  have hdrop : (State.dropForward (s.setEntry named ((s.entry named).linked target)) (s.entry named).content).entry j =
      (s.setEntry named ((s.entry named).linked target)).entry j := by
    rw [State.dropForward_frame]
    rfl
  exact hdrop.trans (s.entry_setEntry j named _)

/-- The inbound counts after a commit: the entry's former target loses one, and its new target gains one, which may be the
same slot (R12). -/
theorem State.linkEntry_row (j : Slot) :
    (s.linkEntry named target st c v).row j = { s.row j with
      inbound := ((s.row j).inbound - if (s.entry named).content = Content.forward j then 1 else 0)
        + if j = target then 1 else 0 } := by
  have hdrop := State.dropForward_row (s.setEntry named ((s.entry named).linked target)) (s.entry named).content
  show (State.raiseInbound _ target).row j = _
  rw [State.row_raiseInbound]
  split
  · next hj => rw [hj, hdrop]; rfl
  · rw [hdrop]; rfl

/-! ## COMMIT_CYCLE (R55, R58) -/

theorem Content.isValue_false {c : Content} (h : ∀ v, c ≠ .value v) : c.isValue = false := by
  cases c with
  | value v => exact absurd rfl (h v)
  | empty | forward => rfl

section Commit

variable (hc : s.cycleOf n .commit = some ⟨tag, .link named target⟩)
include hc

theorem execCommitCycle_unallocated (ha : s.allocated named = false) : execCommitCycle n s =
    .next (s.complete n (.finish { bareReply ⟨tag, .link named target⟩ .unallocated with
      terminal := some (named, (s.executor n).hops) })) := by
  simp only [execCommitCycle, hc, ha, if_true]

variable (ha : s.allocated named = true)
include ha

theorem execCommitCycle_notPermitted (hf : s.modifyFails n named st) : execCommitCycle n s =
    .next (s.complete n (.finish { bareReply ⟨tag, .link named target⟩ st with
      terminal := some (named, (s.executor n).hops) })) := by
  simp only [execCommitCycle, hc, ha, Bool.true_eq_false, if_false, State.modifyRefusal_fails hf]

variable (hp : s.modifyPasses n named)
include hp

theorem execCommitCycle_notEmpty {v : Value} (hv : (s.entry named).content = .value v) : execCommitCycle n s =
    .next (s.complete n (.finish { bareReply ⟨tag, .link named target⟩ .notEmpty with
      terminal := some (named, (s.executor n).hops) })) := by
  simp only [execCommitCycle, hc, ha, Bool.true_eq_false, if_false, State.modifyRefusal_passes hp, hv, Content.isValue,
    if_true]

variable (hv : (s.entry named).content.isValue = false)
include hv

theorem execCommitCycle_targetUnallocated (ht : s.allocated target = false) : execCommitCycle n s =
    .next (s.complete n (.finish { bareReply ⟨tag, .link named target⟩ .unallocated with
      terminal := some (target, (s.executor n).hops) })) := by
  simp only [execCommitCycle, hc, ha, Bool.true_eq_false, if_false, State.modifyRefusal_passes hp, hv, ht, if_true,
    Bool.false_eq_true]

theorem execCommitCycle_links (ht : s.allocated target = true) :
    execCommitCycle n s = .next (s.commitLink n ⟨tag, .link named target⟩ named target) := by
  simp only [execCommitCycle, hc, ha, Bool.true_eq_false, if_false, State.modifyRefusal_passes hp, hv, ht,
    Bool.false_eq_true]

end Commit

/-- A commit that links writes the directory, answers the waits that it ends, posts an event and its reply, passes the token,
and changes nothing else; p is a state with the same executor and the replies to those waits posted. -/
theorem State.linkEntry_completes (p : State) (hx : p.executor n = s.executor n)
    (hp : p.ports = (s.endWaitsOn named st c v).ports) (hl : (s.executor n).onLink = true) (watchers : PerPort Bool)
    (kind : EventKind) (ver : Version) (r : Reply) :
    ∃ t : State,
      ((s.linkEntry named target st c v).postEntryEvent watchers kind named ver none (.port n)).complete n (.finish r)
        = t.passToken.afterCompletion ∧
      t = { s.cycleEnded n with
        entries := t.entries, rows := t.rows, waits := s.waits.filter (fun w => decide (w.terminal ≠ named))
        ports := ((p.postEntryEvent watchers kind named ver none (.port n)).replyTo n r).ports } ∧
      (∀ j, t.entry j = if j = named then (s.entry named).linked target else s.entry j) ∧
      ∀ j, t.row j = { s.row j with
        inbound := ((s.row j).inbound - if (s.entry named).content = Content.forward j then 1 else 0)
          + if j = target then 1 else 0 } := by
  have hframe := s.linkEntry_frame (named := named) (target := target) (st := st) (c := c) (v := v)
  have hentry := s.linkEntry_entry (named := named) (target := target) (st := st) (c := c) (v := v)
  have hrow := s.linkEntry_row (named := named) (target := target) (st := st) (c := c) (v := v)
  generalize s.linkEntry named target st c v = u at hframe hentry hrow ⊢
  have hexec : u.executor n = s.executor n := State.executor_congr (congrArg State.execs hframe) n
  have hports : u.ports = p.ports := (congrArg State.ports hframe).trans hp.symm
  have hposted : ((u.postEntryEvent watchers kind named ver none (.port n)).replyTo n r).ports =
      ((p.postEntryEvent watchers kind named ver none (.port n)).replyTo n r).ports :=
    State.replyTo_ports_congr (hexec.trans hx.symm) (State.postEntryEvent_ports_congr hports _ _ _ _ _ _)
  refine ⟨_, State.complete_finish_link _ n r ((congrArg Executor.onLink hexec).trans hl), ?_, hentry, hrow⟩
  rw [State.endedWith, hposted, hframe]
  rfl

end Sys2Proof.Machine

open Sys2Proof Sys2Proof.Machine

/-- Settles O32: the four tests of the commit in their order, each refusal ending the LINK with its reply, and then its
writes. -/
theorem commitLinksItsEntry : Obligations.CommitLinksItsEntry := by
  intro s n tag named target k h hc hk hh refused hrefused
  subst hk hh
  obtain ⟨-, -, hcur⟩ := (s.cycleOf_eq_some n .commit _).1 hc
  have hlink := Executor.onLink_of_link hcur
  have hrefuse : ∀ st j, s.complete n (.finish { bareReply ⟨tag, .link named target⟩ st with
      terminal := some (j, (s.executor n).hops) }) = refused st j :=
    fun st j => (s.complete_finish_link n _ hlink).trans (hrefused st j).symm
  rw [exec_commitCycle]
  refine ⟨fun ha => ?unallocated, fun ha => ⟨fun st hf => ?permission, fun hp => ⟨fun v hv => ?notEmpty, fun hne =>
    have hv := Content.isValue_false hne
    ⟨fun ht => ?target, fun ht => ?links⟩⟩⟩⟩
  case unallocated => rw [execCommitCycle_unallocated hc ha, hrefuse]
  case permission => rw [execCommitCycle_notPermitted hc ha hf, hrefuse]
  case notEmpty => rw [execCommitCycle_notEmpty hc ha hp hv, hrefuse]
  case target => rw [execCommitCycle_targetUnallocated hc ha hp hv ht, hrefuse]
  case links =>
    rw [execCommitCycle_links hc ha hp hv ht]
    obtain ⟨t, hdone, hframe, hentry, hrow⟩ := State.linkEntry_completes (s := s) (s.postReplies _) rfl rfl hlink _ _ _ _
    exact ⟨t, congrArg Host.Outcome.next hdone, hframe, hentry, hrow⟩
end

