-- ==== Sys2Proof/Proofs/SlotPool.lean ====
section
/-! SUPPORT. What ALLOC_CYCLE and RETIRE_CYCLE make of the state: a slot leaves the head of the free list, and comes back to
its tail (R9, R14, R15, R97, R98, R100 to R102). -/

namespace Sys2Proof.Machine

variable {s : State} {n : Port} {tag : Tag} {k : Slot} {rest : List Slot} {d pf tf : Byte} {a : Access}

/-! ## The owned counts, for every port at once (R14) -/

theorem State.raiseOwned_tally_add (s : State) (p q : Port) : (s.raiseOwned p).tallies.get q =
    { s.tallies.get q with owned := (s.tallies.get q).owned + if q = p then 1 else 0 } := by
  rw [State.raiseOwned_tally]
  by_cases hq : q = p
  · rw [if_pos hq, if_pos hq, hq]
  · rw [if_neg hq, if_neg hq]
    rfl

theorem State.lowerOwned_tally_sub (s : State) (p q : Port) : (s.lowerOwned p).tallies.get q =
    { s.tallies.get q with owned := (s.tallies.get q).owned - if q = p then 1 else 0 } := by
  rw [State.lowerOwned_tally]
  by_cases hq : q = p
  · rw [if_pos hq, if_pos hq, hq]
  · rw [if_neg hq, if_neg hq]
    rfl

/-! ## ALLOC_CYCLE (R97, R98) -/

theorem execAllocCycle_takes (hc : s.cycleOf n .single = some ⟨tag, .alloc d pf tf⟩)
    (hterms : accessOfCodes d pf tf = some a) (hlist : s.freeList = k :: rest) :
    execAllocCycle n s = .next (s.allocHead n ⟨tag, .alloc d pf tf⟩ k rest a) := by
  simp only [execAllocCycle, hc, hterms, hlist]

theorem execAllocCycle_poolEmpty (hc : s.cycleOf n .single = some ⟨tag, .alloc d pf tf⟩)
    (hterms : accessOfCodes d pf tf = some a) (hlist : s.freeList = []) :
    execAllocCycle n s = .next (s.refuse n ⟨tag, .alloc d pf tf⟩ .poolEmpty) := by
  simp only [execAllocCycle, hc, hterms, hlist]

theorem State.allocate_row (s : State) (k : Slot) (rest : List Slot) (j : Slot) :
    (s.allocate k rest).row j = if j = k then { s.row k with allocated := true } else s.row j :=
  State.row_setRow _ j k _

/-- An allocation writes the slot's entry and row, the owned counts and the free list, answers its request and changes
nothing else. -/
theorem State.allocation_completes (hl : (s.executor n).onLink = false) (k : Slot) (rest : List Slot) (e : Entry)
    (r : Reply) :
    ∃ t : State,
      (((s.allocate k rest).setEntry k e).raiseOwned n).complete n (.finish r) = t.afterCompletion ∧
      t = { s.cycleEnded n with
        entries := t.entries, rows := t.rows, tallies := t.tallies, freeList := rest, ports := (s.replyTo n r).ports } ∧
      (∀ j, t.entry j = if j = k then e else s.entry j) ∧
      (∀ j, t.row j = if j = k then { s.row k with allocated := true } else s.row j) ∧
      ∀ p, t.tallies.get p = { s.tallies.get p with owned := (s.tallies.get p).owned + if p = n then 1 else 0 } :=
  ⟨_, State.complete_finish_eq _ n r hl, State.endedWith_eq s rfl rfl rfl, fun j => s.entry_setEntry j k e,
    s.allocate_row k rest, s.raiseOwned_tally_add n⟩

theorem allocTakesTheHead : Claims.AllocTakesTheHead := by
  intro s n tag d pf tf a k rest hc hterms hlist
  have hlink := State.not_onLink_of_cycleOf hc fun _ _ => RequestOp.noConfusion
  rw [exec_allocCycle, execAllocCycle_takes hc hterms hlist]
  obtain ⟨t, hdone, hwrites⟩ := State.allocation_completes hlink k rest ((s.entry k).ownedUnder n a) _
  exact ⟨t, congrArg Host.Outcome.next hdone, hwrites⟩

theorem allocOnAnEmptyPool : Claims.AllocOnAnEmptyPool := by
  intro s n tag d pf tf a hc hterms hlist
  rw [exec_allocCycle, execAllocCycle_poolEmpty hc hterms hlist,
    State.refuse_eq .poolEmpty hc fun _ _ => RequestOp.noConfusion]
  rfl

/-! ## The writes of a retirement (R9, R14, R15, R101) -/

theorem State.free_row (s : State) (k j : Slot) :
    (s.free k).row j = if j = k then { s.row k with allocated := false } else s.row j :=
  State.row_setRow _ j k _

/-- A retirement writes, beside its slot's place in the pool, the entries and the tallies. -/
theorem State.retiring_frame (s : State) (n : Port) (k : Slot) (v : Version) :
    s.retiring n k v = { s with entries := (s.retiring n k v).entries, tallies := (s.retiring n k v).tallies } := by
  unfold State.retiring
  split <;> rfl

theorem State.retiring_entry (s : State) (n : Port) (k : Slot) (v : Version) (j : Slot) :
    (s.retiring n k v).entry j = if j = k then .retired v else s.entry j := by
  unfold State.retiring
  split
  · exact (s.lowerOwned n).entry_setEntry j k _
  · exact s.entry_setEntry j k _

/-- The requester's owned count falls where it owned the entry, and the watch count of each port that watched it. -/
theorem State.retiring_tally (s : State) (n : Port) (k : Slot) (v : Version) (p : Port) :
    (s.retiring n k v).tallies.get p = {
      owned := (s.tallies.get p).owned - if p = n ∧ (s.entry k).owner = some n then 1 else 0
      watch := (s.tallies.get p).watch - if (s.entry k).watch.get p then 1 else 0 } := by
  have howned : (if (s.entry k).owner = some n then s.lowerOwned n else s).tallies.get p = { s.tallies.get p with
      owned := (s.tallies.get p).owned - if p = n ∧ (s.entry k).owner = some n then 1 else 0 } := by
    by_cases ho : (s.entry k).owner = some n
    · simp only [ho, if_true, and_true, State.lowerOwned_tally_sub]
    · simp only [ho, if_false, and_false, Nat.sub_zero]
  unfold State.retiring
  rw [State.lowerWatchers_tally, State.setEntry_tallies, howned]
  split
  · rfl
  · rfl

/-- A retirement writes the slot's entry and row, the tallies and the free list, posts an event, answers its request and
changes nothing else. -/
theorem State.retirement_completes (hl : (s.executor n).onLink = false) (k : Slot) (v : Version) (r : Reply) :
    ∃ t : State,
      (((s.retiring n k v).free k).postEntryEvent (s.entry k).watch .entryRetired k v none (.port n)).complete n (.finish r)
        = t.afterCompletion ∧
      t = { s.cycleEnded n with
        entries := t.entries, rows := t.rows, tallies := t.tallies, freeList := s.freeList ++ [k]
        ports := ((s.postEntryEvent (s.entry k).watch .entryRetired k v none (.port n)).replyTo n r).ports } ∧
      (∀ j, t.entry j = if j = k then .retired v else s.entry j) ∧
      (∀ j, t.row j = if j = k then { s.row k with allocated := false } else s.row j) ∧
      ∀ p, t.tallies.get p = {
        owned := (s.tallies.get p).owned - if p = n ∧ (s.entry k).owner = some n then 1 else 0
        watch := (s.tallies.get p).watch - if (s.entry k).watch.get p then 1 else 0 } := by
  have hentry := s.retiring_entry n k v
  have htally := s.retiring_tally n k v
  obtain ⟨entries, tallies, hframe⟩ : ∃ entries tallies,
      s.retiring n k v = { s with entries := entries, tallies := tallies } := ⟨_, _, s.retiring_frame n k v⟩
  rw [hframe] at hentry htally ⊢
  exact ⟨_, State.complete_finish_eq _ n r hl, State.endedWith_eq (s.postEntryEvent _ _ _ _ _ _) rfl rfl rfl, hentry,
    State.free_row _ k, htally⟩

/-! ## RETIRE_CYCLE (R100) -/

/-- A RETIRE of a pooled slot that the requester may modify makes the tests that remain, in their order. -/
theorem execRetireCycle_permitted (hc : s.cycleOf n .single = some ⟨tag, .retire k⟩) (hpool : Config.fixedSlots ≤ k)
    (ha : s.allocated k = true) (hm : s.modifyPasses n k) : execRetireCycle n s = .next
      (if (s.entry k).content ≠ .empty then
        s.complete n (.finish { bareReply ⟨tag, .retire k⟩ .notEmpty with
          content := some (s.entry k).content, version := some (s.entry k).version })
      else if s.inbound k ≠ 0 then
        s.complete n (.finish { bareReply ⟨tag, .retire k⟩ .referenced with extra := .inbound (s.inbound k) })
      else if s.waitsOn k ≠ 0 then
        s.complete n (.finish { bareReply ⟨tag, .retire k⟩ .waitersPresent with extra := .waiters (s.waitsOn k) })
      else s.retireEntry n ⟨tag, .retire k⟩ k) := by
  simp only [execRetireCycle, hc, if_neg (Nat.not_lt.2 hpool), State.ifAllocated_of_allocated _ ha,
    State.modifyRefusal_passes hm]

end Sys2Proof.Machine

open Sys2Proof Sys2Proof.Machine

/-- Settles O36: the two cases of the free list. -/
theorem allocTakesOrIsRefused : Obligations.AllocTakesOrIsRefused := ⟨allocTakesTheHead, allocOnAnEmptyPool⟩

/-- Settles O37: the three tests of RETIRE in their order, each refusal ending the cycle with its reply, and then its
writes. -/
theorem retireReturnsTheSlot : Obligations.RetireReturnsTheSlot := by
  intro s n tag k hc hpool ha hm refused hrefused
  have hlink := State.not_onLink_of_cycleOf hc fun _ _ => RequestOp.noConfusion
  have hrefuse : ∀ st c v x, s.complete n (.finish { bareReply ⟨tag, .retire k⟩ st with
      content := c, version := v, extra := x }) = refused st c v x :=
    fun st c v x => (s.complete_finish_eq n _ hlink).trans (hrefused st c v x).symm
  rw [exec_retireCycle, execRetireCycle_permitted hc hpool ha hm]
  refine ⟨fun hcontent => ?notEmpty, fun hempty hin => ?referenced, fun hempty hin hwaits => ?waitersPresent,
    fun hempty hin hwaits => ?retires⟩
  case notEmpty =>
    rw [if_pos hcontent, ← hrefuse]
    rfl
  case referenced =>
    rw [if_neg (not_not.2 hempty), if_pos hin.ne', ← hrefuse]
    rfl
  case waitersPresent =>
    rw [if_neg (not_not.2 hempty), if_neg (not_not.2 hin), if_pos hwaits.ne', ← hrefuse]
    rfl
  case retires =>
    rw [if_neg (not_not.2 hempty), if_neg (not_not.2 hin), if_neg (not_not.2 hwaits)]
    obtain ⟨t, hdone, hwrites⟩ := State.retirement_completes hlink k ((s.entry k).version + 1) _
    exact ⟨t, congrArg Host.Outcome.next hdone, hwrites⟩
end

