-- ==== Sys2Proof/Proofs/Ownership.lean ====
section
/-! SUPPORT. What CLAIM_CYCLE, ADOPT_CYCLE, RELEASE_CYCLE and SET_ACCESS_CYCLE make of the state (R14, R109 to R112). -/

namespace Sys2Proof.Machine

variable {s : State} {n q : Port} {tag : Tag} {k : Slot} {d pf tf : Byte} {a : Access} {e : Entry} {st : Status}
  {x : Extra} {stateOf : Port → PortState}

/-! ## The tests of the owner (R107, R109, R111) -/

theorem claimRefusal_unowned (h : e.owner = none) : claimRefusal stateOf e = none := by
  simp only [claimRefusal, h]

theorem claimRefusal_owned (h : e.owner = some q) : claimRefusal stateOf e =
    if e.orphaned then some (.orphaned, .none)
    else if stateOf q = .closing then some (.pendingRecovery, .none)
    else some (.alreadyOwned, .owner (some q)) := by
  simp only [claimRefusal, h]

theorem adoptRefusal_unowned (h : e.owner = none) : adoptRefusal stateOf e = some (.notOrphaned, .owner none) := by
  simp only [adoptRefusal, h]

theorem adoptRefusal_orphaned (h : e.owner = some q) (hf : e.orphaned = true) : adoptRefusal stateOf e = none := by
  simp only [adoptRefusal, h, hf, if_true]

theorem adoptRefusal_owned (h : e.owner = some q) (hf : e.orphaned = false) : adoptRefusal stateOf e =
    if stateOf q = .closing then some (.pendingRecovery, .none) else some (.notOrphaned, .owner (some q)) := by
  simp only [adoptRefusal, h, hf, Bool.false_eq_true, if_false]

theorem ownerOnlyRefusal_of_owner (h : e.owner = some n) (hf : e.orphaned = false) :
    ownerOnlyRefusal stateOf n e = none := by
  simp only [ownerOnlyRefusal, h, hf, Bool.false_eq_true, if_false, if_true]

/-! ## The four cycles, test by test -/

theorem execClaimCycle_refused (hc : s.cycleOf n .single = some ⟨tag, .claim k d pf tf⟩) (ha : s.allocated k = true)
    (hr : claimRefusal s.portState (s.entry k) = some (st, x)) : execClaimCycle n s =
      .next (s.complete n (.finish { bareReply ⟨tag, .claim k d pf tf⟩ st with extra := x })) := by
  simp only [execClaimCycle, hc, State.ifAllocated_of_allocated _ ha, hr]

theorem execClaimCycle_owns (hc : s.cycleOf n .single = some ⟨tag, .claim k d pf tf⟩) (ha : s.allocated k = true)
    (hr : claimRefusal s.portState (s.entry k) = none) (hterms : accessOfCodes d pf tf = some a) :
    execClaimCycle n s = .next ((s.own n k a).complete n (.finish
      { bareReply ⟨tag, .claim k d pf tf⟩ .ok with version := some (s.entry k).version })) := by
  simp only [execClaimCycle, hc, State.ifAllocated_of_allocated _ ha, hr, hterms]

theorem execAdoptCycle_refused (hc : s.cycleOf n .single = some ⟨tag, .adopt k d pf tf⟩) (ha : s.allocated k = true)
    (hr : adoptRefusal s.portState (s.entry k) = some (st, x)) : execAdoptCycle n s =
      .next (s.complete n (.finish { bareReply ⟨tag, .adopt k d pf tf⟩ st with extra := x })) := by
  simp only [execAdoptCycle, hc, State.ifAllocated_of_allocated _ ha, hr]

theorem execAdoptCycle_owns (hc : s.cycleOf n .single = some ⟨tag, .adopt k d pf tf⟩) (ha : s.allocated k = true)
    (hr : adoptRefusal s.portState (s.entry k) = none) (hterms : accessOfCodes d pf tf = some a) :
    execAdoptCycle n s = .next ((s.own n k a).complete n (.finish
      { bareReply ⟨tag, .adopt k d pf tf⟩ .ok with
        version := some (s.entry k).version, extra := .owner (s.entry k).owner })) := by
  simp only [execAdoptCycle, hc, State.ifAllocated_of_allocated _ ha, hr, hterms]

theorem execReleaseCycle_owner (hc : s.cycleOf n .single = some ⟨tag, .release k⟩) (ha : s.allocated k = true)
    (ho : (s.entry k).owner = some n) (hf : (s.entry k).orphaned = false) :
    execReleaseCycle n s = .next ((((s.setEntry k (s.entry k).unowned).lowerOwned n).postEntryEvent (s.entry k).watch
      .ownerChanged k (s.entry k).version none (.port n)).complete n (.finish
        { bareReply ⟨tag, .release k⟩ .ok with version := some (s.entry k).version })) := by
  simp only [execReleaseCycle, hc, State.ifAllocated_of_allocated _ ha, ownerOnlyRefusal_of_owner ho hf]
  rfl

theorem execSetAccessCycle_owner (hc : s.cycleOf n .single = some ⟨tag, .setAccess k d pf tf⟩)
    (ha : s.allocated k = true) (ho : (s.entry k).owner = some n) (hf : (s.entry k).orphaned = false)
    (hterms : accessOfCodes d pf tf = some a) :
    execSetAccessCycle n s = .next ((s.setEntry k { s.entry k with access := a }).complete n (.finish
      { bareReply ⟨tag, .setAccess k d pf tf⟩ .ok with
        version := some (s.entry k).version, extra := .previousAccess (s.entry k).access })) := by
  simp only [execSetAccessCycle, hc, State.ifAllocated_of_allocated _ ha, ownerOnlyRefusal_of_owner ho hf, hterms]

/-! ## A change of owner (R14) -/

/-- A cycle that writes one entry and the tallies, posts OWNER_CHANGED and answers its request changes nothing else. -/
theorem State.ownerWrite_completes (hl : (s.executor n).onLink = false) (k : Slot) (e : Entry)
    (tallies : PerPort Tally) (watchers : PerPort Bool) (ver : Version) (r : Reply) :
    ∃ t : State,
      (State.postEntryEvent { s.setEntry k e with tallies := tallies } watchers .ownerChanged k ver none (.port n)).complete
        n (.finish r) = t.afterCompletion ∧
      t = { s.cycleEnded n with
        entries := t.entries, tallies := t.tallies
        ports := ((s.postEntryEvent watchers .ownerChanged k ver none (.port n)).replyTo n r).ports } ∧
      (∀ j, t.entry j = if j = k then e else s.entry j) ∧ t.tallies = tallies :=
  ⟨_, State.complete_finish_eq _ n r hl, State.endedWith_eq (s.postEntryEvent _ _ _ _ _ _) rfl rfl rfl,
    fun j => s.entry_setEntry j k e, rfl⟩

/-- The requester becomes the entry's owner under the terms given. -/
theorem State.own_completes (hl : (s.executor n).onLink = false) (k : Slot) (a : Access) (r : Reply) :
    ∃ t : State, (s.own n k a).complete n (.finish r) = t.afterCompletion ∧
      t = { s.cycleEnded n with
        entries := t.entries, tallies := t.tallies
        ports := ((s.postEntryEvent (s.entry k).watch .ownerChanged k (s.entry k).version none (.port n)).replyTo n
          r).ports } ∧
      (∀ j, t.entry j = if j = k then (s.entry k).ownedUnder n a else s.entry j) ∧
      ∀ p, t.tallies.get p = { s.tallies.get p with owned := (s.tallies.get p).owned + if p = n then 1 else 0 } := by
  obtain ⟨t, hdone, hframe, hentry, htallies⟩ := State.ownerWrite_completes hl k ((s.entry k).ownedUnder n a)
    (s.raiseOwned n).tallies (s.entry k).watch (s.entry k).version r
  exact ⟨t, hdone, hframe, hentry, fun p => htallies ▸ s.raiseOwned_tally_add n p⟩

end Sys2Proof.Machine

open Sys2Proof Sys2Proof.Machine

/-- Settles O38: the entry's owner and its orphaned mark decide, and each answer is the refusal that the test gives or the
change of owner. -/
theorem claimAndAdoptTakeOwnership : Obligations.ClaimAndAdoptTakeOwnership := by
  intro s n tag k d pf tf a hterms ha refused hrefused owns howns
  refine ⟨fun hc => ?claim, fun hc => ?adopt⟩
  case claim =>
    have hlink := State.not_onLink_of_cycleOf hc fun _ _ => RequestOp.noConfusion
    have hrefuse : ∀ st x, claimRefusal s.portState (s.entry k) = some (st, x) →
        exec (.claimCycle n) s = .next (refused 0x22#8 st x) := fun st x hr => by
      rw [exec_claimCycle, execClaimCycle_refused hc ha hr, State.complete_finish_eq s n _ hlink, hrefused]
      rfl
    refine ⟨fun ho => ?unowned, fun q ho => ?owned⟩
    case unowned =>
      rw [exec_claimCycle, execClaimCycle_owns hc ha (claimRefusal_unowned ho) hterms]
      obtain ⟨t, hdone, hwrites⟩ := State.own_completes hlink k a _
      exact ⟨t, congrArg Host.Outcome.next hdone, (howns _ _ _).2 hwrites⟩
    case owned =>
      have htest := claimRefusal_owned (stateOf := s.portState) ho
      split
      · next hf => exact hrefuse _ _ (htest.trans (if_pos hf))
      · next hf =>
        rw [if_neg hf] at htest
        split
        · next hclosing => exact hrefuse _ _ (htest.trans (if_pos hclosing))
        · next hopen => exact hrefuse _ _ (htest.trans (if_neg hopen))
  case adopt =>
    have hlink := State.not_onLink_of_cycleOf hc fun _ _ => RequestOp.noConfusion
    have hrefuse : ∀ st x, adoptRefusal s.portState (s.entry k) = some (st, x) →
        exec (.adoptCycle n) s = .next (refused 0x24#8 st x) := fun st x hr => by
      rw [exec_adoptCycle, execAdoptCycle_refused hc ha hr, State.complete_finish_eq s n _ hlink, hrefused]
      rfl
    refine ⟨fun ho => hrefuse _ _ (adoptRefusal_unowned ho), fun q ho => ⟨fun hf => ?orphaned, fun hf => ?owned⟩⟩
    case orphaned =>
      rw [exec_adoptCycle, execAdoptCycle_owns hc ha (adoptRefusal_orphaned ho hf) hterms, ho]
      obtain ⟨t, hdone, hwrites⟩ := State.own_completes hlink k a _
      exact ⟨t, congrArg Host.Outcome.next hdone, (howns _ _ _).2 hwrites⟩
    case owned =>
      have htest := adoptRefusal_owned (stateOf := s.portState) ho hf
      split
      · next hclosing => exact hrefuse _ _ (htest.trans (if_pos hclosing))
      · next hopen => exact hrefuse _ _ (htest.trans (if_neg hopen))

/-- Settles O39: both cycles pass the stricter test of the owner; RELEASE changes the owner, SET_ACCESS writes the terms
alone. -/
theorem releaseAndSetAccessAct : Obligations.ReleaseAndSetAccessAct := by
  intro s n tag k ha ho hf
  refine ⟨fun hc => ?release, fun d pf tf a hterms hc => ?setAccess⟩
  case release =>
    have hlink := State.not_onLink_of_cycleOf hc fun _ _ => RequestOp.noConfusion
    rw [exec_releaseCycle, execReleaseCycle_owner hc ha ho hf]
    obtain ⟨t, hdone, hframe, hentry, htallies⟩ := State.ownerWrite_completes hlink k (s.entry k).unowned
      (s.lowerOwned n).tallies (s.entry k).watch (s.entry k).version _
    exact ⟨t, congrArg Host.Outcome.next hdone, hframe, hentry, fun p => htallies ▸ s.lowerOwned_tally_sub n p⟩
  case setAccess =>
    have hlink := State.not_onLink_of_cycleOf hc fun _ _ => RequestOp.noConfusion
    rw [exec_setAccessCycle, execSetAccessCycle_owner hc ha ho hf hterms]
    obtain ⟨t, hdone, hwrites⟩ := State.silentWrite_completes hlink k { s.entry k with access := a } _
    exact ⟨t, congrArg Host.Outcome.next hdone, hwrites⟩
end

