-- ==== Sys2Proof/Proofs/Dispositions.lean ====
section
/-! SUPPORT. What a visit of the Recovery Sweeper makes of the state, disposition by disposition (R88, R104, R115 to R119,
R136). -/

namespace Sys2Proof.Machine

variable {s u : State} {p q : Port} {r : SweepRecord} {rest : List SweepRecord} {k : Slot} {e : Entry} {v : Value}
  {w : WaitRecord} {before after : List WaitRecord}

/-! ## The visit (R136) -/

theorem State.visit_unallocated (h : s.allocated k = false) : s.visit p k = s := if_pos h

theorem State.visit_allocated (h : s.allocated k = true) : s.visit p k =
    if (s.entry k).owner = some p ∧ (s.entry k).orphaned = false then
      ((s.unwatched p k).applyDisposition p k ((s.entry k).withWatch p false)).countDisposition
        (s.entry k).access.disposition
    else s.unwatched p k := if_neg (by simp [h])

theorem Visiting.exec_sweepVisit (h : Visiting s r rest k) : exec .sweepVisit s = .next ((s.visit r.port k).afterVisit k) :=
  State.sweepVisit_eq h.granted h.head h.position

theorem visitRemovesTheWatch : Claims.VisitRemovesTheWatch := by
  intro s r rest k
  refine ⟨fun hgranted hhead hposition hun => ?unallocated, fun hv hnot => ?notOwned⟩
  case unallocated => rw [State.sweepVisit_eq hgranted hhead hposition, State.visit_unallocated hun]
  case notOwned =>
    have hkept : ¬((s.entry k).owner = some r.port ∧ (s.entry k).orphaned = false) := fun ⟨ho, hf⟩ =>
      hnot.elim (fun h => h ho) fun h => by rw [hf] at h; cases h
    obtain ⟨entries, tallies, hunwatched, hentry, htally⟩ := s.visit_unwatch r.port k
    refine ⟨{ s with entries := entries, tallies := tallies }, ?_, rfl, hentry, htally⟩
    rw [hv.exec_sweepVisit, State.visit_allocated hv.allocated, if_neg hkept, State.unwatched, hunwatched]

@[simp] theorem Entry.withWatch_watch (e : Entry) (n : Port) (b : Bool) : (e.withWatch n b).watch = e.watch.set n b := rfl

@[simp] theorem Entry.withWatch_content (e : Entry) (n : Port) (b : Bool) : (e.withWatch n b).content = e.content := rfl

/-! ## The disposition of an owned entry (R115) -/

/-- A disposition is applied to entry e of slot k, its port's owned count having fallen. -/
def State.dispose (u : State) (k : Slot) (e : Entry) : Disposition → State
  | .keep => u.applyKeep k e
  | .release => u.applyRelease k e
  | .drop => u.applyDrop k e
  | .restore => u.applyRestore k e

theorem State.applyDisposition_eq : s.applyDisposition p k e = (s.lowerOwned p).dispose k e e.access.disposition := by
  unfold State.applyDisposition
  cases e.access.disposition with
  | keep | release | drop | restore => rfl

theorem State.applyDrop_sweeps (u : State) (k : Slot) (e : Entry) : (u.applyDrop k e).sweeps = u.sweeps := by
  unfold State.applyDrop
  dsimp only
  split
  · simp [State.postEntryEvent, State.retireSlot]
  · simp [State.postEntryEvent]

theorem State.applyRestore_sweeps (u : State) (k : Slot) (e : Entry) : (u.applyRestore k e).sweeps = u.sweeps := by
  unfold State.applyRestore
  split
  · rfl
  · split
    · rfl
    · simp [State.postEntryEvent]
  · split
    · rfl
    · split
      · rfl
      · simp [State.postEntryEvent]

theorem State.dispose_sweeps (u : State) (k : Slot) (e : Entry) (d : Disposition) : (u.dispose k e d).sweeps = u.sweeps := by
  cases d with
  | keep | release => rfl
  | drop => exact u.applyDrop_sweeps k e
  | restore => exact u.applyRestore_sweeps k e

/-- In u port p's watch on slot k has been removed and its owned count has fallen, and slot k's entry is still to be
written (R14, R15, R136). -/
structure State.Disowned (s : State) (p : Port) (k : Slot) (u : State) : Prop where
  frame : ∃ entries tallies, u = { s with entries := entries, tallies := tallies }
  entry : ∀ e j, (u.setEntry k e).entry j = if j = k then e else s.entry j
  tally : ∀ q, u.tallies.get q = visitedTallies s p (s.entry k) q

theorem State.Disowned.waits (h : s.Disowned p k u) : u.waits = s.waits := by
  obtain ⟨entries, tallies, rfl⟩ := h.frame
  rfl

theorem State.Disowned.ports (h : s.Disowned p k u) : u.ports = s.ports := by
  obtain ⟨entries, tallies, rfl⟩ := h.frame
  rfl

theorem State.Disowned.sweeps (h : s.Disowned p k u) : u.sweeps = s.sweeps := by
  obtain ⟨entries, tallies, rfl⟩ := h.frame
  rfl

theorem State.disowned (s : State) (p : Port) (k : Slot) : s.Disowned p k ((s.unwatched p k).lowerOwned p) := by
  obtain ⟨entries, tallies, hunwatched, hentry, htally⟩ := s.visit_unwatch p k
  rw [State.unwatched, hunwatched]
  refine ⟨⟨_, _, rfl⟩, fun e j => ?_, fun q => ?_⟩
  · rw [State.entry_setEntry]
    split
    · rfl
    · next hj => exact (hentry j).trans (if_neg hj)
  · rw [State.lowerOwned_tally, visitedTallies]
    split
    · simp only [htally, true_and]
    · next hq => simp only [htally, hq, false_and, if_false, Nat.sub_zero]

/-- The part with the head record r, which heads rest, counting one more entry under disposition d. -/
def State.headCounted (u : State) (r : SweepRecord) (rest : List SweepRecord) (d : Disposition) : State :=
  { u with sweeps := countedHead r d :: rest }

/-- A visit to an entry that the swept port owns applies its disposition and counts it in the head record. -/
theorem Visiting.disposes (h : Visiting s r rest k) (ho : (s.entry k).owner = some r.port)
    (hf : (s.entry k).orphaned = false) {d : Disposition} (hd : (s.entry k).access.disposition = d) :
    ∃ u, s.Disowned r.port k u ∧ exec .sweepVisit s = .next
      (((u.dispose k ((s.entry k).withWatch r.port false) d).headCounted r rest d).afterVisit k) := by
  have hleft := s.disowned r.port k
  refine ⟨_, hleft, ?_⟩
  subst hd
  rw [h.exec_sweepVisit, State.visit_allocated h.allocated, if_pos ⟨ho, hf⟩, State.applyDisposition_eq,
    State.countDisposition_eq _ _ r rest ((State.dispose_sweeps _ _ _ _).trans (hleft.sweeps.trans h.head))]
  rfl

/-- A visit ends with its event and its count; what the event does to the ports is read off a state x with the same ports. -/
theorem exec_sweepVisit_posted {t : State} {d : Disposition} {watchers : PerPort Bool} {kind : EventKind} {ver : Version}
    {value : Option Value} (x : State) (hexec : exec .sweepVisit s = .next
      (((t.postEntryEvent watchers kind k ver value .device).headCounted r rest d).afterVisit k))
    (hports : t.ports = x.ports) :
    exec .sweepVisit s = .next (State.afterVisit { t with
      sweeps := countedHead r d :: rest, ports := (x.postEntryEvent watchers kind k ver value .device).ports } k) := by
  rw [hexec, ← State.postEntryEvent_ports_congr hports]
  rfl

/-- As `exec_sweepVisit_posted`, for a visit that may write rows, the free list and the Wait Table too: the state that it
ends in, read through the state t before the event. -/
theorem exec_sweepVisit_wrote {t : State} {d : Disposition} {watchers : PerPort Bool} {kind : EventKind} {ver : Version}
    {value : Option Value} (x : State) (freeList : List Slot) (waits : List WaitRecord) (hexec : exec .sweepVisit s = .next
      (((t.postEntryEvent watchers kind k ver value .device).headCounted r rest d).afterVisit k))
    (hframe : t = { s with
      entries := t.entries, rows := t.rows, tallies := t.tallies, freeList := freeList, waits := waits, ports := t.ports })
    (hports : t.ports = x.ports) :
    ∃ y : State, exec .sweepVisit s = .next (y.afterVisit k) ∧
      y = { s with
        entries := y.entries, rows := y.rows, tallies := y.tallies, freeList := freeList, waits := waits
        sweeps := countedHead r d :: rest, ports := (x.postEntryEvent watchers kind k ver value .device).ports } ∧
      (∀ j, y.entry j = t.entry j) ∧ (∀ j, y.row j = t.row j) ∧ y.tallies = t.tallies := by
  refine ⟨_, exec_sweepVisit_posted x hexec hports, ?_, fun j => rfl, fun j => rfl, rfl⟩
  generalize t.entries = entries, t.rows = rows, t.tallies = tallies, t.ports = ports at hframe
  rw [hframe]

/-! ## Permission after a visit (R62, R107) -/

theorem State.modifyFails_of_orphaned (ho : (u.entry k).owner = some p) (hf : (u.entry k).orphaned = true) :
    u.modifyFails q k .orphaned := ⟨p, ho, .inl ⟨hf, rfl⟩⟩

theorem State.not_modifyPasses_of_orphaned (ho : (u.entry k).owner = some p) (hf : (u.entry k).orphaned = true) :
    ¬ u.modifyPasses q k := by
  rintro (hnone | ⟨-, hnot⟩)
  · rw [ho] at hnone; cases hnone
  · rw [hf] at hnot; cases hnot

/-! ## KEEP and RELEASE (R116, R117) -/

theorem keepOrphansTheEntry : Claims.KeepOrphansTheEntry := by
  intro s r rest k hv ho hf hd watchers hw
  subst hw
  obtain ⟨u, hleft, hexec⟩ := hv.disposes ho hf hd
  rw [State.dispose] at hexec
  have hkept := hleft.entry { (s.entry k).withWatch r.port false with orphaned := true }
  have howner := (congrArg Entry.owner (hkept k)).trans ((congrArg Entry.owner (if_pos rfl)).trans ho)
  have horphaned := (congrArg Entry.orphaned (hkept k)).trans (congrArg Entry.orphaned (if_pos rfl))
  refine ⟨_, exec_sweepVisit_posted s hexec hleft.ports, ?_, hkept, hleft.tally,
    fun q => ⟨State.modifyFails_of_orphaned howner horphaned, State.not_modifyPasses_of_orphaned howner horphaned⟩,
    fun q flag => or_iff_left (State.not_modifyPasses_of_orphaned howner horphaned)⟩
  obtain ⟨entries, tallies, rfl⟩ := hleft.frame
  rfl

theorem releaseFreesTheEntry : Claims.ReleaseFreesTheEntry := by
  intro s r rest k hv ho hf hd watchers hw
  subst hw
  obtain ⟨u, hleft, hexec⟩ := hv.disposes ho hf hd
  rw [State.dispose] at hexec
  have hfreed := hleft.entry ((s.entry k).withWatch r.port false).unowned
  have howner := (congrArg Entry.owner (hfreed k)).trans (congrArg Entry.owner (if_pos rfl))
  refine ⟨_, exec_sweepVisit_posted s hexec hleft.ports, ?_, hfreed, hleft.tally,
    fun q => ⟨.inl howner, fun flag => .inr (.inl howner)⟩, howner⟩
  obtain ⟨entries, tallies, rfl⟩ := hleft.frame
  rfl

/-! ## DROP (R104, R118) -/

theorem State.retireSlot_entry (s : State) (k : Slot) (ver : Version) (watchers : PerPort Bool) (j : Slot) :
    (s.retireSlot k ver watchers).entry j = (s.setEntry k (.retired ver)).entry j := rfl

theorem State.retireSlot_ports (s : State) (k : Slot) (ver : Version) (watchers : PerPort Bool) :
    (s.retireSlot k ver watchers).ports = s.ports := by
  simp only [State.retireSlot, State.setRow_ports, State.lowerWatchers_ports, State.setEntry_ports]

theorem State.retireSlot_row (s : State) (k : Slot) (ver : Version) (watchers : PerPort Bool) (j : Slot) :
    (s.retireSlot k ver watchers).row j =
      { s.row j with allocated := if j = k then false else (s.row j).allocated } := by
  refine (State.free_row ((s.setEntry k _).lowerWatchers watchers) k j).trans ?_
  split
  · next hj => rw [hj]; rfl
  · rfl

/-- Every port that watched the entry loses one watch (R15, R101). -/
theorem State.retireSlot_tally (s : State) (k : Slot) (ver : Version) (watchers : PerPort Bool) (q : Port) :
    (s.retireSlot k ver watchers).tallies.get q =
      { s.tallies.get q with watch := (s.tallies.get q).watch - if watchers.get q then 1 else 0 } := by
  refine (State.lowerWatchers_tally (s.setEntry k _) watchers q).trans ?_
  split
  · rfl
  · rfl

/-- The version at which DROP leaves an entry that does not retire. -/
def Entry.droppedVersion (e : Entry) : Version := if e.content = .empty then e.version else e.version + 1

theorem State.applyDrop_retires (hpool : Config.fixedSlots ≤ k) (hin : (u.dropForward e.content).inbound k = 0)
    (hwaits : u.waitsOn k = 0) : u.applyDrop k e =
    ((u.dropForward e.content).retireSlot k (e.droppedVersion + 1) e.watch).postEntryEvent e.watch .entryRetired k
      (e.droppedVersion + 1) none .device :=
  if_pos ⟨hpool, hin, (State.dropForward_waitsOn u e.content k).trans hwaits⟩

theorem State.applyDrop_discards
    (h : ¬(Config.fixedSlots ≤ k ∧ (u.dropForward e.content).inbound k = 0 ∧ u.waitsOn k = 0)) : u.applyDrop k e =
    ((u.dropForward e.content).setEntry k (e.dropped e.droppedVersion)).postEntryEvent e.watch
      (if e.content = .empty then .ownerChanged else .entryDropped) k e.droppedVersion none .device :=
  if_neg fun ⟨hpool, hin, hwaits⟩ => h ⟨hpool, hin, (State.dropForward_waitsOn u e.content k).symm.trans hwaits⟩

theorem State.dropForward_setEntry (u : State) (k : Slot) (e : Entry) (c : Content) :
    (u.setEntry k e).dropForward c = (u.dropForward c).setEntry k e := by
  cases c with
  | empty | value | forward => rfl

/-- With the forward of a content dropped the entry is still to be written, and its target's count alone has fallen (R12). -/
theorem State.Disowned.dropForward (h : s.Disowned p k u) (c : Content) :
    (∃ entries rows tallies, u.dropForward c = { s with entries := entries, rows := rows, tallies := tallies }) ∧
    (∀ e j, ((u.dropForward c).setEntry k e).entry j = if j = k then e else s.entry j) ∧
    (∀ j, (u.dropForward c).row j =
      { s.row j with inbound := (s.row j).inbound - if c = Content.forward j then 1 else 0 }) ∧
    ∀ q, (u.dropForward c).tallies.get q = visitedTallies s p (s.entry k) q := by
  have hentry := h.entry
  have htally := h.tally
  obtain ⟨entries, tallies, rfl⟩ := h.frame
  refine ⟨⟨entries, _, tallies, State.dropForward_frame _ c⟩, fun e j => ?_, State.dropForward_row _ c, fun q => ?_⟩
  · rw [State.dropForward_frame]
    exact hentry e j
  · rw [State.dropForward_tallies]
    exact htally q

/-- A visit that drops the forward of a content and writes the entry changes no more of the directory than the counts. -/
theorem State.Disowned.exec_sweepVisit_dropped (h : s.Disowned p k u) {c : Content} {d : Disposition}
    {watchers : PerPort Bool} {kind : EventKind} {ver : Version} {value : Option Value} (hexec : exec .sweepVisit s = .next
      (((((u.dropForward c).setEntry k e).postEntryEvent watchers kind k ver value .device).headCounted r rest d).afterVisit
        k)) :
    ∃ t : State, exec .sweepVisit s = .next (t.afterVisit k) ∧
      t = { s with
        entries := t.entries, rows := t.rows, tallies := t.tallies, sweeps := countedHead r d :: rest
        ports := (s.postEntryEvent watchers kind k ver value .device).ports } ∧
      (∀ j, t.entry j = if j = k then e else s.entry j) ∧
      (∀ j, t.row j = { s.row j with inbound := (s.row j).inbound - if c = Content.forward j then 1 else 0 }) ∧
      ∀ q, t.tallies.get q = visitedTallies s p (s.entry k) q := by
  obtain ⟨hframe, hentry, hrow, htally⟩ := h.dropForward c
  have hports := (State.dropForward_ports u c).trans h.ports
  generalize u.dropForward c = x at hexec hframe hentry hrow htally hports
  obtain ⟨t, hdone, ht, htentry, htrow, httally⟩ := exec_sweepVisit_wrote s s.freeList s.waits hexec
    (by obtain ⟨entries, rows, tallies, rfl⟩ := hframe; rfl) hports
  exact ⟨t, hdone, ht, fun j => (htentry j).trans (hentry e j), fun j => (htrow j).trans (hrow j),
    fun q => httally ▸ htally q⟩

theorem dropDiscardsTheContent : Claims.DropDiscardsTheContent := by
  intro s r rest k hv ho hf hd watchers hw ver hver inbound hinbound
  subst hw
  obtain rfl : ver = ((s.entry k).withWatch r.port false).droppedVersion := hver
  obtain ⟨u, hleft, hexec⟩ := hv.disposes ho hf hd
  rw [State.dispose] at hexec
  obtain ⟨hframe, hentry, hrow, htally⟩ := hleft.dropForward (s.entry k).content
  have hcount : ∀ j, { s.row j with inbound := (s.row j).inbound - if (s.entry k).content = Content.forward j then 1 else 0 }
      = { s.row j with inbound := inbound j } := fun j => congrArg (Row.mk (s.row j).allocated) (hinbound j).symm
  have hin : (u.dropForward (s.entry k).content).inbound k = inbound k :=
    congrArg Row.inbound ((hrow k).trans (hcount k))
  have hwaitsOn : u.waitsOn k = s.waitsOn k := by rw [State.waitsOn, hleft.waits, State.waitsOn]
  refine ⟨fun ⟨hpool, hzero, hwaits⟩ => ?retires, fun hnot => ?discards⟩
  case retires =>
    have hports := (State.dropForward_ports u (s.entry k).content).trans hleft.ports
    rw [State.applyDrop_retires (e := (s.entry k).withWatch r.port false) hpool (hin.trans hzero)
      (hwaitsOn.trans hwaits), Entry.withWatch_content] at hexec
    generalize u.dropForward (s.entry k).content = x at hexec hframe hentry hrow htally hports
    obtain ⟨t, hdone, ht, htentry, htrow, httally⟩ := exec_sweepVisit_wrote s (s.freeList ++ [k]) s.waits hexec
      (by obtain ⟨entries, rows, tallies, rfl⟩ := hframe; rfl) ((x.retireSlot_ports k _ _).trans hports)
    refine ⟨t, hdone, ht, fun j => ?_, fun j => ?_, fun q => ?_⟩
    · exact ((htentry j).trans (x.retireSlot_entry k _ _ j)).trans (hentry _ j)
    · rw [htrow, x.retireSlot_row, hrow, hcount]
    · rw [httally, x.retireSlot_tally, htally, Entry.withWatch_watch]
  case discards =>
    rw [State.applyDrop_discards (e := (s.entry k).withWatch r.port false) fun ⟨hpool, hzero, hwaits⟩ =>
      hnot ⟨hpool, hin.symm.trans hzero, hwaitsOn.symm.trans hwaits⟩] at hexec
    obtain ⟨t, hdone, ht, htentry, htrow, httally⟩ := hleft.exec_sweepVisit_dropped hexec
    exact ⟨t, hdone, ht, htentry, fun j => (htrow j).trans (hcount j), httally⟩

/-! ## RESTORE (R88, R119) -/

/-- RESTORE leaves an entry with no checkpoint, or with the one that its content is, as it stands but for its owner. -/
theorem State.applyRestore_keeps (h : e.saved = .absent ∨ (e.saved = .empty ∧ e.content = .empty)
    ∨ ∃ v, e.saved = .value v ∧ e.content = .value v) : u.applyRestore k e =
    (u.setEntry k (e.restored e.content e.version)).postEntryEvent e.watch .ownerChanged k e.version none .device := by
  rcases h with hs | ⟨hs, hc⟩ | ⟨v, hs, hc⟩
  · simp only [State.applyRestore, hs]
    rfl
  · simp only [State.applyRestore, hs, if_pos hc]
    rfl
  · simp only [State.applyRestore, hs, hc, if_true]
    rfl

theorem State.applyRestore_empties (hs : e.saved = .empty) (hc : e.content ≠ .empty) : u.applyRestore k e =
    ((u.setEntry k (e.restored .empty (e.version + 1))).dropForward e.content).postEntryEvent e.watch .entryRestored k
      (e.version + 1) none .device := by
  simp only [State.applyRestore, hs, if_neg hc]
  rfl

theorem State.applyRestore_stores (hs : e.saved = .value v) (hc : e.content ≠ .value v)
    (hfree : e.content = .empty → u.oldestWait k = none) : u.applyRestore k e =
    ((u.setEntry k (e.restored (.value v) (e.version + 1))).dropForward e.content).postEntryEvent e.watch .entryRestored k
      (e.version + 1) (some v) .device := by
  simp only [State.applyRestore, hs]
  split
  · next w hempty hw => rw [hfree hempty] at hw; cases hw
  · rw [if_neg hc]
    rfl

theorem State.applyRestore_hands (hs : e.saved = .value v) (hc : e.content = .empty) (hw : u.oldestWait k = some w) :
    u.applyRestore k e =
    ((u.setEntry k (e.restored .empty (e.version + 1))).handTo k w v (e.version + 1)).postEntryEvent e.watch .valueHanded k
      (e.version + 1) (some v) .device := by
  simp only [State.applyRestore, hs, hc, hw]
  unfold Entry.restored
  rw [← hc]

/-- The inbound count stands where there is no forward to drop. -/
theorem Row.inbound_sub_of_not (x : Row) {P : Prop} [Decidable P] (h : ¬P) :
    ({ x with inbound := x.inbound - if P then 1 else 0 } : Row) = x := by
  rw [if_neg h]
  rfl

theorem State.postReply_ports_congr (h : u.ports = s.ports) (n : Port) (reply : Reply) :
    (u.postReply n reply).ports = (s.postReply n reply).ports := by
  simp only [State.postReply, State.setPort, State.port, h]

theorem restoreAppliesTheCheckpoint : Claims.RestoreAppliesTheCheckpoint := by
  intro s r rest k hv ho hf hd watchers hw freed hfreed restored hrestored
  subst hw hfreed
  obtain ⟨u, hleft, hexec⟩ := hv.disposes ho hf hd
  rw [State.dispose] at hexec
  have hrow : ∀ j, u.row j = s.row j := by
    obtain ⟨entries, tallies, hframe⟩ := hleft.frame
    exact State.row_congr (by rw [hframe])
  refine ⟨fun hsame => ?keeps, fun hs hc => ?empties, fun v hs hc hfree => ?stores,
    fun v before w after hs hc hsplit hw hbefore => ?hands⟩
  case keeps =>
    rw [State.applyRestore_keeps (e := (s.entry k).withWatch r.port false) hsame] at hexec
    obtain ⟨t, hdone, ht, htentry, htrow, httally⟩ := exec_sweepVisit_wrote s s.freeList s.waits hexec
      (by obtain ⟨entries, tallies, rfl⟩ := hleft.frame; rfl) hleft.ports
    exact ⟨t, hdone, (hrestored _ _ _ _ _).2 ⟨ht, fun j => (htentry j).trans (hleft.entry _ j),
      fun j => ((htrow j).trans (hrow j)).trans (Row.inbound_sub_of_not _ fun h => h.1 rfl).symm,
      fun q => httally ▸ hleft.tally q⟩⟩
  case empties =>
    rw [State.applyRestore_empties (e := (s.entry k).withWatch r.port false) hs hc, State.dropForward_setEntry] at hexec
    obtain ⟨t, hdone, ht, htentry, htrow, httally⟩ := hleft.exec_sweepVisit_dropped (c := (s.entry k).content) hexec
    refine ⟨t, hdone, (hrestored _ _ _ _ _).2 ⟨ht, htentry, fun j => ?_, httally⟩⟩
    simp only [htrow, ne_eq, Ne.symm hc, not_false_eq_true, true_and]
  case stores =>
    rw [State.applyRestore_stores (e := (s.entry k).withWatch r.port false) hs hc
      fun he => State.oldestWait_eq_none (hleft.waits ▸ hfree he), State.dropForward_setEntry] at hexec
    obtain ⟨t, hdone, ht, htentry, htrow, httally⟩ := hleft.exec_sweepVisit_dropped (c := (s.entry k).content) hexec
    refine ⟨t, hdone, (hrestored _ _ _ _ _).2 ⟨ht, htentry, fun j => ?_, httally⟩⟩
    simp only [htrow, ne_eq, Ne.symm hc, not_false_eq_true, true_and]
  case hands =>
    have hsplit : u.waits = before ++ w :: after := hleft.waits.trans hsplit
    rw [State.applyRestore_hands (e := (s.entry k).withWatch r.port false) hs hc
      (State.oldestWait_of_split hsplit hw hbefore), State.handTo_of_split (s := u.setEntry _ _) hsplit hw hbefore] at hexec
    obtain ⟨t, hdone, ht, htentry, htrow, httally⟩ := exec_sweepVisit_wrote (s.postReply w.port _) s.freeList
      (before ++ after) hexec (by obtain ⟨entries, tallies, rfl⟩ := hleft.frame; rfl)
      (State.postReply_ports_congr (by exact hleft.ports) w.port _)
    exact ⟨t, hdone, (hrestored _ _ _ _ _).2 ⟨ht, fun j => (htentry j).trans (hleft.entry _ j),
      fun j => ((htrow j).trans (hrow j)).trans (Row.inbound_sub_of_not _ fun h => h.1 hc.symm).symm,
      fun q => httally ▸ hleft.tally q⟩⟩

end Sys2Proof.Machine

open Sys2Proof Sys2Proof.Machine

/-- Settles O42: the visits that leave the content, by what the swept port holds of the entry and by its disposition. -/
theorem visitsRemoveKeepAndRelease : Obligations.VisitsRemoveKeepAndRelease :=
  ⟨visitRemovesTheWatch, keepOrphansTheEntry, releaseFreesTheEntry⟩

/-- Settles O43: the visits that change the content, DROP by its retirement test and RESTORE by the checkpoint and the
content that it finds. -/
theorem visitsDropAndRestore : Obligations.VisitsDropAndRestore := ⟨dropDiscardsTheContent, restoreAppliesTheCheckpoint⟩
end

