-- ==== Sys2Proof/Proofs/Sessions.lean ====
section
/-! SUPPORT. How a session begins and ends, and what PRSTn_N does to a port without one (R93, R122, R124, R127, R129, R130,
R132, R138, R164, R169). -/

namespace Sys2Proof.Machine

variable {s u : State} {n p : Port} {c : PortControl} {rq : Request}

/-! ## PRSTn_N outside ATTACHED (R122, R132, R164) -/

/-- A port whose PRSTn_N is low drives PnDO low (R155, R164). -/
theorem State.pinOut_of_low (h : (s.link n).lineHigh = false) : s.pinOut n = .low := by simp [State.pinOut, h]

theorem execPortResetLow_of_high (h : (s.link n).lineHigh = true) : exec (.portResetLow n) s = .next (s.lineFalls n) :=
  congrArg Host.Outcome.next (if_pos h)

theorem execPortResetHigh_of_low (h : (s.link n).lineHigh = false) : exec (.portResetHigh n) s = .next (s.lineRises n) :=
  congrArg Host.Outcome.next (if_neg (by simp [h]))

theorem State.lineFalls_down (h : s.portState n = .down) : s.lineFalls n = s.setLink n (.reset false) := by
  have hstate : (s.port n).portState = .down := h
  simp only [State.lineFalls, State.setLink_port, hstate]

theorem State.lineFalls_opened (h : s.portState n = .opened) : s.lineFalls n =
    (s.setLink n (.reset false)).setPort n { (s.port n).flush with portState := .down } := by
  have hstate : (s.port n).portState = .opened := h
  simp only [State.lineFalls, State.setLink_port, hstate]

theorem State.lineFalls_closing (h : s.portState n = .closing) : s.lineFalls n =
    { (s.setLink n (.reset false)).setPort n { (s.port n).flush with linkDown := true } with
      sweeps := s.sweeps.map (SweepRecord.forgetTag n) } := by
  have hstate : (s.port n).portState = .closing := h
  simp only [State.lineFalls, State.setLink_port, hstate]
  rfl

theorem State.lineFalls_attached (h : s.portState n = .attached) :
    s.lineFalls n = (s.setLink n (.reset false)).startLoss n .linkReset := by
  have hstate : (s.port n).portState = .attached := h
  simp only [State.lineFalls, State.setLink_port, hstate]

/-- The rising edge changes the port state of a DOWN port and the link-down mark of a CLOSING one. -/
theorem State.lineRises_eq (s : State) (n : Port) : s.lineRises n =
    (s.setLink n { s.link n with lineHigh := true, framer := .hunt }).setPort n (match s.portState n with
      | .down => { s.port n with portState := .opened }
      | .closing => { s.port n with linkDown := false }
      | .opened | .attached => s.port n) := by
  have hself : ∀ l, (s.setLink n l).setPort n (s.port n) = s.setLink n l := fun l => State.setPort_self (s.setLink n l) n
  unfold State.lineRises State.portState
  dsimp only
  rw [State.setLink_port]
  cases (s.port n).portState with
  | down | closing => rfl
  | opened | attached => exact (hself _).symm

theorem SweepRecord.forgetTag_detach (q n : Port) (tag : Option Tag) (counts : DispositionCounts) :
    (SweepRecord.mk q (.detach tag counts)).forgetTag n =
      if q = n then ⟨q, .detach none counts⟩ else ⟨q, .detach tag counts⟩ := rfl

theorem SweepRecord.forgetTag_loss (q n : Port) (reason : LossReason) :
    (SweepRecord.mk q (.loss reason)).forgetTag n = ⟨q, .loss reason⟩ := rfl

/-! ## A port changed and the others told (R145) -/

/-- What a PORTS notice leaves of its subject's controller c, and what it does to the other ports of s. -/
theorem State.postNotice_told {k : EventKind} {reason : Option LossReason}
    (hu : ∀ p, u.port p = if p = n then c else s.port p)
    (hk : k = .portAttached ∨ k = .portDetached ∨ k = .portLost ∨ k = .sweepDone) :
    (u.postNotice k n reason).port n = c ∧ ∀ p, p ≠ n → (u.postNotice k n reason).port p =
      if s.portState p = .attached ∧ (s.port p).mask.ports = true then
        (s.port p).push { kind := k, entry := none, value := none, cause := .device, subject := some n, reason := reason
                          lost := none }
      else s.port p := by
  refine ⟨?_, fun p hp => ?_⟩
  · rw [State.postNotice_port _ _ _ _ _ hk, if_neg fun h => h.1 rfl, hu, if_pos rfl]
  · have hport : u.port p = s.port p := (hu p).trans (if_neg hp)
    rw [State.postNotice_port _ _ _ _ _ hk, State.portState, hport]
    exact if_congr (and_iff_right hp) rfl rfl

/-! ## ATTACH (R124) -/

/-- The controller of a port that attaches, its request taken and answered with the session's number. -/
def State.attachedPort (s : State) (n : Port) (rq : Request) (lease : Nat) (m : EventMask) (f : Bool) : PortControl :=
  { (s.port n).attach lease m f with
    requestQueue := (s.port n).requestQueue.tail
    replyQueue := (s.port n).replyQueue ++ [{ bareReply rq .ok with extra := .session (nextSession (s.port n).session) }] }

theorem State.attachAct_eq (s : State) (n : Port) (rq : Request) (lease : Nat) (m : EventMask) (f : Bool) :
    s.attachAct n rq lease m f = (s.setPort n (s.attachedPort n rq lease m f)).postNotice .portAttached n none := by
  refine congrArg (State.postNotice · .portAttached n none) ?_
  simp only [State.postReply, State.port_setPort_self, State.dequeue]
  simp only [State.setPort, PerPort.set_set]
  rfl

/-! ## DETACH (R129) -/

/-- A DETACH leaves the links, the executors and the Link Serializer as they are. -/
theorem State.closePort_of_link (s : State) (n : Port) (c : PortControl) (kind : SweepKind) :
    s.closePort n s c (s.link n) kind = { s with
      ports := s.ports.set n c, waits := s.waits.filter (fun w => decide (w.port ≠ n))
      sweeps := s.sweeps ++ [SweepRecord.mk n kind] } := by
  rw [State.closePort, State.link, PerPort.set_get_self]

/-! ## The loss of a session (R127, R130, R169) -/

theorem State.abandon_setPort (s : State) (n : Port) (c : PortControl) :
    (s.setPort n c).abandon n = (s.abandon n).setPort n c := by
  have hpass : ∀ u : State, (u.setPort n c).passToken = u.passToken.setPort n c := fun u => by
    unfold State.passToken
    rw [State.setPort_serial]
    split <;> rfl
  unfold State.abandon
  rw [State.setPort_executor, State.setPort_inProgress, State.setPort_device, State.setPort_serial]
  split
  · rfl
  · rfl
  · split
    · rfl
    · split
      · exact hpass (s.setExecutor n .idle)
      · rfl

/-- A loss clears what it finds: a port that would be left alike by it may be changed before it. -/
theorem State.startLoss_setPort {reason : LossReason} (hc : c.lose reason = (s.port n).lose reason) :
    (s.setPort n c).startLoss n reason = s.startLoss n reason := by
  have hport : ((s.abandon n).setPort n c).setPort n (c.lose reason) =
      (s.abandon n).setPort n (((s.abandon n).port n).lose reason) := by
    rw [hc, State.abandon_port]
    simp only [State.setPort, PerPort.set_set]
  unfold State.startLoss
  dsimp only
  rw [State.abandon_setPort, State.port_setPort_self, hport]

/-- The delivered tick that ends the lease is taken and the session is lost (R127). -/
theorem execLeaseExpiry_ends (htimer : (s.port n).leaseTimer = some 1) (hdue : 0 < (s.port n).leaseDue) :
    exec (.leaseExpiry n) s = .next (s.startLoss n .lease) := by
  simp only [exec_leaseExpiry, execLeaseExpiry, if_neg hdue.ne', htimer, Nat.lt_irrefl, if_false]
  exact congrArg Host.Outcome.next (State.startLoss_setPort rfl)

/-- A permitted FORCE_DETACH makes the act on the port it names (R161, R167, R169). -/
theorem execForceDetach_acts {tag : Tag} {code : Byte} (hn : s.nextRequest n = some ⟨tag, .forceDetach code⟩)
    (hp : portOfCode code = some p) (hm : s.isMaintenance n = true) :
    exec (.forceDetach n) s = .next (s.forceAct n ⟨tag, .forceDetach code⟩ p) := by
  have hok : RequestOp.operandsOk (.forceDetach code) = true := Option.isSome_iff_exists.2 ⟨p, hp⟩
  simp only [exec_forceDetach, execForceDetach, hn, hp]
  rw [State.examine_of_ok hok, State.ifMaintenance_of_role hm]

theorem State.forceAct_attached (h : s.portState p = .attached) : s.forceAct n rq p =
    if p = n then (s.requestTaken n).startLoss p .forced
    else ((s.requestTaken n).startLoss p .forced).postReply n { bareReply rq .ok with extra := .alreadyClosing false } := by
  rw [State.forceAct, h]
  rfl

/-! ## Ports without a session (R138) -/

theorem RequestOp.attach_of_code {op : RequestOp} (h : op.code = 0x01#8) : ∃ lease m f, op = .attach lease m f := by
  cases op with
  | attach lease m f => exact ⟨lease, m, f, rfl⟩
  | _ => simp [RequestOp.code] at h

/-- The executor of a port in OPEN is IDLE: an abandoned request is of a port in CLOSING (R131). -/
theorem State.Sound.executor_of_opened (h : s.Sound) (hp : s.portState p = .opened) : s.executor p = .idle := by
  have hna : (s.executor p).abandoned = false := Bool.eq_false_iff.2 fun ha => by
    obtain ⟨r, hr, hrp, -⟩ := h.sessions.abandonedLost p ha
    exact PortState.noConfusion (hp.symm.trans ((h.sessions.closingSwept p).2 ⟨r, hr, hrp⟩))
  exact (h.executors.shaped p).eq_idle (h.idle_of_not_attached (by simp [hp]) hna)

/-- The outstanding requests of a port in OPEN are queued, or answered with the reply still waiting (R138). -/
theorem State.Laws.tags_of_opened (h : s.Laws) (hp : s.portState p = .opened) :
    (s.port p).tags.Perm (s.queueTags p ++ s.replyTags p) := by
  have hatt : s.portState p ≠ .attached := by simp [hp]
  have hunswept : sweepTags s.sweeps p = [] := sweepTags_of_forall_ne fun r hr hrp =>
    PortState.noConfusion (hp.symm.trans ((h.sessions.closingSwept p).2 ⟨r, hr, hrp⟩))
  have hplaces := h.outstanding.onePlaceEach p
  rwa [State.outstandingPlaces_eq, h.sound.tags_of_not_attached hatt, h.sound.waitTags_of_not_attached hatt, hunswept,
    List.append_nil, List.append_nil, List.append_nil] at hplaces

end Sys2Proof.Machine

open Sys2Proof Sys2Proof.Machine

/-- Settles O10: the edges of the line, by the state of the port that they find. -/
theorem portResetOutsideAttached : Obligations.PortResetOutsideAttached := by
  intro s n
  refine ⟨fun hhigh hatt => ⟨s.lineFalls n, execPortResetLow_of_high hhigh, ?falls⟩,
    fun hlow => ⟨s.lineRises n, execPortResetHigh_of_low hlow, ?rises⟩⟩
  case falls =>
    cases hp : s.portState n with
    | attached => exact absurd hp hatt
    | down =>
      rw [State.lineFalls_down hp]
      refine ⟨?_, State.pinOut_of_low ?_, fun _ => ⟨rfl, rfl⟩, nofun, nofun⟩
      · exact (State.setPort_self (s.setLink n (.reset false)) n).symm
      · rw [State.link_setLink_self]; rfl
    | opened =>
      rw [State.lineFalls_opened hp, State.port_setPort_self]
      refine ⟨rfl, State.pinOut_of_low ?_, nofun, fun _ => ⟨rfl, rfl⟩, nofun⟩
      rw [State.setPort_link, State.link_setLink_self]; rfl
    | closing =>
      have hport : (s.lineFalls n).port n = { (s.port n).flush with linkDown := true } := by
        rw [State.lineFalls_closing hp]
        exact State.port_setPort_self _ n _
      have hsweeps : (s.lineFalls n).sweeps = s.sweeps.map (SweepRecord.forgetTag n) := by rw [State.lineFalls_closing hp]
      refine ⟨?_, State.pinOut_of_low ?_, nofun, nofun,
        fun _ => ⟨hport, hsweeps.trans (List.map_congr_left fun r _ => ?_)⟩⟩
      · rw [hport, hsweeps, State.lineFalls_closing hp]
        rfl
      · rw [State.lineFalls_closing hp]
        exact congrArg PortLink.lineHigh (State.link_setLink_self s n _)
      · obtain ⟨q, kind⟩ := r
        cases kind with
        | loss reason => exact (SweepRecord.forgetTag_loss q n reason).trans (ite_self _).symm
        | detach tag counts => exact SweepRecord.forgetTag_detach q n tag counts
  case rises =>
    rw [State.lineRises_eq, State.port_setPort_self]
    exact ⟨rfl, rfl⟩

/-- Settles O11: each of the three causes makes the one act of a loss. -/
theorem sessionLossStarts : Obligations.SessionLossStarts := by
  intro s n hatt
  refine ⟨fun hhigh => ?line, fun htimer hdue => ?lease, fun m tag code hn hcode hm => ?forced⟩
  case line =>
    rw [execPortResetLow_of_high hhigh, State.lineFalls_attached hatt]
    obtain ⟨t, ht, hlost⟩ := State.startLoss_started (s.setLink n (.reset false)) n .linkReset
    exact ⟨t, congrArg Host.Outcome.next ht, hlost⟩
  case lease =>
    rw [execLeaseExpiry_ends htimer hdue]
    obtain ⟨t, ht, hlost⟩ := State.startLoss_started s n .lease
    exact ⟨t, congrArg Host.Outcome.next ht, hlost⟩
  case forced =>
    rw [execForceDetach_acts hn hcode hm, State.forceAct_attached hatt]
    obtain ⟨t, ht, hlost⟩ := State.startLoss_started (s.requestTaken m) n .forced
    rw [ht]
    exact ⟨t, hlost, fun hmn => congrArg Host.Outcome.next (if_pos hmn.symm),
      fun hmn => congrArg Host.Outcome.next (if_neg (Ne.symm hmn))⟩

/-- Settles O20: in OPEN the port is changed and the others are told; in ATTACHED the request is answered at once. -/
theorem attachOpensASession : Obligations.AttachOpensASession := by
  intro s n tag lease m f mask flag hn hmask hflag
  have hok : RequestOp.operandsOk (.attach lease m f) = true := by simp [RequestOp.operandsOk, hmask, hflag]
  refine ⟨fun hopen => ?opened, fun hatt => ?attached⟩
  case opened =>
    obtain ⟨hown, htold⟩ := State.postNotice_told
      (u := s.setPort n (s.attachedPort n ⟨tag, .attach lease m f⟩ lease mask flag)) (reason := none)
      (fun p => State.port_setPort s n p _) (Or.inl rfl)
    refine ⟨_, ?_, rfl, hown, htold⟩
    simp only [exec_attach, execAttach, hn, hopen, hmask, hflag]
    rw [State.examine_of_ok hok, State.attachAct_eq]
  case attached =>
    simp only [exec_attach, execAttach, hn, hatt]
    rw [State.examine_of_ok hok]
    rfl

/-- Settles O21: the port is changed in one act with its sweep record, and the others are told. -/
theorem detachStartsASweep : Obligations.DetachStartsASweep := by
  intro s n tag hn hatt
  obtain ⟨hown, htold⟩ := State.postNotice_told
    (u := s.closePort n s (s.detached n) (s.link n) (.detach (some tag) .zero)) (reason := none)
    (fun p => State.closePort_port _ p) (Or.inr (Or.inl rfl))
  refine ⟨s.detachAct n tag, ?_, ?_, ?_, ?_⟩
  · simp only [exec_detach, execDetach, hn, hatt, and_self, if_true]
  · rw [State.detachAct_eq, State.closePort_of_link]
    rfl
  · rw [State.detachAct_eq]
    exact hown
  · rw [State.detachAct_eq]
    exact htold

/-- Settles O49: the law of the sessions is one of the laws that a step keeps. -/
theorem sessionLawsAreKept : Obligations.SessionLawsAreKept := fun s t h hst => (allLawsAreKept s t h hst).sessions

/-- Settles O51: what the laws that a step keeps say of a port without a session. -/
theorem openAndDownPortsHoldNothing : Obligations.OpenAndDownPortsHoldNothing := by
  intro s t h hst p
  have ht := allLawsAreKept s t h hst
  have hfits := ht.sessions.fits p
  refine ⟨fun hp => ⟨ht.sweeps.closedOwnsNothing p hp, fun w hw hwp => ?parked⟩, fun hp => ?down,
    fun hp => ⟨fun rq hrq => ?queued, congrArg Executor.current (ht.sound.executor_of_opened hp), ht.tags_of_opened hp⟩⟩
  case parked =>
    have hatt := ht.waits.portAttached w hw
    rw [hwp] at hatt
    rcases hp with hp | hp
    · exact PortState.noConfusion (hatt.symm.trans hp)
    · exact PortState.noConfusion (hatt.symm.trans hp)
  case down =>
    have hline := hfits.line
    rw [show (t.port p).portState = .down from hp] at hline
    exact (hfits.needsLine hline).2.2
  case queued =>
    have hqueue := hfits.queue
    rw [queueFits, show (t.port p).portState = .opened from hp] at hqueue
    exact (hqueue rq hrq).imp RequestOp.attach_of_code id
end

