-- ==== Sys2Proof/Proofs/Ticks.lean ====
section
/-! SUPPORT. A tick as it reaches the Wait Table, the lease timers and the framers (R89, R126, R127, R157). -/

namespace Sys2Proof.Machine

variable {s : State} {c : PortControl} {l : PortLink}

/-! ## The Wait Table (R89) -/

theorem WaitRecord.endsNow_iff (w : WaitRecord) : w.endsNow = true ↔ ∃ m, w.remaining = some m ∧ m ≤ 1 := by
  unfold WaitRecord.endsNow
  cases w.remaining with
  | none => simp
  | some m => simp

/-- The Wait Table takes a tick at once just where no tick stands before it and it ends no wait. -/
theorem State.tickWaits_eq (s : State) : s.tickWaits =
    if s.waits = [] then { s with waitDue := 0 }
    else if s.waitDue = 0 ∧ ∀ w ∈ s.waits, w.endsNow = false then s.takeWaitTick
    else { s with waitDue := s.waitDue + 1 } := by
  unfold State.tickWaits
  simp only [WaitRecord.tick_expired, List.all_eq_true, Bool.not_eq_true']

/-- A tick that ends no wait lowers the remaining times and answers nobody. -/
theorem State.takeWaitTick_of_none_ends (h : ∀ w ∈ s.waits, w.endsNow = false) :
    s.takeWaitTick = { s with waits := s.waits.map WaitRecord.tick } := by
  have hwaits : s.takeWaitTick.waits = s.waits.map WaitRecord.tick := by
    rw [State.takeWaitTick_waits, List.filter_eq_self.2 fun w hw => by simp [h w hw]]
  have hports : s.takeWaitTick.ports = s.ports := PerPort.eq_of_get fun p => by
    refine (State.takeWaitTick_port (s := s) (p := p)).trans ?_
    rw [List.filter_eq_nil_iff.2 fun w hw => by simp [h w hw], List.map_nil, List.append_nil]
    rfl
  rw [← hwaits]
  conv_rhs => rw [← hports]
  rfl

/-- A tick answers nobody as it reaches the Wait Table: one that would end a wait stays delivered (log 8). -/
theorem State.tickWaits_leaves (s : State) :
    s.tickWaits = { s with waits := s.tickWaits.waits, waitDue := s.tickWaits.waitDue } := by
  rw [State.tickWaits_eq]
  split
  · rfl
  · split
    · next htaken => rw [State.takeWaitTick_of_none_ends htaken.2]
    · rfl

theorem State.tickWaits_of_nil (h : s.waits = []) : s.tickWaits = { s with waitDue := 0 } := by
  rw [State.tickWaits_eq, if_pos h]

theorem State.tickWaits_of_none_ends (h : s.waits ≠ []) (hdue : s.waitDue = 0)
    (hlong : ∀ w ∈ s.waits, w.endsNow = false) : s.tickWaits = { s with waits := s.waits.map WaitRecord.tick } := by
  rw [State.tickWaits_eq, if_neg h, if_pos ⟨hdue, hlong⟩, State.takeWaitTick_of_none_ends hlong]

theorem State.tickWaits_of_ends (h : s.waits ≠ []) (hstays : 0 < s.waitDue ∨ ∃ w ∈ s.waits, w.endsNow = true) :
    s.tickWaits = { s with waitDue := s.waitDue + 1 } := by
  rw [State.tickWaits_eq, if_neg h, if_neg]
  rintro ⟨hdue, hlong⟩
  rcases hstays with hpos | ⟨w, hw, hends⟩
  · exact hpos.ne' hdue
  · exact Bool.noConfusion ((hlong w hw).symm.trans hends)

/-! ## A lease timer (R127) -/

theorem PortControl.tickLease_of_stopped (h : c.leaseTimer = none) : c.tickLease = { c with leaseDue := 0 } := by
  simp only [PortControl.tickLease, h]

theorem PortControl.tickLease_of_running {m : Nat} (h : c.leaseTimer = some m) : c.tickLease =
    if c.leaseDue = 0 ∧ 1 < m then { c with leaseTimer := some (m - 1) } else { c with leaseDue := c.leaseDue + 1 } := by
  simp only [PortControl.tickLease, h]

/-! ## A framer (R157) -/

theorem PortLink.tickFramer_of_hunt (h : l.framer = .hunt) : l.tickFramer = { l with byteTicks := 0, framerDue := 0 } := by
  rw [PortLink.tickFramer, if_pos h, PortLink.toHunt, ← h]

theorem PortLink.tickFramer_of_frame (h : l.framer ≠ .hunt) : l.tickFramer =
    if l.framerDue = 0 ∧ l.byteTicks = 0 then { l with byteTicks := 1 } else { l with framerDue := l.framerDue + 1 } :=
  if_neg h

theorem PortLink.tickFramer_leaves (l : PortLink) :
    l.tickFramer = { l with byteTicks := l.tickFramer.byteTicks, framerDue := l.tickFramer.framerDue } := by
  by_cases h : l.framer = .hunt
  · rw [PortLink.tickFramer_of_hunt h]
  · rw [PortLink.tickFramer_of_frame h]
    split <;> rfl

/-! ## TICK (R126) -/

/-- The part after a tick that reaches every block. -/
def State.ticked (s : State) : State :=
  { s.tickWaits with
    ports := s.ports.mapPorts (fun _ c => c.tickLease), links := s.links.mapPorts (fun _ l => l.tickFramer) }

theorem exec_tick_of_running (h : s.held = false) : exec .tick s = .next s.ticked := by
  have hports : s.tickWaits.ports = s.ports := by rw [State.tickWaits_leaves]
  have hlinks : s.tickWaits.links = s.links := by rw [State.tickWaits_leaves]
  simp only [exec_tick, execTick, h, Bool.false_eq_true, if_false, hports, hlinks]
  rfl

theorem State.ticked_port (s : State) (p : Port) : s.ticked.port p = (s.port p).tickLease := PerPort.get_mapPorts _ s.ports p

theorem State.ticked_link (s : State) (p : Port) : s.ticked.link p = (s.link p).tickFramer := PerPort.get_mapPorts _ s.links p

end Sys2Proof.Machine

open Sys2Proof Sys2Proof.Machine

/-- Settles O12: block by block, whether the tick is taken, stays delivered or is dropped. -/
theorem tickReachesEveryBlock : Obligations.TickReachesEveryBlock := by
  intro s
  refine ⟨fun hheld => congrArg Host.Outcome.next (if_pos hheld),
    fun hheld => ⟨s.ticked, exec_tick_of_running hheld, ?frame, fun hne hdue hlong => ?lowered, fun hnil => ?empty,
      fun hne hstays => ?stays, fun p => ?lease, fun p => ?framer⟩⟩
  case frame =>
    rw [State.ticked, State.tickWaits_leaves]
  case lowered =>
    have hnone : ∀ w ∈ s.waits, w.endsNow = false := fun w hw => Bool.eq_false_iff.2 fun hends => by
      obtain ⟨m, hm, hle⟩ := w.endsNow_iff.1 hends
      have := hlong w hw m hm
      omega
    rw [State.ticked, State.tickWaits_of_none_ends hne hdue hnone]
    exact ⟨hdue, rfl⟩
  case empty =>
    rw [State.ticked, State.tickWaits_of_nil hnil]
    exact ⟨hnil, rfl⟩
  case stays =>
    rw [State.ticked, State.tickWaits_of_ends hne (hstays.imp_right fun ⟨w, hw, hends⟩ => ⟨w, hw, w.endsNow_iff.2 hends⟩)]
    exact ⟨rfl, rfl⟩
  case lease =>
    rw [State.ticked_port]
    refine ⟨?_, fun hstopped => ?_, fun m hm hlong hdue => ?_, fun m hm hstays => ?_⟩
    · obtain ⟨m, k, he, -⟩ := (s.port p).tickLease_eq
      rw [he]
    · rw [PortControl.tickLease_of_stopped hstopped]
      exact ⟨hstopped, rfl⟩
    · rw [PortControl.tickLease_of_running hm, if_pos ⟨hdue, hlong⟩]
      exact ⟨rfl, hdue⟩
    · rw [PortControl.tickLease_of_running hm, if_neg (by omega)]
      exact ⟨hm, rfl⟩
  case framer =>
    rw [State.ticked_link]
    refine ⟨(s.link p).tickFramer_leaves, fun hhunt => ?_, fun hframe hticks hdue => ?_, fun hframe hstays => ?_⟩
    · rw [PortLink.tickFramer_of_hunt hhunt]
      exact ⟨rfl, rfl⟩
    · rw [PortLink.tickFramer_of_frame hframe, if_pos ⟨hdue, hticks⟩]
      exact ⟨rfl, hdue⟩
    · rw [PortLink.tickFramer_of_frame hframe, if_neg (by omega)]
      exact ⟨rfl, rfl⟩
end

