-- ==== Sys2Proof/Proofs/SweepPasses.lean ====
section
/-! SUPPORT. The course of a sweep pass: its start, what follows a visit, its end, and the records that a clearing pass
removes (R131, R134, R135, R137, R139). -/

namespace Sys2Proof.Machine

variable {s t u v : State} {p : Port} {k : Slot} {r : SweepRecord} {rest ended : List SweepRecord} {st : Status}

/-! ## A port leaves CLOSING (R137, R139) -/

/-- The controller of a swept port after its pass, the DETACH reply that it is owed posted. -/
def State.sweptPort (s : State) (st : Status) (r : SweepRecord) : PortControl :=
  { s.leftClosing r.port with replyQueue := (s.port r.port).replyQueue ++ (r.detachReply st).toList }

/-- The controller of a port that is told of the end of record r's pass (R145). -/
def PortControl.toldSwept (c : PortControl) (r : SweepRecord) : PortControl :=
  if c.portState = .attached ∧ c.mask.ports = true then
    c.push { kind := .sweepDone, entry := none, value := none, cause := .device, subject := some r.port
             reason := r.reason, lost := none }
  else c

theorem PortControl.toldSwept_of_not_attached {c : PortControl} (h : c.portState ≠ .attached) : c.toldSwept r = c :=
  if_neg fun ha => h ha.1

theorem PortControl.foldl_toldSwept_of_not_attached {c : PortControl} (h : c.portState ≠ .attached)
    (x : List SweepRecord) : x.foldl PortControl.toldSwept c = c := by
  induction x with
  | nil => rfl
  | cons r x ih => rw [List.foldl_cons, PortControl.toldSwept_of_not_attached h, ih]

theorem State.sweptPort_not_attached : (s.sweptPort st r).portState ≠ .attached := by
  rcases s.stateAfterClosing_cases r.port with h | h
  · exact fun ha => PortState.noConfusion (ha.symm.trans h)
  · exact fun ha => PortState.noConfusion (ha.symm.trans h)

theorem State.closeRecord_port (s : State) (st : Status) (r : SweepRecord) (p : Port) :
    (s.closeRecord st r).port p = if p = r.port then s.sweptPort st r else (s.port p).toldSwept r := by
  have hclosed : ∀ u : State, (∀ q, u.port q = if q = r.port then s.sweptPort st r else s.port q) →
      (u.postNotice .sweepDone r.port r.reason).port p =
        if p = r.port then s.sweptPort st r else (s.port p).toldSwept r := fun u hu => by
    obtain ⟨hown, htold⟩ := State.postNotice_told (reason := r.reason) hu (Or.inr (Or.inr (Or.inr rfl)))
    split
    · next hp => exact hp ▸ hown
    · next hp => exact htold p hp
  unfold State.closeRecord
  dsimp only
  cases hreply : r.detachReply st with
  | none =>
    refine hclosed _ fun q => (State.port_setPort s r.port q _).trans ?_
    rw [State.sweptPort, hreply, Option.toList_none, List.append_nil]
    rfl
  | some reply =>
    refine hclosed _ fun q => ?_
    rw [State.postReply_port, State.port_setPort_self, State.sweptPort, hreply]
    split
    · rfl
    · next hq => exact State.port_setPort_of_ne s _ hq

/-! ## The records that the clearing pass's first cycle removes (R139) -/

/-- The part with the records given closed, head first, and still listed. -/
def State.closeRecords (s : State) (st : Status) (x : List SweepRecord) : State := x.foldl (fun s r => s.closeRecord st r) s

theorem State.closeRecords_cons (x : List SweepRecord) :
    s.closeRecords st (r :: x) = (s.closeRecord st r).closeRecords st x := rfl

/-- A port that has no record is told of each pass. -/
theorem State.closeRecords_port_of_ne {x : List SweepRecord} (h : ∀ r ∈ x, r.port ≠ p) : ∀ s : State,
    (s.closeRecords st x).port p = x.foldl PortControl.toldSwept (s.port p) := by
  induction x with
  | nil => exact fun _ => rfl
  | cons a x ih =>
    intro s
    rw [State.closeRecords_cons, ih (fun r hr => h r (List.mem_cons_of_mem a hr)), State.closeRecord_port,
      if_neg (Ne.symm (h a List.mem_cons_self)), List.foldl_cons]

/-- A port in CLOSING changes with its own record alone: before it, it is told of nothing, and so it is after it. -/
theorem State.closeRecords_port_swept {x : List SweepRecord} (honce : (x.map SweepRecord.port).Nodup) (hr : r ∈ x) :
    ∀ s : State, (∀ q ∈ x, s.portState q.port = .closing) → (s.closeRecords st x).port r.port = s.sweptPort st r := by
  induction x with
  | nil => cases hr
  | cons a x ih =>
    intro s hclosing
    obtain ⟨hfresh, honce⟩ := List.nodup_cons.1 honce
    have hne : ∀ q ∈ x, q.port ≠ a.port := fun q hq hqa => hfresh (hqa ▸ List.mem_map_of_mem hq)
    have hkept : ∀ q ∈ x, (s.closeRecord st a).port q.port = s.port q.port := fun q hq => by
      rw [State.closeRecord_port, if_neg (hne q hq)]
      refine PortControl.toldSwept_of_not_attached fun ha => ?_
      exact PortState.noConfusion (ha.symm.trans (hclosing q (List.mem_cons_of_mem a hq)))
    rw [State.closeRecords_cons]
    rcases List.mem_cons.1 hr with rfl | hr
    · rw [State.closeRecords_port_of_ne hne, State.closeRecord_port, if_pos rfl]
      exact PortControl.foldl_toldSwept_of_not_attached State.sweptPort_not_attached x
    · rw [ih honce hr]
      · have hlink : (s.closeRecord st a).link r.port = s.link r.port := by rw [State.closeRecord_frame]; rfl
        simp only [State.sweptPort, State.leftClosing, State.stateAfterClosing, hkept r hr, hlink]
      · exact fun q hq => (congrArg PortControl.portState (hkept q hq)).trans (hclosing q (List.mem_cons_of_mem a hq))

/-- The first cycle of a clearing pass writes slot 0 and removes the sweep records. -/
theorem exec_passCycle_removes (hheld : s.held = false) (hd : s.device = .clearing) (hpos : s.passPos = 0) :
    exec .passCycle s = .next { (s.passWrite 0).removeSweeps with passPos := 1 } := by
  rw [exec_passCycle_eq hheld (by simp [hd]), State.passStep, hpos, if_pos (by decide), State.passCycled,
    if_pos ⟨hpos, hd⟩, hpos]

theorem State.removeSweeps_port (s : State) (p : Port) :
    s.removeSweeps.port p = (s.closeRecords .cancelled s.sweeps).port p := rfl

theorem State.passWrite_sweeps (s : State) (k : Slot) : (s.passWrite k).sweeps = s.sweeps := by rw [State.passWrite_frame]

theorem State.passWrite_link (s : State) (k : Slot) (p : Port) : (s.passWrite k).link p = s.link p := by
  rw [State.passWrite_frame]; rfl

/-! ## The end of a pass (R137) -/

/-- The end of a pass leaves nothing of where the Sweeper stood. -/
theorem PassEnded.of_position {b : Bool} (h : PassEnded { s with sweepPos := k, sweepVisit := b } r rest t) :
    PassEnded s r rest t := ⟨h.frame, h.own, h.told⟩

/-! ## The start of a pass (R131, R134) -/

theorem State.sweepMayStart_iff : s.sweepMayStart r = true ↔
    (∃ tag c, r.kind = .detach tag c) ∨ (s.executor r.port).abandoned = false := by
  unfold State.sweepMayStart
  cases r.kind with
  | detach tag c => simp
  | loss reason => simp

theorem exec_sweepPassStart_starts (hd : s.device = .ready) (hv : s.sweepVisit = false) (hr : s.sweeps = r :: rest)
    (hstart : s.sweepMayStart r = true) :
    exec .sweepPassStart s = .next (State.sweepTest { s with sweepPos := 0 }).arbitrate := by
  simp only [exec_sweepPassStart, execSweepPassStart, hr, hd, hv, hstart, and_self, if_true]

theorem exec_sweepPassStart_waits (hr : s.sweeps = r :: rest) (hstart : ¬ s.sweepMayStart r = true) :
    exec .sweepPassStart s = .next s := by
  simp only [exec_sweepPassStart, execSweepPassStart, hr, hstart, Bool.false_eq_true, and_false, if_false]

theorem sweepPassStarts : Claims.SweepPassStarts := by
  intro s r rest hd hv hr
  refine ⟨fun ⟨⟨x, hx⟩, ha⟩ => exec_sweepPassStart_waits hr fun hstart => ?waits,
    fun hstart => ⟨fun hz => ?ends, fun hz => ?visits⟩⟩
  case waits => exact Bool.noConfusion ((State.sweepMayStart_loss hstart ⟨x, hx⟩).symm.trans ha)
  case ends =>
    refine ⟨_, ?_, (State.endPass_ended { s with sweepPos := 0 } r rest hr).of_position⟩
    rw [exec_sweepPassStart_starts hd hv hr (State.sweepMayStart_iff.2 hstart),
      State.sweepTest_cons (s := { s with sweepPos := 0 }) hr, if_pos hz]
  case visits =>
    rw [exec_sweepPassStart_starts hd hv hr (State.sweepMayStart_iff.2 hstart),
      State.sweepTest_cons (s := { s with sweepPos := 0 }) hr, if_neg hz]

/-! ## What follows a visit (R135 to R137) -/

/-- The part after the visit to slot k and the test that follows it, or, behind slot 4095, the end of the pass. -/
def State.visitFollowed (s : State) (k : Slot) : State :=
  if k + 1 < Config.slots then (s.visitDone k).sweepTest else (s.visitDone k).endPass

theorem State.afterVisit_eq (s : State) (k : Slot) : s.afterVisit k =
    if s.clearDue ∧ Config.sweeperTestsFirst s.freeIndex = false then (s.visitDone k).afterCompletion
    else (if s.clearDue then { s.visitFollowed k with freeIndex := (s.visitFollowed k).freeIndex + 1 }
      else s.visitFollowed k).afterCompletion := rfl

theorem State.visitDone_position (hk : k + 1 < 4096) :
    s.visitDone k = { s with inProgress := none, sweepVisit := false, sweepPos := k + 1 } := by
  rw [State.visitDone, Nat.mod_eq_of_lt (show k + 1 < Config.slots from hk)]

/-- With a count above 0 and a slot left, the next visit is presented. -/
theorem State.visitFollowed_presents (hr : s.sweeps = r :: rest) (hk : k + 1 < 4096)
    (hz : s.tallies.get r.port ≠ { owned := 0, watch := 0 }) :
    s.visitFollowed k = { s with inProgress := none, sweepPos := k + 1, sweepVisit := true } := by
  rw [State.visitFollowed, if_pos (show k + 1 < Config.slots from hk),
    State.sweepTest_cons (s := s.visitDone k) (r := r) (rest := rest) hr]
  refine (if_neg hz).trans ?_
  rw [State.visitDone_position hk]

/-- With both counts 0, or no slot left, the pass ends. -/
theorem State.visitFollowed_ends (hr : s.sweeps = r :: rest)
    (h : k + 1 = 4096 ∨ s.tallies.get r.port = { owned := 0, watch := 0 }) :
    PassEnded { s with inProgress := none } r rest (s.visitFollowed k) := by
  have hend : s.visitFollowed k = (s.visitDone k).endPass := by
    unfold State.visitFollowed
    split
    · next hk =>
      have hz := h.resolve_left (Nat.ne_of_lt hk)
      rw [State.sweepTest_cons (s := s.visitDone k) (r := r) (rest := rest) hr]
      exact if_pos hz
    · rfl
  rw [hend]
  exact (State.endPass_ended (s.visitDone k) r rest hr).of_position

theorem visitIsFollowedByTheNext : Claims.VisitIsFollowedByTheNext := by
  intro s k r rest hr hdue
  have hafter : s.afterVisit k = (s.visitFollowed k).afterCompletion := by
    rw [State.afterVisit_eq, if_neg (by simp [hdue]), if_neg (by simp [hdue])]
  have hturn : ∀ t : State, t.clearDue = false → t.afterCompletion = t.arbitrate := fun t ht => by
    simp only [State.afterCompletion, ht, Bool.false_eq_true, if_false]
  rw [hafter]
  refine ⟨fun hk hz => ?next, fun hlast => ?ends⟩
  case next =>
    rw [State.visitFollowed_presents hr hk hz]
    exact hturn _ hdue
  case ends =>
    have hended := State.visitFollowed_ends (k := k) hr (hlast.imp (congrArg Nat.succ) And.right)
    refine ⟨_, hturn _ ?_, hended⟩
    rw [hended.frame]
    exact hdue

/-! ## An entry to CLEARING that is due behind a visit (R36, R139; log 10) -/

/-- Which free value comes next does not matter to an entry. -/
theorem EntersClearing.withFreeIndex (h : EntersClearing u t) (i : Nat) : EntersClearing { u with freeIndex := i } t :=
  ⟨h.rest, h.executors, h.replies, h.events, h.ports, h.others⟩

theorem PassesEnded.of_freeIndex {i : Nat} (h : PassesEnded ended { v with freeIndex := i } u) :
    ∃ j, PassesEnded ended v { u with freeIndex := j } := by
  cases ended with
  | nil => exact ⟨v.freeIndex, by rw [← show _ = u from h]; rfl⟩
  | cons r ended =>
    obtain ⟨rest, j, w, hr, hloss, hz, hpass, hrest⟩ := h
    exact ⟨u.freeIndex, rest, j, w, hr, hloss, hz, hpass, hrest⟩

/-- No test comes ahead of the entry while a visit is presented, or where the free value puts the entry first. -/
theorem State.testsAhead_of_none (h : s.sweepVisit = true ∨ Config.sweeperTestsFirst s.freeIndex = false) (m : Nat) :
    s.testsAhead m = s := by
  cases m with
  | zero => rfl
  | succ m =>
    unfold State.testsAhead
    split
    · rfl
    · refine if_neg fun ⟨hfirst, hvisit, _⟩ => ?_
      rcases h with h | h
      · exact Bool.noConfusion (hvisit.symm.trans h)
      · exact Bool.noConfusion (hfirst.symm.trans h)

theorem State.afterCompletion_enters (h : s.clearDue = true) :
    EntersClearing (s.testsAhead s.sweeps.length) s.afterCompletion := by
  rw [State.afterCompletion_of_due h]
  exact State.enterClearing_enters _

theorem visitIsFollowedByADueEntry : Claims.VisitIsFollowedByADueEntry := by
  intro s k r rest hr hdue hk
  rw [State.afterVisit_eq]
  by_cases hfirst : Config.sweeperTestsFirst s.freeIndex = false
  · rw [if_pos ⟨hdue, hfirst⟩]
    have henters := State.afterCompletion_enters (s := s.visitDone k) hdue
    rw [State.testsAhead_of_none (s := s.visitDone k) (.inr hfirst)] at henters
    exact ⟨s.visitDone k, henters, .inl rfl⟩
  · rw [if_neg fun h => hfirst h.2, if_pos hdue]
    by_cases hends : k + 1 = 4096 ∨ s.tallies.get r.port = { owned := 0, watch := 0 }
    · have hended := State.visitFollowed_ends (k := k) hr hends
      generalize s.visitFollowed k = v at hended
      have hvdue : v.clearDue = true := by rw [hended.frame]; exact hdue
      have henters := State.afterCompletion_enters (s := { v with freeIndex := v.freeIndex + 1 }) hvdue
      obtain ⟨ended, htests⟩ := State.testsAhead_ended v.sweeps.length { v with freeIndex := v.freeIndex + 1 }
      obtain ⟨j, htests⟩ := htests.of_freeIndex
      exact ⟨_, henters.withFreeIndex j, .inr (.inr ⟨hends, v, ended, hended, htests⟩)⟩
    · obtain ⟨hmore, hz⟩ := not_or.1 hends
      have hlt : k + 1 < 4096 := Nat.lt_of_le_of_ne (Nat.succ_le_succ hk) hmore
      rw [State.visitFollowed_presents hr hlt hz]
      have henters := State.afterCompletion_enters
        (s := { s with inProgress := none, sweepVisit := true, sweepPos := k + 1, freeIndex := s.freeIndex + 1 }) hdue
      rw [State.testsAhead_of_none (.inl rfl)] at henters
      exact ⟨_, henters.withFreeIndex s.freeIndex, .inr (.inl ⟨hlt, hz, rfl⟩)⟩

end Sys2Proof.Machine

open Sys2Proof Sys2Proof.Machine

/-- Settles O8: slot 0 is written and the records are closed head first, each port's controller being changed by its own
record, and a port without one being told of each. -/
theorem clearingPassRemovesTheSweeps : Obligations.ClearingPassRemovesTheSweeps := by
  intro s hheld hd hpos honce hclosing
  have hsweeps := State.passWrite_sweeps s 0
  have hport := State.passWrite_port s 0
  obtain ⟨ports, hremoved⟩ := (s.passWrite 0).removeSweeps_eq
  refine ⟨_, exec_passCycle_removes hheld hd hpos, ?wrote, ?frame, fun r hr => ?swept, fun p hp => ?told⟩
  case wrote => exact ((s.passWrite_wrote 0).leaves (State.leavesDirectory_removeSweeps _)).congr
  case frame =>
    rw [hremoved, State.passWrite_frame]
  case swept =>
    refine (State.removeSweeps_port (s.passWrite 0) r.port).trans ?_
    rw [hsweeps, State.closeRecords_port_swept honce hr _ fun q hq => ?_]
    · rw [State.sweptPort, State.leftClosing, State.stateAfterClosing, hport, State.passWrite_link]
      obtain ⟨q, kind⟩ := r
      cases kind with
      | loss reason => simp [SweepRecord.detachReply]
      | detach tag counts => cases tag <;> simp [SweepRecord.detachReply]
    · exact (congrArg PortControl.portState (hport q.port)).trans (hclosing q hq)
  case told =>
    refine (State.removeSweeps_port (s.passWrite 0) p).trans ?_
    rw [hsweeps, State.closeRecords_port_of_ne hp, hport]
    rfl

/-- Settles O41: the start of a pass, and what follows a visit with no entry due and with one due. -/
theorem sweepPassesRun : Obligations.SweepPassesRun :=
  ⟨sweepPassStarts, visitIsFollowedByTheNext, visitIsFollowedByADueEntry⟩

/-- Settles O50: the law of the sweeps is one of the laws that a step keeps. -/
theorem sweepLawsAreKept : Obligations.SweepLawsAreKept := fun s t h hst => (allLawsAreKept s t h hst).sweeps
end

