-- ==== Sys2Proof/Proofs/Postings.lean ====
section
/-! SUPPORT. Who receives an event, and what an event queue of each depth makes of a posting (R143 to R145, R147, R148). -/

namespace Sys2Proof.Machine

variable {s : State} {p : Port} {c : PortControl} {e : Event} {older : List EventRecord} {newest : EventRecord}

/-! ## Who receives an event (R143 to R145) -/

theorem EventMask.admits_iff_enables (m : EventMask) (k : EventKind) : m.admits k = true ↔ m.enables k := by
  cases k <;> simp [EventMask.admits, EventMask.enables]

theorem PortControl.admits_iff : c.admits p e = true ↔
    c.portState = .attached ∧ c.mask.enables e.kind ∧ ¬(c.suppressOwn = true ∧ e.cause = .port p) := by
  rw [← EventMask.admits_iff_enables]
  simp only [PortControl.admits, Bool.and_eq_true, decide_eq_true_eq, Bool.not_eq_true', Bool.and_eq_false_iff,
    decide_eq_false_iff_not, and_assoc, not_and_or, Bool.not_eq_true]

/-! ## What the queue makes of it (R147, R148) -/

theorem newestIsOverflow_iff (q : List EventRecord) :
    newestIsOverflow q = true ↔ ∃ r, q.getLast? = some r ∧ r.event.kind = .overflow := by
  unfold newestIsOverflow
  cases q.getLast? with
  | none => simp
  | some r => simp

theorem PortControl.push_of_room (e : Event) (h : c.eventQueue.length ≤ 30) : c.push e = c.append e :=
  if_pos (show c.eventQueue.length + 1 < 32 by omega)

/-- With no room left, the newest record decides. -/
theorem PortControl.push_of_full (e : Event) (h : 31 ≤ c.eventQueue.length) : c.push e =
    if newestIsOverflow c.eventQueue then
      { c with eventQueue := c.eventQueue.dropLast ++ (c.eventQueue.getLast?.map EventRecord.raiseLost).toList }
    else c.append overflowEvent :=
  if_neg (show ¬c.eventQueue.length + 1 < 32 by omega)

theorem PortControl.push_overflows (e : Event) (h : 31 ≤ c.eventQueue.length)
    (hnew : ∀ r, c.eventQueue.getLast? = some r → r.event.kind ≠ .overflow) : c.push e = c.append overflowEvent := by
  have hnot : ¬newestIsOverflow c.eventQueue = true := fun ho => by
    obtain ⟨r, hr, hk⟩ := (newestIsOverflow_iff _).1 ho
    exact hnew r hr hk
  rw [PortControl.push_of_full e h, if_neg hnot]

theorem PortControl.push_counts (e : Event) (h : 31 ≤ c.eventQueue.length) (hq : c.eventQueue = older ++ [newest])
    (hk : newest.event.kind = .overflow) : c.push e = { c with eventQueue := older ++ [newest.raiseLost] } := by
  rw [PortControl.push_of_full e h, hq, newestIsOverflow_concat, hk, if_pos (by decide)]
  simp

/-- The saturation of a lost count, told by its two cases. -/
theorem EventRecord.raiseLost_eq (r : EventRecord) : r.raiseLost = { r with event := { r.event with
    lost := r.event.lost.map (fun k => if k < 65535 then k + 1 else 65535) } } := by
  have hsat : (fun k => min (k + 1) Config.lostLimit) = fun k => if k < 65535 then k + 1 else 65535 := by
    funext k
    simp only [Config.lostLimit]
    split <;> omega
  rw [EventRecord.raiseLost, hsat]

end Sys2Proof.Machine

open Sys2Proof Sys2Proof.Machine

/-- Settles O19: the tests of the recipient, and for one that receives the event the queue by its depth and its newest
record. -/
theorem postingsReachTheirQueues : Obligations.PostingsReachTheirQueues := by
  intro s named e p
  have hadmits := PortControl.admits_iff (c := s.port p) (p := p) (e := e)
  refine ⟨fun hnot => ?passed, fun ⟨hnamed, htests⟩ => ?received, fun _ _ _ _ _ _ => rfl⟩
  case passed =>
    rw [State.postEvent_port, if_neg]
    rw [Bool.and_eq_true, hadmits]
    exact hnot
  case received =>
    have hpush : (s.postEvent named e).port p = (s.port p).push e := by
      rw [State.postEvent_port, if_pos]
      rw [Bool.and_eq_true, hadmits]
      exact ⟨hnamed, htests⟩
    rw [hpush]
    refine ⟨fun hroom => PortControl.push_of_room e hroom,
      fun hlast hnew => PortControl.push_overflows e hlast.ge hnew, fun older newest hfull hq hk => ?_⟩
    rw [PortControl.push_counts e hfull hq hk, EventRecord.raiseLost_eq]

/-- Settles O55: the law of the queues is one of the laws that a step keeps. -/
theorem queueLawsAreKept : Obligations.QueueLawsAreKept := fun s t h hst => (allLawsAreKept s t h hst).queues
end

