-- ==== Sys2Proof/Proofs/Watches.lean ====
section
/-! SUPPORT. What WATCH_CYCLE and UNWATCH_CYCLE make of the state (R15, R141, R142). -/

namespace Sys2Proof.Machine

variable {s : State} {n : Port} {tag : Tag} {k : Slot}

/-! ## The watch set and the watch count (R15) -/

/-- The part after port n has joined the watch set of slot k (R141). -/
def State.watched (s : State) (n : Port) (k : Slot) : State :=
  if (s.entry k).watch.get n then s else (s.setEntry k ((s.entry k).withWatch n true)).raiseWatch n

theorem Entry.withWatch_of_get {e : Entry} {b : Bool} (h : e.watch.get n = b) : e.withWatch n b = e := by
  rw [Entry.withWatch, ← h, PerPort.set_get_self]

theorem State.watched_tally (s : State) (n : Port) (k : Slot) (p : Port) : (s.watched n k).tallies.get p =
    { s.tallies.get p with
      watch := (s.tallies.get p).watch + if p = n ∧ (s.entry k).watch.get n = false then 1 else 0 } := by
  unfold State.watched
  split
  · next hw => rw [if_neg fun h => Bool.noConfusion (hw.symm.trans h.2), Nat.add_zero]
  · next hw =>
    rw [State.raiseWatch_tally, State.setEntry_tallies]
    by_cases hp : p = n
    · rw [if_pos hp, if_pos ⟨hp, Bool.eq_false_iff.2 hw⟩, hp]
    · rw [if_neg hp, if_neg fun h => hp h.1, Nat.add_zero]

theorem State.watched_entry (s : State) (n : Port) (k j : Slot) : (s.watched n k).entry j =
    if j = k then (s.entry k).withWatch n true else s.entry j := by
  unfold State.watched
  split
  · next hw =>
    rw [Entry.withWatch_of_get hw]
    split
    · next hj => rw [hj]
    · rfl
  · exact s.entry_setEntry j k _

theorem State.watched_frame (s : State) (n : Port) (k : Slot) :
    s.watched n k = { s with entries := (s.watched n k).entries, tallies := (s.watched n k).tallies } := by
  unfold State.watched
  split <;> rfl

/-- A cycle that writes entries and tallies, posts no event and answers its request changes nothing else. -/
theorem State.silentTallies_complete (hl : (s.executor n).onLink = false) (entries : List (Nat × Entry))
    (tallies : PerPort Tally) (r : Reply) :
    State.complete { s with entries := entries, tallies := tallies } n (.finish r) = State.afterCompletion
      { s.cycleEnded n with entries := entries, tallies := tallies, ports := (s.replyTo n r).ports } :=
  (State.complete_finish_eq { s with entries := entries, tallies := tallies } n r hl).trans
    (congrArg State.afterCompletion (State.endedWith_eq s rfl rfl rfl))

/-! ## The two cycles (R141, R142) -/

theorem execWatchCycle_allocated (hc : s.cycleOf n .single = some ⟨tag, .watch k⟩) (ha : s.allocated k = true) :
    execWatchCycle n s = .next ((s.watched n k).complete n (.finish
      { bareReply ⟨tag, .watch k⟩ .ok with
        content := some (s.entry k).content, version := some (s.entry k).version
        extra := .wasWatching ((s.entry k).watch.get n) })) := by
  simp only [execWatchCycle, hc, State.ifAllocated_of_allocated _ ha]
  rfl

theorem execUnwatchCycle_allocated (hc : s.cycleOf n .single = some ⟨tag, .unwatch k⟩) (ha : s.allocated k = true) :
    execUnwatchCycle n s = .next ((s.unwatched n k).complete n (.finish
      { bareReply ⟨tag, .unwatch k⟩ .ok with
        version := some (s.entry k).version, extra := .wasWatching ((s.entry k).watch.get n) })) := by
  simp only [execUnwatchCycle, hc, State.ifAllocated_of_allocated _ ha]
  rfl

end Sys2Proof.Machine

open Sys2Proof Sys2Proof.Machine

/-- Settles O35: each of the two cycles writes the requester's watch and its count, and answers the request. -/
theorem watchAndUnwatchKeepTheSet : Obligations.WatchAndUnwatchKeepTheSet := by
  intro s n tag k ha
  refine ⟨fun hc => ?watch, fun hc => ?unwatch⟩
  case watch =>
    have hlink := State.not_onLink_of_cycleOf hc fun _ _ => RequestOp.noConfusion
    rw [exec_watchCycle, execWatchCycle_allocated hc ha, State.watched_frame, State.silentTallies_complete hlink]
    exact ⟨_, rfl, rfl, s.watched_entry n k, s.watched_tally n k⟩
  case unwatch =>
    have hlink := State.not_onLink_of_cycleOf hc fun _ _ => RequestOp.noConfusion
    obtain ⟨entries, tallies, hunwatched, hentry, htally⟩ := s.visit_unwatch n k
    rw [exec_unwatchCycle, execUnwatchCycle_allocated hc ha, State.unwatched, hunwatched,
      State.silentTallies_complete hlink]
    refine ⟨_, rfl, rfl, hentry, fun p => ?_⟩
    rw [htally]
    by_cases hp : p = n
    · rw [hp]
    · rw [if_neg fun h => hp h.1, if_neg fun h => hp h.1]
end

