-- ==== Sys2Proof/Proofs/Framing.lean ====
section
/-! SUPPORT. The receive framer: the byte that moves it on, and the fault that sends it back to HUNT (R157, R158). -/

namespace Sys2Proof.Machine

variable {s : State} {n : Port} {b len high low : Byte} {body : List Byte} {f : Framer} {l : PortLink} {a : Ack}

/-- A port takes bits just where neither the part nor the port is held in reset (R155). -/
theorem State.listens_iff : s.listens n = true ↔ s.held = false ∧ (s.link n).lineHigh = true := by
  simp [State.listens]

theorem lengthByteOk_iff : lengthByteOk b = true ↔ 2 ≤ b.toNat ∧ b.toNat ≤ 15 := by simp [lengthByteOk]

/-! ## Acknowledgments and faults (R158) -/

theorem PortLink.acknowledge_of_room (a : Ack) (h : l.ackBuffer.length < 4) :
    l.acknowledge a = { l with ackBuffer := l.ackBuffer ++ [a] } := if_pos h

theorem PortLink.acknowledge_of_full (a : Ack) (h : 4 ≤ l.ackBuffer.length) :
    l.acknowledge a = { l with framesDropped := true } := if_neg (Nat.not_lt.2 h)

/-- A fault is acknowledged where the buffer has room, and sets the flag where it has none. -/
theorem PortLink.fault_eq (l : PortLink) (r : AckResult) : l.fault r = { l with
    framer := .hunt, byteTicks := 0, framerDue := 0
    ackBuffer := if l.ackBuffer.length < 4 then l.ackBuffer ++ [{ tag := none, code := 0, result := r }] else l.ackBuffer
    framesDropped := l.framesDropped || decide (4 ≤ l.ackBuffer.length) } := by
  rw [PortLink.fault]
  rcases lt_or_ge l.ackBuffer.length 4 with hroom | hfull
  · rw [PortLink.acknowledge_of_room (l := l.toHunt) _ hroom, if_pos hroom, decide_eq_false hroom.not_ge, Bool.or_false]
    rfl
  · rw [PortLink.acknowledge_of_full (l := l.toHunt) _ hfull, if_neg hfull.not_gt, decide_eq_true hfull, Bool.or_true]
    rfl

/-! ## The commands of the framer (R157) -/

theorem execSyncByteFound_hunting (hl : s.listens n = true) (hf : (s.link n).framer = .hunt) :
    exec (.syncByteFound n) s = .next (s.setLink n { s.link n with framer := .length, byteTicks := 0, framerDue := 0 }) :=
  congrArg Host.Outcome.next (if_pos ⟨hl, hf⟩)

theorem execFrameByteReceived_moves (hl : s.listens n = true) (hf : (s.link n).framer.next b = some f) :
    exec (.frameByteReceived n b) s = .next (s.setLink n { s.link n with framer := f, byteTicks := 0 }) := by
  simp only [exec_frameByteReceived, execFrameByteReceived, hl, if_true, hf, PortLink.receive]

theorem execLengthError_faults (hl : s.listens n = true) (hf : (s.link n).framer = .length)
    (hb : lengthByteOk b = false) :
    exec (.lengthError n b) s = .next (s.setLink n ((s.link n).fault .lengthError)) :=
  congrArg Host.Outcome.next (if_pos ⟨hl, hf, hb⟩)

/-- The first tick since the last byte is counted. -/
theorem execTruncatedFrame_counts (hdue : 0 < (s.link n).framerDue) (hf : (s.link n).framer ≠ .hunt)
    (hticks : (s.link n).byteTicks = 0) : exec (.truncatedFrame n) s =
      .next (s.setLink n { s.link n with byteTicks := 1, framerDue := (s.link n).framerDue - 1 }) := by
  simp only [exec_truncatedFrame, execTruncatedFrame, if_neg hdue.ne', if_neg hf, if_pos hticks]

/-- The second tick since the last byte ends the frame. -/
theorem execTruncatedFrame_faults (hdue : 0 < (s.link n).framerDue) (hf : (s.link n).framer ≠ .hunt)
    (hticks : 0 < (s.link n).byteTicks) :
    exec (.truncatedFrame n) s = .next (s.setLink n ((s.link n).fault .frameError)) := by
  simp only [exec_truncatedFrame, execTruncatedFrame, if_neg hdue.ne', if_neg hf, if_neg hticks.ne']
  rfl

theorem execFrameComplete_ends (hl : s.listens n = true) (hf : (s.link n).framer = .check len body (some high)) :
    exec (.frameComplete n low) s = .next (s.frameEnds n len body high low) := by
  simp only [exec_frameComplete, execFrameComplete, hl, if_true, hf]

/-! ## The end of a frame (R157) -/

theorem State.frameEnds_of_wrongCheck (h : frameCheck len body ≠ high ++ low) :
    s.frameEnds n len body high low = s.setLink n ((s.link n).fault .frameError) := if_neg h

theorem State.frameEnds_of_wrongLength {code tagByte : Byte} {operands : List Byte} {m : Nat}
    (h : frameCheck len (code :: tagByte :: operands) = high ++ low) (hm : requestLength code = some m)
    (hne : m ≠ operands.length + 2) :
    s.frameEnds n len (code :: tagByte :: operands) high low = s.setLink n ((s.link n).fault .lengthError) := by
  simp [State.frameEnds, h, hm, hne]

/-- A frame of the length of its request code, or of an unknown code, comes to admission. -/
theorem State.frameEnds_of_fits {code tagByte : Byte} {operands : List Byte}
    (h : frameCheck len (code :: tagByte :: operands) = high ++ low)
    (hfits : requestLength code = none ∨ requestLength code = some (operands.length + 2)) :
    s.frameEnds n len (code :: tagByte :: operands) high low = s.admitFrame n code tagByte operands := by
  rcases hfits with hnone | hsome
  · simp [State.frameEnds, h, hnone]
  · simp [State.frameEnds, h, hsome]

theorem framerTakesItsBytes : Claims.FramerTakesItsBytes := by
  intro s n hheld hline
  have hl : s.listens n = true := State.listens_iff.2 ⟨hheld, hline⟩
  refine ⟨execSyncByteFound_hunting hl, fun b hf hlow hhigh => ?_, fun len b got hf => ?_, fun len b bytes hf => ?_⟩
  · exact execFrameByteReceived_moves hl (by rw [hf]; exact if_pos (lengthByteOk_iff.2 ⟨hlow, hhigh⟩))
  · refine execFrameByteReceived_moves hl ?_
    rw [hf, Framer.next]
    split <;> rfl
  · exact execFrameByteReceived_moves hl (by rw [hf]; rfl)

theorem framerFaultsAreAcknowledged : Claims.FramerFaultsAreAcknowledged := by
  intro s n fault hfault
  have heq : ∀ r, s.setLink n ((s.link n).fault r) = fault r := fun r => by rw [hfault, PortLink.fault_eq]
  refine ⟨fun b hheld hline hf hb => ?length, execTruncatedFrame_counts, fun hdue hf hticks => ?truncated,
    fun len high low body hheld hline hf => ⟨fun hcheck => ?check,
      fun hcheck code tagByte operands m hbody hm hne => ?table⟩⟩
  case length =>
    have hbad : lengthByteOk b = false := Bool.eq_false_iff.2 fun hok => by
      have := lengthByteOk_iff.1 hok
      omega
    rw [execLengthError_faults (State.listens_iff.2 ⟨hheld, hline⟩) hf hbad, heq]
  case truncated =>
    rw [execTruncatedFrame_faults hdue hf hticks, heq]
  case check =>
    rw [execFrameComplete_ends (State.listens_iff.2 ⟨hheld, hline⟩) hf, State.frameEnds_of_wrongCheck hcheck, heq]
  case table =>
    subst hbody
    rw [execFrameComplete_ends (State.listens_iff.2 ⟨hheld, hline⟩) hf, State.frameEnds_of_wrongLength hcheck hm hne,
      heq]

end Sys2Proof.Machine

open Sys2Proof Sys2Proof.Machine

/-- Settles O14: each byte moves the framer on by its own equation, and each fault is the one fault of the link. -/
theorem framerFollowsItsTable : Obligations.FramerFollowsItsTable :=
  ⟨framerTakesItsBytes, framerFaultsAreAcknowledged⟩
end

