-- ==== Sys2Proof/Proofs/RequestBytes.lean ====
section
/-! SUPPORT. The operand bytes of a request, and the request that they spell (Table 10-5, R165). -/

namespace Sys2Proof.Machine

variable {k : Nat} {code : Byte} {operands : List Byte} {op : RequestOp}

/-! ## Numbers of two bytes, and values (R165) -/

theorem number_twoBytes (h : k < 65536) : number [BitVec.ofNat 8 (k / 256), BitVec.ofNat 8 k] = k := by
  simp only [number, List.foldl, BitVec.toNat_ofNat]
  omega

theorem number_lt (hi lo : Byte) : number [hi, lo] < 65536 := by
  have h1 := hi.isLt
  have h0 := lo.isLt
  simp only [number, List.foldl]
  omega

theorem twoBytes_number (hi lo : Byte) : twoBytes (number [hi, lo]) = [hi, lo] := by
  have h1 := hi.isLt
  have h0 := lo.isLt
  simp only [twoBytes, number, List.foldl, List.cons.injEq, and_true, BitVec.toNat_eq, BitVec.toNat_ofNat]
  omega

/-- The eight bytes of a value, as the number they are. -/
theorem number_valueBytes (v : Value) : number (valueBytes v) = v.toNat := by
  have h := v.isLt
  simp only [number, valueBytes, List.foldl, BitVec.extractLsb'_toNat, Nat.shiftRight_eq_div_pow]
  omega

theorem valueBytes_number (v7 v6 v5 v4 v3 v2 v1 v0 : Byte) :
    valueBytes (BitVec.ofNat 64 (number [v7, v6, v5, v4, v3, v2, v1, v0])) = [v7, v6, v5, v4, v3, v2, v1, v0] := by
  have h7 := v7.isLt
  have h6 := v6.isLt
  have h5 := v5.isLt
  have h4 := v4.isLt
  have h3 := v3.isLt
  have h2 := v2.isLt
  have h1 := v1.isLt
  have h0 := v0.isLt
  simp only [number, valueBytes, List.foldl, List.cons.injEq, and_true, BitVec.toNat_eq, BitVec.extractLsb'_toNat,
    BitVec.toNat_ofNat, Nat.shiftRight_eq_div_pow]
  omega

/-- A run of bytes that begins with a number of two bytes. -/
theorem exists_twoBytes_append {m : Nat} (h : operands.length = m + 2) :
    ∃ k rest, k < 65536 ∧ rest.length = m ∧ operands = twoBytes k ++ rest := by
  match operands, h with
  | hi :: lo :: rest, h =>
    refine ⟨number [hi, lo], rest, number_lt hi lo, by simpa using h, ?_⟩
    rw [twoBytes_number]
    rfl

theorem exists_twoBytes (h : operands.length = 2) : ∃ k, k < 65536 ∧ operands = twoBytes k := by
  obtain ⟨k, rest, hk, hrest, rfl⟩ := exists_twoBytes_append (m := 0) h
  exact ⟨k, hk, by rw [List.length_eq_zero_iff.1 hrest, List.append_nil]⟩

theorem exists_valueBytes (h : operands.length = 8) : ∃ v, operands = valueBytes v := by
  match operands, h with
  | [v7, v6, v5, v4, v3, v2, v1, v0], _ => exact ⟨_, (valueBytes_number v7 v6 v5 v4 v3 v2 v1 v0).symm⟩

/-! ## From a request to its bytes (Table 10-5) -/

theorem readOperands_operandBytes (h : op.fieldsFit = true) : readOperands op.code op.operandBytes = some op := by
  cases op with
  | put k mode x v =>
    show some (RequestOp.put (number (twoBytes k)) mode (BitVec.ofNat 16 (number (twoBytes x.toNat)))
      (BitVec.ofNat 64 (number (valueBytes v)))) = _
    rw [number_valueBytes, twoBytes, twoBytes, number_twoBytes (of_decide_eq_true h), number_twoBytes x.isLt,
      BitVec.ofNat_toNat, BitVec.ofNat_toNat, BitVec.setWidth_eq, BitVec.setWidth_eq]
  | detach | status | credit | setEvents | alloc | forceDetach | clearDirectory => rfl
  | _ =>
    simp only [RequestOp.fieldsFit, Bool.and_eq_true, decide_eq_true_eq] at h
    conv_lhs => whnf
    simp only [number_twoBytes, h]

theorem requestLength_code (op : RequestOp) : requestLength op.code = some (op.operandBytes.length + 2) := by
  cases op <;> rfl

/-! ## From bytes to a request -/

/-- A request of each kind. -/
def requestKinds : List RequestOp :=
  [.attach 0 0 0, .detach, .status, .credit 0, .setEvents 0 0, .read 0, .put 0 0 0 0, .take 0 0, .clear 0, .checkpoint 0,
    .link 0 0, .watch 0, .unwatch 0, .alloc 0 0 0, .retire 0, .claim 0 0 0 0, .release 0, .adopt 0 0 0 0,
    .setAccess 0 0 0 0, .inspect 0, .forceDetach 0, .clearDirectory, .breakWait 0]

/-- The table lists the codes of the requests and no other. -/
theorem exists_kind_of_requestLength : ∀ code : Byte, (requestLength code).isSome = true →
    ∃ op ∈ requestKinds, op.code = code := by decide +kernel

/-- A request whose frame carries the request code and the operand bytes given. -/
def RequestOp.spelledBy (op : RequestOp) (code : Byte) (operands : List Byte) : Prop :=
  op.fieldsFit = true ∧ op.code = code ∧ op.operandBytes = operands

/-- Requests of a kind that carry a slot alone. -/
theorem exists_slotRequest (mk : Slot → RequestOp) (hlen : operands.length = 2)
    (hmk : ∀ k, (mk k).fieldsFit = decide (k < 65536) ∧ (mk k).code = code ∧ (mk k).operandBytes = twoBytes k) :
    ∃ op, RequestOp.spelledBy op code operands := by
  obtain ⟨k, hk, rfl⟩ := exists_twoBytes hlen
  obtain ⟨hfits, hcode, hbytes⟩ := hmk k
  exact ⟨mk k, hfits.trans (decide_eq_true hk), hcode, hbytes⟩

/-- Requests of a kind that carry a slot and the terms of an owner. -/
theorem exists_termsRequest (mk : Slot → Byte → Byte → Byte → RequestOp) (hlen : operands.length = 5)
    (hmk : ∀ k d pf tf, (mk k d pf tf).fieldsFit = decide (k < 65536) ∧ (mk k d pf tf).code = code ∧
      (mk k d pf tf).operandBytes = twoBytes k ++ [d, pf, tf]) : ∃ op, RequestOp.spelledBy op code operands := by
  obtain ⟨k, rest, hk, hrest, rfl⟩ := exists_twoBytes_append (m := 3) hlen
  obtain ⟨d, pf, tf, rfl⟩ := List.length_eq_three.1 hrest
  obtain ⟨hfits, hcode, hbytes⟩ := hmk k d pf tf
  exact ⟨mk k d pf tf, hfits.trans (decide_eq_true hk), hcode, hbytes⟩

/-- Other operands of the same length make another request of the same kind. -/
theorem exists_request_of_length (op : RequestOp) (h : operands.length = op.operandBytes.length) :
    ∃ op', RequestOp.spelledBy op' op.code operands := by
  cases op with
  | attach lease mask suppress =>
    obtain ⟨lease, rest, hlease, hrest, rfl⟩ := exists_twoBytes_append (m := 2) h
    obtain ⟨m, f, rfl⟩ := List.length_eq_two.1 hrest
    exact ⟨.attach lease m f, decide_eq_true hlease, rfl, rfl⟩
  | detach => exact ⟨.detach, rfl, rfl, (List.length_eq_zero_iff.1 h).symm⟩
  | status => exact ⟨.status, rfl, rfl, (List.length_eq_zero_iff.1 h).symm⟩
  | clearDirectory => exact ⟨.clearDirectory, rfl, rfl, (List.length_eq_zero_iff.1 h).symm⟩
  | credit n =>
    obtain ⟨n, rfl⟩ := List.length_eq_one_iff.1 h
    exact ⟨.credit n, rfl, rfl, rfl⟩
  | forceDetach p =>
    obtain ⟨p, rfl⟩ := List.length_eq_one_iff.1 h
    exact ⟨.forceDetach p, rfl, rfl, rfl⟩
  | setEvents mask suppress =>
    obtain ⟨m, f, rfl⟩ := List.length_eq_two.1 h
    exact ⟨.setEvents m f, rfl, rfl, rfl⟩
  | alloc disposition putOpen takeOpen =>
    obtain ⟨d, pf, tf, rfl⟩ := List.length_eq_three.1 h
    exact ⟨.alloc d pf tf, rfl, rfl, rfl⟩
  | put slot mode expected value =>
    obtain ⟨k, rest, hk, hrest, rfl⟩ := exists_twoBytes_append (m := 11) h
    obtain ⟨mode, rest, rfl⟩ := List.exists_cons_of_length_eq_add_one hrest
    obtain ⟨x, rest, hx, hvalue, rfl⟩ := exists_twoBytes_append (m := 8) (Nat.succ.inj hrest)
    obtain ⟨v, rfl⟩ := exists_valueBytes hvalue
    refine ⟨.put k mode (BitVec.ofNat 16 x) v, decide_eq_true hk, rfl, ?_⟩
    simp only [RequestOp.operandBytes, BitVec.toNat_ofNat, Nat.mod_eq_of_lt hx, List.append_assoc, List.cons_append,
      List.nil_append]
  | take slot wait =>
    obtain ⟨k, rest, hk, hrest, rfl⟩ := exists_twoBytes_append (m := 2) h
    obtain ⟨w, hw, rfl⟩ := exists_twoBytes hrest
    exact ⟨.take k w, by simp [RequestOp.fieldsFit, hk, hw], rfl, rfl⟩
  | link slot target =>
    obtain ⟨k, rest, hk, hrest, rfl⟩ := exists_twoBytes_append (m := 2) h
    obtain ⟨t, ht, rfl⟩ := exists_twoBytes hrest
    exact ⟨.link k t, by simp [RequestOp.fieldsFit, hk, ht], rfl, rfl⟩
  | read => exact exists_slotRequest .read h fun _ => ⟨rfl, rfl, rfl⟩
  | clear => exact exists_slotRequest .clear h fun _ => ⟨rfl, rfl, rfl⟩
  | checkpoint => exact exists_slotRequest .checkpoint h fun _ => ⟨rfl, rfl, rfl⟩
  | watch => exact exists_slotRequest .watch h fun _ => ⟨rfl, rfl, rfl⟩
  | unwatch => exact exists_slotRequest .unwatch h fun _ => ⟨rfl, rfl, rfl⟩
  | retire => exact exists_slotRequest .retire h fun _ => ⟨rfl, rfl, rfl⟩
  | release => exact exists_slotRequest .release h fun _ => ⟨rfl, rfl, rfl⟩
  | inspect => exact exists_slotRequest .inspect h fun _ => ⟨rfl, rfl, rfl⟩
  | breakWait => exact exists_slotRequest .breakWait h fun _ => ⟨rfl, rfl, rfl⟩
  | claim => exact exists_termsRequest .claim h fun _ _ _ _ => ⟨rfl, rfl, rfl⟩
  | adopt => exact exists_termsRequest .adopt h fun _ _ _ _ => ⟨rfl, rfl, rfl⟩
  | setAccess => exact exists_termsRequest .setAccess h fun _ _ _ _ => ⟨rfl, rfl, rfl⟩

end Sys2Proof.Machine

open Sys2Proof Sys2Proof.Machine

/-- Settles O16: a request is read back from its bytes; and a code of the table is that of some request, whose operands
the run of bytes replaces. -/
theorem requestBytesSpellTheRequest : Obligations.RequestBytesSpellTheRequest := by
  refine ⟨fun op hfits => ⟨readOperands_operandBytes hfits, requestLength_code op⟩, fun code operands h => ?_⟩
  obtain ⟨op, -, rfl⟩ := exists_kind_of_requestLength code (by rw [h]; rfl)
  rw [requestLength_code, Option.some.injEq, Nat.add_right_cancel_iff] at h
  exact exists_request_of_length op h.symm
end

