-- ==== Sys2Proof/Proofs/Admission.lean ====
section
/-! SUPPORT. The admission of a complete frame, and a whole request frame received byte by byte (R123, R127, R128, R157 to
R160). -/

namespace Sys2Proof.Machine

variable {s : State} {n : Port} {tag : Tag} {code tagByte : Byte} {operands : List Byte} {op : RequestOp} {r : AckResult}
  {c : PortControl} {rq : Request}

/-! ## The port-state test (R123) -/

theorem portStateRefusal_eq_some (hdown : c.portState ≠ .down) :
    portStateRefusal c op = some r ↔ c.stateRefuses op r := by
  unfold PortControl.stateRefuses portStateRefusal
  cases hc : c.portState with
  | down => exact absurd hc hdown
  | opened => cases op <;> simp [@eq_comm _ _ r]
  | attached => cases op <;> cases c.detachPending <;> simp [@eq_comm _ _ r]
  | closing => cases op <;> simp [@eq_comm _ _ r]

theorem PortControl.stateRefuses.ne_accepted (h : c.stateRefuses op r) : r ≠ .accepted := by
  rintro rfl
  obtain ⟨-, ⟨-, -, hr⟩ | ⟨-, -, hr⟩ | ⟨-, hr⟩⟩ := h <;> cases hr

theorem portStateRefusal_eq_none (hdown : c.portState ≠ .down) (h : ∀ r, ¬c.stateRefuses op r) :
    portStateRefusal c op = none :=
  Option.eq_none_iff_forall_ne_some.2 fun r hr => h r ((portStateRefusal_eq_some hdown).1 hr)

/-! ## The admission tests in their order (R159) -/

theorem State.admission_of_init (h : s.device = .init) (op : Option RequestOp) : s.admission n tag op = .notReady :=
  if_pos h

theorem State.admission_of_unknown (h : s.device ≠ .init) : s.admission n tag none = .unknownRequest := if_neg h

theorem State.admission_of_refused (h : s.device ≠ .init) (hr : portStateRefusal (s.port n) op = some r) :
    s.admission n tag (some op) = r := by
  simp only [State.admission, if_neg h, hr]

/-- What the last two tests find where the port state refuses nothing. -/
theorem State.admission_of_unrefused (h : s.device ≠ .init) (hr : portStateRefusal (s.port n) op = none) :
    s.admission n tag (some op) = if 8 ≤ (s.port n).tags.length then .outstandingFull
      else if tag ∈ (s.port n).tags then .tagInUse else .accepted := by
  simp only [State.admission, if_neg h, hr]
  rfl

/-- A code that the table does not list spells no request, whatever its operands: the 256 codes computed. -/
theorem readOperands_of_unknown (operands : List Byte) :
    ∀ code : Byte, requestLength code = none → readOperands code operands = none := of_decide_eq_true rfl

/-! ## What each result leaves (R158 to R160) -/

/-- The link of port n back in HUNT with an acknowledgment behind those that wait. -/
def PortLink.answering (l : PortLink) (a : Ack) : PortLink := { l.toHunt with ackBuffer := l.ackBuffer ++ [a] }

/-- With the buffer full a frame is dropped, whatever the tests would find. -/
theorem State.admitFrame_of_full (h : 4 ≤ (s.link n).ackBuffer.length) :
    s.admitFrame n code tagByte operands = s.setLink n { (s.link n).toHunt with framesDropped := true } := by
  unfold State.admitFrame
  dsimp only
  rw [if_neg fun hroom => absurd hroom.1 (Nat.not_lt.2 h), PortLink.acknowledge_of_full (l := (s.link n).toHunt) _ h]

/-- A frame rejected is acknowledged with its result, and changes nothing else. -/
theorem State.admitFrame_of_rejected (hroom : (s.link n).ackBuffer.length < 4) (htag : tagByte.setWidth 4 = tag)
    (hr : s.admission n tag (readOperands code operands) = r) (hne : r ≠ .accepted) :
    s.admitFrame n code tagByte operands = s.setLink n ((s.link n).answering ⟨some tag, code, r⟩) := by
  subst htag
  unfold State.admitFrame
  dsimp only
  rw [hr, if_neg fun hacc => hne hacc.2, PortLink.acknowledge_of_room (l := (s.link n).toHunt) _ hroom]
  rfl

/-- A frame accepted puts its request into the queue as well. -/
theorem State.admitFrame_of_accepted (hroom : (s.link n).ackBuffer.length < 4) (htag : tagByte.setWidth 4 = tag)
    (hop : readOperands code operands = some op) (hr : s.admission n tag (some op) = .accepted) :
    s.admitFrame n code tagByte operands =
      (s.setLink n ((s.link n).answering ⟨some tag, code, .accepted⟩)).setPort n ((s.port n).accept ⟨tag, op⟩) := by
  subst htag
  unfold State.admitFrame
  dsimp only
  rw [hop, hr, if_pos ⟨hroom, rfl⟩, PortLink.acknowledge_of_room (l := (s.link n).toHunt) _ hroom]
  rfl

/-! ## The lease and the detach-pending mark of an accepted request (R127, R128) -/

theorem PortControl.accept_of_quiet (h : c.portState ≠ .attached ∨ c.detachPending = true) : c.accept rq =
    { c with requestQueue := c.requestQueue ++ [rq], tags := c.tags ++ [rq.tag] } :=
  if_neg fun hact => by rcases h with h | h <;> simp [hact] at h

theorem PortControl.accept_detach (hs : c.portState = .attached) (hd : c.detachPending = false) (ho : rq.op = .detach) :
    c.accept rq = { c with
      requestQueue := c.requestQueue ++ [rq], tags := c.tags ++ [rq.tag], detachPending := true, leaseTimer := none
      leaseDue := 0 } :=
  (if_pos ⟨hs, hd⟩).trans (if_pos ho)

theorem PortControl.accept_restarts (hs : c.portState = .attached) (hd : c.detachPending = false) (ho : rq.op ≠ .detach) :
    c.accept rq = { c with
      requestQueue := c.requestQueue ++ [rq], tags := c.tags ++ [rq.tag], leaseTimer := leaseStart c.lease } :=
  (if_pos ⟨hs, hd⟩).trans (if_neg ho)

/-- What acceptance leaves of a controller but its queue, its tags, its mark and its lease timer. -/
theorem PortControl.accept_leaves (c : PortControl) (rq : Request) : c.accept rq = { c with
    requestQueue := c.requestQueue ++ [rq], tags := c.tags ++ [rq.tag], detachPending := (c.accept rq).detachPending
    leaseTimer := (c.accept rq).leaseTimer, leaseDue := (c.accept rq).leaseDue } := by
  unfold PortControl.accept
  split
  · split <;> rfl
  · rfl

end Sys2Proof.Machine

open Sys2Proof Sys2Proof.Machine

/-- Settles O15: the frame comes to admission, the first test that fails gives the result, and each result leaves its own
state. -/
theorem completeFramesAreAdmitted : Obligations.CompleteFramesAreAdmitted := by
  rintro s n len high low code tagByte operands hheld hline hdown hf hcheck tag rfl hunting rfl
  have hadmit : (requestLength code = none ∨ requestLength code = some (operands.length + 2)) →
      exec (.frameComplete n low) s = .next (s.admitFrame n code tagByte operands) := fun hfits => by
    rw [execFrameComplete_ends (State.listens_iff.2 ⟨hheld, hline⟩) hf, State.frameEnds_of_fits hcheck hfits]
  refine ⟨fun hfull hfits => ?full, fun hroom answered hanswered => ?_⟩
  case full =>
    rw [hadmit hfits, State.admitFrame_of_full hfull]
    rfl
  have hreject : ∀ r, r ≠ .accepted → s.admission n (tagByte.setWidth 4) (readOperands code operands) = r →
      s.admitFrame n code tagByte operands = answered r := fun r hne hr => by
    rw [hanswered]
    exact State.admitFrame_of_rejected hroom rfl hr hne
  refine ⟨fun hinit hfits => ?init, fun hinit hunknown => ?unknown, fun op hop hcode hbytes hinit => ?known⟩
  case init =>
    rw [hadmit hfits, hreject .notReady nofun (State.admission_of_init hinit _)]
  case unknown =>
    rw [readOperands_of_unknown operands code hunknown] at hreject
    rw [hadmit (.inl hunknown), hreject .unknownRequest nofun (State.admission_of_unknown hinit)]
  case known =>
    subst hcode hbytes
    have hread := readOperands_operandBytes hop
    rw [hread] at hreject
    rw [hadmit (.inr (requestLength_code op))]
    refine ⟨fun r hr => ?refused, fun hnone => ?_⟩
    case refused =>
      rw [hreject r hr.ne_accepted (State.admission_of_refused hinit ((portStateRefusal_eq_some hdown).2 hr))]
    have hadm := State.admission_of_unrefused (tag := tagByte.setWidth 4) hinit (portStateRefusal_eq_none hdown hnone)
    refine ⟨fun hfull => ?outstanding, fun hless hin => ?used,
      fun hless hfree => ⟨(s.port n).accept ⟨tagByte.setWidth 4, op⟩, ?accepted, (s.port n).accept_leaves _,
        fun hquiet => ?quiet, fun hs hd ho => ?restarts, fun hs hd ho => ?detach⟩⟩
    case outstanding =>
      rw [hreject .outstandingFull nofun (by rw [hadm, if_pos hfull])]
    case used =>
      rw [hreject .tagInUse nofun (by rw [hadm, if_neg (Nat.not_le.2 hless), if_pos hin])]
    case accepted =>
      have hpass := hadm.trans ((if_neg (Nat.not_le.2 hless)).trans (if_neg hfree))
      rw [State.admitFrame_of_accepted hroom rfl hread hpass, hanswered]
      rfl
    case quiet =>
      rw [PortControl.accept_of_quiet hquiet]
      exact ⟨rfl, rfl, rfl⟩
    case restarts =>
      rw [PortControl.accept_restarts hs hd ho]
      exact ⟨hd, rfl, rfl⟩
    case detach =>
      rw [PortControl.accept_detach hs hd ho]
      exact ⟨rfl, rfl, rfl⟩
end

