-- ==== Sys2Proof/Proofs/WholeFrames.lean ====
section
/-! SUPPORT. A whole frame, byte by byte through the receive framer (R156, R157, R165). -/

namespace Sys2Proof.Machine

variable {s t u : State} {n : Port} {len high low : Byte} {body bytes : List Byte} {f g : Framer} {cs ds : List Instr}

/-! ## Runs of commands -/

theorem runs_append : Runs (cs ++ ds) s t ↔ ∃ u, Runs cs s u ∧ Runs ds u t := by
  induction cs generalizing s with
  | nil => exact ⟨fun h => ⟨s, rfl, h⟩, fun ⟨_, hu, h⟩ => hu ▸ h⟩
  | cons c cs ih =>
    constructor
    · rintro ⟨v, hv, h⟩
      obtain ⟨u, hu, ht⟩ := ih.1 h
      exact ⟨u, ⟨v, hv, hu⟩, ht⟩
    · rintro ⟨u, ⟨v, hv, hu⟩, ht⟩
      exact ⟨v, hv, ih.2 ⟨u, hu, ht⟩⟩

theorem runs_singleton {c : Instr} (h : exec c s = .next t) : Runs [c] s t := ⟨t, h, rfl⟩

/-! ## The framer over a run of bytes -/

/-- The framer after a run of bytes, each of which moves it on. -/
def Framer.nextAll (f : Framer) (bytes : List Byte) : Option Framer := bytes.foldlM Framer.next f

theorem Framer.nextAll_cons {b : Byte} :
    f.nextAll (b :: bytes) = some g ↔ ∃ x, f.next b = some x ∧ x.nextAll bytes = some g := by
  rw [Framer.nextAll, List.foldlM_cons]
  exact Option.bind_eq_some_iff

theorem Framer.nextAll_append {xs ys : List Byte} (hf : f.nextAll xs = some g) : f.nextAll (xs ++ ys) = g.nextAll ys := by
  rw [Framer.nextAll, List.foldlM_append]
  exact congrArg (· >>= fun x => x.nextAll ys) hf

/-- The bytes that a body still lacks bring the framer to CHECK. -/
theorem Framer.nextAll_body (got : List Byte) (hne : bytes ≠ []) (hlen : got.length + bytes.length = len.toNat) :
    (Framer.body len got).nextAll bytes = some (.check len (got ++ bytes) none) := by
  induction bytes generalizing got with
  | nil => exact absurd rfl hne
  | cons b bytes ih =>
    rw [List.length_cons] at hlen
    cases bytes with
    | nil => exact Framer.nextAll_cons.2 ⟨_, if_neg (by simp at hlen; omega), rfl⟩
    | cons x xs =>
      refine Framer.nextAll_cons.2 ⟨.body len (got ++ [b]), if_pos (by rw [List.length_cons] at hlen; omega), ?_⟩
      rw [ih (got ++ [b]) (by simp) (by rw [List.length_append]; simp at hlen ⊢; omega), List.append_assoc]
      rfl

/-- A length byte, the body of that length and the first check byte bring the framer from LENGTH to the second check
byte. -/
theorem Framer.nextAll_frame (hok : lengthByteOk len = true) (hlen : body.length = len.toNat) :
    Framer.length.nextAll (len :: body ++ [high]) = some (.check len body (some high)) := by
  have hne : body ≠ [] := fun h => by
    have := (lengthByteOk_iff.1 hok).1
    rw [h, List.length_nil] at hlen
    omega
  have hbody : Framer.length.nextAll (len :: body) = some (.check len body none) :=
    Framer.nextAll_cons.2 ⟨_, if_pos hok, Framer.nextAll_body [] hne (by rw [List.length_nil]; omega)⟩
  rw [Framer.nextAll_append hbody]
  rfl

/-! ## The link of a port in the midst of a frame -/

/-- The part with the framer of port n at f, no tick having come since the last byte. -/
def State.withFramer (s : State) (n : Port) (f : Framer) : State :=
  s.setLink n { s.link n with framer := f, byteTicks := 0, framerDue := 0 }

theorem State.withFramer_link (s : State) (n : Port) (f : Framer) :
    (s.withFramer n f).link n = { s.link n with framer := f, byteTicks := 0, framerDue := 0 } :=
  State.link_setLink_self s n _

theorem State.withFramer_listens (s : State) (n : Port) (f : Framer) : (s.withFramer n f).listens n = s.listens n := by
  simp only [State.listens, State.withFramer_link]
  rfl

/-- A byte that moves the framer on does nothing else. -/
theorem exec_withFramer {b : Byte} (hl : s.listens n = true) (hf : f.next b = some g) :
    exec (.frameByteReceived n b) (s.withFramer n f) = .next (s.withFramer n g) := by
  have hnext : ((s.withFramer n f).link n).framer.next b = some g := by rw [State.withFramer_link]; exact hf
  rw [execFrameByteReceived_moves ((s.withFramer_listens n f).trans hl) hnext, State.withFramer_link]
  simp only [State.withFramer, State.setLink, PerPort.set_set]

theorem runs_withFramer (hl : s.listens n = true) (hf : f.nextAll bytes = some g) :
    Runs (bytes.map (.frameByteReceived n ·)) (s.withFramer n f) (s.withFramer n g) := by
  induction bytes generalizing f with
  | nil => cases hf; rfl
  | cons b bytes ih =>
    obtain ⟨x, hx, hg⟩ := Framer.nextAll_cons.1 hf
    exact ⟨_, exec_withFramer hl hx, ih hg⟩

/-- A link that goes back to HUNT with an acknowledgment forgets where its framer stood. -/
theorem State.withFramer_answering (s : State) (n : Port) (f : Framer) (a : Ack) :
    (s.withFramer n f).setLink n (((s.withFramer n f).link n).answering a) = s.setLink n ((s.link n).answering a) := by
  rw [State.withFramer_link]
  simp only [State.withFramer, State.setLink, PerPort.set_set]
  rfl

/-! ## A whole frame (R156) -/

/-- A length that R157 accepts is the number of its byte. -/
theorem lengthByteOk_ofNat {m : Nat} (h2 : 2 ≤ m) (h15 : m ≤ 15) :
    lengthByteOk (BitVec.ofNat 8 m) = true ∧ m = (BitVec.ofNat 8 m).toNat := by
  have hm : (BitVec.ofNat 8 m).toNat = m := by rw [BitVec.toNat_ofNat]; omega
  exact ⟨lengthByteOk_iff.2 (by omega), hm.symm⟩

/-- The bytes of a check are its high and its low byte. -/
theorem check_high_low (x : BitVec 16) : x = x.extractLsb' 8 8 ++ x.extractLsb' 0 8 := by
  rw [BitVec.extractLsb'_append_extractLsb'_eq_extractLsb' (by decide), BitVec.extractLsb'_eq_self]

theorem frameCommands_eq (n : Port) (body : List Byte) : frameCommands n body =
    .syncByteFound n :: ((BitVec.ofNat 8 body.length :: body ++
      [(frameCheck (BitVec.ofNat 8 body.length) body).extractLsb' 8 8]).map (.frameByteReceived n ·) ++
      [.frameComplete n ((frameCheck (BitVec.ofNat 8 body.length) body).extractLsb' 0 8)]) := by
  simp [frameCommands]

/-- The part at the end of a whole frame with the body given. -/
def State.frameReceived (s : State) (n : Port) (body : List Byte) : State :=
  let len : Byte := BitVec.ofNat 8 body.length
  let check := frameCheck len body
  (s.withFramer n (.check len body (some (check.extractLsb' 8 8)))).frameEnds n len body (check.extractLsb' 8 8)
    (check.extractLsb' 0 8)

/-- The commands of a whole frame run from HUNT to its end. -/
theorem runs_frameCommands (hl : s.listens n = true) (hf : (s.link n).framer = .hunt) (h2 : 2 ≤ body.length)
    (h15 : body.length ≤ 15) : Runs (frameCommands n body) s (s.frameReceived n body) := by
  obtain ⟨hok, hlen⟩ := lengthByteOk_ofNat h2 h15
  rw [frameCommands_eq]
  refine ⟨s.withFramer n .length, execSyncByteFound_hunting hl hf,
    runs_append.2 ⟨_, runs_withFramer hl (Framer.nextAll_frame hok hlen), runs_singleton ?_⟩⟩
  exact execFrameComplete_ends ((s.withFramer_listens n _).trans hl) (by rw [State.withFramer_link])

/-- A whole frame whose length is that of its request code comes to admission. -/
theorem State.frameReceived_admitted {code tagByte : Byte} {operands : List Byte}
    (h : requestLength code = some (operands.length + 2)) : ∃ f,
    s.frameReceived n (code :: tagByte :: operands) = (s.withFramer n f).admitFrame n code tagByte operands :=
  ⟨_, State.frameEnds_of_fits (check_high_low _) (.inr h)⟩

theorem RequestOp.operandBytes_length (op : RequestOp) : op.operandBytes.length ≤ 13 := by
  cases op <;> simp [RequestOp.operandBytes, twoBytes, valueBytes]

end Sys2Proof.Machine

open Sys2Proof Sys2Proof.Machine

/-- Settles O17: the frame's commands bring it to admission, where every test passes. -/
theorem wholeRequestFrameIsQueued : Obligations.WholeRequestFrameIsQueued := by
  intro s n tag op hop hheld hready hline hf hroom hatt hpending hless hfree
  have hlen := op.operandBytes_length
  refine ⟨_, runs_frameCommands (State.listens_iff.2 ⟨hheld, hline⟩) hf (by simp) (by simp; omega), ?_⟩
  obtain ⟨f, hadmitted⟩ := State.frameReceived_admitted (s := s) (n := n) (tagByte := tag.setWidth 8)
    (requestLength_code op)
  have hrefused : portStateRefusal (s.port n) op = none := by
    have hstate : (s.port n).portState = .attached := hatt
    cases op <;> simp [portStateRefusal, hstate, hpending]
  have hacc : (s.withFramer n f).admission n tag (some op) = .accepted := by
    rw [State.admission_of_unrefused (s := s.withFramer n f) (hready ▸ by decide) hrefused]
    exact (if_neg (Nat.not_le.2 hless)).trans (if_neg hfree)
  have htag : (tag.setWidth 8).setWidth 4 = tag :=
    (BitVec.setWidth_setWidth_of_le tag (by decide)).trans (BitVec.setWidth_eq tag)
  rw [hadmitted, State.admitFrame_of_accepted (tag := tag) (by rw [State.withFramer_link]; exact hroom) htag
    (readOperands_operandBytes hop) hacc, State.withFramer_answering, State.port_setPort_self, State.setPort_link,
    State.link_setLink_self]
  exact ⟨rfl, PortControl.accept_requestQueue _ _, PortControl.accept_tags _ _, rfl, rfl⟩
end

