-- ==== Sys2Proof/Proofs/Scheduler.lean ====
section
/-! SUPPORT. The transmit scheduler takes a frame at a byte boundary with the line free (R149, R155, R158, R160, R162,
R163). -/

namespace Sys2Proof.Machine

variable {s : State} {n : Port}

/-! ## Where no frame can be taken -/

theorem execAckFrame_of_busy (h : s.canSend n = false) : exec (.ackFrame n) s = .next s :=
  congrArg Host.Outcome.next (if_neg (by simp [h]))

theorem execReplyFrame_of_waiting (h : s.canSend n = false ∨ (s.link n).ackBuffer ≠ []) :
    exec (.replyFrame n) s = .next s :=
  congrArg Host.Outcome.next (if_neg fun ⟨hc, ha⟩ => h.elim (fun hb => by simp [hc] at hb) fun hne => hne ha)

theorem execEventFrame_of_waiting (h : s.canSend n = false ∨ (s.link n).ackBuffer ≠ [] ∨ (s.port n).replyQueue ≠ [] ∨
    (s.port n).credits = 0) : exec (.eventFrame n) s = .next s := by
  refine congrArg Host.Outcome.next (if_neg ?_)
  rintro ⟨hc, ha, hr, hcredit⟩
  rcases h with h | h | h | h
  · simp [hc] at h
  · exact h ha
  · exact h hr
  · omega

/-! ## The frame that leaves -/

theorem execAckFrame_sends {a : Ack} {rest : List Ack} (hc : s.canSend n = true) (ha : (s.link n).ackBuffer = a :: rest) :
    exec (.ackFrame n) s = .next (s.setLink n { s.link n with
      ackBuffer := rest, framesDropped := false, line := some (frameBytes (ackBody a (s.link n).framesDropped)) }) := by
  simp only [exec_ackFrame, execAckFrame, hc, if_true, State.sendAck, ha]

theorem execReplyFrame_sends {r : Reply} {rest : List Reply} (hc : s.canSend n = true) (ha : (s.link n).ackBuffer = [])
    (hr : (s.port n).replyQueue = r :: rest) : exec (.replyFrame n) s =
      .next ((s.setPort n { s.port n with replyQueue := rest, tags := (s.port n).tags.erase r.tag }).setLink n
        { s.link n with line := some (frameBytes (replyBody r)) }) := by
  simp only [exec_replyFrame, execReplyFrame, hc, ha, and_self, if_true, State.sendReply, hr]

theorem execEventFrame_sends {r : EventRecord} {rest : List EventRecord} (hc : s.canSend n = true)
    (ha : (s.link n).ackBuffer = []) (hr : (s.port n).replyQueue = []) (hcredit : 0 < (s.port n).credits)
    (he : (s.port n).eventQueue = r :: rest) : exec (.eventFrame n) s =
      .next ((s.setPort n { s.port n with eventQueue := rest, credits := (s.port n).credits - 1 }).setLink n
        { s.link n with line := some (frameBytes (eventBody r)) }) := by
  simp only [exec_eventFrame, execEventFrame, hc, ha, hr, hcredit, and_self, if_true, State.sendEvent, he]

/-- The body of an ACK frame, byte by byte (Table 10-1). -/
theorem ackBody_eq (a : Ack) (dropped : Bool) : ackBody a dropped = [0x80#8,
    match a.tag with | some t => t.setWidth 8 | none => 0xFF#8, a.code, ackResultCode a.result,
    if dropped then 0x01#8 else 0x00#8] := by
  unfold ackBody tagCode flagCode
  cases a.tag <;> cases dropped <;> rfl

theorem ackFramesLeaveFirst : Claims.AckFramesLeaveFirst := by
  intro s n hheld hline hsent
  refine ⟨fun a rest hfree ha => ?sends, fun hbusy => ?busy, congrArg Host.Outcome.next (if_pos (decide_eq_true hsent))⟩
  case sends =>
    rw [execAckFrame_sends (State.canSend_iff.2 ⟨hheld, hline, hfree, hsent⟩) ha, ackBody_eq] <;> rfl
  case busy =>
    have hc : s.canSend n = false := Bool.eq_false_iff.2 fun hc => by
      obtain ⟨-, -, hfree, -⟩ := State.canSend_iff.1 hc
      exact hbusy hfree
    exact ⟨execAckFrame_of_busy hc, execReplyFrame_of_waiting (.inl hc), execEventFrame_of_waiting (.inl hc)⟩

theorem replyFramesFreeTheirTags : Claims.ReplyFramesFreeTheirTags := by
  intro s n hheld hline hfree hsent
  have hc : s.canSend n = true := State.canSend_iff.2 ⟨hheld, hline, hfree, hsent⟩
  exact ⟨fun r rest ha hr => execReplyFrame_sends hc ha hr,
    fun ha => ⟨execReplyFrame_of_waiting (.inr ha), execEventFrame_of_waiting (.inr (.inl ha))⟩⟩

theorem eventFramesCostACredit : Claims.EventFramesCostACredit := by
  intro s n hheld hline hfree hsent ha
  have hc : s.canSend n = true := State.canSend_iff.2 ⟨hheld, hline, hfree, hsent⟩
  exact ⟨fun r rest hr hcredit he => execEventFrame_sends hc ha hr hcredit he,
    fun h => execEventFrame_of_waiting (.inr (.inr h))⟩

end Sys2Proof.Machine

open Sys2Proof Sys2Proof.Machine

/-- Settles O18: a frame leaves only where its queue is the first that holds one, and the line is free at a boundary. -/
theorem schedulerTakesFramesInOrder : Obligations.SchedulerTakesFramesInOrder :=
  ⟨ackFramesLeaveFirst, replyFramesFreeTheirTags, eventFramesCostACredit⟩
end

