-- ==== Sys2Proof/Proofs/Examination.lean ====
section
/-! SUPPORT. The examination of a request when its executor takes it (R161, R165, R167), and the outstanding requests. -/

namespace Sys2Proof.Machine

variable {s : State} {n : Port} {rq : Request}

/-! ## The two refusals (R161, R167) -/

theorem State.examine_of_bad {u : State} (h : rq.op.operandsOk = false) :
    s.examine n rq u = s.answer n (bareReply rq .badArgument) := if_neg (by simp [h])

theorem State.ifMaintenance_of_no_role {u : State} (h : s.isMaintenance n = false) :
    s.ifMaintenance n rq u = s.answer n (bareReply rq .notPermitted) := if_neg (by simp [h])

/-- Whatever a request does once it proceeds, its operands are examined first, and then, for a maintenance request, its
port's role. -/
theorem exec_examines {tag : Tag} {op : RequestOp} (hn : s.nextRequest n = some ⟨tag, op⟩) :
    ∃ u, exec (op.command n) s = .next (s.examine n ⟨tag, op⟩
      (if op.maintenance then s.ifMaintenance n ⟨tag, op⟩ u else u)) := by
  cases op
  all_goals
    apply Exists.intro
    refine congrArg Host.Outcome.next ?_
    rw [hn]
  all_goals rfl

theorem refusedAtTheExecutor : Claims.RefusedAtTheExecutor := by
  intro s n tag op hn refused hrefused
  have hanswer : ∀ st, s.answer n (bareReply ⟨tag, op⟩ st) = refused st := fun st => (hrefused st).symm
  obtain ⟨u, hexec⟩ := exec_examines hn
  rw [hexec]
  refine ⟨fun hbad => ?_, fun hok hmaintenance hrole => ?_⟩
  · rw [State.examine_of_bad hbad, hanswer]
  · rw [State.examine_of_ok hok, if_pos hmaintenance, State.ifMaintenance_of_no_role hrole, hanswer]

/-! ## The ranges and codes of operands (R1, R165) -/

theorem slotOk_iff_le {k : Slot} : slotOk k = true ↔ k ≤ 4095 := slotOk_iff.trans Nat.lt_succ_iff

theorem flagOfCode_isSome : ∀ b : Byte, (flagOfCode b).isSome = true ↔ b.toNat ≤ 1 := by decide +kernel

theorem modeOfCode_isSome : ∀ b : Byte, (modeOfCode b).isSome = true ↔ b.toNat ≤ 2 := by decide +kernel

theorem dispositionOfCode_isSome : ∀ b : Byte, (dispositionOfCode b).isSome = true ↔ b.toNat ≤ 3 := by decide +kernel

theorem portOfCode_isSome : ∀ b : Byte, (portOfCode b).isSome = true ↔ b.toNat ≤ 3 := by decide +kernel

theorem maskOfCode_isSome : ∀ b : Byte, (maskOfCode b).isSome = true ↔ b.toNat ≤ 15 := by decide +kernel

/-- Terms are defined where each of their three codes is. -/
theorem accessOfCodes_isSome (d pf tf : Byte) :
    (accessOfCodes d pf tf).isSome = true ↔ d.toNat ≤ 3 ∧ pf.toNat ≤ 1 ∧ tf.toNat ≤ 1 := by
  rw [← dispositionOfCode_isSome, ← flagOfCode_isSome, ← flagOfCode_isSome, accessOfCodes]
  cases dispositionOfCode d <;> cases flagOfCode pf <;> cases flagOfCode tf <;> simp

theorem operandRanges : Claims.OperandRanges := by
  intro k t w lease a b c x v
  simp only [List.forall_mem_cons, List.not_mem_nil, false_imp_iff, implies_true, RequestOp.operandsOk,
    Bool.and_eq_true, slotOk_iff_le, flagOfCode_isSome, modeOfCode_isSome, portOfCode_isSome, maskOfCode_isSome,
    accessOfCodes_isSome, decide_eq_true_eq, and_self]

end Sys2Proof.Machine

open Sys2Proof Sys2Proof.Machine

/-- Settles O24: both tests come ahead of whatever a request does, and each operand's test is its range. -/
theorem refusalsBeforeAnyCycle : Obligations.RefusalsBeforeAnyCycle := ⟨refusedAtTheExecutor, operandRanges⟩

/-- Settles O56: the law of the outstanding requests is one of the laws that a step keeps. -/
theorem outstandingLawIsKept : Obligations.OutstandingLawIsKept := fun s t h hst => (allLawsAreKept s t h hst).outstanding
end

