-- ==== Sys2Proof/Proofs/LinkClocks.lean ====
section
/-! SUPPORT. One clock of PnCK: the scheduler's choice, the bit that leaves, the bit that comes, and the commands that they
make (R155, R157, R163; logs 14, 27). -/

namespace Sys2Proof.Machine

variable {s u : State} {n : Port} {bit first : Bool} {bytes : List Byte}

/-! ## The frame that waits (R163) -/

theorem State.frameWaiting_toList (s : State) (n : Port) : (s.frameWaiting n).toList =
    if (s.link n).ackBuffer ≠ [] then [.ackFrame n]
    else if (s.port n).replyQueue ≠ [] then [.replyFrame n]
    else if (s.port n).eventQueue ≠ [] ∧ 0 < (s.port n).credits then [.eventFrame n]
    else [] := by
  unfold State.frameWaiting
  split
  · rfl
  · split
    · rfl
    · split <;> rfl

theorem State.frameDue_toList (hl : s.listens n = true) : (s.frameDue n).toList =
    if (s.link n).line = none ∧ (s.link n).bits.sent = 0 then (s.frameWaiting n).toList else [] := by
  obtain ⟨hheld, hline⟩ := State.listens_iff.1 hl
  have hc : s.canSend n = true ↔ (s.link n).line = none ∧ (s.link n).bits.sent = 0 := by
    simp [State.canSend_iff, hheld, hline]
  unfold State.frameDue
  by_cases h : s.canSend n = true
  · rw [if_pos h, if_pos (hc.1 h)]
  · rw [if_neg h, if_neg fun hb => h (hc.2 hb)]
    rfl

/-- The frame that the scheduler takes is taken by its command. -/
theorem runs_frameDue (s : State) (n : Port) : Runs (s.frameDue n).toList s (s.schedule n) := by
  have h := State.schedule_exec (s := s) (n := n)
  cases hd : s.frameDue n with
  | none => rw [hd] at h; exact h.symm
  | some i => rw [hd] at h; exact runs_singleton h

/-! ## The bit on PnDO (R155) -/

theorem fillByte_getMsbD (j : Nat) : fillByte.getMsbD j = false := by simp [fillByte]

theorem State.pinOut_of_frame (hl : s.listens n = true) (ho : (s.link n).line = some bytes) :
    s.pinOut n = .frame bytes := by
  obtain ⟨hheld, hline⟩ := State.listens_iff.1 hl
  simp [State.pinOut, hheld, hline, ho]

theorem State.pinOut_of_free (hl : s.listens n = true) (ho : (s.link n).line = none) : s.pinOut n = .fill fillByte := by
  obtain ⟨hheld, hline⟩ := State.listens_iff.1 hl
  simp [State.pinOut, hheld, hline, ho]

theorem PortLink.span_of_frame {l : PortLink} (ho : l.line = some bytes) : l.span = 8 * bytes.length := by
  rw [PortLink.span, ho]

theorem PortLink.span_of_free {l : PortLink} (ho : l.line = none) : l.span = 8 := by rw [PortLink.span, ho]

/-- The bit under way is bit j of byte i, most significant first. -/
theorem PinOut.bit_frame {i j : Nat} {byte : Byte} (hi : bytes[i]? = some byte) (hj : j < 8) :
    (PinOut.frame bytes).bit (8 * i + j) = byte.getMsbD j := by
  have hdiv : (8 * i + j) / 8 = i := by omega
  have hmod : (8 * i + j) % 8 = j := by omega
  rw [PinOut.bit, hdiv, hmod, List.getD_eq_getElem?_getD, hi]
  rfl

/-! ## The bits of a link and what they make (R157) -/

/-- The part with the bits of port n's link at b. -/
def State.withBits (s : State) (n : Port) (b : LinkBits) : State := s.setLink n { s.link n with bits := b }

theorem State.withBits_link (s : State) (n : Port) (b : LinkBits) :
    (s.withBits n b).link n = { s.link n with bits := b } :=
  State.link_setLink_self s n _

/-- The bits of a link after one more clock. -/
def PortLink.nextBits (l : PortLink) (bit : Bool) : LinkBits where
  sent := if l.bits.sent + 1 = l.span then 0 else l.bits.sent + 1
  last8 := shiftIn l.bits.last8 bit
  taken := (l.framer.takeBit (shiftIn l.bits.last8 bit) l.bits.taken).1

/-- The command that the byte received at a clock makes, if a byte ends there. -/
def PortLink.receivedActs (l : PortLink) (n : Port) (bit : Bool) : List Instr :=
  ((l.framer.takeBit (shiftIn l.bits.last8 bit) l.bits.taken).2.map (l.framer.command n)).toList

/-- A clock out of reset: the scheduler's choice first, then one bit each way. -/
theorem State.clock_of_listening (hl : s.listens n = true) (hu : s.schedule n = u) : s.clock n bit first =
    { chosen := s.frameDue n
      pnDO := (u.pinOut n).bit (u.link n).bits.sent
      part := u.withBits n ((u.link n).nextBits bit)
      acts := if first then u.sentActs n true ++ (u.link n).receivedActs n bit
        else (u.link n).receivedActs n bit ++ u.sentActs n false } := by
  subst hu
  exact if_pos hl

theorem shiftIn_eq (last8 : Byte) (bit : Bool) : shiftIn last8 bit = (last8 <<< 1) ||| (if bit then 1#8 else 0#8) := by
  cases bit <;> rfl

theorem Framer.takeBit_fst (f : Framer) (last8 : Byte) (taken : Nat) :
    (f.takeBit last8 taken).1 = if f = .hunt ∨ taken = 7 then 0 else taken + 1 := by
  unfold Framer.takeBit
  by_cases hf : f = .hunt
  · simp [hf]
  · by_cases h7 : taken = 7 <;> simp [hf, h7]

theorem PortLink.nextBits_sent (l : PortLink) (bit : Bool) :
    (l.nextBits bit).sent = if l.bits.sent + 1 = l.span then 0 else l.bits.sent + 1 := rfl

/-- On the side of PnDO: the frame sent at its last bit, and the frame that waits at the boundary behind it. -/
theorem State.sentActs_eq (s : State) (n : Port) (bit choosing : Bool) : s.sentActs n choosing =
    (s.link n).line.elim [] (fun bytes => if (s.link n).bits.sent + 1 = 8 * bytes.length then [.frameSent n] else []) ++
    (if choosing then if ((s.link n).nextBits bit).sent = 0 then (s.frameWaiting n).toList else [] else []) := by
  have hzero : ((s.link n).nextBits bit).sent = 0 ↔ (s.link n).bits.sent + 1 = (s.link n).span := by
    rw [PortLink.nextBits_sent]
    split <;> simp [*]
  unfold State.sentActs
  rw [if_congr hzero rfl rfl]
  cases ho : (s.link n).line with
  | none =>
    rw [PortLink.span_of_free ho]
    by_cases h : (s.link n).bits.sent + 1 = 8 <;> simp [h]
  | some bytes =>
    rw [PortLink.span_of_frame ho]
    by_cases h : (s.link n).bits.sent + 1 = 8 * bytes.length <;> simp [h]

theorem PortLink.receivedActs_of_hunt {l : PortLink} (hf : l.framer = .hunt) :
    l.receivedActs n bit = if shiftIn l.bits.last8 bit = syncByte then [.syncByteFound n] else [] := by
  unfold PortLink.receivedActs Framer.takeBit
  rw [hf]
  by_cases h : shiftIn l.bits.last8 bit = syncByte <;> simp [h, Framer.command]

theorem PortLink.receivedActs_of_frame {l : PortLink} (hf : l.framer ≠ .hunt) :
    l.receivedActs n bit = if l.bits.taken = 7 then [l.framer.command n (shiftIn l.bits.last8 bit)] else [] := by
  unfold PortLink.receivedActs Framer.takeBit
  by_cases h : l.bits.taken = 7 <;> simp [h, hf]

/-! ## Eight bits of a byte (R155, R157) -/

theorem shiftIn_zero (last8 : Byte) (bit : Bool) : (shiftIn last8 bit)[0] = bit := by
  cases bit <;> simp [shiftIn]

theorem shiftIn_succ (last8 : Byte) (bit : Bool) {i : Nat} (hi : i + 1 < 8) : (shiftIn last8 bit)[i + 1] = last8[i] := by
  simp [shiftIn]

/-- Eight bits, most significant first, make the byte that they are of. -/
theorem foldl_shiftIn_byteBits (last8 x : Byte) : (byteBits x).foldl shiftIn last8 = x := by
  refine BitVec.eq_of_getElem_eq fun i hi => ?_
  simp only [byteBits, List.range, List.range.loop, List.map, List.foldl, BitVec.getMsbD]
  interval_cases i <;> simp [shiftIn_zero, shiftIn_succ]

end Sys2Proof.Machine
end

