-- ==== Sys2Proof/Proofs/FrameBits.lean ====
section
/-! SUPPORT. With nothing to send, a whole frame bit by bit does what its commands do (R155 to R157). -/

namespace Sys2Proof.Machine

variable {s t : State} {n : Port} {bit first : Bool} {b : LinkBits} {f g : Framer} {bits xs ys : List Bool}
  {bytes body : List Byte}

/-! ## Clocks with nothing to send -/

/-- Port n listens, its line is free and no frame waits. -/
structure State.Quiet (s : State) (n : Port) : Prop where
  listens : s.listens n = true
  free : (s.link n).line = none
  nothing : s.frameWaiting n = none

/-- A link is quiet by its level, its line and its acknowledgments alone. -/
theorem State.Quiet.setLink (h : s.Quiet n) {l : PortLink} (hline : l.lineHigh = (s.link n).lineHigh)
    (hfree : l.line = (s.link n).line) (hacks : l.ackBuffer = (s.link n).ackBuffer) : (s.setLink n l).Quiet n where
  listens := by
    obtain ⟨hheld, hhigh⟩ := State.listens_iff.1 h.listens
    exact State.listens_iff.2 ⟨hheld, by rw [State.link_setLink_self, hline, hhigh]⟩
  free := by rw [State.link_setLink_self, hfree, h.free]
  nothing := by
    rw [← h.nothing, State.frameWaiting, State.frameWaiting, State.link_setLink_self, hacks, State.setLink_port]

theorem State.Quiet.withBits (h : s.Quiet n) (b : LinkBits) : (s.withBits n b).Quiet n := h.setLink rfl rfl rfl

theorem State.Quiet.withFramer (h : s.Quiet n) (f : Framer) : (s.withFramer n f).Quiet n := h.setLink rfl rfl rfl

theorem State.Quiet.schedule (h : s.Quiet n) : s.schedule n = s :=
  State.schedule_of_none (by rw [State.frameDue, h.nothing, ite_self])

theorem State.Quiet.sentActs (h : s.Quiet n) (choosing : Bool) : s.sentActs n choosing = [] := by
  unfold State.sentActs
  rw [h.free, h.nothing]
  simp

/-- A clock then takes a bit, and makes the command of the byte that ends with it. -/
theorem State.Quiet.clock (h : s.Quiet n) : (s.clock n bit first).part = s.withBits n ((s.link n).nextBits bit) ∧
    (s.clock n bit first).acts = (s.link n).receivedActs n bit := by
  rw [State.clock_of_listening h.listens h.schedule, h.sentActs, h.sentActs]
  exact ⟨rfl, by simp⟩

theorem clocks_append : Clocks n first (xs ++ ys) s t ↔ ∃ u, Clocks n first xs s u ∧ Clocks n first ys u t := by
  induction xs generalizing s with
  | nil => exact ⟨fun h => ⟨s, rfl, h⟩, fun ⟨_, hu, h⟩ => hu ▸ h⟩
  | cons x xs ih =>
    constructor
    · rintro ⟨v, hv, h⟩
      obtain ⟨u, hu, ht⟩ := ih.1 h
      exact ⟨u, ⟨v, hv, hu⟩, ht⟩
    · rintro ⟨u, ⟨v, hv, hu⟩, ht⟩
      exact ⟨v, hv, ih.2 ⟨u, hu, ht⟩⟩

/-- A bit that ends no byte is taken, and no more. -/
theorem State.Quiet.clocks_cons (h : s.Quiet n) (hr : (s.link n).receivedActs n bit = [])
    (ht : Clocks n first bits (s.withBits n ((s.link n).nextBits bit)) t) : Clocks n first (bit :: bits) s t := by
  refine ⟨_, ?_, ht⟩
  rw [h.clock.1, h.clock.2, hr]
  rfl

/-- A bit that ends a byte makes its command. -/
theorem State.Quiet.clocks_last (h : s.Quiet n) {c : Instr} (hr : (s.link n).receivedActs n bit = [c])
    (ht : exec c (s.withBits n ((s.link n).nextBits bit)) = .next t) : Clocks n first [bit] s t := by
  refine ⟨t, ?_, rfl⟩
  rw [h.clock.1, h.clock.2, hr]
  exact runs_singleton ht

theorem State.withBits_withBits (s : State) (n : Port) (b b' : LinkBits) :
    (s.withBits n b).withBits n b' = s.withBits n b' := by
  rw [State.withBits, State.withBits_link]
  simp only [State.withBits, State.setLink, PerPort.set_set]

theorem State.withBits_self (s : State) (n : Port) : s.withBits n (s.link n).bits = s := State.setLink_self s n

/-- The bits that a byte under way still lacks end it, and make its command on the link whose bits have moved. -/
theorem State.Quiet.clocks_rest (h : s.Quiet n) (hf : (s.link n).framer ≠ .hunt) (hne : bits ≠ [])
    (hlen : (s.link n).bits.taken + bits.length = 8) : ∃ b', b'.taken = 0 ∧ ∀ t,
    exec ((s.link n).framer.command n (bits.foldl shiftIn (s.link n).bits.last8)) (s.withBits n b') = .next t →
    Clocks n first bits s t := by
  induction bits generalizing s with
  | nil => exact absurd rfl hne
  | cons bit bits ih =>
    rw [List.length_cons] at hlen
    have htaken : ((s.link n).nextBits bit).taken = if (s.link n).bits.taken = 7 then 0 else (s.link n).bits.taken + 1 :=
      (Framer.takeBit_fst _ _ _).trans (by simp [hf])
    cases bits with
    | nil =>
      have h7 : (s.link n).bits.taken = 7 := by simpa using hlen
      refine ⟨(s.link n).nextBits bit, htaken.trans (if_pos h7), fun t ht => h.clocks_last ?_ ht⟩
      rw [PortLink.receivedActs_of_frame hf, if_pos h7]
      rfl
    | cons x xs =>
      have h7 : (s.link n).bits.taken ≠ 7 := by simp at hlen; omega
      have hnext : (s.withBits n ((s.link n).nextBits bit)).link n =
          { s.link n with bits := (s.link n).nextBits bit } := State.withBits_link s n _
      obtain ⟨b', hb', hexec⟩ := ih (h.withBits ((s.link n).nextBits bit)) (by rw [hnext]; exact hf) (by simp)
        (by rw [hnext]; simp only [htaken, if_neg h7]; omega)
      refine ⟨b', hb', fun t ht => h.clocks_cons ?_ (hexec t ?_)⟩
      · rw [PortLink.receivedActs_of_frame hf, if_neg h7]
      · rw [hnext, State.withBits_withBits]
        exact ht

theorem State.Quiet.clocks_byte (h : s.Quiet n) (hf : (s.link n).framer ≠ .hunt) (htaken : (s.link n).bits.taken = 0)
    (x : Byte) : ∃ b', b'.taken = 0 ∧ ∀ t,
    exec ((s.link n).framer.command n x) (s.withBits n b') = .next t → Clocks n first (byteBits x) s t := by
  have hrest := h.clocks_rest (first := first) (bits := byteBits x) hf (by simp [byteBits]) (by rw [htaken]; rfl)
  rwa [foldl_shiftIn_byteBits] at hrest

/-! ## The bytes of a frame, bit by bit (R156, R157) -/

theorem State.withFramer_withBits (s : State) (n : Port) (f : Framer) (b : LinkBits) :
    (s.withFramer n f).withBits n b = (s.withBits n b).withFramer n f := by
  show (s.withFramer n f).setLink n { (s.withFramer n f).link n with bits := b } = (s.withBits n b).setLink n
    { (s.withBits n b).link n with framer := f, byteTicks := 0, framerDue := 0 }
  rw [State.withFramer_link, State.withBits_link]
  simp only [State.withFramer, State.withBits, State.setLink, PerPort.set_set]

/-- A byte that moves the framer on is one of a frame, neither its sync byte nor its last. -/
theorem Framer.command_of_next {x : Byte} (hf : f.next x = some g) :
    f ≠ .hunt ∧ f.command n x = .frameByteReceived n x := by
  cases f with
  | hunt => cases hf
  | length => exact ⟨nofun, if_pos (Option.ite_none_right_eq_some.1 hf).1⟩
  | body len got => exact ⟨nofun, rfl⟩
  | check len got high =>
    cases high with
    | none => exact ⟨nofun, rfl⟩
    | some high => cases hf

/-- A run of bytes that move the framer on, bit by bit. -/
theorem State.Quiet.clocks_bytes (h : s.Quiet n) (hf : f.nextAll bytes = some g) (hb : b.taken = 0) :
    ∃ b', b'.taken = 0 ∧
      Clocks n first (bitsOf bytes) ((s.withBits n b).withFramer n f) ((s.withBits n b').withFramer n g) := by
  induction bytes generalizing f b with
  | nil => cases hf; exact ⟨b, hb, rfl⟩
  | cons x bytes ih =>
    obtain ⟨k, hk, hg⟩ := Framer.nextAll_cons.1 hf
    obtain ⟨hnh, hcommand⟩ := Framer.command_of_next (n := n) hk
    have hlink := (s.withBits n b).withFramer_link n f
    obtain ⟨b₁, hb₁, hbyte⟩ := ((h.withBits b).withFramer f).clocks_byte (first := first) (by rw [hlink]; exact hnh)
      (by rw [hlink, State.withBits_link]; exact hb) x
    obtain ⟨b₂, hb₂, hrest⟩ := ih hg hb₁
    refine ⟨b₂, hb₂, clocks_append.2 ⟨_, hbyte _ ?_, hrest⟩⟩
    rw [hlink, hcommand, State.withFramer_withBits, State.withBits_withBits]
    exact exec_withFramer (h.withBits b₁).listens hk

/-- In HUNT bits are taken in silence for as long as the last eight do not read A5h. -/
theorem State.Quiet.clocks_hunt (h : s.Quiet n) (hf : (s.link n).framer = .hunt)
    (hno : ∀ i < bits.length, (bits.take (i + 1)).foldl shiftIn (s.link n).bits.last8 ≠ syncByte) :
    ∃ b', b'.last8 = bits.foldl shiftIn (s.link n).bits.last8 ∧ Clocks n first bits s (s.withBits n b') := by
  induction bits generalizing s with
  | nil => exact ⟨_, rfl, (State.withBits_self s n).symm⟩
  | cons bit bits ih =>
    have hnext : (s.withBits n ((s.link n).nextBits bit)).link n =
        { s.link n with bits := (s.link n).nextBits bit } := State.withBits_link s n _
    obtain ⟨b', hb', hrest⟩ := ih (h.withBits ((s.link n).nextBits bit)) (by rw [hnext]; exact hf)
      (fun i hi => by rw [hnext]; exact hno (i + 1) (Nat.succ_lt_succ hi))
    rw [hnext] at hb'
    rw [State.withBits_withBits] at hrest
    refine ⟨b', hb', h.clocks_cons ?_ hrest⟩
    exact (PortLink.receivedActs_of_hunt hf).trans (if_neg (hno 0 (Nat.succ_pos _)))

/-- Behind a fill byte the eight bits of A5h are found as the sync byte at the last of them. -/
theorem State.Quiet.clocks_sync (h : s.Quiet n) (hf : (s.link n).framer = .hunt)
    (hfill : (s.link n).bits.last8 = 0x00#8) : ∃ b', b'.taken = 0 ∧ Clocks n first (byteBits syncByte) s ((s.withBits n b').withFramer n .length) := by
  obtain ⟨b, hb, hseven⟩ := h.clocks_hunt (first := first) (bits := [true, false, true, false, false, true, false]) hf
    (by rw [hfill]; decide)
  have hlink := s.withBits_link n b
  have hfb : ((s.withBits n b).link n).framer = .hunt := by rw [hlink]; exact hf
  have hlast : shiftIn b.last8 true = syncByte := by rw [hb, hfill]; decide
  refine ⟨((s.withBits n b).link n).nextBits true, (Framer.takeBit_fst _ _ _).trans (if_pos (.inl hfb)),
    (clocks_append (xs := [true, false, true, false, false, true, false]) (ys := [true])).2
      ⟨_, hseven, (h.withBits b).clocks_last (c := .syncByteFound n) ?_ ?_⟩⟩
  · rw [PortLink.receivedActs_of_hunt hfb, hlink, if_pos hlast]
  · rw [State.withBits_withBits]
    exact execSyncByteFound_hunting (h.withBits _).listens (by rw [State.withBits_link]; exact hf)

/-! ## The end of a frame, whatever the bits of its link -/

theorem PortLink.acknowledge_withBits (l : PortLink) (a : Ack) (b : LinkBits) :
    { l with bits := b }.acknowledge a = { l.acknowledge a with bits := b } := by
  unfold PortLink.acknowledge
  split <;> rfl

/-- A link written behind a move of its bits is written with the bits as they were moved. -/
theorem State.setLink_withBits (s : State) (n : Port) (l : PortLink) (b b' : LinkBits) :
    (s.withBits n b).setLink n { l with bits := b' } = (s.setLink n l).withBits n b' := by
  rw [State.withBits, State.withBits, State.link_setLink_self]
  simp only [State.setLink, PerPort.set_set]

theorem State.fault_withBits (s : State) (n : Port) (r : AckResult) (b : LinkBits) :
    (s.withBits n b).setLink n (((s.withBits n b).link n).fault r) = (s.setLink n ((s.link n).fault r)).withBits n b := by
  rw [← State.setLink_withBits, State.withBits_link]
  exact congrArg _ (PortLink.acknowledge_withBits (s.link n).toHunt _ b)

theorem State.admitFrame_withBits (s : State) (n : Port) (code tagByte : Byte) (operands : List Byte) (b : LinkBits) :
    (s.withBits n b).admitFrame n code tagByte operands = (s.admitFrame n code tagByte operands).withBits n b := by
  have hack : ∀ a, (s.withBits n b).setLink n (((s.withBits n b).link n).toHunt.acknowledge a) =
      (s.setLink n ((s.link n).toHunt.acknowledge a)).withBits n b := fun a => by
    rw [← State.setLink_withBits, State.withBits_link]
    exact congrArg _ (PortLink.acknowledge_withBits (s.link n).toHunt a b)
  have hadm : ∀ tag op, (s.withBits n b).admission n tag op = s.admission n tag op := fun _ _ => rfl
  have hbuffer : ((s.withBits n b).link n).ackBuffer = (s.link n).ackBuffer := by rw [State.withBits_link]
  unfold State.admitFrame
  simp only [hack, hadm, hbuffer]
  split
  · cases readOperands code operands <;> rfl
  · rfl

/-- The end of a frame neither asks for the bits of its link nor moves them. -/
theorem State.frameEnds_withBits (s : State) (n : Port) (len : Byte) (body : List Byte) (high low : Byte) (b : LinkBits) :
    (s.withBits n b).frameEnds n len body high low = (s.frameEnds n len body high low).withBits n b := by
  unfold State.frameEnds
  rw [State.fault_withBits, State.fault_withBits]
  split
  · split
    · split
      · rfl
      · exact State.admitFrame_withBits s n _ _ _ b
    · rfl
  · rfl

theorem State.frameReceived_withBits (s : State) (n : Port) (body : List Byte) (b : LinkBits) :
    (s.withBits n b).frameReceived n body = (s.frameReceived n body).withBits n b := by
  unfold State.frameReceived
  dsimp only
  rw [← State.withFramer_withBits, State.frameEnds_withBits]

/-- A whole frame leaves the bits of its link as they are. -/
theorem State.frameReceived_bits (s : State) (n : Port) (body : List Byte) :
    (s.frameReceived n body).withBits n (s.link n).bits = s.frameReceived n body := by
  rw [← State.frameReceived_withBits, State.withBits_self]

/-! ## A whole frame, bit by bit -/

theorem bytesOf_check (x : BitVec 16) : bytesOf 2 x.toNat = [x.extractLsb' 8 8, x.extractLsb' 0 8] := by
  have h := x.isLt
  simp only [bytesOf, List.cons.injEq, and_true, BitVec.toNat_eq, BitVec.toNat_ofNat, BitVec.extractLsb'_toNat,
    Nat.shiftRight_eq_div_pow]
  omega

theorem bitsOf_frameBytes (body : List Byte) : bitsOf (frameBytes body) = byteBits syncByte ++
    (bitsOf (BitVec.ofNat 8 body.length :: body ++ [(frameCheck (BitVec.ofNat 8 body.length) body).extractLsb' 8 8]) ++
      byteBits ((frameCheck (BitVec.ofNat 8 body.length) body).extractLsb' 0 8)) := by
  simp [frameBytes, bytesOf_check, bitsOf]

/-- The second check byte, bit by bit, ends its frame. -/
theorem State.Quiet.clocks_lastByte (h : s.Quiet n) (hb : b.taken = 0) (len high low : Byte) (body : List Byte) :
    ∃ b', Clocks n first (byteBits low) ((s.withBits n b).withFramer n (.check len body (some high)))
      (((s.withFramer n (.check len body (some high))).frameEnds n len body high low).withBits n b') := by
  have hlink := (s.withBits n b).withFramer_link n (.check len body (some high))
  obtain ⟨b', -, hlast⟩ := ((h.withBits b).withFramer (.check len body (some high))).clocks_byte (first := first)
    (by rw [hlink]; exact nofun) (by rw [hlink, State.withBits_link]; exact hb) low
  refine ⟨b', hlast _ ?_⟩
  rw [hlink, ← State.frameEnds_withBits, State.withFramer_withBits, State.withFramer_withBits, State.withBits_withBits]
  exact execFrameComplete_ends ((h.withBits b').withFramer _).listens (by rw [State.withFramer_link])

/-- With nothing to send, the bits of a whole frame behind a fill byte do what the frame's commands do. -/
theorem State.Quiet.clocks_frame (h : s.Quiet n) (hf : (s.link n).framer = .hunt) (hfill : (s.link n).bits.last8 = 0x00#8)
    (h2 : 2 ≤ body.length) (h15 : body.length ≤ 15) :
    ∃ b, Clocks n first (bitsOf (frameBytes body)) s ((s.frameReceived n body).withBits n b) := by
  obtain ⟨hok, hlen⟩ := lengthByteOk_ofNat h2 h15
  obtain ⟨b₁, hb₁, hsync⟩ := h.clocks_sync (first := first) hf hfill
  obtain ⟨b₂, hb₂, hbytes⟩ := h.clocks_bytes (first := first) (Framer.nextAll_frame hok hlen) hb₁
  obtain ⟨b₃, hlast⟩ := h.clocks_lastByte (first := first) hb₂ (BitVec.ofNat 8 body.length) _ _ body
  rw [bitsOf_frameBytes]
  exact ⟨b₃, clocks_append.2 ⟨_, hsync, clocks_append.2 ⟨_, hbytes, hlast⟩⟩⟩

end Sys2Proof.Machine

open Sys2Proof Sys2Proof.Machine

/-- Settles O60: in reset nothing moves; out of it the clock is the scheduler's choice and one bit each way, and the bits
of a whole frame are taken byte by byte. -/
theorem bitsMakeTheFrames : Obligations.BitsMakeTheFrames := by
  rintro s n bit first c rfl
  refine ⟨fun hreset => ?reset, fun hheld hline waiting hwaiting => ?_⟩
  case reset =>
    have hl : s.listens n = false := by rcases hreset with h | h <;> simp [State.listens, h]
    rw [State.clock_of_reset hl]
    exact ⟨rfl, rfl, rfl, rfl⟩
  have hl : s.listens n = true := State.listens_iff.2 ⟨hheld, hline⟩
  have hwait : ∀ x, waiting x = (x.frameWaiting n).toList := fun x => (hwaiting x).trans (x.frameWaiting_toList n).symm
  refine ⟨?chosen, State.clock_linkFits, ⟨s.schedule n, ?runs, ?moves⟩, fun hfree hnone hf hfill body h2 h15 => ?frame⟩
  case chosen =>
    rw [State.clock_of_listening hl rfl, hwait]
    exact State.frameDue_toList hl
  case runs =>
    rw [State.clock_of_listening hl rfl]
    exact runs_frameDue s n
  case moves =>
    have hul : (s.schedule n).listens n = true := State.schedule_listens.trans hl
    rw [State.clock_of_listening hl rfl]
    generalize s.schedule n = u at hul
    rintro b b' rfl hb'
    obtain rfl : b' = (u.link n).nextBits bit := by rw [hb', State.withBits_link]
    refine ⟨rfl, fun hfree => ⟨?fill, ?_⟩, fun bytes ho => ⟨fun i j byte hi hj hsent => ?bit, ?_⟩, shiftIn_eq _ _,
      Framer.takeBit_fst _ _ _, ?acts⟩
    case fill =>
      rw [State.pinOut_of_free hul hfree]
      exact fillByte_getMsbD _
    case bit =>
      rw [State.pinOut_of_frame hul ho, hsent]
      exact PinOut.bit_frame hi hj
    case acts =>
      rintro sent received hsent hreceived
      have hsentActs : ∀ choosing, u.sentActs n choosing = sent ++
          (if choosing then if ((u.link n).nextBits bit).sent = 0 then (u.frameWaiting n).toList else [] else []) := by
        intro choosing
        rw [State.sentActs_eq u n bit, hsent]
        cases (u.link n).line <;> rfl
      have hreceivedActs : (u.link n).receivedActs n bit = received := by
        rw [hreceived]
        cases hf : (u.link n).framer with
        | hunt => exact PortLink.receivedActs_of_hunt hf
        | length =>
          rw [PortLink.receivedActs_of_frame (by simp [hf]), hf]
          simp only [Framer.command, lengthByteOk_iff]
          rfl
        | body len got =>
          rw [PortLink.receivedActs_of_frame (by simp [hf]), hf]
          rfl
        | check len got high =>
          rw [PortLink.receivedActs_of_frame (by simp [hf]), hf]
          cases high <;> rfl
      simp only [hsentActs, hreceivedActs, hwait, if_true, Bool.false_eq_true, if_false, List.append_nil]
    · rw [PortLink.nextBits_sent, PortLink.span_of_free hfree]
    · rw [PortLink.nextBits_sent, PortLink.span_of_frame ho]
  case frame =>
    have hq : s.Quiet n := ⟨hl, hfree, by simpa [hwait] using hnone⟩
    obtain ⟨b, hclocks⟩ := hq.clocks_frame (first := first) hf hfill h2 h15
    refine ⟨_, hclocks, ?_⟩
    show Runs _ s (((s.frameReceived n body).withBits n b).withBits n (s.link n).bits)
    rw [State.withBits_withBits, State.frameReceived_bits]
    exact runs_frameCommands hl hf h2 h15
end

