-- ==== Sys2Proof/Proofs/Requests.lean ====
section
/-! SUPPORT. What the requests answered in one act make of the state: STATUS, CREDIT, SET_EVENTS, and a FORCE_DETACH of an
ended session (R150, R151, R169, R171). -/

namespace Sys2Proof.Machine

variable {s : State} {n p : Port} {tag : Tag} {rq : Request}

/-! ## STATUS (R171) -/

theorem execStatus_taken (hn : s.nextRequest n = some ⟨tag, .status⟩) :
    execStatus n s = .next (s.answer n { bareReply ⟨tag, .status⟩ .ok with extra := .status (s.figures n) }) := by
  simp only [execStatus, hn, if_true]

theorem statusReportsItsFigures : Claims.StatusReportsItsFigures := by
  intro s n tag hn
  rw [exec_status, execStatus_taken hn]
  rfl

/-! ## A change of a port's settings (R150, R151) -/

/-- A taken request that changes its port's settings and is answered at once writes that port alone. -/
theorem State.dequeue_setPort_postReply (s : State) (n : Port) (c : PortControl) (r : Reply) :
    ((s.dequeue n).setPort n c).postReply n r = s.setPort n { c with replyQueue := c.replyQueue ++ [r] } := by
  rw [State.postReply, State.port_setPort_self, State.dequeue]
  simp only [State.setPort, PerPort.set_set]

theorem execCredit_taken {k : Byte} (hn : s.nextRequest n = some ⟨tag, .credit k⟩) (h1 : 1 ≤ k.toNat)
    (h32 : k.toNat ≤ 32) : execCredit n s =
      .next (((s.dequeue n).setPort n
        { (s.dequeue n).port n with credits := addCredits (s.port n).credits k.toNat }).postReply n
        { bareReply ⟨tag, .credit k⟩ .ok with extra := .credits (addCredits (s.port n).credits k.toNat) }) := by
  have hok : RequestOp.operandsOk (.credit k) = true := by simp [RequestOp.operandsOk, h1, h32]
  simp only [execCredit, hn]
  rw [State.examine_of_ok hok]

theorem execSetEvents_taken {m f : Byte} {mask : EventMask} {flag : Bool}
    (hn : s.nextRequest n = some ⟨tag, .setEvents m f⟩) (hm : maskOfCode m = some mask) (hf : flagOfCode f = some flag) :
    execSetEvents n s =
      .next (((s.dequeue n).setPort n { (s.dequeue n).port n with mask := mask, suppressOwn := flag }).postReply n
        { bareReply ⟨tag, .setEvents m f⟩ .ok with
          extra := .previousSettings (s.port n).mask (s.port n).suppressOwn }) := by
  have hok : RequestOp.operandsOk (.setEvents m f) = true := by simp [RequestOp.operandsOk, hm, hf]
  simp only [execSetEvents, hn, hm, hf]
  rw [State.examine_of_ok hok]

/-- The credit counter saturates at 255 (R150). -/
theorem addCredits_eq (c k : Nat) : addCredits c k = if c + k ≤ 255 then c + k else 255 := Nat.min_def

theorem creditAndSetEventsAct : Claims.CreditAndSetEventsAct := by
  intro s n tag
  refine ⟨fun k hn h1 h32 => ⟨_, addCredits_eq (s.port n).credits k.toNat, ?credit⟩,
    fun m f mask flag hn hm hf => ?setEvents⟩
  case credit =>
    rw [exec_credit, execCredit_taken hn h1 h32, State.dequeue_setPort_postReply, State.dequeue_port_self]
    rfl
  case setEvents =>
    rw [exec_setEvents, execSetEvents_taken hn hm hf, State.dequeue_setPort_postReply, State.dequeue_port_self]
    rfl

/-! ## FORCE_DETACH of an ended session (R169) -/

/-- On a port without a session the act is its answer. -/
theorem State.forceAct_of_not_attached (h : s.portState p ≠ .attached) : s.forceAct n rq p =
    s.answer n { bareReply rq (if s.portState p = .closing then .ok else .notAttached) with
      extra := if s.portState p = .closing then .alreadyClosing true else .none } := by
  rw [State.forceAct]
  cases hp : s.portState p with
  | attached => exact absurd hp h
  | closing => rfl
  | opened => rfl
  | down => rfl

theorem forceDetachOfAnEndedSession : Claims.ForceDetachOfAnEndedSession := by
  intro s n p tag code hn hcode hm hp
  rw [execForceDetach_acts hn hcode hm, State.forceAct_of_not_attached hp]
  rfl

end Sys2Proof.Machine

open Sys2Proof Sys2Proof.Machine

/-- Settles O22: each request's answer, and what it changes of its own port. -/
theorem requestsAnsweredAtOnce : Obligations.RequestsAnsweredAtOnce :=
  ⟨statusReportsItsFigures, creditAndSetEventsAct, forceDetachOfAnEndedSession⟩
end

