-- ==== Sys2Proof/Proofs/Maintenance.lean ====
section
/-! SUPPORT. What INSPECT_CYCLE and BREAK_WAIT_CYCLE make of the state (R92, R168). -/

namespace Sys2Proof.Machine

variable {s : State} {n : Port} {tag : Tag} {k : Slot}

theorem execInspectCycle_allocated (hc : s.cycleOf n .single = some ⟨tag, .inspect k⟩) (ha : s.allocated k = true) :
    execInspectCycle n s = .next (s.complete n (.finish
      { bareReply ⟨tag, .inspect k⟩ .ok with
        content := some (s.entry k).content, version := some (s.entry k).version
        extra := .inspect (s.inspectFigures k) })) := by
  simp only [execInspectCycle, hc, State.ifAllocated_of_allocated _ ha]

theorem execBreakWaitCycle_allocated (hc : s.cycleOf n .single = some ⟨tag, .breakWait k⟩)
    (ha : s.allocated k = true) : execBreakWaitCycle n s =
      .next ((s.endWaitsOn k .cancelled none none).complete n (.finish
        { bareReply ⟨tag, .breakWait k⟩ .ok with extra := .broken (s.waitsOn k) })) := by
  simp only [execBreakWaitCycle, hc, State.ifAllocated_of_allocated _ ha]

/-- The figures of an INSPECT of an allocated slot (R168). -/
theorem State.inspectFigures_of_allocated (ha : s.allocated k = true) : s.inspectFigures k =
    { owner := (s.entry k).owner, orphaned := (s.entry k).orphaned, access := (s.entry k).access
      saved := (s.entry k).saved, watch := (s.entry k).watch, allocated := true, inbound := s.inbound k
      waits := s.waitsOn k } := by
  rw [State.inspectFigures, ha]

/-- A cycle that ends every wait on a slot and answers its own request writes the Wait Table and the reply queues alone. -/
theorem State.endWaitsOn_completes (hl : (s.executor n).onLink = false) (k : Slot) (st : Status) (c : Option Content)
    (v : Option Version) (r : Reply) :
    (s.endWaitsOn k st c v).complete n (.finish r) = State.afterCompletion
      { s.cycleEnded n with
        waits := s.waits.filter (fun w : WaitRecord => decide (w.terminal ≠ k))
        ports := ((s.postReplies fun p => (s.waits.filter fun w : WaitRecord =>
          decide (w.terminal = k) && decide (w.port = p)).map (waitReply · st c v)).replyTo n r).ports } :=
  (State.complete_finish_eq (s.endWaitsOn k st c v) n r hl).trans
    (congrArg State.afterCompletion (State.endedWith_eq (s.postReplies _) rfl rfl rfl))

end Sys2Proof.Machine

open Sys2Proof Sys2Proof.Machine

/-- Settles O40: INSPECT ends with its figures and no write; BREAK_WAIT ends the waits ahead of its own reply. -/
theorem inspectAndBreakWaitAct : Obligations.InspectAndBreakWaitAct := by
  intro s n tag k ha
  refine ⟨fun hc => ?inspect, fun hc => ?breakWait⟩
  case inspect =>
    have hlink := State.not_onLink_of_cycleOf hc fun _ _ => RequestOp.noConfusion
    rw [exec_inspectCycle, execInspectCycle_allocated hc ha, State.complete_finish_eq s n _ hlink,
      State.inspectFigures_of_allocated ha]
    rfl
  case breakWait =>
    have hlink := State.not_onLink_of_cycleOf hc fun _ _ => RequestOp.noConfusion
    rw [exec_breakWaitCycle, execBreakWaitCycle_allocated hc ha, State.endWaitsOn_completes hlink]
    rfl
end

