-- ==== Sys2Proof/Proofs/CommandQueue.lean ====
section
/-! SUPPORT. No command reads or writes the queue of commands behind it (log 1): each is a function of the part that
commutes with putting another queue behind it. -/

namespace Sys2Proof.Machine

variable {s t u : State} {n : Port} {rq : Request} {l : List Instr}

/-! ## The part with another queue of commands -/

/-- The part with the commands of l waiting: everything else as in s. -/
def State.requeue (s : State) (l : List Instr) : State := { s with pending := l }

/-- What f does does not depend on the commands that wait, and leaves them as they are. -/
def Steady (f : State → State) : Prop := ∀ (s : State) (l : List Instr), f (s.requeue l) = (f s).requeue l

@[simp] theorem State.requeue_sweeps : (s.requeue l).sweeps = s.sweeps := rfl
@[simp] theorem State.requeue_serial : (s.requeue l).serial = s.serial := rfl
@[simp] theorem State.requeue_freeList : (s.requeue l).freeList = s.freeList := rfl
@[simp] theorem State.requeue_lastGranted : (s.requeue l).lastGranted = s.lastGranted := rfl
@[simp] theorem State.requeue_entry (k : Slot) : (s.requeue l).entry k = s.entry k := rfl
@[simp] theorem State.requeue_port (n : Port) : (s.requeue l).port n = s.port n := rfl
@[simp] theorem State.requeue_portState : (s.requeue l).portState = s.portState := rfl
@[simp] theorem State.requeue_link (n : Port) : (s.requeue l).link n = s.link n := rfl
@[simp] theorem State.requeue_executor (n : Port) : (s.requeue l).executor n = s.executor n := rfl
@[simp] theorem State.requeue_oldestWait (k : Slot) : (s.requeue l).oldestWait k = s.oldestWait k := rfl
@[simp] theorem State.requeue_nextRequest (n : Port) : (s.requeue l).nextRequest n = s.nextRequest n := rfl
@[simp] theorem State.requeue_cycleOf (n : Port) (w : Work) : (s.requeue l).cycleOf n w = s.cycleOf n w := rfl
@[simp] theorem State.requeue_atTerminal (n : Port) : (s.requeue l).atTerminal n = s.atTerminal n := rfl
@[simp] theorem State.requeue_hasCycle : (s.requeue l).hasCycle = s.hasCycle := by funext r; cases r <;> rfl

/-! ## How acts that leave the queue make up others -/

theorem Steady.of_eq {f : State → State} (hf : Steady f) (h : t = s.requeue l) : f t = (f s).requeue l := h ▸ hf s l

/-- A choice that the queue does not bear on. -/
theorem State.ite_requeue {p q : Prop} [Decidable p] [Decidable q] {a b : State} (hpq : p ↔ q) (ha : t = a.requeue l)
    (hb : u = b.requeue l) : (if p then t else u) = (if q then a else b).requeue l := by
  rw [ha, hb, ← apply_ite (State.requeue · l)]
  exact congrArg (State.requeue · l) (if_congr hpq rfl rfl)

theorem Steady.foldl {α : Type} {f : State → α → State} (hf : ∀ a, Steady (f · a)) (as : List α) :
    Steady (fun s => as.foldl f s) := by
  induction as with
  | nil => exact fun _ _ => rfl
  | cons a as ih => exact fun s l => ih.of_eq (hf a s l)

/-! ## The arbiter, the link token and the start of a loss -/

theorem State.grant_steady : Steady State.grant := by
  intro s l
  unfold State.grant
  refine State.ite_requeue Iff.rfl ?_ rfl
  rw [State.requeue_lastGranted, State.requeue_hasCycle]
  split <;> rfl

theorem State.passToken_steady : Steady State.passToken := by
  intro s l
  unfold State.passToken
  rw [State.requeue_serial]
  split <;> rfl

theorem State.endRequest_steady (n : Port) : Steady (State.endRequest · n) := fun _ _ =>
  State.ite_requeue Iff.rfl (State.passToken_steady.of_eq rfl) rfl

theorem State.withdraw_steady (taken : Port → Bool) (p : Port) : Steady (State.withdraw taken · p) := fun _ _ =>
  State.ite_requeue Iff.rfl ((State.endRequest_steady p).of_eq rfl) rfl

theorem State.takeWithdrawals_steady : Steady State.takeWithdrawals := fun s l =>
  State.ite_requeue Iff.rfl
    (congrArg (fun t : State => { t with freeIndex := s.freeIndex + 1 })
      (Steady.foldl (State.withdraw_steady (Config.withdrawalTaken s.freeIndex)) Port.all s l))
    rfl

theorem State.arbitrate_steady : Steady State.arbitrate := fun s l =>
  State.grant_steady.of_eq (State.takeWithdrawals_steady s l)

theorem State.abandon_steady (n : Port) : Steady (State.abandon · n) := by
  intro s l
  dsimp only
  unfold State.abandon
  rw [State.requeue_executor]
  split
  · rfl
  · rfl
  · exact State.ite_requeue Iff.rfl rfl (State.ite_requeue Iff.rfl (State.passToken_steady.of_eq rfl) rfl)

theorem State.startLoss_steady (n : Port) (reason : LossReason) : Steady (State.startLoss · n reason) := by
  intro s l
  have habandon := State.abandon_steady n s l
  dsimp only at habandon ⊢
  unfold State.startLoss
  rw [habandon]
  exact State.arbitrate_steady.of_eq rfl

/-! ## Sweep passes, entry to CLEARING and the completion of a cycle -/

theorem State.closeRecord_steady (st : Status) (r : SweepRecord) : Steady (State.closeRecord · st r) := by
  intro s l
  dsimp only
  unfold State.closeRecord
  cases r.detachReply st <;> rfl

theorem State.endPass_steady : Steady State.endPass := by
  intro s l
  unfold State.endPass
  rw [State.requeue_sweeps]
  split
  · rfl
  · next r rest _ =>
    exact congrArg (fun t : State => { t with sweeps := rest, sweepPos := 0, sweepVisit := false })
      (State.closeRecord_steady .ok r s l)

theorem State.removeSweeps_steady : Steady State.removeSweeps := fun s l =>
  congrArg (fun t : State => { t with sweeps := [], sweepPos := 0, sweepVisit := false })
    (Steady.foldl (State.closeRecord_steady .cancelled) s.sweeps s l)

theorem State.sweepTest_steady : Steady State.sweepTest := by
  intro s l
  unfold State.sweepTest
  rw [State.requeue_sweeps]
  split
  · rfl
  · exact State.ite_requeue Iff.rfl (State.endPass_steady s l) rfl

theorem State.testsAhead_steady (m : Nat) : Steady (State.testsAhead m) := by
  induction m with
  | zero => exact fun _ _ => rfl
  | succ m ih =>
    intro s l
    unfold State.testsAhead
    rw [State.requeue_sweeps]
    split
    · rfl
    · exact State.ite_requeue Iff.rfl (ih.of_eq (State.endPass_steady.of_eq rfl)) rfl

theorem State.enterClearing_steady : Steady State.enterClearing := fun _ _ => rfl

theorem State.afterCompletion_steady : Steady State.afterCompletion := fun s l =>
  State.arbitrate_steady.of_eq (State.ite_requeue Iff.rfl
    (State.enterClearing_steady.of_eq (State.testsAhead_steady s.sweeps.length s l)) rfl)

theorem State.complete_requeue {o : CycleEnd} (h : t = s.requeue l) : t.complete n o = (s.complete n o).requeue l := by
  subst h
  refine State.afterCompletion_steady.of_eq (State.ite_requeue Iff.rfl ((State.endRequest_steady n).of_eq rfl) ?_)
  cases o with
  | goOn w k hops => rfl
  | finish r => exact (State.endRequest_steady n).of_eq rfl
  | endSilent => exact (State.endRequest_steady n).of_eq rfl

/-! ## A command is steady -/

/-- The command always goes on, by an act that does not depend on the commands that wait, and leaves them. -/
def SteadyCommand (c : Instr) : Prop := ∃ f : State → State, (∀ s, exec c s = .next (f s)) ∧ Steady f

/-! ## Requests taken by an executor (R39, R161) -/

theorem State.examine_requeue (h : u = t.requeue l) :
    (s.requeue l).examine n rq u = (s.examine n rq t).requeue l := State.ite_requeue Iff.rfl h rfl

theorem State.ifMaintenance_requeue (h : u = t.requeue l) :
    (s.requeue l).ifMaintenance n rq u = (s.ifMaintenance n rq t).requeue l := State.ite_requeue Iff.rfl h rfl

theorem State.begin_steady (n : Port) (rq : Request) (w : Work) (k : Slot) : Steady (State.begin · n rq w k) :=
  fun _ _ => State.arbitrate_steady.of_eq rfl

theorem beginning_steady {c : Instr} (hc : c ∈ [Instr.read n, .put n, .take n, .clear n, .checkpoint n, .watch n,
      .unwatch n, .alloc n, .retire n, .claim n, .release n, .adopt n, .setAccess n]) : SteadyCommand c := by
  simp only [List.mem_cons, List.not_mem_nil, or_false] at hc
  rcases hc with rfl | rfl | rfl | rfl | rfl | rfl | rfl | rfl | rfl | rfl | rfl | rfl | rfl
  all_goals
    refine ⟨_, fun _ => rfl, fun s l => ?_⟩
    rw [State.requeue_nextRequest]
    split
    · split
      · exact State.examine_requeue (State.begin_steady _ _ _ _ s l)
      · rfl
    · rfl

theorem maintenance_steady {c : Instr} (hc : c ∈ [Instr.inspect n, .breakWait n]) : SteadyCommand c := by
  simp only [List.mem_cons, List.not_mem_nil, or_false] at hc
  rcases hc with rfl | rfl
  all_goals
    refine ⟨_, fun _ => rfl, fun s l => ?_⟩
    rw [State.requeue_nextRequest]
    split
    · split
      · exact State.examine_requeue (State.ifMaintenance_requeue (State.begin_steady _ _ _ _ s l))
      · rfl
    · rfl

theorem State.requestToken_steady (n : Port) (rq : Request) (target : Slot) :
    Steady (State.requestToken · n rq target) := by
  intro s l
  have hserial : ((s.requeue l).dequeue n).serial = (s.dequeue n).serial := rfl
  dsimp only
  unfold State.requestToken
  dsimp only
  rw [hserial]
  split
  · exact State.arbitrate_steady.of_eq rfl
  · rfl
  · rfl

theorem link_steady : SteadyCommand (.link n) := by
  refine ⟨_, fun _ => rfl, fun s l => ?_⟩
  rw [State.requeue_nextRequest]
  split
  · split
    · exact State.examine_requeue (State.requestToken_steady _ _ _ s l)
    · rfl
  · rfl

theorem attach_steady : SteadyCommand (.attach n) := by
  refine ⟨_, fun _ => rfl, fun s l => ?_⟩
  rw [State.requeue_nextRequest]
  split
  · split
    · refine State.examine_requeue ?_
      rw [State.requeue_portState]
      split <;> rfl
    · rfl
  · rfl

theorem statusOrDetach_steady {c : Instr} (hc : c ∈ [Instr.status n, .detach n]) : SteadyCommand c := by
  simp only [List.mem_cons, List.not_mem_nil, or_false] at hc
  rcases hc with rfl | rfl
  all_goals
    refine ⟨_, fun _ => rfl, fun s l => ?_⟩
    rw [State.requeue_nextRequest]
    split
    · exact State.ite_requeue Iff.rfl rfl rfl
    · rfl

theorem credit_steady : SteadyCommand (.credit n) := by
  refine ⟨_, fun _ => rfl, fun s l => ?_⟩
  rw [State.requeue_nextRequest]
  split
  · split
    · exact State.examine_requeue rfl
    · rfl
  · rfl

theorem setEvents_steady : SteadyCommand (.setEvents n) := by
  refine ⟨_, fun _ => rfl, fun s l => ?_⟩
  rw [State.requeue_nextRequest]
  split
  · split
    · refine State.examine_requeue ?_
      split <;> rfl
    · rfl
  · rfl

theorem State.forceAct_steady (n : Port) (rq : Request) (p : Port) : Steady (State.forceAct · n rq p) := by
  intro s l
  have hloss := (State.startLoss_steady p .forced).of_eq (s := s.dequeue n) (l := l) rfl
  dsimp only at hloss ⊢
  unfold State.forceAct
  rw [State.requeue_portState]
  split
  · exact State.ite_requeue Iff.rfl hloss (congrArg (State.postReply · n _) hloss)
  · rfl
  · rfl
  · rfl

theorem forceDetach_steady : SteadyCommand (.forceDetach n) := by
  refine ⟨_, fun _ => rfl, fun s l => ?_⟩
  rw [State.requeue_nextRequest]
  split
  · split
    · refine State.examine_requeue (State.ifMaintenance_requeue ?_)
      split
      · exact State.forceAct_steady _ _ _ s l
      · rfl
    · rfl
  · rfl

theorem clearDirectory_steady : SteadyCommand (.clearDirectory n) := by
  refine ⟨_, fun _ => rfl, fun s l => ?_⟩
  rw [State.requeue_nextRequest]
  split
  · exact State.ite_requeue Iff.rfl
      (State.ifMaintenance_requeue (State.ite_requeue Iff.rfl (State.ite_requeue Iff.rfl rfl rfl) rfl)) rfl
  · rfl

/-! ## Resets, passes and the Time Base -/

theorem State.passWrite_steady (k : Slot) : Steady (State.passWrite · k) := by
  intro s l
  dsimp only
  unfold State.passWrite
  dsimp only
  split <;> split <;> rfl

theorem State.passComplete_steady : Steady State.passComplete := fun s _ =>
  State.ite_requeue Iff.rfl
    (State.enterClearing_steady.of_eq ((State.testsAhead_steady s.sweeps.length).of_eq rfl))
    (State.arbitrate_steady.of_eq rfl)

theorem passCycle_steady : SteadyCommand .passCycle := by
  refine ⟨_, fun _ => rfl, fun s l => State.ite_requeue Iff.rfl ?_ rfl⟩
  have hwrite := State.passWrite_steady s.passPos s l
  have hsweep := State.ite_requeue (p := s.passPos = 0 ∧ s.device = .clearing) Iff.rfl
    (State.removeSweeps_steady.of_eq hwrite) hwrite
  exact State.ite_requeue Iff.rfl (congrArg (fun t : State => { t with passPos := s.passPos + 1 }) hsweep)
    (State.passComplete_steady.of_eq hsweep)

theorem State.lineFalls_steady (n : Port) : Steady (State.lineFalls · n) := by
  intro s l
  have hport : ((s.requeue l).setLink n (.reset false)).port n = (s.setLink n (.reset false)).port n := rfl
  dsimp only
  unfold State.lineFalls
  dsimp only
  rw [hport]
  split
  · rfl
  · rfl
  · exact (State.startLoss_steady n .linkReset).of_eq rfl
  · rfl

theorem State.lineRises_steady (n : Port) : Steady (State.lineRises · n) := by
  intro s l
  have hport : ∀ x : PortLink, ((s.requeue l).setLink n x).port n = (s.setLink n x).port n := fun _ => rfl
  dsimp only
  unfold State.lineRises
  dsimp only
  rw [hport, State.requeue_link]
  split <;> rfl

theorem State.tickWaits_steady : Steady State.tickWaits := fun _ _ =>
  State.ite_requeue Iff.rfl rfl (State.ite_requeue Iff.rfl rfl rfl)

theorem tick_steady : SteadyCommand .tick := ⟨_, fun _ => rfl, fun s l =>
  State.ite_requeue Iff.rfl rfl (congrArg (fun t : State => { t with
    ports := t.ports.mapPorts fun _ c => c.tickLease, links := t.links.mapPorts fun _ k => k.tickFramer })
    (State.tickWaits_steady s l))⟩

theorem leaseExpiry_steady : SteadyCommand (.leaseExpiry n) := by
  refine ⟨_, fun _ => rfl, fun s l => State.ite_requeue Iff.rfl rfl ?_⟩
  rw [State.requeue_port]
  dsimp only
  split
  · rfl
  · exact State.ite_requeue Iff.rfl rfl ((State.startLoss_steady n .lease).of_eq rfl)

theorem truncatedFrame_steady : SteadyCommand (.truncatedFrame n) := ⟨_, fun _ => rfl, fun _ _ =>
  State.ite_requeue Iff.rfl rfl (State.ite_requeue Iff.rfl rfl (State.ite_requeue Iff.rfl rfl rfl))⟩

/-! ## Port links -/

theorem State.admitFrame_steady (n : Port) (code tagByte : Byte) (operands : List Byte) :
    Steady (State.admitFrame · n code tagByte operands) := by
  intro s l
  refine State.ite_requeue Iff.rfl ?_ rfl
  split <;> rfl

theorem State.frameEnds_steady (n : Port) (len : Byte) (body : List Byte) (high low : Byte) :
    Steady (State.frameEnds · n len body high low) := by
  intro s l
  refine State.ite_requeue Iff.rfl ?_ rfl
  split
  · exact State.ite_requeue Iff.rfl rfl (State.admitFrame_steady _ _ _ _ s l)
  · rfl

theorem frameComplete_steady {b : Byte} : SteadyCommand (.frameComplete n b) := by
  refine ⟨_, fun _ => rfl, fun s l => State.ite_requeue Iff.rfl ?_ rfl⟩
  rw [State.requeue_link]
  split
  · exact State.frameEnds_steady _ _ _ _ _ s l
  all_goals rfl

theorem frameByteReceived_steady {b : Byte} : SteadyCommand (.frameByteReceived n b) := by
  refine ⟨_, fun _ => rfl, fun s l => State.ite_requeue Iff.rfl ?_ rfl⟩
  rw [State.requeue_link]
  split <;> rfl

theorem ackFrame_steady : SteadyCommand (.ackFrame n) := by
  refine ⟨_, fun _ => rfl, fun s l => State.ite_requeue Iff.rfl ?_ rfl⟩
  unfold State.sendAck
  rw [State.requeue_link]
  split <;> rfl

theorem replyFrame_steady : SteadyCommand (.replyFrame n) := by
  refine ⟨_, fun _ => rfl, fun s l => State.ite_requeue Iff.rfl ?_ rfl⟩
  unfold State.sendReply
  rw [State.requeue_port]
  split <;> rfl

theorem eventFrame_steady : SteadyCommand (.eventFrame n) := by
  refine ⟨_, fun _ => rfl, fun s l => State.ite_requeue Iff.rfl ?_ rfl⟩
  unfold State.sendEvent
  rw [State.requeue_port]
  split <;> rfl

/-! ## The cycles of walks and of LINK -/

theorem walkHop_steady : SteadyCommand (.walkHop n) := by
  refine ⟨_, fun _ => rfl, fun s l => ?_⟩
  rw [State.requeue_cycleOf]
  split
  · refine State.ite_requeue Iff.rfl (State.complete_requeue rfl) ?_
    rw [State.requeue_executor, State.requeue_entry]
    split
    · exact State.ite_requeue Iff.rfl (State.complete_requeue rfl) (State.complete_requeue rfl)
    · rfl
    · rfl
  · rfl

theorem readTerminal_steady : SteadyCommand (.readTerminal n) := by
  refine ⟨_, fun _ => rfl, fun s l => ?_⟩
  rw [State.requeue_atTerminal]
  split
  · split
    · exact State.complete_requeue rfl
    · rfl
  · rfl

theorem State.putHandoff_steady (n : Port) (rq : Request) (w : WaitRecord) (v : Value) :
    Steady (State.putHandoff · n rq w v) := by
  intro s l
  dsimp only
  unfold State.putHandoff
  exact State.complete_requeue rfl

theorem State.putStore_steady (n : Port) (rq : Request) (v : Value) : Steady (State.putStore · n rq v) := by
  intro s l
  dsimp only
  unfold State.putStore
  exact State.complete_requeue rfl

theorem putTerminal_steady : SteadyCommand (.putTerminal n) := by
  refine ⟨_, fun _ => rfl, fun s l => ?_⟩
  rw [State.requeue_atTerminal]
  split
  · split
    · dsimp only
      rw [State.requeue_portState, State.requeue_executor, State.requeue_entry, State.requeue_oldestWait]
      split
      · exact State.complete_requeue rfl
      · rfl
      · split
        · exact State.complete_requeue rfl
        · split
          · exact State.putHandoff_steady _ _ _ _ s l
          · exact State.putStore_steady _ _ _ s l
    · rfl
  · rfl

theorem State.takeValue_steady (n : Port) (rq : Request) (v : Value) : Steady (State.takeValue · n rq v) := by
  intro s l
  dsimp only
  unfold State.takeValue
  exact State.complete_requeue rfl

theorem State.takeWait_steady (n : Port) (rq : Request) (named : Slot) (wait : Nat) :
    Steady (State.takeWait · n rq named wait) := fun _ _ =>
  State.ite_requeue Iff.rfl (State.complete_requeue rfl)
    (State.ite_requeue Iff.rfl (State.complete_requeue rfl) (State.complete_requeue rfl))

theorem takeTerminal_steady : SteadyCommand (.takeTerminal n) := by
  refine ⟨_, fun _ => rfl, fun s l => ?_⟩
  rw [State.requeue_atTerminal]
  split
  · split
    · dsimp only
      rw [State.requeue_portState, State.requeue_executor, State.requeue_entry]
      split
      · exact State.complete_requeue rfl
      · split
        · exact State.takeValue_steady _ _ _ s l
        all_goals
          exact State.ite_requeue Iff.rfl (State.complete_requeue rfl) (State.takeWait_steady _ _ _ _ s l)
    · rfl
  · rfl

theorem checkWalkCycle_steady : SteadyCommand (.checkWalkCycle n) := by
  refine ⟨_, fun _ => rfl, fun s l => ?_⟩
  rw [State.requeue_cycleOf]
  split
  · split
    · refine State.ite_requeue Iff.rfl (State.complete_requeue rfl)
        (State.ite_requeue Iff.rfl (State.complete_requeue rfl) ?_)
      rw [State.requeue_executor, State.requeue_entry]
      split
      · exact State.ite_requeue Iff.rfl (State.complete_requeue rfl) (State.complete_requeue rfl)
      all_goals exact State.complete_requeue rfl
    · rfl
  · rfl

theorem State.postEntryEvent_steady (watchers : PerPort Bool) (kind : EventKind) (k : Slot) (v : Version)
    (value : Option Value) (cause : Cause) : Steady (State.postEntryEvent · watchers kind k v value cause) :=
  fun _ _ => rfl

theorem State.endWaitsOn_steady (k : Slot) (st : Status) (c : Option Content) (v : Option Version) :
    Steady (State.endWaitsOn · k st c v) := fun _ _ => rfl

theorem State.raiseInbound_steady (k : Slot) : Steady (State.raiseInbound · k) := fun _ _ => rfl

theorem State.dropForward_steady (c : Content) : Steady (State.dropForward · c) := by
  intro s l
  cases c <;> rfl

theorem State.commitLink_steady (n : Port) (rq : Request) (named target : Slot) :
    Steady (State.commitLink · n rq named target) := by
  intro s l
  dsimp only
  unfold State.commitLink
  exact State.complete_requeue ((State.postEntryEvent_steady _ _ _ _ _ _).of_eq
    ((State.endWaitsOn_steady _ _ _ _).of_eq ((State.raiseInbound_steady _).of_eq
      ((State.dropForward_steady _).of_eq rfl))))

theorem commitCycle_steady : SteadyCommand (.commitCycle n) := by
  refine ⟨_, fun _ => rfl, fun s l => ?_⟩
  rw [State.requeue_cycleOf]
  split
  · split
    · refine State.ite_requeue Iff.rfl (State.complete_requeue rfl) ?_
      rw [State.requeue_portState, State.requeue_entry]
      split
      · exact State.complete_requeue rfl
      · exact State.ite_requeue Iff.rfl (State.complete_requeue rfl)
          (State.ite_requeue Iff.rfl (State.complete_requeue rfl) (State.commitLink_steady _ _ _ _ s l))
    · rfl
  · rfl

/-! ## Single cycles -/

theorem State.ifAllocated_requeue {k : Slot} (h : u = t.requeue l) :
    (s.requeue l).ifAllocated n rq k u = (s.ifAllocated n rq k t).requeue l :=
  State.ite_requeue Iff.rfl h (State.complete_requeue rfl)

theorem State.clearEntry_steady (n : Port) (rq : Request) (k : Slot) : Steady (State.clearEntry · n rq k) := fun _ _ =>
  State.ite_requeue Iff.rfl (State.complete_requeue rfl)
    (State.complete_requeue ((State.postEntryEvent_steady _ _ _ _ _ _).of_eq
      ((State.dropForward_steady _).of_eq rfl)))

theorem clearCycle_steady : SteadyCommand (.clearCycle n) := by
  refine ⟨_, fun _ => rfl, fun s l => ?_⟩
  rw [State.requeue_cycleOf]
  split
  · split
    · refine State.ifAllocated_requeue ?_
      rw [State.requeue_portState, State.requeue_entry]
      split
      · exact State.complete_requeue rfl
      · exact State.clearEntry_steady _ _ _ s l
    · rfl
  · rfl

theorem State.checkpointEntry_steady (n : Port) (rq : Request) (k : Slot) :
    Steady (State.checkpointEntry · n rq k) := by
  intro s l
  dsimp only
  unfold State.checkpointEntry
  rw [State.requeue_entry]
  dsimp only
  split <;> exact State.complete_requeue rfl

theorem checkpointCycle_steady : SteadyCommand (.checkpointCycle n) := by
  refine ⟨_, fun _ => rfl, fun s l => ?_⟩
  rw [State.requeue_cycleOf]
  split
  · split
    · refine State.ifAllocated_requeue ?_
      rw [State.requeue_portState, State.requeue_entry]
      split
      · exact State.complete_requeue rfl
      · exact State.checkpointEntry_steady _ _ _ s l
    · rfl
  · rfl

theorem State.allocHead_steady (n : Port) (rq : Request) (k : Slot) (rest : List Slot) (a : Access) :
    Steady (State.allocHead · n rq k rest a) := by
  intro s l
  dsimp only
  unfold State.allocHead
  exact State.complete_requeue rfl

theorem allocCycle_steady : SteadyCommand (.allocCycle n) := by
  refine ⟨_, fun _ => rfl, fun s l => ?_⟩
  rw [State.requeue_cycleOf]
  split
  · split
    · rw [State.requeue_freeList]
      split
      · exact State.allocHead_steady _ _ _ _ _ s l
      · exact State.complete_requeue rfl
      · rfl
    · rfl
  · rfl

theorem State.retireSlot_steady (k : Slot) (ver : Version) (watchers : PerPort Bool) :
    Steady (State.retireSlot · k ver watchers) := fun _ _ => rfl

theorem State.retireEntry_steady (n : Port) (rq : Request) (k : Slot) : Steady (State.retireEntry · n rq k) := by
  intro s l
  dsimp only
  unfold State.retireEntry
  exact State.complete_requeue ((State.postEntryEvent_steady _ _ _ _ _ _).of_eq
    ((State.retireSlot_steady _ _ _).of_eq (State.ite_requeue Iff.rfl rfl rfl)))

theorem retireCycle_steady : SteadyCommand (.retireCycle n) := by
  refine ⟨_, fun _ => rfl, fun s l => ?_⟩
  rw [State.requeue_cycleOf]
  split
  · split
    · refine State.ite_requeue Iff.rfl (State.complete_requeue rfl) (State.ifAllocated_requeue ?_)
      rw [State.requeue_portState, State.requeue_entry]
      split
      · exact State.complete_requeue rfl
      · exact State.ite_requeue Iff.rfl (State.complete_requeue rfl)
          (State.ite_requeue Iff.rfl (State.complete_requeue rfl)
            (State.ite_requeue Iff.rfl (State.complete_requeue rfl) (State.retireEntry_steady _ _ _ s l)))
    · rfl
  · rfl

theorem termsCycle_steady {c : Instr} (hc : c ∈ [Instr.claimCycle n, .adoptCycle n, .setAccessCycle n]) :
    SteadyCommand c := by
  simp only [List.mem_cons, List.not_mem_nil, or_false] at hc
  rcases hc with rfl | rfl | rfl
  all_goals
    refine ⟨_, fun _ => rfl, fun s l => ?_⟩
    rw [State.requeue_cycleOf]
    split
    · split
      · refine State.ifAllocated_requeue ?_
        rw [State.requeue_portState, State.requeue_entry]
        split
        · exact State.complete_requeue rfl
        · exact State.complete_requeue rfl
        · rfl
      · rfl
    · rfl

theorem releaseCycle_steady : SteadyCommand (.releaseCycle n) := by
  refine ⟨_, fun _ => rfl, fun s l => ?_⟩
  rw [State.requeue_cycleOf]
  split
  · split
    · refine State.ifAllocated_requeue ?_
      rw [State.requeue_portState, State.requeue_entry]
      split
      · exact State.complete_requeue rfl
      · exact State.complete_requeue rfl
    · rfl
  · rfl

theorem watchingCycle_steady {c : Instr} (hc : c ∈ [Instr.watchCycle n, .unwatchCycle n]) : SteadyCommand c := by
  simp only [List.mem_cons, List.not_mem_nil, or_false] at hc
  rcases hc with rfl | rfl
  all_goals
    refine ⟨_, fun _ => rfl, fun s l => ?_⟩
    rw [State.requeue_cycleOf]
    split
    · split
      · exact State.ifAllocated_requeue (State.complete_requeue (State.ite_requeue Iff.rfl rfl rfl))
      · rfl
    · rfl

theorem maintenanceCycle_steady {c : Instr} (hc : c ∈ [Instr.inspectCycle n, .breakWaitCycle n]) :
    SteadyCommand c := by
  simp only [List.mem_cons, List.not_mem_nil, or_false] at hc
  rcases hc with rfl | rfl
  all_goals
    refine ⟨_, fun _ => rfl, fun s l => ?_⟩
    rw [State.requeue_cycleOf]
    split
    · split
      · exact State.ifAllocated_requeue (State.complete_requeue rfl)
      · rfl
    · rfl

/-! ## The Recovery Sweeper -/

theorem sweepPassStart_steady : SteadyCommand .sweepPassStart := by
  refine ⟨_, fun _ => rfl, fun s l => ?_⟩
  rw [State.requeue_sweeps]
  split
  · exact State.ite_requeue Iff.rfl (State.arbitrate_steady.of_eq (State.sweepTest_steady.of_eq rfl)) rfl
  · rfl

theorem State.applyDrop_steady (k : Slot) (e : Entry) : Steady (State.applyDrop · k e) := by
  intro s l
  have hdrop := State.dropForward_steady e.content s l
  dsimp only at hdrop ⊢
  unfold State.applyDrop
  rw [hdrop]
  exact State.ite_requeue Iff.rfl rfl rfl

theorem State.applyRestore_steady (k : Slot) (e : Entry) : Steady (State.applyRestore · k e) := by
  intro s l
  dsimp only
  unfold State.applyRestore
  dsimp only
  split
  · rfl
  · exact State.ite_requeue Iff.rfl rfl ((State.postEntryEvent_steady _ _ _ _ _ _).of_eq
      ((State.dropForward_steady _).of_eq rfl))
  · rw [State.requeue_oldestWait]
    split
    · rfl
    · exact State.ite_requeue Iff.rfl rfl ((State.postEntryEvent_steady _ _ _ _ _ _).of_eq
        ((State.dropForward_steady _).of_eq rfl))

theorem State.applyDisposition_steady (p : Port) (k : Slot) (e : Entry) :
    Steady (State.applyDisposition · p k e) := by
  intro s l
  dsimp only
  unfold State.applyDisposition
  split
  · rfl
  · rfl
  · exact (State.applyDrop_steady k e).of_eq rfl
  · exact (State.applyRestore_steady k e).of_eq rfl

theorem State.countDisposition_steady (d : Disposition) : Steady (State.countDisposition · d) := by
  intro s l
  dsimp only
  unfold State.countDisposition
  rw [State.requeue_sweeps]
  split <;> rfl

theorem State.visit_steady (p : Port) (k : Slot) : Steady (State.visit · p k) := by
  intro s l
  refine State.ite_requeue Iff.rfl rfl (State.ite_requeue Iff.rfl
    ((State.countDisposition_steady _).of_eq ((State.applyDisposition_steady p k _).of_eq ?_)) ?_)
  all_goals exact State.ite_requeue Iff.rfl rfl rfl

/-- A free value has been used (log 10). -/
theorem nextFreeValue_steady : Steady fun t => { t with freeIndex := t.freeIndex + 1 } := fun _ _ => rfl

theorem State.afterVisit_steady (k : Slot) : Steady (State.afterVisit · k) := by
  intro s l
  refine State.ite_requeue Iff.rfl (State.afterCompletion_steady.of_eq rfl) (State.afterCompletion_steady.of_eq
    (State.ite_requeue Iff.rfl (nextFreeValue_steady.of_eq ?_) ?_))
  all_goals exact State.ite_requeue Iff.rfl (State.sweepTest_steady.of_eq rfl) (State.endPass_steady.of_eq rfl)

theorem sweepVisit_steady : SteadyCommand .sweepVisit := by
  refine ⟨_, fun _ => rfl, fun s l => ?_⟩
  rw [State.requeue_sweeps]
  split
  · exact State.ite_requeue Iff.rfl ((State.afterVisit_steady _).of_eq (State.visit_steady _ _ s l)) rfl
  · rfl

/-! ## Every command -/

theorem exec_steady : ∀ c : Instr, SteadyCommand c
  | .deviceReset => ⟨_, fun _ => rfl, fun _ _ => rfl⟩
  | .resetNHigh _ => ⟨_, fun _ => rfl, fun _ _ => State.ite_requeue Iff.rfl rfl rfl⟩
  | .passCycle => passCycle_steady
  | .portResetLow n => ⟨_, fun _ => rfl, fun s l => State.ite_requeue Iff.rfl (State.lineFalls_steady n s l) rfl⟩
  | .portResetHigh n => ⟨_, fun _ => rfl, fun s l => State.ite_requeue Iff.rfl rfl (State.lineRises_steady n s l)⟩
  | .tick => tick_steady
  | .waitExpiry => ⟨_, fun _ => rfl, fun _ _ => State.ite_requeue Iff.rfl rfl rfl⟩
  | .leaseExpiry _ => leaseExpiry_steady
  | .truncatedFrame _ => truncatedFrame_steady
  | .lengthError _ _ => ⟨_, fun _ => rfl, fun _ _ => State.ite_requeue Iff.rfl rfl rfl⟩
  | .frameComplete _ _ => frameComplete_steady
  | .ackFrame _ => ackFrame_steady
  | .replyFrame _ => replyFrame_steady
  | .eventFrame _ => eventFrame_steady
  | .attach _ => attach_steady
  | .status n | .detach n => statusOrDetach_steady (n := n) (by simp)
  | .credit _ => credit_steady
  | .setEvents _ => setEvents_steady
  | .link _ => link_steady
  | .forceDetach _ => forceDetach_steady
  | .clearDirectory _ => clearDirectory_steady
  | .read n | .put n | .take n | .clear n | .checkpoint n | .watch n | .unwatch n | .alloc n | .retire n | .claim n
  | .release n | .adopt n | .setAccess n => beginning_steady (n := n) (by simp)
  | .inspect n | .breakWait n => maintenance_steady (n := n) (by simp)
  | .walkHop _ => walkHop_steady
  | .readTerminal _ => readTerminal_steady
  | .putTerminal _ => putTerminal_steady
  | .takeTerminal _ => takeTerminal_steady
  | .checkWalkCycle _ => checkWalkCycle_steady
  | .commitCycle _ => commitCycle_steady
  | .clearCycle _ => clearCycle_steady
  | .checkpointCycle _ => checkpointCycle_steady
  | .allocCycle _ => allocCycle_steady
  | .retireCycle _ => retireCycle_steady
  | .releaseCycle _ => releaseCycle_steady
  | .claimCycle n | .adoptCycle n | .setAccessCycle n => termsCycle_steady (n := n) (by simp)
  | .watchCycle n | .unwatchCycle n => watchingCycle_steady (n := n) (by simp)
  | .inspectCycle n | .breakWaitCycle n => maintenanceCycle_steady (n := n) (by simp)
  | .sweepPassStart => sweepPassStart_steady
  | .sweepVisit => sweepVisit_steady
  | .syncByteFound _ => ⟨_, fun _ => rfl, fun _ _ => State.ite_requeue Iff.rfl rfl rfl⟩
  | .frameByteReceived _ _ => frameByteReceived_steady
  | .frameSent _ => ⟨_, fun _ => rfl, fun _ _ => State.ite_requeue Iff.rfl rfl rfl⟩

end Sys2Proof.Machine

open Sys2Proof Sys2Proof.Machine

/-- Settles O1: the front of the queue decides which equation of a step holds. -/
theorem stepRunsTheFrontCommand : Obligations.StepRunsTheFrontCommand := ⟨fun _ _ _ => rfl, fun _ => rfl⟩

/-- Settles O2: what a command does is an act of the part on every state. -/
theorem everyCommandGoesOn : Obligations.EveryCommandGoesOn := fun c s =>
  have ⟨f, hexec, _⟩ := exec_steady c
  ⟨f s, hexec s⟩

/-- Settles O3: a command's act commutes with putting any queue behind it, the queue that stands there among them. -/
theorem commandsLeaveTheQueue : Obligations.CommandsLeaveTheQueue := by
  intro c s t l hst
  obtain ⟨f, hexec, hsteady⟩ := exec_steady c
  cases (hexec s).symm.trans hst
  have hown : f s = (f s).requeue s.pending := hsteady s s.pending
  exact ⟨(congrArg State.pending hown :), (hexec (s.requeue l)).trans (congrArg Host.Outcome.next (hsteady s l))⟩
end

