-- ==== Sys2Proof/Proofs/UndueCommands.lean ====
section
/-! SUPPORT. A command that is no act of the part in the state it meets changes nothing (log 2). -/

namespace Sys2Proof.Machine

variable {s : State} {n m : Port} {w : Work} {op : RequestOp} {c : Instr} {b : Byte} {strap : BitVec 3}

/-! ## Requests that are not next (R39, R161) -/

/-- A request command where the next request is not its own changes nothing. -/
theorem exec_taking_undue (hc : c ∈ takingCommands n)
    (h : ∀ rq, s.nextRequest n = some rq → rq.op.command n ≠ c) : exec c s = .next s := by
  simp only [takingCommands, List.mem_cons, List.not_mem_nil, or_false] at hc
  rcases hc with rfl | rfl | rfl | rfl | rfl | rfl | rfl | rfl | rfl | rfl | rfl | rfl | rfl | rfl | rfl | rfl | rfl |
    rfl | rfl | rfl | rfl | rfl | rfl
  all_goals
    refine congrArg Host.Outcome.next ?_
    split
    · next rq hn =>
      split
      · next hop => exact absurd (by simp [hop, RequestOp.command]) (h rq hn)
      · rfl
    · rfl

/-! ## Cycles that are not due (R25, R41, R42) -/

/-- The cycle commands due for an executor are its own. -/
theorem mem_cycleCommands_of_due (h : c ∈ dueCycles n w op) : c ∈ cycleCommands n := by
  revert h
  unfold dueCycles
  split <;> simp +contextual [cycleCommands, or_imp]

/-- WALK_HOP is due in a walk alone. -/
theorem walk_of_walkHop_due (h : Instr.walkHop n ∈ dueCycles m w op) : w = .walk := by
  revert h
  unfold dueCycles
  split <;> simp

/-- A command completes cycles of one executor. -/
theorem port_of_cycleCommands (hn : c ∈ cycleCommands n) (hm : c ∈ cycleCommands m) : m = n := by
  simp only [cycleCommands, List.mem_cons, List.not_mem_nil, or_false] at hn hm
  rcases hn with rfl | rfl | rfl | rfl | rfl | rfl | rfl | rfl | rfl | rfl | rfl | rfl | rfl | rfl | rfl | rfl |
    rfl | rfl
  all_goals simpa [eq_comm] using hm

/-- A cycle command that completes a cycle is due for the cycle in progress of its own executor. -/
theorem State.completes_own (hc : c ∈ cycleCommands n) (h : s.completes c) :
    ∃ w rq, s.inProgress = some (.executor n) ∧ (s.executor n).state = .running w ∧
      (s.executor n).current = some rq ∧ c ∈ dueCycles n w rq.op ∧ (w = .walk → (c = .walkHop n ↔
        (s.allocated (s.executor n).walkPos = false ∨
          ∃ t, (s.entry (s.executor n).walkPos).content = .forward t))) := by
  rcases h with ⟨-, -, rfl⟩ | ⟨m, w, rq, hp, hs, hcur, hmem, hhop⟩
  · simp [cycleCommands] at hc
  · obtain rfl := port_of_cycleCommands hc (mem_cycleCommands_of_due hmem)
    exact ⟨w, rq, hp, hs, hcur, hmem, hhop⟩

/-- A cycle command that completes no cycle changes nothing. -/
theorem exec_cycleCommand_undue (hc : c ∈ cycleCommands n) (h : ¬ s.completes c) : exec c s = .next s := by
  have hsplit : c = .walkHop n ∨ c ∈ [Instr.readTerminal n, .putTerminal n, .takeTerminal n] ∨
      c ∈ [Instr.checkWalkCycle n, .commitCycle n, .clearCycle n, .checkpointCycle n, .watchCycle n, .unwatchCycle n,
        .allocCycle n, .retireCycle n, .claimCycle n, .releaseCycle n, .adoptCycle n, .setAccessCycle n,
        .inspectCycle n, .breakWaitCycle n] := by
    simpa [cycleCommands, or_assoc] using hc
  rcases hsplit with rfl | hc | hc
  · exact execWalkHop_undue h
  · exact exec_terminal_undue hc h
  · exact exec_cycle_undue hc h

/-- No terminal cycle is in progress on a slot that is unallocated or a forward (R42). -/
theorem State.atTerminal_of_hop (h : s.allocated (s.executor n).walkPos = false ∨
    ∃ t, (s.entry (s.executor n).walkPos).content = .forward t) : s.atTerminal n = none := by
  refine if_neg ?_
  rintro ⟨hall, hcontent⟩
  rcases h with h | ⟨t, ht⟩
  · rw [h] at hall
    cases hall
  · rw [ht] at hcontent
    cases hcontent

theorem exec_terminal_of_hop (hc : c ∈ [Instr.readTerminal n, .putTerminal n, .takeTerminal n])
    (h : s.allocated (s.executor n).walkPos = false ∨ ∃ t, (s.entry (s.executor n).walkPos).content = .forward t) :
    exec c s = .next s := by
  have hnone := State.atTerminal_of_hop h
  simp only [List.mem_cons, List.not_mem_nil, or_false] at hc
  rcases hc with rfl | rfl | rfl
  all_goals
    refine congrArg Host.Outcome.next ?_
    rw [hnone]

theorem exec_walkHop_of_terminal (hall : s.allocated (s.executor n).walkPos = true)
    (hcontent : ∀ t, (s.entry (s.executor n).walkPos).content ≠ .forward t) : exec (.walkHop n) s = .next s := by
  refine execWalkHop_undue fun h => ?_
  obtain ⟨w, rq, -, -, -, hmem, hhop⟩ := State.completes_own (n := n) (by simp [cycleCommands]) h
  rcases (hhop (walk_of_walkHop_due hmem)).1 rfl with hun | ⟨t, ht⟩
  · rw [hall] at hun
    cases hun
  · exact hcontent t ht

theorem exec_sweepVisit_of_none (h : s.inProgress ≠ some .sweeper ∨ s.sweeps = []) :
    exec .sweepVisit s = .next s := by
  refine execSweepVisit_undue ?_
  rintro (⟨hp, hne, -⟩ | ⟨m, w, rq, -, -, -, hmem, -⟩)
  · exact h.elim (fun hnot => hnot hp) hne
  · simpa [cycleCommands] using mem_cycleCommands_of_due hmem

theorem exec_sweepPassStart_undue (h : s.sweeps = [] ∨ s.device ≠ .ready ∨ s.sweepVisit = true) :
    exec .sweepPassStart s = .next s := by
  refine congrArg Host.Outcome.next ?_
  split
  · next r rest hr =>
    refine if_neg ?_
    rintro ⟨hready, hvisit, -⟩
    rcases h with h | h | h
    · rw [hr] at h
      cases h
    · exact h hready
    · rw [hvisit] at h
      cases h
  · rfl

theorem undueCyclesChangeNothing : Claims.UndueCyclesChangeNothing := by
  intro s n
  refine ⟨fun c hc h => exec_taking_undue hc h, fun h c hc => exec_cycleCommand_undue hc fun hcomp => ?none,
    fun w rq hs hcur c hc hnot => exec_cycleCommand_undue hc fun hcomp => ?another,
    fun h c hc => exec_terminal_of_hop hc h, exec_walkHop_of_terminal, exec_sweepVisit_of_none,
    exec_sweepPassStart_undue⟩
  case none =>
    obtain ⟨w, rq, hp, hs, hcur, -, -⟩ := State.completes_own hc hcomp
    rcases h with h | h | h
    · exact h hp
    · exact h w hs
    · rw [hcur] at h
      cases h
  case another =>
    obtain ⟨w', rq', -, hs', hcur', hmem, -⟩ := State.completes_own hc hcomp
    cases hs.symm.trans hs'
    cases hcur.symm.trans hcur'
    exact hnot hmem

/-! ## The reset lines, the passes and the Time Base -/

theorem exec_resetNHigh_of_running (h : s.held = false) : exec (.resetNHigh strap) s = .next s :=
  congrArg Host.Outcome.next (if_neg (by simp [h]))

theorem exec_passCycle_undue (h : s.held = true ∨ s.device = .ready) : exec .passCycle s = .next s := by
  refine congrArg Host.Outcome.next (if_neg ?_)
  rintro ⟨hheld, hready⟩
  rcases h with h | h
  · rw [hheld] at h
    cases h
  · exact hready h

theorem exec_portResetLow_of_low (h : (s.link n).lineHigh = false) : exec (.portResetLow n) s = .next s :=
  congrArg Host.Outcome.next (if_neg (by simp [h]))

theorem exec_portResetHigh_of_high (h : (s.link n).lineHigh = true) : exec (.portResetHigh n) s = .next s :=
  congrArg Host.Outcome.next (if_pos h)

theorem exec_waitExpiry_of_no_tick (h : s.waitDue = 0) : exec .waitExpiry s = .next s :=
  congrArg Host.Outcome.next (if_pos h)

theorem exec_leaseExpiry_of_no_tick (h : (s.port n).leaseDue = 0) : exec (.leaseExpiry n) s = .next s :=
  congrArg Host.Outcome.next (if_pos h)

theorem exec_truncatedFrame_of_no_tick (h : (s.link n).framerDue = 0) : exec (.truncatedFrame n) s = .next s :=
  congrArg Host.Outcome.next (if_pos h)

/-! ## The receive framer (R157) -/

/-- A port held in reset takes no bits (R155). -/
theorem State.listens_of_reset (h : s.held = true ∨ (s.link n).lineHigh = false) : s.listens n = false := by
  rcases h with h | h <;> simp [State.listens, h]

/-- A port that takes no bits receives nothing. -/
theorem exec_receiving_of_deaf (h : s.listens n = false)
    (hc : c ∈ [Instr.syncByteFound n, .frameByteReceived n b, .lengthError n b, .frameComplete n b]) :
    exec c s = .next s := by
  simp only [List.mem_cons, List.not_mem_nil, or_false] at hc
  rcases hc with rfl | rfl | rfl | rfl
  all_goals exact congrArg Host.Outcome.next (if_neg (by simp [h]))

theorem exec_syncByteFound_undue (h : (s.link n).framer ≠ .hunt) : exec (.syncByteFound n) s = .next s :=
  congrArg Host.Outcome.next (if_neg fun hc => h hc.2)

/-- A byte that the framer does not move on by changes nothing as FRAME_BYTE_RECEIVED. -/
theorem exec_frameByteReceived_of_none (h : (s.link n).framer.next b = none) :
    exec (.frameByteReceived n b) s = .next s := by
  refine congrArg Host.Outcome.next ?_
  rw [h]
  exact ite_self s

theorem Framer.next_eq_none {f : Framer} (h : f = .hunt ∨ (f = .length ∧ (b.toNat < 2 ∨ 15 < b.toNat)) ∨
    ∃ len body high, f = .check len body (some high)) : f.next b = none := by
  rcases h with rfl | ⟨rfl, hb⟩ | ⟨len, body, high, rfl⟩
  · rfl
  · refine if_neg fun hok => ?_
    have := lengthByteOk_iff.1 hok
    omega
  · rfl

theorem exec_lengthError_undue (h : (s.link n).framer ≠ .length ∨ (2 ≤ b.toNat ∧ b.toNat ≤ 15)) :
    exec (.lengthError n b) s = .next s := by
  refine congrArg Host.Outcome.next (if_neg ?_)
  rintro ⟨-, hf, hb⟩
  rcases h with h | h
  · exact h hf
  · rw [lengthByteOk_iff.2 h] at hb
    cases hb

theorem exec_frameComplete_undue (h : ∀ len body high, (s.link n).framer ≠ .check len body (some high)) :
    exec (.frameComplete n b) s = .next s := by
  refine congrArg Host.Outcome.next ?_
  split
  · split
    · next len body high hf => exact absurd hf (h len body high)
    all_goals rfl
  · rfl

/-! ## The transmit scheduler (R163) -/

/-- A port that takes no frame sends none. -/
theorem exec_sending_of_busy (h : s.canSend n = false)
    (hc : c ∈ [Instr.ackFrame n, .replyFrame n, .eventFrame n]) : exec c s = .next s := by
  simp only [List.mem_cons, List.not_mem_nil, or_false] at hc
  rcases hc with rfl | rfl | rfl
  · exact execAckFrame_of_busy h
  · exact execReplyFrame_of_waiting (.inl h)
  · exact execEventFrame_of_waiting (.inl h)

theorem State.canSend_of_reset (h : s.held = true ∨ (s.link n).lineHigh = false) : s.canSend n = false := by
  rcases h with h | h <;> simp [State.canSend, h]

theorem State.canSend_of_midByte (h : (s.link n).bits.sent ≠ 0) : s.canSend n = false := by
  simp [State.canSend, PortLink.atBoundary, h]

theorem exec_ackFrame_of_none (h : (s.link n).ackBuffer = []) : exec (.ackFrame n) s = .next s := by
  have hsend : s.sendAck n = s := by rw [State.sendAck, h]
  refine congrArg Host.Outcome.next ?_
  rw [hsend]
  exact ite_self s

theorem exec_replyFrame_of_none (h : (s.port n).replyQueue = []) : exec (.replyFrame n) s = .next s := by
  have hsend : s.sendReply n = s := by rw [State.sendReply, h]
  refine congrArg Host.Outcome.next ?_
  rw [hsend]
  exact ite_self s

theorem exec_eventFrame_of_none (h : (s.port n).eventQueue = []) : exec (.eventFrame n) s = .next s := by
  have hsend : s.sendEvent n = s := by rw [State.sendEvent, h]
  refine congrArg Host.Outcome.next ?_
  rw [hsend]
  exact ite_self s

theorem exec_frameSent_of_free (h : (s.link n).line = none) : exec (.frameSent n) s = .next s := by
  have hlink : s.setLink n { s.link n with line := none } = s := by
    rw [← h]
    exact State.setLink_self s n
  refine congrArg Host.Outcome.next ?_
  rw [hlink]
  exact ite_self s

theorem exec_frameSent_of_midByte (h : (s.link n).bits.sent ≠ 0) : exec (.frameSent n) s = .next s :=
  congrArg Host.Outcome.next (if_neg (by simp [PortLink.atBoundary, h]))

theorem undueActsChangeNothing : Claims.UndueActsChangeNothing := by
  intro s n b strap
  refine ⟨exec_resetNHigh_of_running, exec_passCycle_undue, exec_portResetLow_of_low, exec_portResetHigh_of_high,
    exec_waitExpiry_of_no_tick, exec_leaseExpiry_of_no_tick, exec_truncatedFrame_of_no_tick, fun h c hc => ?inReset,
    exec_syncByteFound_undue, fun h => exec_frameByteReceived_of_none (Framer.next_eq_none h), exec_lengthError_undue,
    exec_frameComplete_undue, exec_ackFrame_of_none, exec_replyFrame_of_none, exec_eventFrame_of_none,
    exec_frameSent_of_free, fun h c hc => ?midByte⟩
  case inReset =>
    have hside : c ∈ [Instr.syncByteFound n, .frameByteReceived n b, .lengthError n b, .frameComplete n b] ∨
        c ∈ [Instr.ackFrame n, .replyFrame n, .eventFrame n] := List.mem_append.1 hc
    exact hside.elim (exec_receiving_of_deaf (State.listens_of_reset h))
      (exec_sending_of_busy (State.canSend_of_reset h))
  case midByte =>
    have hside : c ∈ [Instr.ackFrame n, .replyFrame n, .eventFrame n] ∨ c ∈ [Instr.frameSent n] :=
      List.mem_append.1 hc
    refine hside.elim (exec_sending_of_busy (State.canSend_of_midByte h)) fun hsent => ?_
    rw [List.mem_singleton.1 hsent]
    exact exec_frameSent_of_midByte h

end Sys2Proof.Machine

open Sys2Proof Sys2Proof.Machine

/-- Settles O4: an act is guarded by the state that brings it, and where the guard fails the state stands. -/
theorem undueCommandsChangeNothing : Obligations.UndueCommandsChangeNothing :=
  ⟨undueCyclesChangeNothing, undueActsChangeNothing⟩
end
